-- ==== Sys2Proof/Word.lean ====
section
/-! DEFINITION. The word types of the JL420: bytes of the air and of the configuration memory, 16-bit identities and
check values, and ticks of the local clock (spec/00_scope.md, Conventions). -/

namespace Sys2Proof

/-- A byte, as characters of the modem link and bytes of the configuration memory carry it. -/
abbrev Byte := BitVec 8

/-- A 16-bit word: station identities, sequences, the maintenance key, the body check, the random generator. -/
abbrev Word16 := BitVec 16

/-- The local clock's unsigned 32-bit count of ticks of 1/8 s (R74). -/
abbrev Tick := BitVec 32

end Sys2Proof
end

