-- ==== Sys2Proof/Syntax.lean ====
section
/-! DEFINITION. The commands of the JL420: one constructor for each row of spec/opcode_table.json, in the table's order.
A row's own data is its operand: the character that arrives, the record that was read, the temperature answered, the
levels the inputs have. The table gives no row any bits (notes/assumptions/2.md). -/

namespace Sys2Proof

/-- The levels of the level inputs at the application of power (Table 10-7). True is asserted. -/
structure Pins where
  reset : Bool
  low : Bool
  cd : Bool
  droop : Bool
  pfault : Bool
deriving DecidableEq, Repr

/-- The four bytes that an addressing attempt sends and the memory must ACK (R197). -/
inductive AddressByte where
  /-- The address byte of 0x51 for write. -/
  | addressWrite
  /-- The word address, most significant byte. -/
  | wordHigh
  | wordLow
  /-- The address byte of 0x51 for read. -/
  | addressRead
deriving DecidableEq, Repr, Inhabited

/-- How the memory met the last addressing attempt of a load: a NACK of one of its bytes, or ACKs and the bytes read (R197,
R198). -/
inductive MemoryAnswer where
  | nack (byte : AddressByte)
  | read (record : List Byte)
deriving DecidableEq, Repr

/-- The timers of the channel access unit whose end can assert TXEN (R26, R30, R33). -/
inductive TimerEnd where
  | quiet
  | contention
deriving DecidableEq, Repr

/-- How a character ends: whether its stop bit was sampled low (R1), and the end of a timer that falls at the same instant and is
taken before the character is. The order within the instant matters where that end asserts TXEN (R208, notes/assumptions/41.md). -/
structure CharacterEnd where
  error : Bool
  behind : Option TimerEnd
deriving DecidableEq, Repr

/-- The commands, one for each step of the part. -/
inductive Instr where
  /-- POWER_ON. `levels` are the inputs' levels; `sdaLow` is how many samples of the bus free check find SDA low
  before one finds it high (R196), used when the load begins at once. -/
  | powerOn (levels : Pins) (sdaLow : Nat)
  | resetAssert
  /-- RESET_RELEASE, with the SDA samples of the bus free check it begins (R196). -/
  | resetRelease (sdaLow : Nat)
  /-- LOAD_RETRY_WAIT_END: the attempt in progress met a NACK and what follows it is over (R197). Which byte met it is a free
  value (notes/assumptions/44.md). -/
  | loadRetryWaitEnd
  /-- LOAD_END, with the memory's answer to the last attempt (R197, R198), which nothing reads when none was made. -/
  | loadEnd (answer : MemoryAnswer)
  | fillPeriodEnd
  | tick
  | seenEntryAgeOut
  | relayLifetimeExpiry
  | tableSweep
  | wallReferenceExpiry
  | listenPeriodEnd
  | listenWindowOff
  | characterReceived (ch : Byte) (how : CharacterEnd)
  | syncGapTimeout
  | interCharacterGapTimeout
  | cdAssert
  | cdDeassert
  | frameDispatch
  | statusRequest
  | tableRequest
  | clearRequest
  | refreshRequest
  | unknownRequestCode
  | relayDue
  | quietTimerExpiry
  | contentionDelayEnd
  | transmissionEnd
  | harvestPulse
  /-- LOW_ASSERT: `stays` is the level LOW has once the assertion is taken; on a LOW that stands, `stays` false is its release, for
  which the table has no row (notes/assumptions/4.md). -/
  | lowAssert (stays : Bool)
  | compositionPeriodEnd
  | passCompletion
  /-- TEMPERATURE_ANSWER: the panel's temperature in whole degrees Celsius (R132). -/
  | temperatureAnswer (degrees : Int)
  | temperatureNoAnswer
  | driveFrameEnd
  | deadGapEnd
  | refreshCompletion
  /-- PFAULT_ASSERT: `stays` is the level PFAULT has once the assertion is taken (notes/assumptions/4.md). -/
  | pfaultAssert (stays : Bool)
  | droopAssert
  | droopRelease
  | lockoutEnd
  | retryTimerExpiry
  | fullClearIntervalExpiry
deriving DecidableEq, Repr

end Sys2Proof
end

