-- ==== Sys2Proof/Decode.lean ====
section
/-! DEFINITION. The commands a word can spell. spec/opcode_table.json gives bits for no row (its "fields" are empty and
it has no match or mask), so no word spells a command (notes/assumptions/2.md). -/

namespace Sys2Proof

/-- The command that a word spells by the table's bits: the table gives no row any, so there is none. -/
def decodeTableWord (_nbits _w : Nat) : Option Instr := none

end Sys2Proof
end

