-- ==== Sys2Proof/Content.lean ====
section
/-! DEFINITION. What a row of the panel can carry: the row content record of Table 5-1 and the banner messages of R96. -/

namespace Sys2Proof

/-- A departure's key, the triple (route, direction, trip). `dir` is true for direction 1. -/
structure Key where
  route : Nat
  dir : Bool
  trip : Nat
deriving DecidableEq, Repr

/-- The value of a row content record (Table 5-1). -/
inductive Value where
  | minutes (m : Nat)
  | due
  | clock (hh mm : Nat)
  | later
  | cancelled
  | empty
deriving DecidableEq, Repr

/-- A departure row's content record (Table 5-1, R95). -/
structure RowContent where
  key : Option Key
  label : Option (List Byte)
  dest : Option (List Byte)
  bay : Option Nat
  value : Value
  live : Bool
  note : Bool
deriving DecidableEq, Repr

/-- The banner row's messages (R96). -/
inductive Banner where
  | notConfigured
  | outOfDate
  | noService
  | noLive
  | blank
deriving DecidableEq, Repr

/-- A record of a row: a departure row's content or the banner row's message. -/
inductive RowRecord where
  | departure (c : RowContent)
  | banner (m : Banner)
deriving DecidableEq, Repr

end Sys2Proof
end

