-- ==== Sys2Proof/Config.lean ====
section
/-! DEFINITION. What lies outside the part and has no value in the manual: the rendering of a row content record into pixels
(R138 says only that equal records render equally and that a blank row renders all white; notes/assumptions/1.md), and the byte
at which the memory refuses an addressing attempt (R197; notes/assumptions/44.md). The constants are free: they have no body, so
nothing can be proved of their values. -/

namespace Sys2Proof.Config

/-- The number of pixels of one panel row. The panel's electronics are outside the manual. -/
opaque rowPixels : Nat

/-- Whether a pixel of a record that is not blank renders black (R138). -/
opaque ink : RowRecord → Nat → Bool

/-- Which byte meets a NACK, by the number of NACKs before it (R197). -/
opaque nackedByte : Nat → AddressByte

end Sys2Proof.Config
end

