-- ==== Sys2Proof/Machine/State.lean ====
section
/-! DEFINITION. The state of the JL420 as plain data: every item its twelve blocks hold (Table 0-1 and the state tables of
each chapter), its level inputs, the start-up control, and the queue of waiting commands. `State.reset` is the part just
after the application of power with every input deasserted (R193). -/

namespace Sys2Proof.Machine

/-- Reasons a step stops with a fault. There is none: the manual gives every command of the table an effect, and an event
that the state cannot have changes nothing (notes/assumptions/3.md). Safe. -/
inductive Fault
deriving DecidableEq, Repr

/-- Reasons a command is refused. -/
inductive Refusal where
  /-- Raised by `exec` for a command without a meaning. No arm of `exec` raises it. Safe. -/
  | notModelled (mnemonic : String)
deriving DecidableEq, Repr

/-! ### Energy stages, start-up and the configuration -/

/-- The energy stages (R180). -/
inductive Stage where
  | full
  | thrift
  | scant
  | frozen
deriving DecidableEq, Repr

/-- The freeze states (Table 9-7). -/
inductive FreezeState where
  | none
  | pending
  | drawn
  | skipped
deriving DecidableEq, Repr

/-- The start-up states (Table 10-1). -/
inductive StartupState where
  | inReset
  | loading
  | fill
  | service
deriving DecidableEq, Repr

/-- What kind of start the current start-up belongs to (R192). -/
inductive StartKind where
  | powerOn
  | line
deriving DecidableEq, Repr

/-- The start-up control: its two items (R192), the state it had at the last assertion of RESET, which the release reads,
and the fill period timer in ticks remaining (R203 to R205). -/
structure Startup where
  state : StartupState
  kind : StartKind
  before : StartupState
  fillTimer : Option Nat
deriving DecidableEq, Repr

/-- Where the configuration load stands (R196 to R199). -/
inductive LoadPhase where
  /-- No load has begun, or RESET stopped it (R199). -/
  | stopped
  /-- Addressing attempt `attempt` (1..4) is in progress; the read follows when it is ACKed (R197, R198). -/
  | addressing (attempt : Nat)
  /-- The fourth attempt met a NACK (R197). -/
  | noMemory
  /-- SDA was still low after the ninth pulse (R196). -/
  | busStuck
  /-- The load has ended (R203). -/
  | ended
deriving DecidableEq, Repr

/-- A load's outcome (R196, R197, R200). -/
inductive LoadOutcome where
  | valid
  | invalid
  | noMemory
  | busStuck
deriving DecidableEq, Repr

/-- A step of the two-wire bus (R196 to R198): what the part puts on it, and the acknowledge bit of each byte. -/
inductive BusEvent where
  /-- A clock pulse with SDA released, of the bus free check. -/
  | pulse
  | start
  | repeatedStart
  | stop
  /-- The address byte of a 7-bit address, for read or for write, and the memory's ACK. -/
  | address (device : BitVec 7) (forRead ack : Bool)
  /-- A byte of the word address, and the memory's ACK. -/
  | word (value : Byte) (ack : Bool)
  /-- A byte read from the memory, and the part's ACK. -/
  | data (value : Byte) (ack : Bool)
deriving DecidableEq, Repr

/-- The configuration loader: the load in progress, the clock pulses its bus free check sent (R196), the outcome of the last
load that ended, and the course of the two-wire bus in the last load begun, oldest first. What an attempt sends stands there
once its outcome is known (notes/assumptions/26.md). `nacks` is the model's own: the number of NACKed attempts that
LOAD_RETRY_WAIT_END has taken, to which the free value of the byte that met the NACK is applied (notes/assumptions/44.md). -/
structure Loader where
  phase : LoadPhase
  pulses : Nat
  outcome : Option LoadOutcome
  bus : List BusEvent
  nacks : Nat
deriving DecidableEq, Repr

/-- A route record of the configuration (Table 10-4), its texts resolved. -/
structure RouteRecord where
  code : Nat
  serves0 : Bool
  serves1 : Bool
  label : List Byte
  text0 : List Byte
  text1 : List Byte
deriving DecidableEq, Repr

/-- A configuration (Tables 10-3 and 10-5). `configured` is false for the defaults of an unconfigured part (R202). -/
structure Cfg where
  configured : Bool
  ownId : Word16
  networkKey : Byte
  maintenanceKey : Word16
  n : Nat
  period : Nat
  riseThreshold : Nat
  suppression : Nat
  partialLimit : Nat
  clearHours : Nat
  capacity : Nat
  t1 : Nat
  t2 : Nat
  t3 : Nat
  h : Nat
  routes : List RouteRecord
deriving DecidableEq, Repr

/-- The defaults of an unconfigured part (Table 10-5, R202). -/
def Cfg.defaults : Cfg where
  configured := false
  ownId := 0xFFFE
  networkKey := 0x5A
  maintenanceKey := 0x0000
  n := 6
  period := 15
  riseThreshold := 2
  suppression := 2
  partialLimit := 16
  clearHours := 6
  capacity := 4000000
  t1 := 1200000
  t2 := 400000
  t3 := 60000
  h := 40000
  routes := []

/-! ### Air receiver -/

/-- The receiver states (Table 1-3). -/
inductive RxState where
  | off
  | listen
  | receiving
  | transmitting
deriving DecidableEq, Repr

/-- The two receive buffers (R17). -/
inductive BufId where
  | a
  | b
deriving DecidableEq, Repr

/-- A taken receive buffer: the frame's characters from the length byte on (R3), and its reception-end tick once the
frame has ended (R5). -/
structure RxBuffer where
  bytes : List Byte
  endTick : Option Tick
deriving DecidableEq, Repr

/-- Where the characters of the frame in reception go: a buffer, or nowhere for an overrun frame (R3). -/
inductive RxTarget where
  | buffer (id : BufId)
  | overrun
deriving DecidableEq, Repr

/-- What the receiver is taking in RECEIVING (R3 to R5). -/
inductive Reception where
  | none
  /-- The second sync byte has arrived and the length byte has not. -/
  | length (target : RxTarget)
  /-- `left` characters of the frame are still expected. -/
  | body (target : RxTarget) (left : Nat)
  /-- `left` characters are still to be skipped after a length failure. -/
  | skip (left : Nat)
deriving DecidableEq, Repr

/-- The listening-window generator (R14): whether it runs, the tick its period began, that period's pattern, and whether
the window is on. -/
structure Window where
  running : Bool
  start : Tick
  pattern : Stage
  on : Bool
deriving DecidableEq, Repr

/-- The air receiver (chapter 1). `accepted` names the buffers that hold accepted frames not yet dispatched, in the order
of their end events (R17, R23). -/
structure Receiver where
  state : RxState
  firstSync : Bool
  reception : Reception
  charError : Bool
  bufA : Option RxBuffer
  bufB : Option RxBuffer
  accepted : List BufId
  window : Window
deriving DecidableEq, Repr

/-! ### Channel access, seen table and relay queue -/

/-- The quiet timer (R26), with the remaining time in milliseconds it was loaded with. -/
inductive QuietTimer where
  | expired
  | running (ms : Nat)
deriving DecidableEq, Repr

/-- A candidate of the transmit arbiter (R28): the oldest reply, or the relay of a seen key. -/
inductive Candidate where
  | reply
  | relay (origin seq : Word16)
deriving DecidableEq, Repr

/-- The channel access unit (Table 2-1). CONTENDING holds its candidate and its contention delay in milliseconds; SENDING
holds the frame on the air and, for a relay, that it is one (R48). -/
inductive CauState where
  | idle
  | sensing
  | contending (candidate : Candidate) (delayMs : Nat)
  | sending (frame : List Byte) (relay : Bool)
deriving DecidableEq, Repr

/-- The states of a seen entry (Table 2-3). -/
inductive SeenState where
  | heard
  | waiting
  | relayed
  | suppressed
  | abandoned
  | damaged
deriving DecidableEq, Repr

/-- A seen table entry (R36). Its relay slot is the relay queue's entry of the same key, present exactly in WAITING (R41). -/
structure SeenEntry where
  origin : Word16
  seq : Word16
  state : SeenState
  copies : Nat
  firstHeard : Tick
  dispatchPending : Bool
deriving DecidableEq, Repr

/-- A relay queue entry (R41). (`origin`, `seq`) names its seen entry; `frame` is the whole frame as received, from the
first sync byte to the body check. -/
structure RelayEntry where
  origin : Word16
  seq : Word16
  frame : List Byte
  holdStart : Tick
  due : Tick
  deferrals : Nat
deriving DecidableEq, Repr

/-! ### Departure table and local time -/

/-- The notes of a departure: a set of three flags (Table 3-1). -/
structure Notes where
  lastTrip : Bool
  stepFree : Bool
  shortWorking : Bool
deriving DecidableEq, Repr

/-- What set a departure entry (Table 3-1). -/
inductive Source where
  | scheduled
  | live
deriving DecidableEq, Repr

/-- Whether a departure runs (Table 3-1). -/
inductive EntryState where
  | active
  | cancelled
deriving DecidableEq, Repr

/-- A departure entry (Table 3-1). -/
structure DepEntry where
  key : Key
  source : Source
  state : EntryState
  d : Tick
  lastReport : Tick
  repOrigin : Word16
  repSeq : Word16
  bay : Option Nat
  notes : Option Notes
  stale : Bool
  shownRow : Option Nat
deriving DecidableEq, Repr

/-- A present wall reference (R82). -/
structure WallRef where
  wallRef : Nat
  refTick : Tick
deriving DecidableEq, Repr

/-- The table lock (R70). -/
inductive Lock where
  | free
  | held
deriving DecidableEq, Repr

/-! ### Row composer and redraw request controller -/

/-- The row composer's states (Table 5-2). -/
inductive ComposerState where
  | suspended
  | idle
  | passing
deriving DecidableEq, Repr

/-- The pass in progress (R103): its evaluation tick, its stage, the wall reference as it stood at that tick (R93), and
whether its completion requests an ORDINARY panel clear (R106). -/
structure Pass where
  evalTick : Tick
  stage : Stage
  wall : Option WallRef
  clear : Bool
deriving DecidableEq, Repr

/-- The row composer (R99). `clearArmed` says that the next pass to start requests an ORDINARY panel clear at its
completion (R106, R115); `wallSignal` that the wall reference was set since the lock's release began (R102). -/
structure Composer where
  state : ComposerState
  recompose : Bool
  nextPass : Option Tick
  passDue : Bool
  pass : Option Pass
  clearArmed : Bool
  wallSignal : Bool
deriving DecidableEq, Repr

/-- One row of the panel: its three records (R97), its flags (Table 6-1) and its partial counter (R128). The banner row
has no mask: its `mask` is never set (R119). -/
structure Row where
  desired : RowRecord
  shown : Option RowRecord
  drawing : Option RowRecord
  pending : Bool
  inService : Bool
  mask : Bool
  partialCount : Nat
deriving DecidableEq, Repr

/-- The variants of a panel clear (R114). -/
inductive ClearKind where
  | ordinary
  | freeze
deriving DecidableEq, Repr

/-- The redraw request controller's states (Table 6-2). -/
inductive CtlState where
  | opened
  | granted
  | held
deriving DecidableEq, Repr

/-- The redraw request controller (Table 6-1). `grantPointer` is the rotation pointer before the grant in force, to which
a refusal returns it (R120, R125). The timers hold ticks remaining. -/
structure Controller where
  state : CtlState
  clearItem : Option ClearKind
  pointer : Nat
  grantPointer : Nat
  retry : Option Nat
  interval : Option Nat
deriving DecidableEq, Repr

/-! ### Panel drive engine and drive fault monitor -/

/-- The drive engine's states (Table 7-1). -/
inductive EngineState where
  | idle
  | prepare
  | drive
  | settle
  | lockout
deriving DecidableEq, Repr

/-- A refresh: of one row, or a panel clear of either variant (Table 7-2). -/
inductive Refresh where
  | row (r : Nat)
  | clear (kind : ClearKind)
deriving DecidableEq, Repr

/-- The temperature bands (Table 7-3). -/
inductive Band where
  | noDriveCold
  | b0
  | b1
  | b2
  | b3
  | b4
  | b5
  | noDriveHot
deriving DecidableEq, Repr

/-- The two waveforms. -/
inductive Waveform where
  | full
  | partialWave
deriving DecidableEq, Repr

/-- The phases of Tables 7-4 and 7-5. -/
inductive Phase where
  | invert
  | black
  | white
  | write
  | reinforce
  | rest
deriving DecidableEq, Repr

/-- The phase position (R143): the phase, the frame within it from 1, the row whose period is in progress, and whether a
dead gap before that frame is running. -/
structure Position where
  phase : Phase
  frame : Nat
  row : Nat
  gap : Bool
deriving DecidableEq, Repr

/-- The frame clock (R141, R142). -/
inductive FrameClock where
  | stopped
  | running
  | held
deriving DecidableEq, Repr

/-- The panel bus outputs: all grounded with no row selected, or driving one row at a phase's levels (R129, R138). -/
inductive BusOut where
  | grounded
  | driving (row : Nat) (phase : Phase)
deriving DecidableEq, Repr

/-- A temperature reading: degrees, the tick it was taken, and whether the engine holds it as old (R131). -/
structure Reading where
  degrees : Int
  tick : Tick
  old : Bool
deriving DecidableEq, Repr

/-- The panel drive engine (Table 7-2). The partial counters stand in the rows. -/
structure Engine where
  state : EngineState
  refresh : Option Refresh
  reading : Option Reading
  lastBand : Option Band
  band : Option Band
  waveform : Option Waveform
  cost : Option Nat
  position : Option Position
  counts : Option (Nat × Nat)
  frameClock : FrameClock
  bus : BusOut
deriving DecidableEq, Repr

/-- The causes of an abort (Table 8-2). -/
inductive FaultCause where
  | none
  | pfault
  | droop
  | noAnswer
deriving DecidableEq, Repr

/-- The fault record (Table 8-2). `row` is absent for 0xFF; `place` is absent for phase code 0. -/
structure FaultRecord where
  cause : FaultCause
  droopSeen : Bool
  row : Option Nat
  place : Option (Waveform × Phase)
  frame : Nat
deriving DecidableEq, Repr

/-- The drive fault monitor (Table 8-1). The lockout timer holds ticks remaining. -/
structure Monitor where
  record : FaultRecord
  aborts : Nat
  lockout : Option Nat
deriving DecidableEq, Repr

/-! ### Energy account and maintenance responder -/

/-- The energy account (Table 9-1). `running` is false in NOT STARTED. -/
structure Account where
  running : Bool
  e : Nat
  reservation : Option Nat
  stage : Stage
  freeze : FreezeState
deriving DecidableEq, Repr

/-- The twenty maintenance counters (Table 11-3), in their order. -/
structure Counters where
  rxOk : Nat
  rxLength : Nat
  rxChar : Nat
  rxShort : Nat
  rxHeader : Nat
  rxForeign : Nat
  rxDuplicate : Nat
  rxBody : Nat
  rxOverrun : Nat
  rxSkipped : Nat
  relaySent : Nat
  relaySuppressed : Nat
  relayAbandoned : Nat
  tableApplied : Nat
  tableIgnored : Nat
  tableEvicted : Nat
  tableRefused : Nat
  drawDone : Nat
  drawAborted : Nat
  lowEvents : Nat
deriving DecidableEq, Repr

/-- Every counter 0 (R213). -/
def Counters.zero : Counters := ⟨0, 0, 0, 0, 0, 0, 0, 0, 0, 0, 0, 0, 0, 0, 0, 0, 0, 0, 0, 0⟩

/-- A reply queue entry (R208): the reply frame, complete from the first sync byte, and its deferral count. -/
structure Reply where
  frame : List Byte
  deferrals : Nat
deriving DecidableEq, Repr

/-- The maintenance responder (chapter 11): the reply queue, oldest first, the reply sequence counter, the counters. -/
structure Maint where
  replies : List Reply
  seq : Word16
  counters : Counters
deriving DecidableEq, Repr

/-! ### The whole state -/

/-- The JL420. Each field is owned by the block the manual names; `pending` is the queue of commands that wait, first in,
first out. -/
structure State where
  clock : Tick
  wall : Option WallRef
  pins : Pins
  startup : Startup
  loader : Loader
  cfg : Cfg
  cfgInForce : Bool
  rx : Receiver
  rng : Word16
  quiet : QuietTimer
  cau : CauState
  seen : List SeenEntry
  relayQ : List RelayEntry
  table : List DepEntry
  lock : Lock
  sweepWaiting : Bool
  composer : Composer
  rows : List Row
  ctl : Controller
  engine : Engine
  monitor : Monitor
  account : Account
  maint : Maint
  pending : List Instr
deriving DecidableEq, Repr

/-! ### Values after power-on -/

/-- The EMPTY record (R95). -/
def emptyContent : RowContent where
  key := none
  label := none
  dest := none
  bay := none
  value := .empty
  live := false
  note := false

/-- The EMPTY record of a departure row. -/
def emptyRecord : RowRecord := .departure emptyContent

/-- A row as power-on leaves it (R98, R127, R153). -/
def Row.initial (desired : RowRecord) : Row where
  desired := desired
  shown := none
  drawing := none
  pending := false
  inService := false
  mask := false
  partialCount := 0

/-- The rows 0..N as power-on leaves them: N departure rows and the banner row (R94, R98). -/
def Row.initialRows (n : Nat) : List Row :=
  List.replicate n (Row.initial emptyRecord) ++ [Row.initial (.banner .blank)]

/-- The receiver after either reset (R24). The stopped window generator's tick and pattern are placeholders that its
first period replaces. -/
def Receiver.initial : Receiver where
  state := .off
  firstSync := false
  reception := .none
  charError := false
  bufA := none
  bufB := none
  accepted := []
  window := ⟨false, 0, .scant, false⟩

/-- The composer after either reset (R99). -/
def Composer.initial : Composer where
  state := .suspended
  recompose := false
  nextPass := none
  passDue := false
  pass := none
  clearArmed := false
  wallSignal := false

/-- The controller after either reset, its pointer at N−1 (R127). -/
def Controller.initial (n : Nat) : Controller where
  state := .opened
  clearItem := none
  pointer := n - 1
  grantPointer := n - 1
  retry := none
  interval := none

/-- The engine after either reset (R153, R154). -/
def Engine.initial : Engine where
  state := .idle
  refresh := none
  reading := none
  lastBand := none
  band := none
  waveform := none
  cost := none
  position := none
  counts := none
  frameClock := .stopped
  bus := .grounded

/-- The monitor after power-on (R168). -/
def Monitor.initial : Monitor where
  record := ⟨.none, false, none, none, 0⟩
  aborts := 0
  lockout := none

/-- The account after power-on: NOT STARTED (R190). -/
def Account.initial : Account where
  running := false
  e := 0
  reservation := none
  stage := .scant
  freeze := .none

/-- The responder after either reset (R214). -/
def Maint.initial : Maint where
  replies := []
  seq := 0
  counters := .zero

/-- The loader while the part waits in IN_RESET after power-on: no load has begun (R193). -/
def Loader.waiting (nacks : Nat) : Loader := ⟨.stopped, 0, none, [], nacks⟩

/-- The part at the application of power with the given input levels (R192, R193). The load begins at once with RESET
deasserted, with the loader given; with RESET asserted the part waits in IN_RESET. -/
def State.poweredOn (levels : Pins) (loader : Loader) (queue : List Instr) : State where
  clock := 0
  wall := none
  pins := levels
  startup := ⟨if levels.reset then .inReset else .loading, .powerOn, .inReset, none⟩
  loader := if levels.reset then .waiting loader.nacks else loader
  cfg := .defaults
  cfgInForce := false
  rx := .initial
  rng := 0
  quiet := .expired
  cau := .idle
  seen := []
  relayQ := []
  table := []
  lock := .free
  sweepWaiting := false
  composer := .initial
  rows := Row.initialRows Cfg.defaults.n
  ctl := .initial Cfg.defaults.n
  engine := .initial
  monitor := .initial
  account := .initial
  maint := .initial
  pending := queue

/-- The machine right after reset: power applied with every input deasserted, the bus found free and the first
addressing attempt in progress (R193, R196, R197; notes/assumptions/5.md). -/
def State.reset : State :=
  State.poweredOn ⟨false, false, false, false, false⟩ ⟨.addressing 1, 0, none, [.start], 0⟩ []

end Sys2Proof.Machine
end

