-- ==== Sys2Proof/Machine/Ops.lean ====
section
/-! DEFINITION. The named operations that every block shares: tick arithmetic (R75, R76), the random generator (R25), the
two check sequences (Table 0-2), byte order, the maintenance counters (R213) and the rows' updates. -/

namespace Sys2Proof.Machine

/-! ### Local time -/

/-- The difference x − y of two ticks, modulo 2^32 and read as a signed number (R76). -/
def tickDiff (x y : Tick) : Int := (x - y).toInt

/-- A stored tick has come when it less the current tick is 0 or less (R76). -/
def hasCome (stored now : Tick) : Bool := tickDiff stored now ≤ 0

/-- A tick count divisible by 8 is a whole second boundary (R75). -/
def isBoundary (t : Tick) : Bool := t.toNat % 8 = 0

/-- One tick event of a timer that holds its ticks remaining. -/
def countDown (timer : Option Nat) : Option Nat := timer.map (· - 1)

/-- A timer has run out: it runs, with 0 ticks remaining. -/
def ranOut (timer : Option Nat) : Bool := timer = some 0

/-! ### Byte order -/

/-- Two bytes, most significant first, as one word. -/
def be16 (hi lo : Byte) : Word16 := hi ++ lo

/-- A word as two bytes, most significant first. -/
def word16Bytes (w : Word16) : List Byte := [w.extractLsb' 8 8, w.extractLsb' 0 8]

/-- A count as one byte. -/
def natByte (n : Nat) : Byte := BitVec.ofNat 8 n

/-- A count as two bytes, most significant first. -/
def nat16Bytes (n : Nat) : List Byte := word16Bytes (BitVec.ofNat 16 n)

/-- A count as four bytes, most significant first. -/
def nat32Bytes (n : Nat) : List Byte := nat16Bytes (n / 65536) ++ nat16Bytes (n % 65536)

/-- Byte `i` of a list, 0 where the list is shorter. -/
def byteAt (l : List Byte) (i : Nat) : Byte := l.getD i 0

/-- The two bytes from `i` on as one word, most significant first. -/
def wordAt (l : List Byte) (i : Nat) : Word16 := be16 (byteAt l i) (byteAt l (i + 1))

/-! ### Check sequences and the random generator -/

/-- `k` applications of `f`. -/
def repeatTimes {α : Type} (k : Nat) (f : α → α) (x : α) : α :=
  match k with
  | 0 => x
  | k + 1 => repeatTimes k f (f x)

/-- One bit of the header check, polynomial x^8 + x^2 + x + 1 (R7). -/
def crc8Bit (c : Byte) : Byte := if c.msb then (c <<< 1) ^^^ 0x07 else c <<< 1

/-- The header check over a list of bytes, initial value 0xFF (R7). -/
def headerCheck (l : List Byte) : Byte := l.foldl (fun c b => repeatTimes 8 crc8Bit (c ^^^ b)) 0xFF

/-- One bit of the body check, polynomial x^16 + x^12 + x^5 + 1 (R8). -/
def crc16Bit (c : Word16) : Word16 := if c.msb then (c <<< 1) ^^^ 0x1021 else c <<< 1

/-- The body check over a list of bytes, initial value 0xFFFF (R8). -/
def bodyCheck (l : List Byte) : Word16 := l.foldl (fun c b => repeatTimes 8 crc16Bit (c ^^^ be16 b 0)) 0xFFFF

/-- One shift of the random generator: stage 1 takes the exclusive-OR of stages 16, 14, 13 and 11 (R25). -/
def lfsrShift (v : Word16) : Word16 :=
  (v <<< 1) ||| (BitVec.ofBool (v.getLsbD 15 ^^ v.getLsbD 13 ^^ v.getLsbD 12 ^^ v.getLsbD 10)).zeroExtend 16

/-- One draw: eight shifts (R25). -/
def lfsrDraw (v : Word16) : Word16 := repeatTimes 8 lfsrShift v

/-- The seed of an own id (R25). -/
def lfsrSeed (ownId : Word16) : Word16 := if ownId ^^^ 0xACE1 = 0 then 0xACE1 else ownId ^^^ 0xACE1

/-! ### The maintenance counters -/

/-- The names of the twenty counters (Table 11-3). -/
inductive Counter where
  | rxOk | rxLength | rxChar | rxShort | rxHeader | rxForeign | rxDuplicate | rxBody | rxOverrun | rxSkipped
  | relaySent | relaySuppressed | relayAbandoned | tableApplied | tableIgnored | tableEvicted | tableRefused
  | drawDone | drawAborted | lowEvents
deriving DecidableEq, Repr

/-- A counter rises by 1 and stays at 65535 (R213). -/
def bump (n : Nat) : Nat := if n < 65535 then n + 1 else 65535

/-- One event of a counter. -/
def countOn (k : Counter) (c : Counters) : Counters :=
  match k with
  | .rxOk => { c with rxOk := bump c.rxOk }
  | .rxLength => { c with rxLength := bump c.rxLength }
  | .rxChar => { c with rxChar := bump c.rxChar }
  | .rxShort => { c with rxShort := bump c.rxShort }
  | .rxHeader => { c with rxHeader := bump c.rxHeader }
  | .rxForeign => { c with rxForeign := bump c.rxForeign }
  | .rxDuplicate => { c with rxDuplicate := bump c.rxDuplicate }
  | .rxBody => { c with rxBody := bump c.rxBody }
  | .rxOverrun => { c with rxOverrun := bump c.rxOverrun }
  | .rxSkipped => { c with rxSkipped := bump c.rxSkipped }
  | .relaySent => { c with relaySent := bump c.relaySent }
  | .relaySuppressed => { c with relaySuppressed := bump c.relaySuppressed }
  | .relayAbandoned => { c with relayAbandoned := bump c.relayAbandoned }
  | .tableApplied => { c with tableApplied := bump c.tableApplied }
  | .tableIgnored => { c with tableIgnored := bump c.tableIgnored }
  | .tableEvicted => { c with tableEvicted := bump c.tableEvicted }
  | .tableRefused => { c with tableRefused := bump c.tableRefused }
  | .drawDone => { c with drawDone := bump c.drawDone }
  | .drawAborted => { c with drawAborted := bump c.drawAborted }
  | .lowEvents => { c with lowEvents := bump c.lowEvents }

/-- A counter's place in Table 11-3, from 0. -/
def Counter.place : Counter → Nat
  | .rxOk => 0
  | .rxLength => 1
  | .rxChar => 2
  | .rxShort => 3
  | .rxHeader => 4
  | .rxForeign => 5
  | .rxDuplicate => 6
  | .rxBody => 7
  | .rxOverrun => 8
  | .rxSkipped => 9
  | .relaySent => 10
  | .relaySuppressed => 11
  | .relayAbandoned => 12
  | .tableApplied => 13
  | .tableIgnored => 14
  | .tableEvicted => 15
  | .tableRefused => 16
  | .drawDone => 17
  | .drawAborted => 18
  | .lowEvents => 19

/-- The counters in the order of Table 11-3. -/
def countersList (c : Counters) : List Nat :=
  [c.rxOk, c.rxLength, c.rxChar, c.rxShort, c.rxHeader, c.rxForeign, c.rxDuplicate, c.rxBody, c.rxOverrun,
   c.rxSkipped, c.relaySent, c.relaySuppressed, c.relayAbandoned, c.tableApplied, c.tableIgnored, c.tableEvicted,
   c.tableRefused, c.drawDone, c.drawAborted, c.lowEvents]

/-- Counts one event of counter `k`. -/
def State.count (k : Counter) (s : State) : State :=
  { s with maint := { s.maint with counters := countOn k s.maint.counters } }

/-- Counts `m` events of counter `k`. -/
def State.countMany (k : Counter) (m : Nat) (s : State) : State := repeatTimes m (State.count k) s

/-! ### Updates of one block's part -/

/-- Sets the receiver's state. -/
def State.setRx (st : RxState) (s : State) : State := { s with rx := { s.rx with state := st } }

/-- Sets the energy estimate. -/
def State.setEnergy (e : Nat) (s : State) : State := { s with account := { s.account with e := e } }

/-- Sets the reservation. -/
def State.setReservation (r : Option Nat) (s : State) : State :=
  { s with account := { s.account with reservation := r } }

/-- Sets the channel access unit's state. -/
def State.setCau (c : CauState) (s : State) : State := { s with cau := c }

/-- Sets the panel clear item. -/
def State.setClearItem (k : Option ClearKind) (s : State) : State :=
  { s with ctl := { s.ctl with clearItem := k } }

/-- Applies `f` to every row 0..N. -/
def State.mapRows (f : Row → Row) (s : State) : State := { s with rows := s.rows.map f }

/-- Applies `f` to row `r`. -/
def State.updateRow (r : Nat) (f : Row → Row) (s : State) : State := { s with rows := s.rows.modify r f }

/-- Applies `f` to the row or rows that a refresh draws: one row, or every row 0..N of a panel clear. -/
def State.onRefresh (x : Refresh) (f : Row → Row) (s : State) : State :=
  match x with
  | .row r => s.updateRow r f
  | .clear _ => s.mapRows f

/-- The freeze content of row `r` of a panel of N departure rows: EMPTY, or OUT_OF_DATE for the banner row (R108). -/
def freezeContent (n r : Nat) : RowRecord := if r < n then emptyRecord else .banner .outOfDate

/-- Sets the mask of every departure row 0..N−1 to `m` (R124). The banner row has no mask. -/
def State.setMasks (m : Bool) (s : State) : State :=
  { s with rows := s.rows.mapIdx (fun r row => if r < s.cfg.n then { row with mask := m } else row) }

end Sys2Proof.Machine
end

