-- ==== Sys2Proof/Machine/Operands.lean ====
section
/-! DEFINITION. What the bytes a command brings mean: the air frame and its bodies (R6 to R12), the frame that goes on
the air (R47, R207), and the configuration record (R200 to R202). -/

namespace Sys2Proof.Machine

/-! ### The air frame (Table 1-1)

A receive buffer holds a frame from its length byte on, so offset `i` of the table is byte `i - 2` of the buffer. -/

/-- A frame's fields as received (Table 1-1, R6). -/
structure Frame where
  len : Nat
  networkKey : Byte
  kind : Nat
  hop : Nat
  origin : Word16
  seq : Word16
  age : Nat
  trailCount : Nat
  subject : Word16
  trail : List Word16
  check : Byte
  body : List Byte
  bodyCheckWord : Word16
deriving DecidableEq, Repr

/-- The station ids of a trail of `t` entries that begins at byte `i`. -/
def trailFrom (l : List Byte) (i : Nat) : Nat → List Word16
  | 0 => []
  | t + 1 => wordAt l i :: trailFrom l (i + 2) t

/-- Reads a frame by the positions of Table 1-1, with t from the trail-count bits and b = L − 13 − 2t (R6). -/
def readFrame (l : List Byte) : Frame :=
  let len := (byteAt l 0).toNat
  let ageWord := wordAt l 7
  let t := (ageWord.extractLsb' 0 3).toNat
  let b := len - 13 - 2 * t
  { len := len
    networkKey := byteAt l 1
    kind := ((byteAt l 2).extractLsb' 4 4).toNat
    hop := ((byteAt l 2).extractLsb' 0 4).toNat
    origin := wordAt l 3
    seq := wordAt l 5
    age := (ageWord.extractLsb' 3 13).toNat
    trailCount := t
    subject := wordAt l 9
    trail := trailFrom l 11 t
    check := byteAt l (11 + 2 * t)
    body := (l.drop (12 + 2 * t)).take b
    bodyCheckWord := wordAt l (12 + 2 * t + b) }

/-- A frame is well placed when b is 0 or more (R6). -/
def Frame.wellPlaced (f : Frame) : Bool := 13 + 2 * f.trailCount ≤ f.len

/-- The header check of a well placed frame holds over its 11 + 2t bytes (R7). -/
def headerOk (l : List Byte) : Bool :=
  headerCheck (l.take (11 + 2 * (readFrame l).trailCount)) = (readFrame l).check

/-- The body check holds (R8). -/
def Frame.bodyOk (f : Frame) : Bool := bodyCheck f.body = f.bodyCheckWord

/-- The route code of a departure frame's subject, bits 15..1 (Table 1-1). -/
def Frame.route (f : Frame) : Nat := (f.subject.extractLsb' 1 15).toNat

/-- The direction of a departure frame's subject, bit 0 (Table 1-1). -/
def Frame.dir (f : Frame) : Bool := f.subject.getLsbD 0

/-- The kinds whose frames go to the departure table and the relay decision (R23). -/
def Frame.isDeparture (f : Frame) : Bool := 1 ≤ f.kind && f.kind ≤ 3

/-! ### Bodies (Table 1-2, R9 to R12) -/

/-- The fields of a consistent body. -/
inductive Body where
  | report (trip : Nat) (remaining : Int) (cancelled : Bool) (bay : Option Nat) (notes : Option Notes)
  | amendment (trip : Nat) (remaining : Option Int) (bay : Option Nat) (notes : Option Notes)
      (cancelled : Option Bool)
  | bundle (tod : Nat) (items : List (Nat × Int))
  | request (key : Word16) (code : Nat) (arg : Nat)
  | reply
deriving DecidableEq, Repr

/-- The notes byte: bits 3..7 are ignored (R9). -/
def readNotes (b : Byte) : Notes := ⟨b.getLsbD 0, b.getLsbD 1, b.getLsbD 2⟩

/-- A bay field: 1..26 is consistent (R9, R10). -/
def bayInRange (b : Byte) : Bool := 1 ≤ b.toNat && b.toNat ≤ 26

/-- 1 when a presence bit is set. -/
def present (b : Bool) : Nat := if b then 1 else 0

/-- A DEPARTURE REPORT body (R9). -/
def readReport (l : List Byte) : Option Body :=
  let hasBay := (byteAt l 5).getLsbD 0
  let hasNotes := (byteAt l 5).getLsbD 1
  let bay := byteAt l 6
  let notes := byteAt l (6 + present hasBay)
  if l.length = 6 + present hasBay + present hasNotes ∧ (byteAt l 4).toNat ≤ 1 ∧ (hasBay = true → bayInRange bay = true) then
    some (.report (wordAt l 0).toNat (wordAt l 2).toInt (byteAt l 4 = 1)
      (if hasBay then some bay.toNat else none) (if hasNotes then some (readNotes notes) else none))
  else none

/-- An AMENDMENT body (R10): the present fields stand in the order remaining, bay, notes, status. -/
def readAmendment (l : List Byte) : Option Body :=
  let mask := byteAt l 2
  let hasRem := mask.getLsbD 0
  let hasBay := mask.getLsbD 1
  let hasNotes := mask.getLsbD 2
  let hasStatus := mask.getLsbD 3
  let iBay := 3 + 2 * present hasRem
  let iNotes := iBay + present hasBay
  let iStatus := iNotes + present hasNotes
  let bay := byteAt l iBay
  let status := byteAt l iStatus
  if l.length = iStatus + present hasStatus ∧ (hasBay = true → bayInRange bay = true) ∧ (hasStatus = true → status.toNat ≤ 1) then
    some (.amendment (wordAt l 0).toNat (if hasRem then some (wordAt l 3).toInt else none)
      (if hasBay then some bay.toNat else none)
      (if hasNotes then some (readNotes (byteAt l iNotes)) else none)
      (if hasStatus then some (status = 1) else none))
  else none

/-- The `k` items of a schedule bundle from byte `i` on. -/
def bundleItems (l : List Byte) (i : Nat) : Nat → List (Nat × Int)
  | 0 => []
  | k + 1 => ((wordAt l i).toNat, (wordAt l (i + 2)).toInt) :: bundleItems l (i + 4) k

/-- A SCHEDULE BUNDLE body (R11). -/
def readBundle (l : List Byte) : Option Body :=
  let tod := (byteAt l 0).toNat * 65536 + (wordAt l 1).toNat
  let k := (byteAt l 3).toNat
  if 4 ≤ l.length ∧ tod ≤ 86399 ∧ 1 ≤ k ∧ k ≤ 6 ∧ l.length = 4 + 4 * k then
    some (.bundle tod (bundleItems l 4 k))
  else none

/-- The body of a frame, when it is consistent for its kind (R9 to R12). -/
def readBody (kind : Nat) (l : List Byte) : Option Body :=
  match kind with
  | 1 => readReport l
  | 2 => readAmendment l
  | 3 => readBundle l
  | 4 => if l.length = 4 then some (.request (wordAt l 0) (byteAt l 2).toNat (byteAt l 3).toNat) else none
  | 5 => if 4 ≤ l.length ∧ l.length ≤ 64 then some .reply else none
  | _ => none

/-! ### Frames on the air -/

/-- The sync bytes. -/
def syncBytes : List Byte := [0xC3, 0x3C]

/-- A frame laid out by Table 1-1 with its header check, L = 13 + 2t + b (R6, R7). `bodyAndCheck` is the body and its
two check bytes. -/
def buildFrame (networkKey : Byte) (kind hop : Nat) (origin seq : Word16) (age : Nat) (subject : Word16)
    (trail : List Word16) (bodyAndCheck : List Byte) : List Byte :=
  let t := trail.length
  let header := natByte (11 + 2 * t + bodyAndCheck.length) :: networkKey :: natByte (kind * 16 + hop) ::
    (word16Bytes origin ++ word16Bytes seq ++ nat16Bytes (age * 8 + t) ++ word16Bytes subject ++
      trail.flatMap word16Bytes)
  syncBytes ++ header ++ [headerCheck header] ++ bodyAndCheck

/-- A body with its check, most significant byte first (R8). -/
def withBodyCheck (body : List Byte) : List Byte := body ++ word16Bytes (bodyCheck body)

/-- The relay of a frame as received (`raw` from the first sync byte), held for `hold` ticks (R47). -/
def relayFrame (raw : List Byte) (ownId : Word16) (hold : Nat) : List Byte :=
  let f := readFrame (raw.drop 2)
  let kept := if f.trailCount = 4 then f.trail.drop 1 else f.trail
  buildFrame f.networkKey f.kind (f.hop - 1) f.origin f.seq (min 8191 (f.age + hold)) f.subject
    (kept ++ [ownId]) (f.body ++ word16Bytes f.bodyCheckWord)

/-! ### The configuration record (Tables 10-3 and 10-4) -/

/-- Byte `i` of the record; a byte the memory did not drive reads as 0xFF (R198). -/
def recByte (r : List Byte) (i : Nat) : Byte := r.getD i 0xFF

/-- Two bytes of the record as a count. -/
def rec16 (r : List Byte) (i : Nat) : Nat := (recByte r i).toNat * 256 + (recByte r (i + 1)).toNat

/-- Four bytes of the record as a count. -/
def rec32 (r : List Byte) (i : Nat) : Nat := rec16 r i * 65536 + rec16 r (i + 2)

/-- `v` clamped to `lo`..`hi` (R201). -/
def clampTo (lo hi v : Nat) : Nat := if v < lo then lo else if hi < v then hi else v

/-- A byte of a label or text as it is drawn: outside 0x20..0x7E it is a space (R95). -/
def drawnByte (b : Byte) : Byte := if 0x20 ≤ b.toNat ∧ b.toNat ≤ 0x7E then b else 0x20

/-- `k` bytes of the record from `i` on, as they are drawn. Labels and texts are held as drawn from the load on, so records of
the same drawn text are equal also across a load that reads other bytes (R95; the model's choice, notes/assumptions/35.md). -/
def recText (r : List Byte) (i k : Nat) : List Byte := (List.range k).map (fun j => drawnByte (recByte r (i + j)))

/-- Destination text `j`, on page 2 (Table 10-3). -/
def destText (r : List Byte) (j : Nat) : List Byte := recText r (256 + 10 * j) 10

/-- The route record that begins at byte `i` (Table 10-4). The text of a direction not served is not used (R200). -/
def readRoute (r : List Byte) (i : Nat) : RouteRecord :=
  let d := recByte r (i + 2)
  { code := rec16 r i
    serves0 := d.getLsbD 0
    serves1 := d.getLsbD 1
    label := recText r (i + 3) 4
    text0 := if d.getLsbD 0 then destText r (recByte r (i + 7)).toNat else []
    text1 := if d.getLsbD 1 then destText r (recByte r (i + 8)).toNat else [] }

/-- The route record at byte `i` is in range (R200 item 7). -/
def routeOk (r : List Byte) (i : Nat) : Bool :=
  let d := recByte r (i + 2)
  decide (1 ≤ rec16 r i) && decide (rec16 r i ≤ 32767)
    && (!d.getLsbD 0 || decide ((recByte r (i + 7)).toNat ≤ 23))
    && (!d.getLsbD 1 || decide ((recByte r (i + 8)).toNat ≤ 23))

/-- Where route record `i` (from 0) begins (Table 10-3). -/
def routeAt (i : Nat) : Nat := 33 + 18 * i

/-- The T3 that the threshold test reads: 0 is taken as 1 (R201). -/
def recT3 (r : List Byte) : Nat := if rec32 r 26 = 0 then 1 else rec32 r 26

/-- The record's check holds over the 510 bytes, page 1 first (R200 item 2). -/
def recordCheckOk (r : List Byte) : Bool :=
  decide ((bodyCheck ((List.range 510).map (recByte r))).toNat = rec16 r 510)

/-- The tests of R200 other than its check. -/
def recordFieldsOk (r : List Byte) : Bool :=
  decide (rec16 r 0 = 0x4A4C) && decide (recByte r 2 = 1)
    && decide (1 ≤ rec16 r 3) && decide (rec16 r 3 ≤ 0xFFFD)
    && decide (4 ≤ (recByte r 8).toNat) && decide ((recByte r 8).toNat ≤ 10)
    && decide (recT3 r < rec32 r 22) && decide (rec32 r 22 < rec32 r 18) && decide (rec32 r 18 ≤ rec32 r 14)
    && decide ((recByte r 32).toNat ≤ 12)
    && (List.range (recByte r 32).toNat).all (fun i => routeOk r (routeAt i))

/-- The record is valid (R200). -/
def recordValid (r : List Byte) : Bool := recordFieldsOk r && recordCheckOk r

/-- The configuration a valid record puts in force, its tunables clamped (R201). -/
def recordCfg (r : List Byte) : Cfg :=
  let c := rec32 r 14
  let t1 := rec32 r 18
  let h := 1000 * rec16 r 30
  { configured := true
    ownId := be16 (recByte r 3) (recByte r 4)
    networkKey := recByte r 5
    maintenanceKey := be16 (recByte r 6) (recByte r 7)
    n := (recByte r 8).toNat
    period := clampTo 10 60 (recByte r 9).toNat
    riseThreshold := clampTo 1 3 (recByte r 10).toNat
    suppression := clampTo 1 3 (recByte r 11).toNat
    partialLimit := clampTo 8 32 (recByte r 12).toNat
    clearHours := clampTo 1 24 (recByte r 13).toNat
    capacity := c
    t1 := t1
    t2 := rec32 r 22
    t3 := recT3 r
    h := if c < t1 + h then c - t1 else h
    routes := (List.range (recByte r 32).toNat).map (fun i => readRoute r (routeAt i)) }

/-- What the record read puts in force (R200 to R202). -/
def recordResult (record : List Byte) : LoadOutcome × Cfg :=
  if recordValid record then (.valid, recordCfg record) else (.invalid, .defaults)

/-- The configuration a load puts in force, with its outcome (R197 to R203). None while an addressing attempt of a load that is
stopped or ended would be needed, and while a NACKed attempt has a retry to follow it. -/
def loadResult (phase : LoadPhase) (answer : MemoryAnswer) : Option (LoadOutcome × Cfg) :=
  match phase with
  | .stopped => none
  | .ended => none
  | .busStuck => some (.busStuck, .defaults)
  | .noMemory => some (.noMemory, .defaults)
  | .addressing k =>
    match answer with
    | .read record => some (recordResult record)
    | .nack _ => if k < 4 then none else some (.noMemory, .defaults)

/-! ### The two-wire bus (R196 to R198) -/

/-- The memory's 7-bit address (section 10.3). -/
def memoryAddress : BitVec 7 := 0x51

/-- A load that begins (R196): `sdaLow` successive samples of the bus free check find SDA low. Pulses are sent only then, and a
STOP once SDA is found high after one; the first attempt sends its START. After the ninth pulse with SDA low the bus is stuck. -/
def Loader.begun (sdaLow nacks : Nat) : Loader :=
  if sdaLow = 0 then ⟨.addressing 1, 0, none, [.start], nacks⟩
  else if sdaLow ≤ 9 then ⟨.addressing 1, sdaLow, none, List.replicate sdaLow .pulse ++ [.stop, .start], nacks⟩
  else ⟨.busStuck, 9, none, List.replicate 9 .pulse, nacks⟩

/-- What follows the START of an attempt that meets a NACK: the bytes up to the one NACKed, and a STOP (R197). -/
def nackedAttempt : AddressByte → List BusEvent
  | .addressWrite => [.address memoryAddress false false, .stop]
  | .wordHigh => [.address memoryAddress false true, .word 0 false, .stop]
  | .wordLow => [.address memoryAddress false true, .word 0 true, .word 0 false, .stop]
  | .addressRead =>
    [.address memoryAddress false true, .word 0 true, .word 0 true, .repeatedStart, .address memoryAddress true false, .stop]

/-- The bytes of the record as they are read: an ACK of each but the last (R198). -/
def dataRead : List Byte → List BusEvent
  | [] => []
  | [b] => [.data b false]
  | b :: rest => .data b true :: dataRead rest

/-- What follows the START of an attempt that is ACKed: the four bytes, the record and a STOP (R197, R198). -/
def ackedAttempt (record : List Byte) : List BusEvent :=
  [.address memoryAddress false true, .word 0 true, .word 0 true, .repeatedStart, .address memoryAddress true true] ++
    dataRead record ++ [.stop]

/-- What follows the START of a load's last attempt. -/
def lastAttempt : MemoryAnswer → List BusEvent
  | .nack byte => nackedAttempt byte
  | .read record => ackedAttempt record

/-- The bus at the end of a load (R197, R198): what the last attempt sent joins it, when one is in progress. -/
def Loader.ending (answer : MemoryAnswer) (l : Loader) : Loader :=
  match l.phase with
  | .addressing _ => { l with bus := l.bus ++ lastAttempt answer }
  | .stopped => l
  | .noMemory => l
  | .busStuck => l
  | .ended => l

/-- The loader after a NACKed attempt: the next attempt, begun with its START, or the end with NO_MEMORY after the fourth
(R197). The rule has no wait after the fourth NACK; the table's row gives LOAD_RETRY_WAIT_END there the end with NO_MEMORY
(notes/assumptions/31.md). -/
def Loader.retried (l : Loader) : Loader :=
  match l.phase with
  | .addressing k =>
    let sent := l.bus ++ nackedAttempt (Config.nackedByte l.nacks)
    if k < 4 then { l with phase := .addressing (k + 1), bus := sent ++ [.start], nacks := l.nacks + 1 }
    else { l with phase := .noMemory, bus := sent, nacks := l.nacks + 1 }
  | .stopped => l
  | .noMemory => l
  | .busStuck => l
  | .ended => l

end Sys2Proof.Machine
end

