-- ==== Sys2Proof/Machine/Flags.lean ====
section
/-! DEFINITION. The conditions the blocks test: which blocks are held in a reset (R194), the spendable energy and the
energy gate (R16, R177), whether the receiver is wanted on (R13), whether the channel is quiet (R26), the interest set
(R52), the bands of E (R180) and the codes of the STATUS payload (Tables 7-3, 8-2, 9-7, 11-1). -/

namespace Sys2Proof.Machine

/-- The blocks other than the clock and the account work: not from an assertion of RESET to the end of the load that
follows (R194, R204). -/
def active (s : State) : Bool := s.startup.state = .fill || s.startup.state = .service

/-- The fill period runs (R204). -/
def filling (s : State) : Bool := s.startup.state = .fill

/-! ### Energy -/

/-- The banner reserve of N departure rows (R176). -/
def bannerReserve (n : Nat) : Nat := 40 + (n + 1) * 210

/-- The cost the reservation holds, 0 when absent (R177). -/
def reserved (s : State) : Nat := s.account.reservation.getD 0

/-- The spendable energy E − B − reserved, a signed number (R177). -/
def spendable (s : State) : Int := (s.account.e : Int) - bannerReserve s.cfg.n - reserved s

/-- The energy gate is open (R16). -/
def gateOpen (s : State) : Bool := 1 ≤ spendable s

/-- The stages from the lowest, as numbers. -/
def stageRank : Stage → Nat
  | .frozen => 0
  | .scant => 1
  | .thrift => 2
  | .full => 3

/-- The band of E (Table 9-4). -/
def bandOfEnergy (c : Cfg) (e : Nat) : Stage :=
  if c.t1 ≤ e then .full else if c.t2 ≤ e then .thrift else if c.t3 ≤ e then .scant else .frozen

/-- The stage above, when E has reached its rise value (R182, Table 9-4). -/
def riseOf (c : Cfg) (stage : Stage) (e : Nat) : Option Stage :=
  match stage with
  | .frozen => if c.t3 + c.h ≤ e then some .scant else none
  | .scant => if c.t2 + c.h ≤ e then some .thrift else none
  | .thrift => if c.t1 + c.h ≤ e then some .full else none
  | .full => none

/-! ### Receiver and channel -/

/-- The channel access unit holds its carrier-sense request (Table 2-1). -/
def carrierSense (s : State) : Bool := s.cau ≠ .idle

/-- TXEN is asserted (Table 2-1). -/
def txen (s : State) : Bool :=
  match s.cau with
  | .sending _ _ => true
  | _ => false

/-- The receiver is wanted on (R13). -/
def wantedOn (s : State) : Bool := active s && (s.rx.window.on || carrierSense s) && gateOpen s

/-- The receiver is powered, in LISTEN or RECEIVING (Table 1-3). -/
def powered (s : State) : Bool := s.rx.state = .listen || s.rx.state = .receiving

/-- The channel is quiet (R26). -/
def channelQuiet (s : State) : Bool := s.quiet = .expired && !s.pins.cd

/-! ### Interest and relaying -/

/-- The routes and directions this stop keeps (R52). -/
def inInterest (c : Cfg) (route : Nat) (dir : Bool) : Bool :=
  c.routes.any (fun r => r.code = route && (if dir then r.serves1 else r.serves0))

/-- The stage permits relaying a frame whose subject is in the interest set or not (R20, R42). -/
def stagePermits (stage : Stage) (interest : Bool) : Bool :=
  match stage with
  | .full => true
  | .thrift => interest
  | .scant => false
  | .frozen => false

/-! ### Codes of the STATUS payload -/

/-- Stage codes (R180). -/
def stageCode : Stage → Nat
  | .full => 0
  | .thrift => 1
  | .scant => 2
  | .frozen => 3

/-- Freeze state codes (Table 9-7). -/
def freezeCode : FreezeState → Nat
  | .none => 0
  | .pending => 1
  | .drawn => 2
  | .skipped => 3

/-- Engine state codes (R152). -/
def engineCode : EngineState → Nat
  | .idle => 0
  | .prepare => 1
  | .drive => 2
  | .settle => 3
  | .lockout => 4

/-- Band codes (Table 7-3). -/
def bandCode : Band → Nat
  | .noDriveCold => 0
  | .b0 => 1
  | .b1 => 2
  | .b2 => 3
  | .b3 => 4
  | .b4 => 5
  | .b5 => 6
  | .noDriveHot => 7

/-- Cause codes (Table 8-2). -/
def causeCode : FaultCause → Nat
  | .none => 0
  | .pfault => 1
  | .droop => 2
  | .noAnswer => 3

/-- Phase codes (Table 8-2). -/
def phaseCode : Waveform → Phase → Nat
  | .full, .invert => 1
  | .full, .black => 2
  | .full, .white => 3
  | .full, .write => 4
  | .full, .rest => 5
  | .partialWave, .write => 0x81
  | .partialWave, .reinforce => 0x82
  | .partialWave, .rest => 0x83
  | .full, .reinforce => 0
  | .partialWave, .invert => 0
  | .partialWave, .black => 0
  | .partialWave, .white => 0

/-- The fault record's four bytes (R169). -/
def faultBytes (r : FaultRecord) : List Byte :=
  [natByte (causeCode r.cause + if r.droopSeen then 0x80 else 0),
   natByte (r.row.getD 0xFF),
   natByte (match r.place with | none => 0 | some (w, p) => phaseCode w p),
   natByte r.frame]

/-- The results of a maintenance request (Table 11-1). -/
inductive Result where
  | ok
  | unknown
  | badLength
  | bodyCheck
  | denied
  | badRange
  | stage
deriving DecidableEq, Repr

/-- Result codes (Table 11-1). -/
def resultCode : Result → Nat
  | .ok => 0
  | .unknown => 1
  | .badLength => 2
  | .bodyCheck => 3
  | .denied => 4
  | .badRange => 5
  | .stage => 6

end Sys2Proof.Machine
end

