-- ==== Sys2Proof/Machine/Relay.lean ====
section
/-! DEFINITION. The seen table and the relay queue (R36 to R48): lookups, creation and eviction of seen entries, the order
of the queue, and what takes a relay out of it. -/

namespace Sys2Proof.Machine

/-! ### The seen table -/

/-- A seen entry has the key (origin, sequence). -/
def SeenEntry.hasKey (origin seq : Word16) (e : SeenEntry) : Bool := e.origin = origin && e.seq = seq

/-- The seen entry of a key (R36). -/
def findSeen (origin seq : Word16) (l : List SeenEntry) : Option SeenEntry := l.find? (SeenEntry.hasKey origin seq)

/-- Applies `f` to the seen entry of a key. -/
def updateSeen (origin seq : Word16) (f : SeenEntry → SeenEntry) (l : List SeenEntry) : List SeenEntry :=
  l.map (fun e => if e.hasKey origin seq then f e else e)

/-- An entry that may be evicted: neither WAITING nor dispatch pending (R39). -/
def SeenEntry.evictable (e : SeenEntry) : Bool := e.state ≠ .waiting && !e.dispatchPending

/-- Adds an entry at the end of the order, evicting first when the table holds 64 (R39). -/
def createSeen (e : SeenEntry) (l : List SeenEntry) : List SeenEntry :=
  (if 64 ≤ l.length then l.eraseP SeenEntry.evictable else l) ++ [e]

/-- Makes the entry of a first copy: creates it, or changes the DAMAGED entry found at step 7, keeping its copies,
first-heard tick and place (R37). -/
def makeSeen (origin seq : Word16) (state : SeenState) (t : Tick) (pend : Bool) (l : List SeenEntry) :
    List SeenEntry :=
  match findSeen origin seq l with
  | none => createSeen ⟨origin, seq, state, 0, t, pend⟩ l
  | some _ => updateSeen origin seq (fun e => { e with state := state, dispatchPending := pend }) l

/-- Sets the state of a key's seen entry. -/
def State.setSeenState (origin seq : Word16) (st : SeenState) (s : State) : State :=
  { s with seen := updateSeen origin seq (fun e => { e with state := st }) s.seen }

/-- What SEEN_ENTRY_AGE_OUT keeps: an entry at most 4800 ticks old, WAITING, or dispatch pending (R40). -/
def keepsSeen (now : Tick) (e : SeenEntry) : Bool :=
  tickDiff now e.firstHeard ≤ 4800 || e.state = .waiting || e.dispatchPending

/-! ### The relay queue -/

/-- A relay queue entry has the key (origin, sequence). -/
def RelayEntry.hasKey (origin seq : Word16) (e : RelayEntry) : Bool := e.origin = origin && e.seq = seq

/-- The relay queue entry of a key: the relay slot of its seen entry (R41). -/
def findRelay (origin seq : Word16) (l : List RelayEntry) : Option RelayEntry :=
  l.find? (RelayEntry.hasKey origin seq)

/-- Places an entry in non-decreasing order of due tick, after those of the same due tick (R41). -/
def insertRelay (now : Tick) (e : RelayEntry) : List RelayEntry → List RelayEntry
  | [] => [e]
  | x :: xs => if tickDiff e.due now < tickDiff x.due now then e :: x :: xs else x :: insertRelay now e xs

/-- The relay delay in ticks of n, 200 ms plus n times 4 ms, rounded up (R43). -/
def relayDelayTicks (n : Nat) : Nat := (200 + 4 * n + 124) / 125

/-- Takes a relay out of the queue and sets its seen entry's state (R41). -/
def State.removeRelay (origin seq : Word16) (st : SeenState) (s : State) : State :=
  { s.setSeenState origin seq st with relayQ := s.relayQ.filter (fun e => !e.hasKey origin seq) }

/-- Abandons one relay: removed, its seen entry ABANDONED, RELAY_ABANDONED counted (R31, R32, R45). -/
def State.abandonRelay (origin seq : Word16) (s : State) : State :=
  (s.removeRelay origin seq .abandoned).count .relayAbandoned

/-- Abandons each relay of a list, in its order. -/
def State.abandonRelays : List RelayEntry → State → State
  | [], s => s
  | e :: rest, s => State.abandonRelays rest (s.abandonRelay e.origin e.seq)

/-- A relay's lifetime of 240 ticks from its hold start has ended (R45). -/
def lifetimeOver (now : Tick) (e : RelayEntry) : Bool := 240 ≤ tickDiff now e.holdStart

/-- The frame is eligible for relaying (R42). -/
def eligible (s : State) (f : Frame) : Bool :=
  decide (1 ≤ f.hop) && !(f.trail.contains s.cfg.ownId) && decide (f.age < 2400)
    && stagePermits s.account.stage (inInterest s.cfg f.route f.dir)
    && (decide (f.trailCount = 4) || decide (f.len ≤ 94))

/-- The copies count of a key's seen entry. -/
def copiesOf (s : State) (origin seq : Word16) : Nat := ((findSeen origin seq s.seen).map (·.copies)).getD 0

/-- Queues a relay: the generator draws, the due tick is set, the seen entry becomes WAITING (R42, R43). `bytes` is the
frame from its length byte on, `t` its reception-end tick. -/
def State.queueRelay (f : Frame) (bytes : List Byte) (t : Tick) (s : State) : State :=
  let v := lfsrDraw s.rng
  let due := t + BitVec.ofNat 32 (relayDelayTicks (v.toNat % 256))
  { s.setSeenState f.origin f.seq .waiting with
    rng := v
    relayQ := insertRelay s.clock ⟨f.origin, f.seq, syncBytes ++ bytes, t, due, 0⟩ s.relayQ }

/-- The relay decision (R42): dispatch pending becomes no; a frame that is not eligible stays HEARD; an eligible one is
suppressed, queued or abandoned. -/
def State.relayDecision (f : Frame) (bytes : List Byte) (t : Tick) (s : State) : State :=
  let s := { s with seen := updateSeen f.origin f.seq (fun e => { e with dispatchPending := false }) s.seen }
  if eligible s f then
    if s.cfg.suppression ≤ copiesOf s f.origin f.seq then
      (s.setSeenState f.origin f.seq .suppressed).count .relaySuppressed
    else if s.relayQ.length < 8 then s.queueRelay f bytes t
    else (s.setSeenState f.origin f.seq .abandoned).count .relayAbandoned
  else s

/-- A duplicate raises the copies count, which stops at 15, and suppresses a WAITING relay whose count reaches the
threshold (R38, R44). -/
def State.duplicate (e : SeenEntry) (s : State) : State :=
  let copies := min 15 (e.copies + 1)
  let s := { s with seen := updateSeen e.origin e.seq (fun x => { x with copies := copies }) s.seen }
  if e.state = .waiting ∧ s.cfg.suppression ≤ copies then
    (s.removeRelay e.origin e.seq .suppressed).count .relaySuppressed
  else s

end Sys2Proof.Machine
end

