-- ==== Sys2Proof/Machine/Channel.lean ====
section
/-! DEFINITION. The receiver's power (R13, R16) and the channel access unit (R26 to R35, R47, R48): the transmit arbiter,
the transmit attempt, contention and deferral, the energy check and the sending of one frame. -/

namespace Sys2Proof.Machine

/-! ### The receiver's power -/

/-- The quiet timer set RUNNING with 30 ms (R26). -/
def loadedQuiet : QuietTimer := .running 30

/-- The receiver follows what is wanted of it: OFF to LISTEN, which loads the quiet timer and makes the pending first
sync absent, and LISTEN to OFF (R2, R13, R26). A frame in reception and a transmission run on. -/
def receiverFollow (s : State) : State :=
  match s.rx.state with
  | .off =>
    if wantedOn s then { s with rx := { s.rx with state := .listen, firstSync := false }, quiet := loadedQuiet }
    else s
  | .listen => if wantedOn s then s else s.setRx .off
  | .receiving => s
  | .transmitting => s

/-! ### The arbiter -/

/-- The first relay queue entry whose due tick has come (R28). -/
def readyRelay (s : State) : Option RelayEntry := s.relayQ.find? (fun e => hasCome e.due s.clock)

/-- What a selection takes: the oldest reply, or else the first ready relay (R28). -/
def candidate? (s : State) : Option Candidate :=
  match s.maint.replies with
  | _ :: _ => some .reply
  | [] => (readyRelay s).map (fun e => .relay e.origin e.seq)

/-- The frame that a candidate sends now, a relay's header rewritten (R32, R47). -/
def candidateFrame (s : State) : Candidate → List Byte
  | .reply => (s.maint.replies.head?.map (·.frame)).getD []
  | .relay origin seq =>
    match findRelay origin seq s.relayQ with
    | some e => relayFrame e.frame s.cfg.ownId (s.clock - e.holdStart).toNat
    | none => []

/-- The candidate is still in its queue (R34). -/
def inQueue (s : State) : Candidate → Bool
  | .reply => !s.maint.replies.isEmpty
  | .relay origin seq => (findRelay origin seq s.relayQ).isSome

/-- Abandons a candidate: a relay as R31 and R32 state, a reply with no counter. -/
def State.abandon (c : Candidate) (s : State) : State :=
  match c with
  | .reply => { s with maint := { s.maint with replies := s.maint.replies.drop 1 } }
  | .relay origin seq => s.abandonRelay origin seq

/-- Counts one deferral of a candidate (R31). -/
def State.deferCandidate (c : Candidate) (s : State) : State :=
  match c with
  | .reply =>
    { s with maint := { s.maint with
        replies := s.maint.replies.modify 0 (fun r => { r with deferrals := r.deferrals + 1 }) } }
  | .relay origin seq =>
    { s with relayQ := s.relayQ.map (fun e =>
        if e.hasKey origin seq then { e with deferrals := e.deferrals + 1 } else e) }

/-- A candidate's deferral count (R31). -/
def deferralsOf (s : State) : Candidate → Nat
  | .reply => (s.maint.replies.head?.map (·.deferrals)).getD 0
  | .relay origin seq => ((findRelay origin seq s.relayQ).map (·.deferrals)).getD 0

/-! ### Sending -/

/-- Frees a receive buffer (R17). -/
def State.freeBuffer (id : BufId) (s : State) : State :=
  match id with
  | .a => { s with rx := { s.rx with bufA := none } }
  | .b => { s with rx := { s.rx with bufB := none } }

/-- Discards at step 2 a frame that ended early: RX_CHAR for a character error, RX_SHORT otherwise; an overrun frame is
counted by RX_OVERRUN alone (R3, R5, R18). -/
def State.discardCut (target : RxTarget) (s : State) : State :=
  match target with
  | .buffer id => (s.freeBuffer id).count (if s.rx.charError then .rxChar else .rxShort)
  | .overrun => s

/-- The receiver has nothing in reception and no pending first sync. -/
def State.clearReception (s : State) : State :=
  { s with rx := { s.rx with reception := .none, firstSync := false, charError := false } }

/-- A frame in reception ends early at the assertion of TXEN and is discarded; a skip ends (R4, R5). A frame
whose last character ends at the instant of the assertion is not before it here (`withCharacter`, R208). -/
def cutReception (s : State) : State :=
  match s.rx.reception with
  | .none => s.clearReception
  | .skip _ => s.clearReception
  | .length target => (s.discardCut target).clearReception
  | .body target _ => (s.discardCut target).clearReception

/-- Asserts TXEN for a candidate (R33, R47, R48): the receiver enters TRANSMITTING, a reply leaves its queue, a relay
leaves the relay queue with its seen entry RELAYED. -/
def State.send (c : Candidate) (s : State) : State :=
  let frame := candidateFrame s c
  let s := (cutReception s).setRx .transmitting
  match c with
  | .reply =>
    { s with cau := .sending frame false, maint := { s.maint with replies := s.maint.replies.drop 1 } }
  | .relay origin seq => { s.removeRelay origin seq .relayed with cau := .sending frame true }

/-- The energy check at the end of a contention delay (R32): the cost 3 + L, which is the frame's whole length, against
the spendable energy. A candidate that fails is abandoned and the unit is IDLE. -/
def energyCheck (c : Candidate) (s : State) : State :=
  if ((candidateFrame s c).length : Int) ≤ spendable s then s.send c else (s.abandon c).setCau .idle

/-! ### Attempts -/

/-- The contention draw (R25, R30): the six low bits of the drawn value, times 2 ms. A delay of 0 ms ends at the draw,
with CD deasserted since the channel is quiet. -/
def contentionDraw (c : Candidate) (s : State) : State :=
  let v := lfsrDraw s.rng
  let ms := v.toNat % 64 * 2
  let s := { s with rng := v, cau := .contending c ms }
  if ms = 0 then energyCheck c s else s

/-- Attempts that start, one after another, while the unit is IDLE and a candidate is ready (R29, R35). A gate that is
closed refuses the carrier-sense request, and the candidate is abandoned (R27, R32). Each round that does not stop takes
a candidate out of its queue, so `fuel` as large as the two queues reaches the end. -/
def startAttempts : Nat → State → State
  | 0, s => s
  | fuel + 1, s =>
    if s.cau = .idle then
      match candidate? s with
      | none => s
      | some c =>
        if gateOpen s then
          let s1 := receiverFollow (s.setCau .sensing)
          if channelQuiet s1 then startAttempts fuel (contentionDraw c s1) else s1
        else startAttempts fuel (s.abandon c)
    else s

/-- How many rounds `startAttempts` can need. -/
def attemptFuel (s : State) : Nat := s.maint.replies.length + s.relayQ.length + 1

/-- Starts attempts as long as R29 asks for one. -/
def startAttempt (s : State) : State := if active s then startAttempts (attemptFuel s) s else s

/-- The end of an attempt (R35): IDLE, a new attempt at once when a candidate is ready, and the receiver follows the
carrier-sense request that is then held. -/
def endAttempt (s : State) : State := receiverFollow (startAttempt (s.setCau .idle))

/-- An attempt in SENSING or CONTENDING whose receiver has entered OFF by the energy gate: its candidate, or the one a
selection would take now, is abandoned and the attempt ends (R32). -/
def abandonAttempt (s : State) : State :=
  match s.cau with
  | .contending c _ => endAttempt (s.abandon c)
  | .sensing =>
    match candidate? s with
    | some c => endAttempt (s.abandon c)
    | none => endAttempt s
  | .idle => s
  | .sending _ _ => s

/-- The receiver follows what is wanted of it, and an attempt whose receiver enters OFF by it is abandoned (R13, R16,
R32). -/
def receiverUpdate (s : State) : State :=
  let s' := receiverFollow s
  if s.rx.state ≠ .off ∧ s'.rx.state = .off then abandonAttempt s' else s'

/-- The receiver leaves RECEIVING or TRANSMITTING: LISTEN when it is wanted on at that moment and OFF otherwise (R13),
with R32's abandonment at an entry to OFF. -/
def leaveToListen (s : State) : State :=
  let s := s.clearReception
  if wantedOn s then s.setRx .listen else abandonAttempt (s.setRx .off)

/-- What the channel access unit does when a candidate may have left its queue (R29, R34): CONTENDING for one that has
left, or SENSING with none ready, ends the attempt. -/
def recheckAttempt (s : State) : State :=
  match s.cau with
  | .contending c _ => if inQueue s c then s else endAttempt s
  | .sensing => if (candidate? s).isSome then s else endAttempt s
  | .idle => s
  | .sending _ _ => s

/-- What a draw, an energy check or a deferral leaves: an attempt it has ended gives way to the next (R35). -/
def settleAttempt (s : State) : State := if s.cau = .idle then endAttempt s else s

/-- In SENSING with the channel quiet, the contention draw is made (R29, R30). -/
def senseQuiet (s : State) : State :=
  if s.cau = .sensing ∧ channelQuiet s = true then
    match candidate? s with
    | some c => settleAttempt (contentionDraw c s)
    | none => endAttempt s
  else s

/-- A deferral of the candidate of a running contention delay: back to SENSING, or at the eighth the candidate is
abandoned and the attempt ends (R31). -/
def deferral (c : Candidate) (s : State) : State :=
  let s := s.deferCandidate c
  if 8 ≤ deferralsOf s c then endAttempt (s.abandon c) else s.setCau .sensing

end Sys2Proof.Machine
end

