-- ==== Sys2Proof/Machine/Time.lean ====
section
/-! DEFINITION. Local time and the countdown (R74 to R93): anchors, remaining time, the wall reference, the time of day
and the display value of an entry. -/

namespace Sys2Proof.Machine

/-- The anchor D = T + 8·R0 − A, modulo 2^32 (R78). -/
def anchor (r0 : Int) (age : Nat) (t : Tick) : Tick := t + BitVec.ofInt 32 (8 * r0 - age)

/-- The remaining time of D at an evaluation tick, in ticks (R80). -/
def remTicks (d evalTick : Tick) : Int := tickDiff d evalTick

/-- `v` clamped to `lo`..`hi`. -/
def clampInt (lo hi v : Int) : Int := if v < lo then lo else if hi < v then hi else v

/-- The remaining seconds of D at an evaluation tick: floor(rem/8), clamped to −300..7200 (R81). -/
def remSeconds (d evalTick : Tick) : Int := clampInt (-300) 7200 (remTicks d evalTick / 8)

/-- The ticks of 24 hours (R82). -/
def dayTicks : Nat := 691200

/-- The wall reference a bundle sets (R83). -/
def wallOf (tod age : Nat) (t : Tick) : WallRef := ⟨(8 * tod + age) % dayTicks, t⟩

/-- The time of day of a tick in ticks past midnight, in 0..691,199 (R85 step 1). -/
def dayTick (w : WallRef) (x : Tick) : Nat := ((w.wallRef : Int) + tickDiff x w.refTick).emod dayTicks |>.toNat

/-- The CLOCK value of a tick: hours and minutes, seconds dropped (R85, R91). -/
def clockOf (w : WallRef) (x : Tick) : Value := .clock (dayTick w x / 28800) (dayTick w x % 28800 / 480)

/-- The display value of an entry at an evaluation tick (R87 to R92). -/
def displayValue (e : DepEntry) (evalTick : Tick) (wall : Option WallRef) : Value :=
  let rem := remTicks e.d evalTick
  if e.state = .cancelled then .cancelled
  else if rem < 480 then .due
  else if rem < 28800 then .minutes (rem / 480).toNat
  else
    match wall with
    | some w => clockOf w e.d
    | none => .later

/-- The wall reference's 24 hours have ended (R84). -/
def wallOver (w : WallRef) (now : Tick) : Bool := (dayTicks : Int) ≤ tickDiff now w.refTick

end Sys2Proof.Machine
end

