-- ==== Sys2Proof/Machine/Table.lean ====
section
/-! DEFINITION. The departure table (R50 to R73): its order, insertion and capacity, the application of reports,
amendments and schedule bundles, the per-second sweep and the change notice. -/

namespace Sys2Proof.Machine

/-! ### Order, insertion and removal -/

/-- Ties of the table order: route, then direction, then trip, each ascending (R54). -/
def keyBefore (a b : Key) : Bool :=
  if a.route ≠ b.route then a.route < b.route
  else if a.dir ≠ b.dir then !a.dir
  else a.trip < b.trip

/-- The table order: signed differences of D from the current tick, then the key (R54). -/
def entryBefore (now : Tick) (a b : DepEntry) : Bool :=
  if tickDiff a.d now ≠ tickDiff b.d now then tickDiff a.d now < tickDiff b.d now else keyBefore a.key b.key

/-- Inserts an entry at the position the order gives it (R55). -/
def insertEntry (now : Tick) (e : DepEntry) : List DepEntry → List DepEntry
  | [] => [e]
  | x :: xs => if entryBefore now e x then e :: x :: xs else x :: insertEntry now e xs

/-- Removes the entry of a key (R55). -/
def removeEntry (k : Key) (l : List DepEntry) : List DepEntry := l.filter (fun e => e.key ≠ k)

/-- The entry of a key. -/
def findEntry (k : Key) (l : List DepEntry) : Option DepEntry := l.find? (fun e => e.key = k)

/-- Puts the changed entry `e` in the place of the entry of its key, which it keeps when its D did not change and leaves
for the place of its new D otherwise (R55). -/
def replaceEntry (now : Tick) (oldD : Tick) (e : DepEntry) (l : List DepEntry) : List DepEntry :=
  if e.d = oldD then l.map (fun x => if x.key = e.key then e else x)
  else insertEntry now e (removeEntry e.key l)

/-! ### The change notice -/

/-- The fields of an entry whose change within the first N raises the notice (R72 item 3), with its key. -/
structure NoticeFields where
  key : Key
  d : Tick
  source : Source
  state : EntryState
  bay : Option Nat
  notes : Option Notes
  stale : Bool
deriving DecidableEq, Repr

/-- An entry's fields of R72. -/
def noticeFields (e : DepEntry) : NoticeFields := ⟨e.key, e.d, e.source, e.state, e.bay, e.notes, e.stale⟩

/-- What the first N entries show of themselves to the composer. A change of the table is one of the cases of R72 exactly
when it changes this list: an insertion, a removal or a move into or out of the first N changes which keys stand there,
and a change of one of the fields changes its entry. -/
def noticeView (n : Nat) (l : List DepEntry) : List NoticeFields := (l.take n).map noticeFields

/-- Replaces the table in one application or sweep, setting the recompose flag as R72 states. -/
def State.setTable (l : List DepEntry) (s : State) : State :=
  { s with
    table := l
    composer := { s.composer with
      recompose := s.composer.recompose || decide (noticeView s.cfg.n l ≠ noticeView s.cfg.n s.table) } }

/-- Inserts a new entry, under the capacity rule when the table holds 48 (R59, R66). -/
def State.insertNew (e : DepEntry) (s : State) : State :=
  if s.table.length < 48 then (s.setTable (insertEntry s.clock e s.table)).count .tableApplied
  else
    match s.table.getLast? with
    | some last =>
      if entryBefore s.clock e last then
        ((s.setTable (insertEntry s.clock e s.table.dropLast)).count .tableEvicted).count .tableApplied
      else s.count .tableRefused
    | none => s.count .tableRefused

/-- Applies a changed entry to the entry of its key (R61, R63, R65). -/
def State.applyTo (old e : DepEntry) (s : State) : State :=
  (s.setTable (replaceEntry s.clock old.d e s.table)).count .tableApplied

/-! ### Applications -/

/-- The frame is newer than the one that set the entry: the difference of sequences lies in 1..32767 (R57). -/
def newerSeq (seq last : Word16) : Bool := 1 ≤ (seq - last).toNat && (seq - last).toNat ≤ 32767

/-- A remaining-seconds value may be used (R56 item 3). -/
def remUsable (r : Int) : Bool := -300 ≤ r

/-- The anchor of a remaining-seconds value after the clamp at 7200 (R56). -/
def anchorOf (f : Frame) (r : Int) (t : Tick) : Tick := anchor (if 7200 < r then 7200 else r) f.age t

/-- The state a status gives (R59, R61, R63). -/
def statusState (cancelled : Bool) : EntryState := if cancelled then .cancelled else .active

/-- A report's entry, with the key and the shown row given (R59, R61). -/
def reportEntry (f : Frame) (t : Tick) (k : Key) (remaining : Int) (cancelled : Bool) (bay : Option Nat)
    (notes : Option Notes) (shownRow : Option Nat) : DepEntry where
  key := k
  source := .live
  state := statusState cancelled
  d := anchorOf f remaining t
  lastReport := t
  repOrigin := f.origin
  repSeq := f.seq
  bay := bay
  notes := notes
  stale := false
  shownRow := shownRow

/-- A report is applied to the entry of its key in the cases of R60. -/
def reportApplies (f : Frame) (e : DepEntry) : Bool :=
  e.source = .scheduled || e.repOrigin ≠ f.origin || newerSeq f.seq e.repSeq

/-- Applies a DEPARTURE REPORT (R56, R58 to R61). -/
def State.applyReport (f : Frame) (t : Tick) (trip : Nat) (remaining : Int) (cancelled : Bool) (bay : Option Nat)
    (notes : Option Notes) (s : State) : State :=
  let k : Key := ⟨f.route, f.dir, trip⟩
  if !inInterest s.cfg f.route f.dir then s
  else if 2400 ≤ f.age ∨ remUsable remaining = false then s.count .tableIgnored
  else
    match findEntry k s.table with
    | none => s.insertNew (reportEntry f t k remaining cancelled bay notes none)
    | some e =>
      if reportApplies f e then s.applyTo e (reportEntry f t k remaining cancelled bay notes e.shownRow)
      else s.count .tableIgnored

/-- The entry an amendment with a non-zero mask leaves (R63). -/
def amendedEntry (f : Frame) (t : Tick) (remaining : Option Int) (bay : Option Nat) (notes : Option Notes)
    (cancelled : Option Bool) (e : DepEntry) : DepEntry :=
  { e with
    d := match remaining with | some r => anchorOf f r t | none => e.d
    bay := match bay with | some b => some b | none => e.bay
    notes := match notes with | some x => some x | none => e.notes
    state := match cancelled with | some c => statusState c | none => e.state
    repOrigin := f.origin
    repSeq := f.seq
    lastReport := t
    stale := false }

/-- Applies an AMENDMENT (R56, R62, R63). -/
def State.applyAmendment (f : Frame) (t : Tick) (trip : Nat) (remaining : Option Int) (bay : Option Nat)
    (notes : Option Notes) (cancelled : Option Bool) (s : State) : State :=
  if !inInterest s.cfg f.route f.dir then s
  else if 2400 ≤ f.age then s.count .tableIgnored
  else
    match findEntry ⟨f.route, f.dir, trip⟩ s.table with
    | none => s.count .tableIgnored
    | some e =>
      if e.repOrigin = f.origin ∧ newerSeq f.seq e.repSeq = false then s.count .tableIgnored
      else if remaining.any (fun r => !remUsable r) then s.count .tableIgnored
      else if remaining.isNone && bay.isNone && notes.isNone && cancelled.isNone then s.count .tableApplied
      else s.applyTo e (amendedEntry f t remaining bay notes cancelled e)

/-- The entry a schedule bundle item gives (R65). -/
def itemEntry (f : Frame) (t : Tick) (k : Key) (remaining : Int) (shownRow : Option Nat) : DepEntry where
  key := k
  source := .scheduled
  state := .active
  d := anchorOf f remaining t
  lastReport := t
  repOrigin := f.origin
  repSeq := f.seq
  bay := none
  notes := none
  stale := false
  shownRow := shownRow

/-- Applies one item of a schedule bundle (R65). -/
def State.applyItem (f : Frame) (t : Tick) (item : Nat × Int) (s : State) : State :=
  let k : Key := ⟨f.route, f.dir, item.1⟩
  if !remUsable item.2 then s.count .tableIgnored
  else
    match findEntry k s.table with
    | none => s.insertNew (itemEntry f t k item.2 none)
    | some e =>
      if e.source = .live then s.count .tableIgnored
      else if e.repOrigin = f.origin ∧ newerSeq e.repSeq f.seq = true then s.count .tableIgnored
      else s.applyTo e (itemEntry f t k item.2 e.shownRow)

/-- Applies the items in the order they stand in the body (R64). -/
def State.applyItems (f : Frame) (t : Tick) : List (Nat × Int) → State → State
  | [], s => s
  | i :: rest, s => State.applyItems f t rest (s.applyItem f t i)

/-- Sets the wall reference and signals the row composer (R83). -/
def State.setWall (tod : Nat) (f : Frame) (t : Tick) (s : State) : State :=
  { s with wall := some (wallOf tod f.age t), composer := { s.composer with wallSignal := true } }

/-- Applies a SCHEDULE BUNDLE (R64). -/
def State.applyBundle (f : Frame) (t : Tick) (tod : Nat) (items : List (Nat × Int)) (s : State) : State :=
  if 2400 ≤ f.age then
    if inInterest s.cfg f.route f.dir then s.countMany .tableIgnored items.length else s
  else
    let s := s.setWall tod f t
    if inInterest s.cfg f.route f.dir then s.applyItems f t items else s

/-- Applies a dispatched departure frame to the table in one step (R56). -/
def State.applyFrame (f : Frame) (t : Tick) (s : State) : State :=
  match readBody f.kind f.body with
  | some (.report trip r c bay notes) => s.applyReport f t trip r c bay notes
  | some (.amendment trip r bay notes c) => s.applyAmendment f t trip r bay notes c
  | some (.bundle tod items) => s.applyBundle f t tod items
  | some (.request _ _ _) => s
  | some .reply => s
  | none => s

/-! ### The sweep -/

/-- A sweep removes the entry: its D is 960 or more ticks past (R67). -/
def sweptAway (now : Tick) (e : DepEntry) : Bool := tickDiff e.d now ≤ -960

/-- A sweep marks the entry stale (R68). -/
def goesStale (now : Tick) (e : DepEntry) : Bool := e.source = .live && 4800 < tickDiff now e.lastReport

/-- The table after a sweep (R67, R68). -/
def sweptTable (now : Tick) (l : List DepEntry) : List DepEntry :=
  (l.filter (fun e => !sweptAway now e)).map (fun e => if goesStale now e then { e with stale := true } else e)

/-- Makes the sweep that is due (R67 to R69, R72). -/
def State.sweep (s : State) : State := { s.setTable (sweptTable s.clock s.table) with sweepWaiting := false }

/-- Makes the sweep when one is due (R69). -/
def State.sweepDue (s : State) : State := if s.sweepWaiting then s.sweep else s

end Sys2Proof.Machine
end

