-- ==== Sys2Proof/Machine/Compose.lean ====
section
/-! DEFINITION. The row composer (R94 to R111): the start of a pass, its candidates and banner, hysteresis, the shown-row
fields and the freeze content. The completion of a pass stands in Machine/Passes.lean. -/

namespace Sys2Proof.Machine

/-! ### The start of a pass -/

/-- The composition period of a stage in ticks (Table 5-3). No pass starts in FROZEN (R99). -/
def periodTicks (c : Cfg) : Stage → Nat
  | .full => 8 * c.period
  | .thrift => 8 * max c.period 15
  | .scant => 480
  | .frozen => 480

/-- A pass takes the table lock (R103): it records its evaluation tick, stage and wall reference, clears the recompose flag and
the pass-due mark and sets the next-pass tick. A clear that waits for the next pass goes with it. -/
def takeLock (s : State) : State :=
  { s with
    lock := .held
    composer := { s.composer with
      state := .passing
      recompose := false
      nextPass := some (s.clock + BitVec.ofNat 32 (periodTicks s.cfg s.account.stage))
      passDue := false
      pass := some ⟨s.clock, s.account.stage, s.wall, s.composer.clearArmed⟩
      clearArmed := false
      wallSignal := false } }

/-- A pass starts (R103). A sweep that is due while the lock is free is made before the lock is taken (R69, R70). -/
def startPass (s : State) : State := takeLock s.sweepDue

/-- An IDLE composer starts a pass (R102). -/
def startIfIdle (s : State) : State := if s.composer.state = .idle then startPass s else s

/-- The signal that the wall reference has been set reaches the composer, which starts a pass when it is IDLE and
nothing when it is SUSPENDED (R83, R99, R102). -/
def takeWallSignal (s : State) : State :=
  if s.composer.wallSignal then
    startIfIdle { s with composer := { s.composer with wallSignal := false } }
  else s

/-! ### Candidates -/

/-- The first route record, in configuration order, that serves the entry's route and direction (R95). -/
def routeOf (c : Cfg) (k : Key) : Option RouteRecord :=
  c.routes.find? (fun r => r.code = k.route && (if k.dir then r.serves1 else r.serves0))

/-- The row content record derived from a departure entry (R95). -/
def contentOf (c : Cfg) (e : DepEntry) (evalTick : Tick) (wall : Option WallRef) : RowContent where
  key := some e.key
  label := (routeOf c e.key).map (·.label)
  dest := (routeOf c e.key).map (fun r => if e.key.dir then r.text1 else r.text0)
  bay := e.bay
  value := displayValue e evalTick wall
  live := e.source = .live && !e.stale
  note := e.notes.any (·.lastTrip)

/-- The candidate of departure row `r` (R104). -/
def candidateContent (s : State) (p : Pass) (r : Nat) : RowContent :=
  match s.table[r]? with
  | some e => contentOf s.cfg e p.evalTick p.wall
  | none => emptyContent

/-- The banner message a pass chooses (R96). -/
def bannerOf (s : State) : Banner :=
  if !s.cfg.configured then .notConfigured
  else if s.table.isEmpty then .noService
  else if !((s.table.take s.cfg.n).any (fun e => e.source = .live && !e.stale)) then .noLive
  else .blank

/-! ### Hysteresis -/

/-- The values of a candidate and a shown record when hysteresis applies: same key, both MINUTES, and every other field
equal (R105). Gives the candidate's m′ and the shown m. -/
def hysteresisCase (cand : RowContent) (shown : Option RowRecord) : Option (Nat × Nat) :=
  match shown with
  | some (.departure c) =>
    match cand.value, c.value with
    | .minutes m', .minutes m => if { cand with value := c.value } = c then some (m', m) else none
    | _, _ => none
  | some (.banner _) => none
  | none => none

/-- Whether the candidate's count is carried to the row (R105). -/
def carries (riseThreshold : Nat) (stage : Stage) (m' m : Nat) : Bool :=
  if m' = m then true
  else if m < m' then riseThreshold ≤ m' - m
  else
    match stage with
    | .full => true
    | .thrift => true
    | .scant => 2 ≤ m - m'
    | .frozen => true

/-- The desired record a pass of the given stage writes from a candidate (R105). -/
def desiredOf (c : Cfg) (stage : Stage) (cand : RowContent) (shown : Option RowRecord) : RowRecord :=
  match hysteresisCase cand shown with
  | some (m', m) => if carries c.riseThreshold stage m' m then .departure cand else shown.getD (.departure cand)
  | none => .departure cand

/-- Writes every desired record of a pass (R105). -/
def writeDesired (p : Pass) (s : State) : State :=
  { s with
    rows := s.rows.mapIdx (fun r row =>
      { row with
        desired := if r < s.cfg.n then desiredOf s.cfg p.stage (candidateContent s p r) row.shown
                   else .banner (bannerOf s) }) }

/-! ### Requests and the shown-row fields -/

/-- A row's desired record differs from its shown record (R97). -/
def Row.differs (row : Row) : Bool := row.shown ≠ some row.desired

/-- Raises the pending request of each row whose desired record differs from its shown record (R106). -/
def raiseDiffering (s : State) : State := s.mapRows (fun row => { row with pending := row.pending || row.differs })

/-- The shown record of a row carries the key. -/
def Row.carriesKey (k : Key) (row : Row) : Bool :=
  match row.shown with
  | some (.departure c) => c.key = some k
  | some (.banner _) => false
  | none => false

/-- The lowest departure row whose shown record carries the key (R107). -/
def shownRowOf (n : Nat) (rows : List Row) (k : Key) : Option Nat := (rows.take n).findIdx? (Row.carriesKey k)

/-- Brings every standing entry's shown-row field up to date (R107). -/
def updateShownRows (s : State) : State :=
  { s with table := s.table.map (fun e => { e with shownRow := shownRowOf s.cfg.n s.rows e.key }) }

/-! ### The freeze content -/

/-- Writes the freeze content into every desired record (R108). -/
def writeFreezeContent (s : State) : State :=
  { s with rows := s.rows.mapIdx (fun r row => { row with desired := freezeContent s.cfg.n r }) }

/-- What a stage change does at the row composer (R102, R108 to R110). The leaving of FROZEN arms the ORDINARY panel clear
of the pass it starts, or of the pass of the end of the fill period. -/
def composerStage (old new : Stage) (s : State) : State :=
  match new with
  | .frozen =>
    match s.composer.state with
    | .passing => s
    | .idle => { writeFreezeContent s with composer := { s.composer with state := .suspended } }
    | .suspended => writeFreezeContent s
  | .full | .thrift | .scant =>
    let s := if old = .frozen then { s with composer := { s.composer with clearArmed := true } } else s
    match s.composer.state with
    | .passing => { s with composer := { s.composer with passDue := true } }
    | .idle => startPass s
    | .suspended => if old = .frozen ∧ filling s = false then startPass s else s

end Sys2Proof.Machine
end

