-- ==== Sys2Proof/Machine/Energy.lean ====
section
/-! DEFINITION. The energy account (R170 to R191): credits and debits, the LOW clamp, the stage rules and the handing of a
stage change to the neighbours. The redraw request controller's part in a stage change is a parameter `ctl`, since an
abort hands the change to the controller later than the account takes it (R162); Machine/Drive.lean closes the circle. -/

namespace Sys2Proof.Machine

/-! ### The panel clear item -/

/-- A request for a panel clear (R114): ORDINARY leaves a present item as it was and is not recorded in FROZEN (R115);
FREEZE makes the item FREEZE. -/
def requestClear (k : ClearKind) (s : State) : State :=
  match k with
  | .freeze => s.setClearItem (some .freeze)
  | .ordinary =>
    if s.account.stage = .frozen then s
    else
      match s.ctl.clearItem with
      | none => s.setClearItem (some .ordinary)
      | some _ => s

/-- A FREEZE item is made absent (R117). -/
def discardFreeze (s : State) : State := if s.ctl.clearItem = some .freeze then s.setClearItem none else s

/-! ### The neighbours of a stage change (R183) -/

/-- The listening-window generator: a change to FULL ends the running period at once (R15). -/
def windowStage (new : Stage) (s : State) : State :=
  match new with
  | .full =>
    if s.rx.window.running then { s with rx := { s.rx with window := ⟨true, s.clock, .full, true⟩ } } else s
  | .thrift => s
  | .scant => s
  | .frozen => s

/-- The relay queue: a fall to SCANT or FROZEN abandons every entry, and an attempt it served ends (R34, R46). -/
def relayStage (old new : Stage) (s : State) : State :=
  if stageRank new < stageRank old ∧ stageRank new ≤ 1 then
    recheckAttempt (State.abandonRelays s.relayQ s)
  else s

/-- The freeze state a stage change leaves (R185, R188). -/
def freezeAfter (old new : Stage) (f : FreezeState) : FreezeState :=
  if new = .frozen then .pending else if old = .frozen then .none else f

/-- The part of the freeze that belongs to the controller's items: a change to FROZEN requests the FREEZE variant, and a
change out of FROZEN clears every mask and discards a FREEZE request (R117, R124, R185, R188). -/
def freezeStage (old new : Stage) (s : State) : State :=
  if new = .frozen then requestClear .freeze s
  else if old = .frozen then discardFreeze (s.setMasks false)
  else s

/-- One stage change (R183). While the blocks are held in a reset or a load, the account alone takes it (R194). -/
def stageChange (ctl : State → State) (new : Stage) (s : State) : State :=
  let old := s.account.stage
  let s := { s with account := { s.account with stage := new, freeze := freezeAfter old new s.account.freeze } }
  if active s then
    ctl (freezeStage old new (composerStage old new (relayStage old new (windowStage new s))))
  else s

/-- The rises of R182, one step at a time. -/
def stageRises (ctl : State → State) : Nat → State → State
  | 0, s => s
  | k + 1, s =>
    match riseOf s.cfg s.account.stage s.account.e with
    | some new => stageRises ctl k (stageChange ctl new s)
    | none => s

/-- The stage rules at a change of E (R181, R182): a fall to the band of E in one change, or rises. There are four stages,
so at most three rises. -/
def stageRules (ctl : State → State) (s : State) : State :=
  if stageRank (bandOfEnergy s.cfg s.account.e) < stageRank s.account.stage then
    stageChange ctl (bandOfEnergy s.cfg s.account.e) s
  else stageRises ctl 3 s

/-- A change of E (R174): the stage rules, and then the receiver's energy gate. Not taken while NOT STARTED (R170). -/
def changeEnergy (ctl : State → State) (e : Nat) (s : State) : State :=
  if s.account.running then receiverUpdate (stageRules ctl (s.setEnergy e)) else s

/-- A debit, saturating at 0 (R170). -/
def debit (ctl : State → State) (q : Nat) (s : State) : State := changeEnergy ctl (s.account.e - q) s

/-- A credit, saturating at C (R170). -/
def credit (ctl : State → State) (q : Nat) (s : State) : State :=
  changeEnergy ctl (min s.cfg.capacity (s.account.e + q)) s

/-- LOW at its assertion while RUNNING: LOW_EVENTS counts and E is clamped to T3 − 1 (R175). -/
def takeLow (ctl : State → State) (s : State) : State :=
  if s.account.running then
    let s := s.count .lowEvents
    changeEnergy ctl (min s.account.e (s.cfg.t3 - 1)) s
  else s

/-- The reservation is released with a debit at the same event: one change of E, after which the gate is tested once
(R179). -/
def releaseAndDebit (ctl : State → State) (q : Nat) (s : State) : State := debit ctl q (s.setReservation none)

end Sys2Proof.Machine
end

