-- ==== Sys2Proof/Machine/Drive.lean ====
section
/-! DEFINITION. The redraw request controller (R112 to R127), the panel drive engine (R128 to R154) and the drive fault
monitor (R155 to R169). A grant can be cut at its first instant by a PFAULT held asserted, and the controller then
selects again (section 8.9), so selection and abort call each other. Each abort raises the consecutive abort count and the
third enters LOCKOUT, so the circle is closed by `select` with a bound on its depth. -/

namespace Sys2Proof.Machine

/-! ### Bands, waveforms and frames -/

/-- The band of a temperature (Table 7-3). -/
def bandOfTemp (t : Int) : Band :=
  if t ≤ -21 then .noDriveCold
  else if t ≤ -11 then .b0
  else if t ≤ -1 then .b1
  else if t ≤ 9 then .b2
  else if t ≤ 24 then .b3
  else if t ≤ 39 then .b4
  else if t ≤ 54 then .b5
  else .noDriveHot

/-- The band forbids drive (R133). -/
def noDrive (b : Band) : Bool := b = .noDriveCold || b = .noDriveHot

/-- FULL frame counts f1..f4 of a band (Table 7-3). -/
def fullCounts : Band → Nat × Nat × Nat × Nat
  | .noDriveCold => (0, 0, 0, 0)
  | .b0 => (12, 12, 12, 16)
  | .b1 => (8, 8, 8, 12)
  | .b2 => (6, 6, 6, 8)
  | .b3 => (4, 4, 4, 6)
  | .b4 => (3, 3, 3, 5)
  | .b5 => (3, 3, 3, 4)
  | .noDriveHot => (0, 0, 0, 0)

/-- PARTIAL frame counts g1, g2 of a band (Table 7-3). PARTIAL is not allowed in B0 and B1 (R134). -/
def partialCounts : Band → Nat × Nat
  | .b2 => (10, 4)
  | .b3 => (8, 3)
  | .b4 => (6, 2)
  | .b5 => (5, 2)
  | .noDriveCold => (0, 0)
  | .b0 => (0, 0)
  | .b1 => (0, 0)
  | .noDriveHot => (0, 0)

/-- The frames of a phase (R139, R140). -/
def phaseFrames (w : Waveform) (b : Band) (p : Phase) : Nat :=
  match w, p with
  | .full, .invert => (fullCounts b).1
  | .full, .black => (fullCounts b).2.1
  | .full, .white => (fullCounts b).2.2.1
  | .full, .write => (fullCounts b).2.2.2
  | .full, .rest => 2
  | .full, .reinforce => 0
  | .partialWave, .write => (partialCounts b).1
  | .partialWave, .reinforce => (partialCounts b).2
  | .partialWave, .rest => 2
  | .partialWave, .invert => 0
  | .partialWave, .black => 0
  | .partialWave, .white => 0

/-- The first phase of a waveform (Tables 7-4, 7-5). -/
def firstPhase : Waveform → Phase
  | .full => .invert
  | .partialWave => .write

/-- The phase after a phase (Tables 7-4, 7-5). None after REST. -/
def nextPhase : Waveform → Phase → Option Phase
  | .full, .invert => some .black
  | .full, .black => some .white
  | .full, .white => some .write
  | .full, .write => some .rest
  | .full, .reinforce => some .rest
  | .full, .rest => none
  | .partialWave, .write => some .reinforce
  | .partialWave, .reinforce => some .rest
  | .partialWave, .rest => none
  | .partialWave, .invert => some .write
  | .partialWave, .black => some .write
  | .partialWave, .white => some .write

/-- Drive levels (R138). -/
inductive Level where
  | positive
  | negative
  | ground
deriving DecidableEq, Repr

/-- The drive levels of the three classes in a phase. Absent for a class that the phase does not use: no pixel is in it, and the
tables give it no level (notes/assumptions/38.md). -/
structure ClassLevels where
  class0 : Option Level
  class1 : Option Level
  class2 : Option Level
deriving DecidableEq, Repr

/-- The levels of a phase (Tables 7-4, 7-5). -/
def phaseLevels : Waveform → Phase → ClassLevels
  | .full, .invert => ⟨none, some .negative, some .positive⟩
  | .full, .black => ⟨none, some .positive, some .positive⟩
  | .full, .white => ⟨none, some .negative, some .negative⟩
  | .full, .write => ⟨none, some .positive, some .negative⟩
  | .full, .rest => ⟨some .ground, none, none⟩
  | .partialWave, .write => ⟨some .ground, some .positive, some .negative⟩
  | .partialWave, .reinforce => ⟨some .ground, some .positive, some .negative⟩
  | .partialWave, .rest => ⟨some .ground, some .ground, some .ground⟩
  | .full, .reinforce => ⟨none, none, none⟩
  | .partialWave, .invert => ⟨none, none, none⟩
  | .partialWave, .black => ⟨none, none, none⟩
  | .partialWave, .white => ⟨none, none, none⟩

/-- A level reverses polarity (R142). -/
def reverses (a b : Option Level) : Bool :=
  (a = some .positive && b = some .negative) || (a = some .negative && b = some .positive)

/-- A dead gap is placed between frames of two phases: a class's level reverses (R142). -/
def gapBetween (w : Waveform) (p q : Phase) : Bool :=
  let a := phaseLevels w p
  let b := phaseLevels w q
  reverses a.class0 b.class0 || reverses a.class1 b.class1 || reverses a.class2 b.class2

/-- Drive frames Fd of a waveform in a band (R139, R140). -/
def driveFrames (w : Waveform) (b : Band) : Nat :=
  match w with
  | .full => (fullCounts b).1 + (fullCounts b).2.1 + (fullCounts b).2.2.1 + (fullCounts b).2.2.2
  | .partialWave => (partialCounts b).1 + (partialCounts b).2

/-- The cost of a refresh for counts of drive and ground frames (R144, R158). -/
def frameCost (n : Nat) (x : Refresh) (fd fg : Nat) : Nat :=
  match x with
  | .row _ => 20 + 4 * fd + fg
  | .clear _ => 40 + (n + 1) * (4 * fd + fg)

/-- The cost of a refresh (R144). Both waveforms have two ground frames. -/
def refreshCost (n : Nat) (x : Refresh) (w : Waveform) (b : Band) : Nat := frameCost n x (driveFrames w b) 2

/-! ### The panel bus message of a frame (R138 to R140) -/

/-- The classes a pixel can have in a frame (R138). -/
inductive PixelClass where
  | class0
  | class1
  | class2
deriving DecidableEq, Repr

/-- A record is a blank row, which renders all white (R138). -/
def isBlank : RowRecord → Bool
  | .departure c => c.value = .empty
  | .banner m => m = .blank

/-- A record without the entry key, which is not drawn (Table 5-1). -/
def drawnFields : RowRecord → RowRecord
  | .departure c => .departure { c with key := none }
  | .banner m => .banner m

/-- Whether a pixel of a record's image is black (R138), by its drawn fields. The rendering is the panel's (`Config.ink`). -/
def inkAt (x : RowRecord) (i : Nat) : Bool := if isBlank x then false else Config.ink (drawnFields x) i

/-- The current image of a row: the image of its shown record, or all white (R138). -/
def currentInk (row : Row) (i : Nat) : Bool := (row.shown.map (inkAt · i)).getD false

/-- The target image of a row: the image of its drawing record (R138). -/
def targetInk (row : Row) (i : Nat) : Bool := (row.drawing.map (inkAt · i)).getD false

/-- The class of a pixel in a phase: by Table 7-4 for FULL, and for PARTIAL, REST included, unchanged, changed to black or
changed to white (Table 7-5). -/
def pixelClass (w : Waveform) (p : Phase) (current target : Bool) : PixelClass :=
  match w, p with
  | .full, .rest => .class0
  | .full, .write => if target then .class1 else .class2
  | .full, .invert | .full, .black | .full, .white | .full, .reinforce => if current then .class1 else .class2
  | .partialWave, _ => if current = target then .class0 else if target then .class1 else .class2

/-- A frame's message: the row selected, the class map and the level of each class (R138). -/
structure FrameMessage where
  row : Nat
  classes : List PixelClass
  levels : ClassLevels
deriving DecidableEq, Repr

/-- The message of the frame on the panel bus, when one is driven (R138). -/
def frameMessage (s : State) : Option FrameMessage :=
  match s.engine.bus, s.engine.waveform with
  | .driving r p, some w =>
    (s.rows[r]?).map (fun row =>
      { row := r
        classes := (List.range Config.rowPixels).map (fun i => pixelClass w p (currentInk row i) (targetInk row i))
        levels := phaseLevels w p })
  | _, _ => none

/-! ### The controller -/

/-- The controller enters HELD with its retry timer at 480 ticks (R125). -/
def enterHeld (s : State) : State := { s with ctl := { s.ctl with state := .held, retry := some 480 } }

/-- The controller leaves HELD for OPEN, its retry timer stopped (R126). -/
def leaveHeld (s : State) : State :=
  if s.ctl.state = .held then { s with ctl := { s.ctl with state := .opened, retry := none } } else s

/-- Departure row `r` can be selected: pending and not masked (R118). -/
def rowSelectable (s : State) (r : Nat) : Bool := (s.rows[r]?).any (fun row => row.pending && !row.mask)

/-- The departure rows from pointer + 1 on, counted modulo N, the pointer's own row last (R120). -/
def rotation (n pointer : Nat) : List Nat := (List.range n).map (fun i => (pointer + 1 + i) % n)

/-- What a selection takes: the panel clear, then the banner row, then the first departure row in rotation (R119). -/
def selection (s : State) : Option Refresh :=
  match s.ctl.clearItem with
  | some k => some (.clear k)
  | none =>
    if (s.rows[s.cfg.n]?).any (·.pending) then some (.row s.cfg.n)
    else ((rotation s.cfg.n s.ctl.pointer).find? (rowSelectable s)).map .row

/-- A row as the grant of its refresh leaves it (R121, R122). -/
def grantedRow (drawing : RowRecord) (row : Row) : Row :=
  { row with pending := false, inService := true, drawing := some drawing }

/-- The rows as a grant leaves them: the snapshot of the desired record, or the freeze content (R121, R122). -/
def grantRows (x : Refresh) (s : State) : State :=
  match x with
  | .row r => s.updateRow r (fun row => grantedRow row.desired row)
  | .clear .ordinary => s.mapRows (fun row => grantedRow row.desired row)
  | .clear .freeze => { s with rows := s.rows.mapIdx (fun r row => grantedRow (freezeContent s.cfg.n r) row) }

/-- The pointer after a grant (R120): a departure row's own number. -/
def pointerAfter (n pointer : Nat) : Refresh → Nat
  | .row r => if r < n then r else pointer
  | .clear _ => pointer

/-- The panel clear item after a grant (R122). -/
def itemAfter (item : Option ClearKind) : Refresh → Option ClearKind
  | .row _ => item
  | .clear _ => none

/-- A grant (R121, R122): the controller is GRANTED and the engine enters PREPARE with the refresh, its frame counts
0 (R128, R150). Band, waveform, cost and position stay absent until the steps of PREPARE that set them (the model's choice,
notes/assumptions/37.md). -/
def grant (x : Refresh) (s : State) : State :=
  let s := grantRows x s
  { s with
    ctl := { s.ctl with
      state := .granted
      clearItem := itemAfter s.ctl.clearItem x
      pointer := pointerAfter s.cfg.n s.ctl.pointer x
      grantPointer := s.ctl.pointer }
    engine := { s.engine with state := .prepare, refresh := some x, counts := some (0, 0) } }

/-! ### Ends of a refresh -/

/-- The engine without a refresh, in the state given: outputs grounded, frame clock stopped, the items of the refresh
absent; the reading and the last band are kept (R128, R129, R131). -/
def Engine.ended (st : EngineState) (e : Engine) : Engine :=
  { e with
    state := st
    refresh := none
    band := none
    waveform := none
    cost := none
    position := none
    counts := none
    frameClock := .stopped
    bus := .grounded }

/-- A row whose grant has ended: not in service, its drawing record absent. -/
def Row.released (row : Row) : Row := { row with inService := false, drawing := none }

/-- A row whose grant is withdrawn: pending again (R125). -/
def Row.withdrawn (row : Row) : Row := { row.released with pending := true }

/-- The causes of a refusal (R125). -/
inductive RefusalCause where
  | noDriveBand
  | energyShort
  | droop
deriving DecidableEq, Repr

/-- The grant is withdrawn: flags, drawing records, pointer, and the engine IDLE (R125 items 1, 2 and 4). -/
def withdraw (x : Refresh) (s : State) : State :=
  let s := s.onRefresh x Row.withdrawn
  { s with
    ctl := { s.ctl with pointer := s.ctl.grantPointer }
    engine := s.engine.ended .idle }

/-- The freeze is skipped (R125, R186): the item absent, the freeze state FREEZE_SKIPPED, the departure rows masked. -/
def skipFreeze (s : State) : State :=
  let s := (s.setClearItem none).setMasks true
  { s with account := { s.account with freeze := .skipped } }

/-- A refusal at PREPARE (R125): the grant is withdrawn whole and the controller HELD. The panel clear request is made
again, but for a FREEZE that is skipped or whose stay in FROZEN has ended. Whether the stage is FROZEN is read at the refusal:
a FREEZE granted in an earlier stay is settled as one of the present stay (R125, R186; the model's choice,
notes/assumptions/36.md). -/
def refuse (cause : RefusalCause) (x : Refresh) (s : State) : State :=
  let s := withdraw x s
  match x with
  | .row _ => enterHeld s
  | .clear .ordinary => enterHeld (requestClear .ordinary s)
  | .clear .freeze =>
    if s.account.stage = .frozen then
      if cause = .energyShort then enterHeld (skipFreeze s) else enterHeld (requestClear .freeze s)
    else enterHeld s

/-- A row cut in DRIVE or by a reset is indeterminate (R157, R154). -/
def Row.cut (row : Row) : Row := if row.inService then { row with shown := none } else row

/-- The row number of the fault record (R159). -/
def recordRow : Refresh → Option Nat
  | .row r => some r
  | .clear _ => none

/-- The place of the cut in the fault record (R159). -/
def recordPlace (e : Engine) : Option (Waveform × Phase) :=
  match e.waveform, e.position with
  | some w, some p => some (w, p.phase)
  | _, _ => none

/-- The record an abort writes (R159); its droop-seen flag is clear. -/
def recordOf (cause : FaultCause) (x : Refresh) (e : Engine) : FaultRecord :=
  { cause := cause
    droopSeen := false
    row := recordRow x
    place := recordPlace e
    frame := (e.position.map (·.frame)).getD 0 }

/-- The prorated cost of an abort in DRIVE (R158). -/
def proratedCost (n : Nat) (x : Refresh) (e : Engine) : Nat :=
  match e.counts with
  | some (fd, fg) => frameCost n x fd fg
  | none => 0

/-- Items 1 to 5 of an abort (R162): for a cut in DRIVE the outputs are grounded, the rows in service become
indeterminate, the reservation is released and the prorated cost debited; for a NO_ANSWER nothing was driven. The stage
change of the debit does not reach the controller here. -/
def abortRows (driven : Bool) (x : Refresh) (s : State) : State :=
  let s := { s with engine := { s.engine with frameClock := .stopped, bus := .grounded } }
  if driven then
    releaseAndDebit id (proratedCost s.cfg.n x s.engine)
      (s.mapRows Row.cut |> updateShownRows |>.onRefresh x Row.released)
  else s.onRefresh x Row.released

/-- How many rows have an absent shown record (R161). -/
def indeterminateRows (s : State) : Nat := (s.rows.filter (fun row => row.shown.isNone)).length

/-- The panel clears an abort requests (R161, R167): ORDINARY for three or more indeterminate rows, and for a NO_ANSWER
that ends a panel clear settled as ORDINARY; FREEZE again for the freeze picture in FROZEN. -/
def abortClears (driven : Bool) (x : Refresh) (s : State) : State :=
  let freezes := x = .clear .freeze && s.account.stage = .frozen
  let clears := 3 ≤ indeterminateRows s || (!driven && (match x with | .clear _ => true | .row _ => false))
  let s := if clears then requestClear .ordinary s else s
  if freezes then requestClear .freeze s else s

/-- An abort (R156 to R162, R165 to R167), with `sel` the selection an OPEN controller makes. The stage change of the
debit reaches the controller after item 9, and after all that the selection of item 9 brings about within the step: it releases
also a HELD that this selection's own grant has led to (the model's choice, notes/assumptions/40.md). Whether the stage is FROZEN
(R123, R167) is read after the debit (the model's choice, notes/assumptions/43.md). -/
def abortWith (sel : State → State) (cause : FaultCause) (x : Refresh) (s : State) : State :=
  let driven := cause ≠ .noAnswer
  let record := recordOf cause x s.engine
  let stage0 := s.account.stage
  let s := abortRows driven x s
  let changed := s.account.stage ≠ stage0
  let s := s.count .drawAborted
  let locked := 3 ≤ s.monitor.aborts + 1
  let s := { s with monitor :=
    { record := record
      aborts := s.monitor.aborts + 1
      lockout := if locked then some 2400 else s.monitor.lockout } }
  let s := abortClears driven x (s.onRefresh x (fun row => { row with pending := row.pending || row.differs }))
  let frozenFreeze := x = .clear .freeze ∧ s.account.stage = .frozen
  let s := { s with engine := s.engine.ended (if locked then .lockout else .idle) }
  let s := if locked ∨ frozenFreeze then enterHeld s
           else sel { s with ctl := { s.ctl with state := .opened } }
  if changed then sel (leaveHeld s) else s

/-! ### PREPARE -/

/-- The reading in hand serves a PREPARE (R131). -/
def readingServes (r : Reading) (now : Tick) : Bool := !r.old && tickDiff now r.tick < 480

/-- The waveform of a refresh (R134). -/
def waveformOf (s : State) (x : Refresh) (b : Band) : Waveform :=
  match x with
  | .clear _ => .full
  | .row r =>
    match s.rows[r]? with
    | some row =>
      if row.shown.isNone || decide (s.cfg.partialLimit ≤ row.partialCount) || decide (b = .b0) || decide (b = .b1) then
        .full
      else .partialWave
    | none => .full

/-- The reservation test (R178): against E for the freeze picture, against E − B otherwise. -/
def reservationPasses (s : State) (x : Refresh) (cost : Nat) : Bool :=
  if x = .clear .freeze then cost ≤ s.account.e else (cost : Int) ≤ spendable s

/-- The row of the first frame: the granted row, or row 0 of a panel clear (R141). -/
def firstRow : Refresh → Nat
  | .row r => r
  | .clear _ => 0

/-- Entry to DRIVE (R137): band and waveform latched, counts 0, the position at the first frame, the frame clock started. -/
def enterDrive (x : Refresh) (w : Waveform) (b : Band) (s : State) : State :=
  { s with
    engine := { s.engine with
      state := .drive
      band := some b
      waveform := some w
      position := some ⟨firstPhase w, 1, firstRow x, false⟩
      counts := some (0, 0)
      frameClock := .running
      bus := .driving (firstRow x) (firstPhase w) } }

/-- An input already asserted at the entry to DRIVE counts as asserted there (R155). -/
def entryFault (p : Pins) : Option FaultCause := if p.pfault then some .pfault else if p.droop then some .droop else none

/-- Steps 4 to 7 of PREPARE (R130, R135 to R137, R144) for a drivable band. -/
def reserveWith (sel : State → State) (x : Refresh) (b : Band) (s : State) : State :=
  let w := waveformOf s x b
  let cost := refreshCost s.cfg.n x w b
  let s := { s with engine := { s.engine with cost := some cost } }
  if s.pins.droop then
    refuse .droop x { s with monitor := { s.monitor with record := { s.monitor.record with droopSeen := true } } }
  else if reservationPasses s x cost then
    let s := enterDrive x w b (receiverUpdate (s.setReservation (some cost)))
    match entryFault s.pins with
    | some cause => abortWith sel cause x s
    | none => s
  else refuse .energyShort x s

/-- PREPARE from band determination on (R130 steps 2 to 7, R133), with a temperature in hand. -/
def prepareWith (sel : State → State) (x : Refresh) (degrees : Int) (s : State) : State :=
  let b := bandOfTemp degrees
  let s := { s with engine := { s.engine with lastBand := some b } }
  if noDrive b then refuse .noDriveBand x s else reserveWith sel x b s

/-- PREPARE from a grant on (R130): the reading in hand serves, or a temperature read is waited for. -/
def beginPrepareWith (sel : State → State) (x : Refresh) (s : State) : State :=
  match s.engine.reading with
  | some r => if readingServes r s.clock then prepareWith sel x r.degrees s else s
  | none => s

/-- A selection, made when the controller is OPEN, the engine IDLE and a request selectable (R118). -/
def selectWith (sel : State → State) (s : State) : State :=
  if active s = true ∧ s.ctl.state = .opened ∧ s.engine.state = .idle then
    match selection s with
    | some x => beginPrepareWith sel x (grant x s)
    | none => s
  else s

/-- Selections, one inside another at most `depth` deep. -/
def selectDepth : Nat → State → State
  | 0, s => s
  | k + 1, s => selectWith (selectDepth k) s

/-- A selection. A selection inside another follows an abort, and the third abort in a row enters LOCKOUT, so four
levels are enough. -/
def select (s : State) : State := selectDepth 4 s

/-- What a stage change does at the controller: it leaves HELD, and a selection is made (R126). -/
def ctlStage (s : State) : State := select (leaveHeld s)

/-- A release from HELD, with its selection (R126). -/
def releaseHeld (s : State) : State := if s.ctl.state = .held then select (leaveHeld s) else s

end Sys2Proof.Machine
end

