-- ==== Sys2Proof/Machine/Maintain.lean ====
section
/-! DEFINITION. The maintenance responder (R206 to R214): how a request leaves its receive buffer, the tests that decide
its result, the reply and its queue, and the five commands that answer an accepted request. -/

namespace Sys2Proof.Machine

/-! ### The reply and its queue -/

/-- The transmit arbiter is told of a candidate that may be ready: an attempt starts when the unit is IDLE, and the receiver
follows the carrier-sense request that is then held (R27, R29). -/
def offerCandidate (s : State) : State := receiverFollow (startAttempt s)

/-- The reply to a request (R207). -/
def replyFrame (s : State) (origin seq : Word16) (echo : Nat) (r : Result) (payload : List Byte) : List Byte :=
  buildFrame s.cfg.networkKey 5 1 s.cfg.ownId s.maint.seq 0 origin []
    (withBodyCheck (natByte echo :: natByte (resultCode r) :: (word16Bytes seq ++ payload)))

/-- A reply is built and joins the queue, and the reply sequence counter rises (R207, R208). -/
def State.joinReply (origin seq : Word16) (echo : Nat) (r : Result) (payload : List Byte) (s : State) : State :=
  { s with maint := { s.maint with
      replies := s.maint.replies ++ [⟨replyFrame s origin seq echo r payload, 0⟩]
      seq := s.maint.seq + 1 } }

/-- The reply queue holds its 2 replies (R206 item 1). -/
def replyQueueFull (s : State) : Bool := 2 ≤ s.maint.replies.length

/-- A refusal made by the validation chain for a request (R206 item 2, R207): its echo is 0. -/
def refuseRequest (origin seq : Word16) (r : Result) (s : State) : State :=
  if replyQueueFull s then s else offerCandidate (s.joinReply origin seq 0 r [])

/-! ### An accepted request -/

/-- An accepted STATUS REQUEST (R12, R23). -/
structure Request where
  origin : Word16
  seq : Word16
  key : Word16
  code : Nat
  arg : Nat
deriving DecidableEq, Repr

/-- The contents of a receive buffer. -/
def bufferOf (s : State) : BufId → Option RxBuffer
  | .a => s.rx.bufA
  | .b => s.rx.bufB

/-- The request that a list of received bytes holds, if it is one. -/
def requestOf (l : List Byte) : Option Request :=
  let f := readFrame l
  if f.kind = 4 then
    match readBody 4 f.body with
    | some (.request key code arg) => some ⟨f.origin, f.seq, key, code, arg⟩
    | some _ => none
    | none => none
  else none

/-- The first accepted request, in the order of the end events, whose code meets `p`, with its buffer. -/
def findRequest (p : Nat → Bool) (s : State) : Option (BufId × Request) :=
  s.rx.accepted.findSome? (fun id =>
    match (bufferOf s id).bind (fun b => requestOf b.bytes) with
    | some q => if p q.code then some (id, q) else none
    | none => none)

/-- The dispatch of an accepted frame is complete: its buffer is free (R17, R23). -/
def State.takeBuffer (id : BufId) (s : State) : State :=
  let s := s.freeBuffer id
  { s with rx := { s.rx with accepted := s.rx.accepted.filter (· ≠ id) } }

/-- What carrying a request out gives: the state after its effect, its result and its payload. -/
structure Served where
  state : State
  result : Result
  payload : List Byte

/-- An accepted request is answered (R206): dropped when the queue is full, DENIED on a key mismatch, and otherwise
carried out by `serve`. -/
def answer (serve : Request → State → Served) (q : Request) (s : State) : State :=
  if replyQueueFull s then s
  else if q.key ≠ s.cfg.maintenanceKey then offerCandidate (s.joinReply q.origin q.seq q.code .denied [])
  else
    let r := serve q s
    offerCandidate (r.state.joinReply q.origin q.seq q.code r.result r.payload)

/-- The responder takes the accepted request whose code meets `p` (R23 item 2, R206). Without one nothing changes
(notes/assumptions/3.md). -/
def takeRequest (p : Nat → Bool) (serve : Request → State → Served) (s : State) : State :=
  match findRequest p s with
  | some (id, q) => answer serve q (s.takeBuffer id)
  | none => s

/-! ### STATUS (R209, Table 11-2) -/

/-- The temperature byte: the last reading, signed, or 0x80 (R152). -/
def temperatureByte (r : Option Reading) : Byte :=
  match r with
  | some x => BitVec.ofInt 8 x.degrees
  | none => 0x80

/-- The 56-byte payload of Table 11-2, as the state stands. -/
def statusPayload (s : State) : List Byte :=
  [natByte (stageCode s.account.stage + 16 * freezeCode s.account.freeze)]
    ++ nat32Bytes s.account.e
    ++ [natByte ((s.engine.lastBand.map bandCode).getD 0xFF), temperatureByte s.engine.reading,
        natByte s.table.length, natByte s.seen.length, natByte s.relayQ.length,
        natByte (engineCode s.engine.state), natByte s.monitor.aborts]
    ++ faultBytes s.monitor.record
    ++ (countersList s.maint.counters).flatMap nat16Bytes

/-! ### TABLE (R210, Table 11-4) -/

/-- A bit of weight `w`. -/
def bitOf (b : Bool) (w : Nat) : Nat := if b then w else 0

/-- The flags byte of a TABLE entry. -/
def tableFlags (e : DepEntry) : Nat :=
  bitOf e.key.dir 1 + bitOf (e.source = .live) 2 + bitOf (e.state = .cancelled) 4 + bitOf e.stale 8

/-- The notes byte of a TABLE entry: 0 when absent or empty. -/
def notesByte (n : Option Notes) : Nat :=
  match n with
  | some x => bitOf x.lastTrip 1 + bitOf x.stepFree 2 + bitOf x.shortWorking 4
  | none => 0

/-- The ten bytes of a TABLE entry at the tick of acceptance. -/
def tableEntryBytes (now : Tick) (e : DepEntry) : List Byte :=
  nat16Bytes e.key.route ++ [natByte (tableFlags e)] ++ nat16Bytes e.key.trip
    ++ word16Bytes (BitVec.ofInt 16 (remSeconds e.d now))
    ++ [natByte (e.bay.getD 0), natByte (notesByte e.notes), natByte (e.shownRow.getD 0xFF)]

/-- The payload of TABLE from a start index: up to six entries in table order. -/
def tablePayload (s : State) (start : Nat) : List Byte :=
  ((s.table.drop start).take 6).flatMap (tableEntryBytes s.clock)

/-! ### What each request does -/

/-- STATUS (R209). -/
def serveStatus (_q : Request) (s : State) : Served := ⟨s, .ok, statusPayload s⟩

/-- TABLE (R210). -/
def serveTable (q : Request) (s : State) : Served :=
  if s.table.length ≤ q.arg then ⟨s, .badRange, []⟩ else ⟨s, .ok, tablePayload s q.arg⟩

/-- CLEAR (R211). -/
def serveClear (_q : Request) (s : State) : Served :=
  ⟨{ s with maint := { s.maint with counters := .zero } }, .ok, []⟩

/-- REFRESH (R212): STAGE in FROZEN; otherwise an ORDINARY panel clear is requested, and the controller selects when it
can (R115, R118). -/
def serveRefresh (_q : Request) (s : State) : Served :=
  if s.account.stage = .frozen then ⟨s, .stage, []⟩ else ⟨select (requestClear .ordinary s), .ok, []⟩

/-- A request code that is not 1, 2, 3 or 4 (R206 item 4). -/
def serveUnknown (_q : Request) (s : State) : Served := ⟨s, .unknown, []⟩

/-! ### The commands -/

/-- STATUS_REQUEST (R206, R209). -/
def execStatusRequest (s : State) : Host.Outcome State Fault Refusal :=
  .next (takeRequest (fun c => c = 1) serveStatus s)

/-- TABLE_REQUEST (R206, R210). -/
def execTableRequest (s : State) : Host.Outcome State Fault Refusal :=
  .next (takeRequest (fun c => c = 2) serveTable s)

/-- CLEAR_REQUEST (R206, R211). -/
def execClearRequest (s : State) : Host.Outcome State Fault Refusal :=
  .next (takeRequest (fun c => c = 3) serveClear s)

/-- REFRESH_REQUEST (R206, R212). -/
def execRefreshRequest (s : State) : Host.Outcome State Fault Refusal :=
  .next (takeRequest (fun c => c = 4) serveRefresh s)

/-- UNKNOWN_REQUEST_CODE (R206): a request with a code outside 1..4. -/
def execUnknownRequestCode (s : State) : Host.Outcome State Fault Refusal :=
  .next (takeRequest (fun c => !(1 ≤ c && c ≤ 4)) serveUnknown s)

end Sys2Proof.Machine
end

