-- ==== Sys2Proof/Machine/Air.lean ====
section
/-! DEFINITION. The air receiver (R1 to R5, R17 to R23): sync hunting, the length byte, the characters of a frame, its end
event and the validation chain, and the dispatch of an accepted departure frame. -/

namespace Sys2Proof.Machine

/-! ### Receive buffers -/

/-- Applies `f` to a taken receive buffer. -/
def State.updateBuffer (id : BufId) (f : RxBuffer → RxBuffer) (s : State) : State :=
  match id with
  | .a => { s with rx := { s.rx with bufA := s.rx.bufA.map f } }
  | .b => { s with rx := { s.rx with bufB := s.rx.bufB.map f } }

/-- Assigns the frame that begins a receive buffer, A before B, or makes it an overrun frame (R3). -/
def assignBuffer (s : State) : State × RxTarget :=
  match s.rx.bufA, s.rx.bufB with
  | none, _ => ({ s with rx := { s.rx with bufA := some ⟨[], none⟩ } }, .buffer .a)
  | some _, none => ({ s with rx := { s.rx with bufB := some ⟨[], none⟩ } }, .buffer .b)
  | some _, some _ => (s.count .rxOverrun, .overrun)

/-- The second sync byte of a frame (R3): a buffer is assigned, and the gap measurement and the character-error mark of
the frame begin afresh (R5). -/
def beginFrame (s : State) : State :=
  let r := assignBuffer s
  { r.1 with rx := { r.1.rx with
      state := .receiving, firstSync := false, reception := .length r.2, charError := false } }

/-- Stores a character of the frame in its buffer; those of an overrun frame are stored nowhere (R3). -/
def State.storeChar (target : RxTarget) (ch : Byte) (s : State) : State :=
  match target with
  | .buffer id => s.updateBuffer id (fun b => { b with bytes := b.bytes ++ [ch] })
  | .overrun => s

/-- The state of the reception in progress. -/
def State.setReception (r : Reception) (s : State) : State := { s with rx := { s.rx with reception := r } }

/-- A frame is discarded or dropped with its counter, and its buffer is freed (R17, R18). -/
def State.drop (id : BufId) (k : Counter) (s : State) : State := (s.freeBuffer id).count k

/-! ### The validation chain from step 3 on (R18 to R23) -/

/-- Kinds 0 and 6..15 are unknown, and a trail count of 5..7 is a format error (R6, R18 step 5). -/
def Frame.badFormat (f : Frame) : Bool := !(decide (1 ≤ f.kind) && decide (f.kind ≤ 5)) || decide (5 ≤ f.trailCount)

/-- The interest filter skips the frame (R20). -/
def skips (s : State) (f : Frame) : Bool :=
  if f.isDeparture then
    !inInterest s.cfg f.route f.dir && !stagePermits s.account.stage (inInterest s.cfg f.route f.dir)
  else if f.kind = 4 then decide (f.subject ≠ s.cfg.ownId) && decide (f.subject ≠ 0xFFFF)
  else false

/-- Step 9 leaves a key DAMAGED: a new entry, or the DAMAGED entry found at step 7 as it is (R21, R37). -/
def State.markDamaged (f : Frame) (s : State) : State :=
  match findSeen f.origin f.seq s.seen with
  | none => { s with seen := createSeen ⟨f.origin, f.seq, .damaged, 0, s.clock, false⟩ s.seen }
  | some _ => s

/-- Steps 10 and 11 leave a key HEARD (R22, R23, R37). -/
def State.markHeard (f : Frame) (pend : Bool) (s : State) : State :=
  { s with seen := makeSeen f.origin f.seq .heard s.clock pend s.seen }

/-- A refusal is handed to the responder when the frame is a request (R21, R22). -/
def refuseIfRequest (f : Frame) (r : Result) (s : State) : State :=
  if f.kind = 4 then refuseRequest f.origin f.seq r s else s

/-- An accepted departure frame or request stays in its buffer, its dispatch to come (R17, R23). -/
def State.holdAccepted (id : BufId) (s : State) : State :=
  let s := s.updateBuffer id (fun b => { b with endTick := some s.clock })
  { s with rx := { s.rx with accepted := s.rx.accepted ++ [id] } }

/-- Step 11 (R23). A frame of kind 5 is dropped once its seen entry is made. -/
def acceptFrame (id : BufId) (f : Frame) (s : State) : State :=
  let s := (s.count .rxOk).markHeard f f.isDeparture
  if f.kind = 5 then s.freeBuffer id else s.holdAccepted id

/-- Steps 8 to 11 for a first copy (R20 to R23). -/
def firstCopy (id : BufId) (f : Frame) (s : State) : State :=
  if skips s f then s.drop id .rxSkipped
  else if !f.bodyOk then refuseIfRequest f .bodyCheck ((s.drop id .rxBody).markDamaged f)
  else
    match readBody f.kind f.body with
    | none => refuseIfRequest f .badLength ((s.drop id .rxBody).markHeard f false)
    | some _ => acceptFrame id f s

/-- Step 7 (R19): a key held in a state other than DAMAGED makes the frame a duplicate. -/
def lookupSeen (id : BufId) (f : Frame) (s : State) : State :=
  match findSeen f.origin f.seq s.seen with
  | some e =>
    if e.state = .damaged then firstCopy id f s
    else recheckAttempt ((s.drop id .rxDuplicate).duplicate e)
  | none => firstCopy id f s

/-- Steps 3 to 11 over the bytes of a buffer (R18 to R23). -/
def validate (id : BufId) (l : List Byte) (s : State) : State :=
  let f := readFrame l
  if !f.wellPlaced || !headerOk l then s.drop id .rxHeader
  else if f.networkKey ≠ s.cfg.networkKey then s.drop id .rxForeign
  else if f.badFormat then s.drop id .rxHeader
  else if f.origin = s.cfg.ownId then s.drop id .rxDuplicate
  else lookupSeen id f s

/-! ### Characters -/

/-- The normal end of a frame (R5): the receiver leaves RECEIVING by `leave` and the chain goes on with step 2. -/
def frameEndBy (leave : State → State) (target : RxTarget) (s : State) : State :=
  match target with
  | .overrun => leave s
  | .buffer id =>
    if s.rx.charError then leave (s.drop id .rxChar)
    else
      match bufferOf s id with
      | some b => validate id b.bytes (leave s)
      | none => leave s

/-- The normal end of a frame, the receiver to LISTEN or OFF (R5, R13). -/
def frameEnd (target : RxTarget) (s : State) : State := frameEndBy leaveToListen target s

/-- The last character of a frame joins it, with its error mark (R5). -/
def State.joinCharacter (target : RxTarget) (ch : Byte) (err : Bool) (s : State) : State :=
  let s := s.storeChar target ch
  { s with rx := { s.rx with charError := s.rx.charError || err } }

/-- A length failure at step 1 (R4): the buffer is freed and the next L characters are skipped; a length byte of 0 ends
the skip at once. -/
def lengthFailure (target : RxTarget) (len : Nat) (s : State) : State :=
  let s := match target with
    | .buffer id => s.drop id .rxLength
    | .overrun => s
  if len = 0 then leaveToListen s else s.setReception (.skip len)

/-- The length byte (R4). -/
def takeLength (target : RxTarget) (ch : Byte) (err : Bool) (s : State) : State :=
  if 13 ≤ ch.toNat ∧ ch.toNat ≤ 96 then
    let s := (s.storeChar target ch).setReception (.body target ch.toNat)
    { s with rx := { s.rx with charError := err } }
  else lengthFailure target ch.toNat s

/-- A character of a frame after its length byte (R5); `left` of them are expected, this one with them. -/
def takeBody (target : RxTarget) (left : Nat) (ch : Byte) (err : Bool) (s : State) : State :=
  let s := s.joinCharacter target ch err
  if left ≤ 1 then frameEnd target s else s.setReception (.body target (left - 1))

/-- Sync hunting in LISTEN (R2). -/
def hunt (ch : Byte) (err : Bool) (s : State) : State :=
  if err = false ∧ ch = 0xC3 then { s with rx := { s.rx with firstSync := true } }
  else if err = false ∧ ch = 0x3C ∧ s.rx.firstSync = true then beginFrame s
  else { s with rx := { s.rx with firstSync := false } }

/-- A character in RECEIVING (R4, R5). -/
def receive (ch : Byte) (err : Bool) (s : State) : State :=
  match s.rx.reception with
  | .none => s
  | .length target => takeLength target ch err s
  | .body target left => takeBody target left ch err s
  | .skip left => if left ≤ 1 then leaveToListen s else s.setReception (.skip (left - 1))

/-- A character from the modem (R2 to R5). In OFF and TRANSMITTING no character is taken (Table 1-3). -/
def takeCharacter (ch : Byte) (err : Bool) (s : State) : State :=
  match s.rx.state with
  | .listen => hunt ch err s
  | .receiving => receive ch err s
  | .off => s
  | .transmitting => s

/-- Where the frame in reception goes that lacks its last character alone. -/
def lacksLast (s : State) : Option RxTarget :=
  match s.rx.state, s.rx.reception with
  | .receiving, .body target 1 => some target
  | _, _ => none

/-- A step `act` that can assert TXEN, and a character that ends at the same instant and is taken behind it. An assertion that
does not come before a frame's last character does not end the frame early (R5): the frame ends normally, with the receiver in
TRANSMITTING, and a request among such frames finds the place that the reply sent has left (R208, notes/assumptions/41.md). -/
def withCharacter (ch : Byte) (err : Bool) (act : State → State) (s : State) : State :=
  match lacksLast s, (act s).rx.state with
  | some target, .transmitting => frameEndBy (fun u => act u.clearReception) target (s.joinCharacter target ch err)
  | _, _ => takeCharacter ch err (act s)

/-- The early end of a frame or a skip in RECEIVING, by a gap or by the deassertion of CD (R4, R5, R18 step 2). -/
def endEarly (s : State) : State :=
  if s.rx.state = .receiving then
    match s.rx.reception with
    | .none => s
    | .length target => leaveToListen (s.discardCut target)
    | .body target _ => leaveToListen (s.discardCut target)
    | .skip _ => leaveToListen s
  else s

/-! ### The dispatch of a departure frame (R23) -/

/-- An accepted buffer that holds a departure frame. -/
def holdsDeparture (s : State) (id : BufId) : Bool :=
  (bufferOf s id).any (fun b => (readFrame b.bytes).isDeparture)

/-- Hands the frame of a buffer to the departure table and to the relay decision and frees the buffer (R23, R17). A relay
that is ready at once starts an attempt (R29, R43). -/
def dispatchBuffer (id : BufId) (s : State) : State :=
  match bufferOf s id with
  | some b =>
    let f := readFrame b.bytes
    let t := b.endTick.getD s.clock
    offerCandidate (((s.applyFrame f t).relayDecision f b.bytes t).takeBuffer id)
  | none => s.takeBuffer id

/-- Makes the dispatch of each buffer of a list, in its order. -/
def dispatchBuffers : List BufId → State → State
  | [], s => s
  | id :: rest, s => dispatchBuffers rest (dispatchBuffer id s)

/-- The dispatch of the first accepted departure frame, made when the table lock is free (R23, R70). The signal that it
set the wall reference reaches the composer (R83). -/
def dispatchFirst (s : State) : State :=
  if s.lock = .free then
    match s.rx.accepted.find? (holdsDeparture s) with
    | some id => takeWallSignal (dispatchBuffer id s)
    | none => s
  else s

/-! ### The commands -/

/-- SYNC_GAP_TIMEOUT (R2). -/
def execSyncGapTimeout (s : State) : Host.Outcome State Fault Refusal :=
  if s.rx.state = .listen then .next { s with rx := { s.rx with firstSync := false } } else .next s

/-- INTER_CHARACTER_GAP_TIMEOUT (R4, R5). -/
def execInterCharacterGapTimeout (s : State) : Host.Outcome State Fault Refusal := .next (endEarly s)

/-- FRAME_DISPATCH (R23). While the lock is held the dispatch waits (R70). -/
def execFrameDispatch (s : State) : Host.Outcome State Fault Refusal := .next (dispatchFirst s)

end Sys2Proof.Machine
end

