-- ==== Sys2Proof/Machine/Passes.lean ====
section
/-! DEFINITION. The completion of a composition pass with the release of the table lock (R70, R103 to R108), the end of the
composition period (R100) and the per-second sweep as a command (R67 to R69). -/

namespace Sys2Proof.Machine

/-- The composer is IDLE (Table 5-2). -/
def composerIdle (s : State) : Bool := s.composer.state = .idle

/-- The lock becomes FREE; the dispatches that wait are made in the order of their end events, and then the sweep that
waits (R69, R70). -/
def releaseLock (s : State) : State :=
  let s := { s with lock := .free }
  (dispatchBuffers (s.rx.accepted.filter (holdsDeparture s)) s).sweepDue

/-- The ORDINARY panel clear that a pass carries is handed over at its completion (R106, R115). -/
def handClear (p : Pass) (s : State) : State := if p.clear then requestClear .ordinary s else s

/-- What follows a completed pass (R102, R108): the freeze content and SUSPENDED in FROZEN, a pass that is due or that the
wall reference's setting calls for, or IDLE. The stage read is that of the completion: when FROZEN was entered and left again
within the pass, no freeze content is written (the model's choice, notes/assumptions/34.md). -/
def settleComposer (s : State) : State :=
  if s.account.stage = .frozen then
    let s := writeFreezeContent s
    { s with composer := { s.composer with state := .suspended, pass := none, wallSignal := false } }
  else if s.composer.passDue || s.composer.wallSignal then startPass s
  else { s with composer := { s.composer with state := .idle, pass := none } }

/-- The completion of a pass (R103): desired records, requests, shown-row fields, the release of the lock and the debit of
2 q; the composer then settles and the controller selects with the requests in place (R118). -/
def completePass (p : Pass) (s : State) : State :=
  let s := releaseLock (updateShownRows (handClear p (raiseDiffering (writeDesired p s))))
  select (settleComposer (debit ctlStage 2 s))

/-- PASS_COMPLETION (R103). -/
def execPassCompletion (s : State) : Host.Outcome State Fault Refusal :=
  if active s = true ∧ s.composer.state = .passing then
    match s.composer.pass with
    | some p => .next (completePass p s)
    | none => .next s
  else .next s

/-- The clock has reached the next-pass tick (R100). -/
def periodOver (s : State) : Bool := s.composer.nextPass.any (fun t => hasCome t s.clock)

/-- COMPOSITION_PERIOD_END (R100): an IDLE composer starts a pass. -/
def execCompositionPeriodEnd (s : State) : Host.Outcome State Fault Refusal :=
  if active s = true ∧ composerIdle s = true ∧ periodOver s = true then .next (startPass s) else .next s

/-- TABLE_SWEEP (R67 to R69): the sweep that fell due at a whole second boundary is made when the lock is free. While it is
held the sweep waits for the release. -/
def execTableSweep (s : State) : Host.Outcome State Fault Refusal :=
  if active s = true ∧ s.sweepWaiting = true ∧ s.lock = .free then .next s.sweep else .next s

end Sys2Proof.Machine
end

