-- ==== Sys2Proof/Machine/Ticks.lean ====
section
/-! DEFINITION. What the local clock brings (R74, R75): the tick event with the timers and debits of its tick, the whole
second boundary, and the commands whose moment the clock decides (R14, R40, R45, R84); and the two inputs of the energy
account, HARVEST and LOW (R171, R175). -/

namespace Sys2Proof.Machine

/-! ### The tick event -/

/-- A temperature reading is held as old from the tick event at which 480 ticks have passed since it was taken (R131). -/
def Reading.aged (now : Tick) (r : Reading) : Reading := if 480 ≤ tickDiff now r.tick then { r with old := true } else r

/-- One tick event of the timers held in ticks: fill period, retry, full-clear interval and lockout timers (R116, R125,
R166, R203), and of the temperature reading's age (R131). -/
def tickTimers (s : State) : State :=
  { s with
    startup := { s.startup with fillTimer := countDown s.startup.fillTimer }
    ctl := { s.ctl with retry := countDown s.ctl.retry, interval := countDown s.ctl.interval }
    monitor := { s.monitor with lockout := countDown s.monitor.lockout }
    engine := { s.engine with reading := s.engine.reading.map (Reading.aged s.clock) } }

/-- The receiver's debit of a tick (R16). -/
def receiverDebit (s : State) : State := if powered s then debit ctlStage 1 s else s

/-- A sweep falls due at a whole second boundary (R69). It is made by TABLE_SWEEP, or before a pass takes the lock. -/
def fallDue (s : State) : State := if isBoundary s.clock then { s with sweepWaiting := true } else s

/-- At a whole second boundary an IDLE composer with the recompose flag set starts a pass (R101). -/
def noticePass (s : State) : State :=
  if s.composer.state = .idle ∧ s.composer.recompose = true then startPass s else s

/-- A whole second boundary (R75): the baseline debit (R172), and the pass a notice calls for unless the blocks are held in a
reset or a load (R194). -/
def boundaryWork (s : State) : State :=
  let s := debit ctlStage 1 s
  if active s then noticePass s else s

/-- The count rises by 1 (R74). -/
def advanceClock (s : State) : State := { s with clock := s.clock + 1 }

/-- A tick event: the count, the timers with the sweep that falls due, the receiver's debit and the whole second boundary, in
that order (notes/assumptions/10.md). The expiry of the wall reference (R84) is a command of its own after it, so a pass that starts
within the tick event has the reference still present (the model's choice, notes/assumptions/39.md). The edges of the listening
window (R14) are commands of their own after it too, so the tick at which the window closes is charged, and the tick at which it
opens is not (the model's choice, notes/assumptions/42.md). -/
def tickEvent (s : State) : State :=
  let s := advanceClock s
  let s := receiverDebit (if active s then fallDue (tickTimers s) else s)
  if isBoundary s.clock then boundaryWork s else s

/-- TICK (R75). -/
def execTick (s : State) : Host.Outcome State Fault Refusal := .next (tickEvent s)

/-! ### Moments of the clock -/

/-- SEEN_ENTRY_AGE_OUT (R40), at a whole second boundary. -/
def execSeenEntryAgeOut (s : State) : Host.Outcome State Fault Refusal :=
  if active s = true ∧ isBoundary s.clock = true then .next { s with seen := s.seen.filter (keepsSeen s.clock) }
  else .next s

/-- RELAY_LIFETIME_EXPIRY (R45), at a whole second boundary. -/
def execRelayLifetimeExpiry (s : State) : Host.Outcome State Fault Refusal :=
  if active s = true ∧ isBoundary s.clock = true then
    .next (recheckAttempt (State.abandonRelays (s.relayQ.filter (lifetimeOver s.clock)) s))
  else .next s

/-- WALL_REFERENCE_EXPIRY (R84). -/
def execWallReferenceExpiry (s : State) : Host.Outcome State Fault Refusal :=
  if s.wall.any (fun w => wallOver w s.clock) then .next { s with wall := none } else .next s

/-- The period and the on span of a listening pattern, in ticks (Table 1-4). -/
def listenPattern : Stage → Nat × Nat
  | .full => (8, 8)
  | .thrift => (64, 48)
  | .scant => (128, 16)
  | .frozen => (480, 16)

/-- The running period's ticks so far have reached `span` (R14). -/
def windowPast (s : State) (span : Nat) : Bool := (span : Int) ≤ tickDiff s.clock s.rx.window.start

/-- A period of the listening-window generator begins with the pattern of the current stage, its window on (R14). -/
def beginPeriod (s : State) : State :=
  { s with rx := { s.rx with window := ⟨true, s.clock, s.account.stage, true⟩ } }

/-- LISTEN_PERIOD_END (R14). -/
def execListenPeriodEnd (s : State) : Host.Outcome State Fault Refusal :=
  if s.rx.window.running = true ∧ windowPast s (listenPattern s.rx.window.pattern).1 = true then
    .next (receiverUpdate (beginPeriod s))
  else .next s

/-- The window turns off (R14). -/
def closeWindow (s : State) : State := { s with rx := { s.rx with window := { s.rx.window with on := false } } }

/-- LISTEN_WINDOW_OFF (R14), for a pattern whose on span ends before its period. -/
def execListenWindowOff (s : State) : Host.Outcome State Fault Refusal :=
  if s.rx.window.running = true ∧ s.rx.window.on = true
      ∧ (listenPattern s.rx.window.pattern).2 < (listenPattern s.rx.window.pattern).1
      ∧ windowPast s (listenPattern s.rx.window.pattern).2 = true then
    .next (receiverUpdate (closeWindow s))
  else .next s

/-! ### HARVEST and LOW -/

/-- The stage rules change nothing at this E (R181, R182). -/
def stageHolds (c : Cfg) (stage : Stage) (e : Nat) : Bool :=
  stageRank stage ≤ stageRank (bandOfEnergy c e) && (riseOf c stage e).isNone

/-- A harvest credit (R171): 64 q, the stage rules, and the release of a HELD controller, which a stage change at the same
credit has already made (R126). -/
def harvest (s : State) : State :=
  let s' := credit ctlStage 64 s
  if active s = true ∧ stageHolds s.cfg s.account.stage (min s.cfg.capacity (s.account.e + 64)) = true then
    releaseHeld s'
  else s'

/-- HARVEST_PULSE (R171). A pulse while NOT STARTED is not acted on. -/
def execHarvestPulse (s : State) : Host.Outcome State Fault Refusal :=
  if s.account.running then .next (harvest s) else .next s

/-- LOW_ASSERT (R175). `stays` is the level LOW has afterwards. On a LOW that stands, the command that leaves it deasserted is its
release, which has no effect but the level (notes/assumptions/4.md). -/
def execLowAssert (stays : Bool) (s : State) : Host.Outcome State Fault Refusal :=
  let t := { s with pins := { s.pins with low := stays } }
  if s.pins.low = true ∧ stays = false then .next t else .next (takeLow ctlStage t)

end Sys2Proof.Machine
end

