-- ==== Sys2Proof/Machine/Attempt.lean ====
section
/-! DEFINITION. The commands of the channel access unit (R26 to R35, R48): carrier detect, the quiet timer, the due tick of
a relay, the end of a contention delay and the end of a transmission; and a character, with the end of a timer that can fall at
its instant. -/

namespace Sys2Proof.Machine

/-- CD asserted at the receiver: the quiet timer is loaded, and in CONTENDING a deferral occurs (R26, R31). While the
receiver is OFF or TRANSMITTING the assertion does not reach them. -/
def takeCarrier (s : State) : State :=
  if powered s then
    let s := { s with quiet := loadedQuiet }
    match s.cau with
    | .contending c _ => deferral c s
    | .idle => s
    | .sensing => s
    | .sending _ _ => s
  else s

/-- CD_ASSERT (R26, R31). -/
def execCdAssert (s : State) : Host.Outcome State Fault Refusal :=
  if s.pins.cd then .next s else .next (takeCarrier { s with pins := { s.pins with cd := true } })

/-- CD_DEASSERT (R4, R5, R26): a frame or skip in reception ends early, and the channel may be quiet. -/
def execCdDeassert (s : State) : Host.Outcome State Fault Refusal :=
  if s.pins.cd then .next (senseQuiet (endEarly { s with pins := { s.pins with cd := false } })) else .next s

/-- The quiet timer is held loaded (R26). -/
def quietHeld (s : State) : Bool := s.pins.cd && powered s

/-- The quiet timer runs out, unless it is held loaded (R26, R29). -/
def quietExpired (s : State) : State :=
  match s.quiet with
  | .running _ => if quietHeld s then s else senseQuiet { s with quiet := .expired }
  | .expired => s

/-- QUIET_TIMER_EXPIRY (R26, R29). -/
def execQuietTimerExpiry (s : State) : Host.Outcome State Fault Refusal := .next (quietExpired s)

/-- RELAY_DUE (R28, R29): a relay whose due tick has come is a candidate. -/
def execRelayDue (s : State) : Host.Outcome State Fault Refusal :=
  if active s = true ∧ s.cau = .idle ∧ (readyRelay s).isSome = true then .next (offerCandidate s) else .next s

/-- A contention delay ends (R30): the energy check with CD deasserted, a deferral with CD asserted. -/
def contentionEnded (s : State) : State :=
  match s.cau with
  | .contending c _ => if s.pins.cd then deferral c s else settleAttempt (energyCheck c s)
  | .idle => s
  | .sensing => s
  | .sending _ _ => s

/-- CONTENTION_DELAY_END (R30). -/
def execContentionDelayEnd (s : State) : Host.Outcome State Fault Refusal := .next (contentionEnded s)

/-- A timer of the channel access unit ends. -/
def timerEnded : TimerEnd → State → State
  | .quiet => quietExpired
  | .contention => contentionEnded

/-- CHARACTER_RECEIVED (R2 to R5), behind the end of a timer at its instant where one is given (R208). -/
def execCharacterReceived (ch : Byte) (how : CharacterEnd) (s : State) : Host.Outcome State Fault Refusal :=
  match how.behind with
  | none => .next (takeCharacter ch how.error s)
  | some t => .next (withCharacter ch how.error (timerEnded t) s)

/-- RELAY_SENT counts a relay's transmission (R48). -/
def countSent (relay : Bool) (s : State) : State := if relay then s.count .relaySent else s

/-- The release of TXEN (R33, R48): the debit of 3 + L, which is the frame's whole length, the quiet timer, RELAY_SENT for
a relay, the receiver's return by R13, and the end of the attempt (R35). -/
def finishSending (frame : List Byte) (relay : Bool) (s : State) : State :=
  let s := debit ctlStage frame.length s
  endAttempt (leaveToListen (countSent relay { s with quiet := loadedQuiet }))

/-- TRANSMISSION_END (R33, R48). -/
def execTransmissionEnd (s : State) : Host.Outcome State Fault Refusal :=
  match s.cau with
  | .sending frame relay => .next (finishSending frame relay s)
  | .idle => .next s
  | .sensing => .next s
  | .contending _ _ => .next s

end Sys2Proof.Machine
end

