-- ==== Sys2Proof/Machine/Refresh.lean ====
section
/-! DEFINITION. The commands of a refresh in service (R128 to R154) and of the drive fault monitor (R155 to R169): the
answer to the temperature read, frames and dead gaps, completion, the fault inputs, and the timers of lockout, retry and
full-clear interval (R116, R126, R166). -/

namespace Sys2Proof.Machine

/-! ### The temperature read (R132) -/

/-- The reading an answer gives: clamped to −40..85, taken at the current tick. -/
def readingOf (degrees : Int) (now : Tick) : Reading := ⟨clampInt (-40) 85 degrees, now, false⟩

/-- The refresh that waits for its temperature, in PREPARE. -/
def preparing (s : State) : Option Refresh :=
  if active s = true ∧ s.engine.state = .prepare then s.engine.refresh else none

/-- TEMPERATURE_ANSWER (R132): the reading is set and PREPARE goes on to band determination. -/
def execTemperatureAnswer (degrees : Int) (s : State) : Host.Outcome State Fault Refusal :=
  match preparing s with
  | some x =>
    let r := readingOf degrees s.clock
    .next (prepareWith select x r.degrees { s with engine := { s.engine with reading := some r } })
  | none => .next s

/-- TEMPERATURE_NO_ANSWER (R132, R157 to R162): the refresh is aborted with cause NO_ANSWER. -/
def execTemperatureNoAnswer (s : State) : Host.Outcome State Fault Refusal :=
  match preparing s with
  | some x => .next (abortWith select .noAnswer x s)
  | none => .next s

/-! ### Frames and dead gaps (R139 to R143) -/

/-- The counts after a frame of a phase: REST frames are ground frames, the others drive frames (R139, R140, R143). -/
def countFrame (p : Phase) (counts : Nat × Nat) : Nat × Nat :=
  if p = .rest then (counts.1, counts.2 + 1) else (counts.1 + 1, counts.2)

/-- The engine driving a phase's frame, from the first row of its refresh (R141). -/
def Engine.driveFrame (x : Refresh) (p : Phase) (frame : Nat) (e : Engine) : Engine :=
  { e with
    position := some ⟨p, frame, firstRow x, false⟩
    frameClock := .running
    bus := .driving (firstRow x) p }

/-- The engine in the dead gap before a phase (R142, R143). -/
def Engine.deadGap (x : Refresh) (p : Phase) (e : Engine) : Engine :=
  { e with position := some ⟨p, 1, firstRow x, true⟩, frameClock := .held, bus := .grounded }

/-- The engine in SETTLE (R146). -/
def Engine.settled (e : Engine) : Engine := { e with state := .settle, frameClock := .stopped, bus := .grounded }

/-- What follows the end of a frame (R141 to R143, R146): the next frame of the phase, a dead gap, the next phase, or
SETTLE. -/
def Engine.afterFrame (x : Refresh) (w : Waveform) (b : Band) (p : Position) (e : Engine) : Engine :=
  if p.frame < phaseFrames w b p.phase then e.driveFrame x p.phase (p.frame + 1)
  else
    match nextPhase w p.phase with
    | none => e.settled
    | some q => if gapBetween w p.phase q then e.deadGap x q else e.driveFrame x q 1

/-- The end of a frame: its count rises, and what follows it begins (R143). -/
def Engine.endFrame (x : Refresh) (w : Waveform) (b : Band) (p : Position) (counts : Nat × Nat) (e : Engine) : Engine :=
  Engine.afterFrame x w b p { e with counts := some (countFrame p.phase counts) }

/-- A frame in progress in DRIVE: its refresh, waveform, band, position and counts. -/
def frameInHand (s : State) : Option (Refresh × Waveform × Band × Position × (Nat × Nat)) :=
  if active s = true ∧ s.engine.state = .drive then
    match s.engine.refresh, s.engine.waveform, s.engine.band, s.engine.position, s.engine.counts with
    | some x, some w, some b, some p, some c => some (x, w, b, p, c)
    | _, _, _, _, _ => none
  else none

/-- The frame clock period in progress is the last of its frame: the one period of a row's frame, or the period of row N in a
panel frame (R141). -/
def lastPeriod (n : Nat) (x : Refresh) (p : Position) : Bool :=
  match x with
  | .row _ => true
  | .clear _ => n ≤ p.row

/-- The engine driving the next row of a panel frame (R141, R143). -/
def Engine.nextRow (p : Position) (e : Engine) : Engine :=
  { e with position := some { p with row := p.row + 1 }, bus := .driving (p.row + 1) p.phase }

/-- The end of a frame clock period: of the last one, the frame or panel frame completes; of another, the next row's period
begins (R141, R143). -/
def Engine.endPeriod (n : Nat) (x : Refresh) (w : Waveform) (b : Band) (p : Position) (counts : Nat × Nat) (e : Engine) :
    Engine :=
  if lastPeriod n x p then e.endFrame x w b p counts else e.nextRow p

/-- DRIVE_FRAME_END (R141, R143): the frame clock period in progress ends, and with the last period of a frame or of a panel
frame it completes (notes/assumptions/6.md). In a dead gap no period runs. -/
def execDriveFrameEnd (s : State) : Host.Outcome State Fault Refusal :=
  match frameInHand s with
  | some (x, w, b, p, c) =>
    if p.gap then .next s else .next { s with engine := s.engine.endPeriod s.cfg.n x w b p c }
  | none => .next s

/-- DEAD_GAP_END (R142): the next frame starts. -/
def execDeadGapEnd (s : State) : Host.Outcome State Fault Refusal :=
  match frameInHand s with
  | some (x, _, _, p, _) =>
    if p.gap then .next { s with engine := s.engine.driveFrame x p.phase p.frame } else .next s
  | none => .next s

/-! ### Completion (R147 to R149) -/

/-- The partial counter after a refresh drawn with a waveform (R148). -/
def partialAfter (w : Waveform) (count : Nat) : Nat :=
  match w with
  | .full => 0
  | .partialWave => count + 1

/-- A row that a refresh has drawn: shown is what was being drawn (R147 item 1). -/
def Row.drawn (w : Waveform) (row : Row) : Row :=
  { row with shown := row.drawing, partialCount := partialAfter w row.partialCount }

/-- The full-clear interval in ticks (R116). -/
def intervalTicks (c : Cfg) : Nat := 28800 * c.clearHours

/-- The interval timer starts from its full length (R116). -/
def startInterval (s : State) : State := { s with ctl := { s.ctl with interval := some (intervalTicks s.cfg) } }

/-- The freeze picture has been drawn (R149, R187). -/
def freezeDrawn (s : State) : State :=
  if s.account.stage = .frozen ∧ s.ctl.clearItem ≠ some .freeze then
    let s := s.setMasks true
    { s with account := { s.account with freeze := .drawn } }
  else s

/-- The further effects of a completed panel clear (R149). -/
def clearCompleted (k : ClearKind) (s : State) : State :=
  let s := if s.startup.state = .service then startInterval s else s
  match k with
  | .freeze => freezeDrawn s
  | .ordinary => s

/-- The completion of a refresh (R147), then R149 for a panel clear, then the controller's selection (R123). -/
def completeRefresh (x : Refresh) (w : Waveform) (cost : Nat) (s : State) : State :=
  let s := updateShownRows (s.onRefresh x (Row.drawn w))
  let s := (releaseAndDebit ctlStage cost (s.onRefresh x Row.released)).count .drawDone
  let s := { s with monitor := { s.monitor with aborts := 0 } }
  let s := s.onRefresh x (fun row => { row with pending := row.pending || row.differs })
  let s := { s with engine := s.engine.ended .idle }
  let s := match x with
    | .row _ => s
    | .clear k => clearCompleted k s
  select { s with ctl := { s.ctl with state := .opened } }

/-- REFRESH_COMPLETION (R147), at the end of SETTLE. -/
def execRefreshCompletion (s : State) : Host.Outcome State Fault Refusal :=
  if active s = true ∧ s.engine.state = .settle then
    match s.engine.refresh, s.engine.waveform with
    | some x, some w => .next (completeRefresh x w (s.engine.cost.getD 0) s)
    | _, _ => .next s
  else .next s

/-! ### Fault inputs (R155 to R163) -/

/-- The refresh in DRIVE. -/
def driving (s : State) : Option Refresh :=
  if active s = true ∧ s.engine.state = .drive then s.engine.refresh else none

/-- PFAULT_ASSERT (R155, R156, R163). `stays` is the level PFAULT has afterwards. -/
def execPfaultAssert (stays : Bool) (s : State) : Host.Outcome State Fault Refusal :=
  match driving s with
  | some x => .next (abortWith select .pfault x { s with pins := { s.pins with pfault := stays } })
  | none => .next { s with pins := { s.pins with pfault := stays } }

/-- The droop-seen flag of the fault record is set (R160). -/
def seeDroop (s : State) : State :=
  { s with monitor := { s.monitor with record := { s.monitor.record with droopSeen := true } } }

/-- DROOP at its assertion (R155, R160, R163): an abort in DRIVE, the droop-seen flag elsewhere. While RESET is asserted it
is not acted on (R194). -/
def takeDroop (s : State) : State :=
  match driving s with
  | some x => abortWith select .droop x s
  | none => if s.startup.state = .inReset then s else seeDroop s

/-- DROOP_ASSERT (R155, R160). -/
def execDroopAssert (s : State) : Host.Outcome State Fault Refusal :=
  if s.pins.droop then .next s else .next (takeDroop { s with pins := { s.pins with droop := true } })

/-- DROOP_RELEASE (R126, R155). -/
def execDroopRelease (s : State) : Host.Outcome State Fault Refusal :=
  if s.pins.droop then
    let s := { s with pins := { s.pins with droop := false } }
    if active s then .next (releaseHeld s) else .next s
  else .next s

/-! ### Lockout, retry and interval timers -/

/-- The end of a lockout (R151, R166): the count is 0, the engine IDLE, and the controller selects (R126). -/
def endLockout (s : State) : State :=
  let s := { s with
    monitor := { s.monitor with lockout := none, aborts := 0 }
    engine := { s.engine with state := .idle } }
  select (leaveHeld s)

/-- LOCKOUT_END (R166), when the lockout timer has run out. -/
def execLockoutEnd (s : State) : Host.Outcome State Fault Refusal :=
  if active s = true ∧ s.engine.state = .lockout ∧ ranOut s.monitor.lockout = true then .next (endLockout s)
  else .next s

/-- RETRY_TIMER_EXPIRY (R126). -/
def execRetryTimerExpiry (s : State) : Host.Outcome State Fault Refusal :=
  if active s = true ∧ ranOut s.ctl.retry = true then .next (releaseHeld s) else .next s

/-- FULL_CLEAR_INTERVAL_EXPIRY (R115, R116): the timer starts again and an ORDINARY panel clear is requested. -/
def execFullClearIntervalExpiry (s : State) : Host.Outcome State Fault Refusal :=
  if active s = true ∧ ranOut s.ctl.interval = true then
    .next (select (requestClear .ordinary (startInterval s)))
  else .next s

end Sys2Proof.Machine
end

