-- ==== Sys2Proof/Machine/Start.lean ====
section
/-! DEFINITION. Start-up (R192 to R205): power-on, the assertion and the release of RESET, the configuration load and the
fill period, with what each block keeps and loses (Table 10-2). -/

namespace Sys2Proof.Machine

/-! ### Power-on (R193) -/

/-- POWER_ON (R193). Power can come to the part in any state; what the part held before does not survive, but for the
model's own count of NACKs, so that each NACK keeps a free value of its own (notes/assumptions/44.md). -/
def execPowerOn (levels : Pins) (sdaLow : Nat) (s : State) : Host.Outcome State Fault Refusal :=
  .next (State.poweredOn levels (.begun sdaLow s.loader.nacks) s.pending)

/-! ### The assertion of RESET (R194) -/

/-- The start-up control at the assertion of RESET: IN_RESET, the state before kept for the release, and the fill period
timer stopped (R192, R194). -/
def Startup.held (u : Startup) : Startup := { u with state := .inReset, before := u.state, fillTimer := none }

/-- The part from an assertion of RESET on (R194): transmission, reception, refresh and load are cut, a pass in progress is
lost with the table lock and the composer SUSPENDED (R99, Table 10-1), the rows in service become indeterminate, the
reservation is released without debit, and the timers stop. -/
def holdInReset (s : State) : State :=
  { s with
    pins := { s.pins with reset := true }
    startup := s.startup.held
    loader := { s.loader with phase := .stopped }
    rx := .initial
    quiet := .expired
    cau := .idle
    lock := .free
    composer := { s.composer with state := .suspended, pass := none }
    rows := s.rows.map Row.cut
    ctl := { s.ctl with retry := none, interval := none }
    engine := { s.engine with frameClock := .stopped, bus := .grounded }
    monitor := { s.monitor with lockout := none }
    account := { s.account with reservation := none } }

/-- RESET_ASSERT (R194). -/
def execResetAssert (s : State) : Host.Outcome State Fault Refusal :=
  if s.pins.reset then .next s else .next (holdInReset s)

/-! ### The release of RESET (R195, Table 10-2) -/

/-- The start kind after the release of RESET (R192). -/
def kindAfter (u : Startup) : StartKind :=
  match u.before with
  | .fill => .line
  | .service => .line
  | .inReset => u.kind
  | .loading => u.kind

/-- A departure row's masks stand after a line reset in FROZEN with the freeze drawn or skipped (R127). -/
def masksKept (a : Account) : Bool := a.stage = .frozen && (a.freeze = .drawn || a.freeze = .skipped)

/-- The desired record of a row without a shown record after a reset: EMPTY, or BLANK for the banner row (R98). -/
def unknownContent (n r : Nat) : RowRecord := if r < n then emptyRecord else .banner .blank

/-- Row `r` after a line reset (R98, R127, R154). -/
def Row.afterReset (n r : Nat) (mask : Bool) (row : Row) : Row where
  desired := row.shown.getD (unknownContent n r)
  shown := row.shown
  drawing := none
  pending := false
  inService := false
  mask := decide (r < n) && mask
  partialCount := 0

/-- The part at the release of RESET: what a line reset loses is set to its reset values, the configuration is no longer
in force, and the load begins with the bus free check (R195, R196). -/
def releaseReset (sdaLow : Nat) (s : State) : State :=
  { s with
    pins := { s.pins with reset := false }
    startup := ⟨.loading, kindAfter s.startup, s.startup.before, none⟩
    loader := .begun sdaLow s.loader.nacks
    cfgInForce := false
    rx := .initial
    quiet := .expired
    cau := .idle
    seen := []
    relayQ := []
    table := []
    lock := .free
    sweepWaiting := false
    composer := .initial
    rows := s.rows.mapIdx (fun r row => Row.afterReset s.cfg.n r (masksKept s.account) row)
    ctl := .initial s.cfg.n
    engine := .initial
    monitor := { s.monitor with aborts := 0, lockout := none }
    account := { s.account with reservation := none }
    maint := .initial }

/-- RESET_RELEASE (R195), with the SDA samples of the bus free check (R196). -/
def execResetRelease (sdaLow : Nat) (s : State) : Host.Outcome State Fault Refusal :=
  if s.pins.reset then .next (releaseReset sdaLow s) else .next s

/-! ### The load (R197 to R203) -/

/-- LOAD_RETRY_WAIT_END (R197). -/
def execLoadRetryWaitEnd (s : State) : Host.Outcome State Fault Refusal :=
  if s.startup.state = .loading then
    .next { s with loader := s.loader.retried }
  else .next s

/-- The rows a load leaves (R98, R127): those kept when the N loaded is the N before it, and otherwise the rows of a
power-on; the masks as the account calls for. -/
def loadedRows (n : Nat) (s : State) : List Row :=
  (if n = s.cfg.n then s.rows else Row.initialRows n).mapIdx
    (fun r row => { row with mask := decide (r < n) && masksKept s.account })

/-- The configuration in force, with what the blocks take from it before the account starts (R203 items 1, 3, 4, 6, 7). -/
def applyLoad (o : LoadOutcome) (c : Cfg) (s : State) : State :=
  { s with
    cfg := c
    cfgInForce := true
    loader := { s.loader with phase := .ended, outcome := some o }
    startup := { s.startup with state := .fill, fillTimer := some 960 }
    rng := lfsrSeed c.ownId
    rows := loadedRows c.n s
    ctl := .initial c.n }

/-- A LOW already asserted at the end of a load is acted on (R203 item 2, notes/assumptions/21.md). -/
def standingLow (s : State) : State := if s.pins.low then takeLow ctlStage s else s

/-- The account becomes RUNNING after a power-on: E is T3 + H within C, the stage rules are applied, and a LOW already
asserted is acted on (R175, R190). -/
def startAccount (s : State) : State :=
  let s := { s with account := { s.account with running := true } }
  standingLow (changeEnergy ctlStage (min s.cfg.capacity (s.cfg.t3 + s.cfg.h)) s)

/-- The freeze is pending in FROZEN (R191). -/
def freezePending (a : Account) : Bool := a.stage = .frozen && a.freeze = .pending

/-- The account after a line reset: E within the C loaded, the stage rules, a LOW already asserted, and the entry into the
freeze again when it was pending and the rules changed nothing (R184, R191, R203). -/
def resumeAccount (s : State) : State :=
  let t := changeEnergy ctlStage (min s.cfg.capacity s.account.e) s
  if freezePending s.account && freezePending t.account then
    select (writeFreezeContent (requestClear .freeze (standingLow t)))
  else standingLow t

/-- The account's part of the end of a load (R203 item 2). -/
def accountAfterLoad (s : State) : State := if s.account.running then resumeAccount s else startAccount s

/-- The end of a load (R203). The window starts with the stage that the account leaves, and the receiver follows. -/
def endLoad (o : LoadOutcome) (c : Cfg) (s : State) : State :=
  receiverUpdate (beginPeriod (accountAfterLoad (applyLoad o c s)))

/-- LOAD_END (R203), with the memory's answer to the last attempt. -/
def execLoadEnd (answer : MemoryAnswer) (s : State) : Host.Outcome State Fault Refusal :=
  if s.startup.state = .loading then
    match loadResult s.loader.phase answer with
    | some (o, c) => .next (endLoad o c { s with loader := s.loader.ending answer })
    | none => .next s
  else .next s

/-! ### The fill period (R204, R205) -/

/-- The end of the fill period (R205): SERVICE, the interval timer, and outside FROZEN the first pass, whose completion
requests the ORDINARY panel clear of a power-on. -/
def endFill (s : State) : State :=
  let s := startInterval { s with startup := { s.startup with state := .service, fillTimer := none } }
  if s.account.stage = .frozen then s
  else
    startPass { s with composer := { s.composer with
      clearArmed := s.composer.clearArmed || decide (s.startup.kind = .powerOn) } }

/-- FILL_PERIOD_END (R205). -/
def execFillPeriodEnd (s : State) : Host.Outcome State Fault Refusal :=
  if s.startup.state = .fill ∧ ranOut s.startup.fillTimer = true then .next (endFill s) else .next s

end Sys2Proof.Machine
end

