-- ==== Sys2Proof/Machine/Dispatch.lean ====
section
/-! DEFINITION. The dispatch of a command to its meaning, one arm for each row of spec/opcode_table.json. -/

namespace Sys2Proof.Machine

/-- The effect of a command on everything but the queue of waiting commands. -/
def exec (i : Instr) (s : State) : Host.Outcome State Fault Refusal :=
  match i with
  | .powerOn levels sdaLow => Sys2Proof.Machine.execPowerOn levels sdaLow s
  | .resetAssert => Sys2Proof.Machine.execResetAssert s
  | .resetRelease sdaLow => Sys2Proof.Machine.execResetRelease sdaLow s
  | .loadRetryWaitEnd => Sys2Proof.Machine.execLoadRetryWaitEnd s
  | .loadEnd answer => Sys2Proof.Machine.execLoadEnd answer s
  | .fillPeriodEnd => Sys2Proof.Machine.execFillPeriodEnd s
  | .tick => Sys2Proof.Machine.execTick s
  | .seenEntryAgeOut => Sys2Proof.Machine.execSeenEntryAgeOut s
  | .relayLifetimeExpiry => Sys2Proof.Machine.execRelayLifetimeExpiry s
  | .tableSweep => Sys2Proof.Machine.execTableSweep s
  | .wallReferenceExpiry => Sys2Proof.Machine.execWallReferenceExpiry s
  | .listenPeriodEnd => Sys2Proof.Machine.execListenPeriodEnd s
  | .listenWindowOff => Sys2Proof.Machine.execListenWindowOff s
  | .characterReceived ch how => Sys2Proof.Machine.execCharacterReceived ch how s
  | .syncGapTimeout => Sys2Proof.Machine.execSyncGapTimeout s
  | .interCharacterGapTimeout => Sys2Proof.Machine.execInterCharacterGapTimeout s
  | .cdAssert => Sys2Proof.Machine.execCdAssert s
  | .cdDeassert => Sys2Proof.Machine.execCdDeassert s
  | .frameDispatch => Sys2Proof.Machine.execFrameDispatch s
  | .statusRequest => Sys2Proof.Machine.execStatusRequest s
  | .tableRequest => Sys2Proof.Machine.execTableRequest s
  | .clearRequest => Sys2Proof.Machine.execClearRequest s
  | .refreshRequest => Sys2Proof.Machine.execRefreshRequest s
  | .unknownRequestCode => Sys2Proof.Machine.execUnknownRequestCode s
  | .relayDue => Sys2Proof.Machine.execRelayDue s
  | .quietTimerExpiry => Sys2Proof.Machine.execQuietTimerExpiry s
  | .contentionDelayEnd => Sys2Proof.Machine.execContentionDelayEnd s
  | .transmissionEnd => Sys2Proof.Machine.execTransmissionEnd s
  | .harvestPulse => Sys2Proof.Machine.execHarvestPulse s
  | .lowAssert stays => Sys2Proof.Machine.execLowAssert stays s
  | .compositionPeriodEnd => Sys2Proof.Machine.execCompositionPeriodEnd s
  | .passCompletion => Sys2Proof.Machine.execPassCompletion s
  | .temperatureAnswer degrees => Sys2Proof.Machine.execTemperatureAnswer degrees s
  | .temperatureNoAnswer => Sys2Proof.Machine.execTemperatureNoAnswer s
  | .driveFrameEnd => Sys2Proof.Machine.execDriveFrameEnd s
  | .deadGapEnd => Sys2Proof.Machine.execDeadGapEnd s
  | .refreshCompletion => Sys2Proof.Machine.execRefreshCompletion s
  | .pfaultAssert stays => Sys2Proof.Machine.execPfaultAssert stays s
  | .droopAssert => Sys2Proof.Machine.execDroopAssert s
  | .droopRelease => Sys2Proof.Machine.execDroopRelease s
  | .lockoutEnd => Sys2Proof.Machine.execLockoutEnd s
  | .retryTimerExpiry => Sys2Proof.Machine.execRetryTimerExpiry s
  | .fullClearIntervalExpiry => Sys2Proof.Machine.execFullClearIntervalExpiry s

end Sys2Proof.Machine
end

