-- ==== Sys2Proof/Safety.lean ====
section
/-! DEFINITION. What a safe state is: the bounds the manual gives the blocks' state (R31, R36, R41, R50, R94, R120, R129,
R148, R165, R170, R208, R213), the agreement of the table lock with the composer (R70, R99), and that of the seen table with
the relay queue and the receive buffers (R17, R36, R41). Claims use these names. No command stops, so a run is safe when each
of its states is. -/

namespace Sys2Proof.Machine

/-- E lies between 0 and the capacity in force (R170). -/
def EnergyInRange (s : State) : Prop := s.account.e ≤ s.cfg.capacity

/-- Every counter is a 16-bit count (R213). -/
def CountersInRange (s : State) : Prop := ∀ n ∈ countersList s.maint.counters, n ≤ 65535

/-- At most 48 entries, no two with the same key (R50). -/
def TableInRange (s : State) : Prop := s.table.length ≤ 48 ∧ (s.table.map (·.key)).Nodup

/-- At most 2 replies and at most 8 relays wait (R208, R41). -/
def QueuesInRange (s : State) : Prop := s.maint.replies.length ≤ 2 ∧ s.relayQ.length ≤ 8

/-- In every state other than DRIVE the drive outputs are grounded with no row selected (R129). -/
def GroundedOutsideDrive (s : State) : Prop := s.engine.state ≠ .drive → s.engine.bus = .grounded

/-- The table lock is HELD exactly while a pass is in progress (R70, R103). -/
def LockFollowsPass (s : State) : Prop := s.lock = .held ↔ s.composer.state = .passing

/-- The consecutive abort count is at most 3, and 3 only in LOCKOUT (R165, R166). -/
def AbortsInRange (s : State) : Prop :=
  s.monitor.aborts ≤ 3 ∧ (s.engine.state ≠ .lockout → s.monitor.aborts ≤ 2)

/-! ### The panel -/

/-- The partial counters of the rows 0..N (R128). -/
def rowCounters (s : State) : List Nat := s.rows.map (·.partialCount)

/-- The pointers of the controller name departure rows (R120). -/
def PointersInRange (s : State) : Prop := s.ctl.pointer < s.cfg.n ∧ s.ctl.grantPointer < s.cfg.n

/-- A waveform is latched only in DRIVE and SETTLE, and PARTIAL only for a row whose counter is below the greatest partial
limit (R128, R134, R148). -/
def LatchInRange (s : State) : Prop :=
  s.cfg.partialLimit ≤ 32 ∧
  (s.engine.waveform ≠ none → s.engine.state = .drive ∨ s.engine.state = .settle) ∧
  (s.engine.waveform = some .partialWave →
    ∃ r : Nat, s.engine.refresh = some (.row r) ∧ ∀ k : Nat, (rowCounters s)[r]? = some k → k < 32)

/-- N lies in 4..10 and there are N + 1 rows (R94), each with its partial counter at most 32 (R148). -/
def RowsInRange (s : State) : Prop :=
  4 ≤ s.cfg.n ∧ s.cfg.n ≤ 10 ∧ (rowCounters s).length = s.cfg.n + 1 ∧ ∀ k ∈ rowCounters s, k ≤ 32

/-! ### The seen table, the relay queue and the receive buffers -/

/-- The key of a seen entry (R36). -/
def SeenEntry.key (e : SeenEntry) : Word16 × Word16 := (e.origin, e.seq)

/-- The key of a relay queue entry (R41). -/
def RelayEntry.key (e : RelayEntry) : Word16 × Word16 := (e.origin, e.seq)

/-- The buffer that the frame in reception fills (R3). -/
def receivingInto : Reception → Option BufId
  | .length (.buffer id) => some id
  | .body (.buffer id) _ => some id
  | .length .overrun => none
  | .body .overrun _ => none
  | .skip _ => none
  | .none => none

/-- The key of the departure frame that a receive buffer holds, if it holds one. -/
def departureKey (b : Option RxBuffer) : Option (Word16 × Word16) :=
  b.bind (fun b =>
    let f := readFrame b.bytes
    if f.isDeparture then some (f.origin, f.seq) else none)

/-- The keys of the accepted departure frames whose dispatch waits, in the order of their end events (R17). -/
def heldKeys (s : State) : List (Word16 × Word16) := s.rx.accepted.filterMap (fun id => departureKey (bufferOf s id))

/-- The seen table in itself: at most 64 entries, no two of one key, copies 0..15 (R36). -/
def SeenInRange (s : State) : Prop :=
  s.seen.length ≤ 64 ∧ (s.seen.map (·.key)).Nodup ∧ ∀ e ∈ s.seen, e.copies ≤ 15

/-- The relay queue and the seen table: no two relays of one key, an entry WAITING exactly when its relay is queued, and each
relay with its entry (R41). -/
def RelaysMatch (s : State) : Prop :=
  (s.relayQ.map (·.key)).Nodup ∧ (∀ e ∈ s.seen, (e.state = .waiting ↔ e.key ∈ s.relayQ.map (·.key))) ∧
  ∀ k ∈ s.relayQ.map (·.key), k ∈ s.seen.map (·.key)

/-- The accepted frames stand in their buffers, each once, and no reception fills one of them (R17). -/
def BuffersInRange (s : State) : Prop :=
  s.rx.accepted.Nodup ∧ (∀ id ∈ s.rx.accepted, bufferOf s id ≠ none) ∧
  ∀ id ∈ s.rx.accepted, receivingInto s.rx.reception ≠ some id

/-- The receive buffers and the seen table: dispatch pending says that an accepted departure frame of the key waits (R36), not
for a WAITING or DAMAGED entry and for no two buffers of one key. -/
def DispatchesMatch (s : State) : Prop :=
  (heldKeys s).Nodup ∧ (∀ e ∈ s.seen, (e.dispatchPending = true ↔ e.key ∈ heldKeys s)) ∧
  (∀ k ∈ heldKeys s, k ∈ s.seen.map (·.key)) ∧
  ∀ e ∈ s.seen, e.dispatchPending = true → e.state ≠ .waiting ∧ e.state ≠ .damaged

/-- No relay and no reply that waits has reached its eighth deferral (R31). -/
def DeferralsInRange (s : State) : Prop :=
  (∀ e ∈ s.relayQ, e.deferrals < 8) ∧ ∀ r ∈ s.maint.replies, r.deferrals < 8

/-- The bookkeeping of frames heard, relayed and waiting. -/
structure FramesMatch (s : State) : Prop where
  seen : SeenInRange s
  relays : RelaysMatch s
  dispatches : DispatchesMatch s
  deferrals : DeferralsInRange s

/-- The bookkeeping of frames agrees. While RESET is asserted it says nothing: what a line reset loses stands until the
release (R195). -/
def FramesInStep (s : State) : Prop := s.startup.state ≠ .inReset → FramesMatch s

/-- A safe state. -/
structure Safe (s : State) : Prop where
  energy : EnergyInRange s
  counters : CountersInRange s
  table : TableInRange s
  queues : QueuesInRange s
  grounded : GroundedOutsideDrive s
  lock : LockFollowsPass s
  aborts : AbortsInRange s
  pointers : PointersInRange s
  latch : LatchInRange s
  rows : RowsInRange s
  buffers : BuffersInRange s
  frames : FramesInStep s

/-- The receiver's state agrees with what is wanted of it, so that it does not move by itself (R13). -/
def receiverAgrees (s : State) : Bool :=
  match s.rx.state with
  | .off => !wantedOn s
  | .listen => wantedOn s
  | .receiving => true
  | .transmitting => true

/-- The state with another estimate. -/
def withE (s : State) (e : Nat) : State := { s with account := { s.account with e := e } }

/-- A change of E to `e` crosses no stage threshold and does not move the receiver (R174, R181, R182). -/
def crossesNothing (s : State) (e : Nat) : Bool := stageHolds s.cfg s.account.stage e && receiverAgrees (withE s e)

/-- The controller makes no selection: the engine is not IDLE or no request is selectable (R118). -/
def nothingToSelect (s : State) : Bool := s.engine.state ≠ .idle || (selection s).isNone

/-- A part held in a reset or a load rests (R194, R203): RESET asserted is IN_RESET, and until the load has ended the
receiver is OFF with its generator stopped, no attempt runs, the composer is SUSPENDED with the table lock FREE (Table 10-1,
R99), the outputs are grounded, no reservation is held and no timer of the held blocks runs; in IN_RESET no load is in
progress. The values of the stopped receiver, and that these items have them from the assertion of RESET on, are the model's
(log entries 7 and 28). -/
def HeldInReset (s : State) : Prop :=
  (s.pins.reset = true ↔ s.startup.state = .inReset) ∧
  (s.startup.state = .inReset → s.loader.phase = .stopped) ∧
  (active s = false →
    s.rx = .initial ∧ s.quiet = .expired ∧ s.cau = .idle ∧ s.lock = .free ∧ s.composer.state = .suspended ∧
    s.engine.frameClock = .stopped ∧ s.engine.bus = .grounded ∧ s.account.reservation = none ∧
    s.ctl.retry = none ∧ s.ctl.interval = none ∧ s.monitor.lockout = none ∧ s.startup.fillTimer = none)

end Sys2Proof.Machine
end

