-- ==== Sys2Proof/Certificates/Slice0/Obligations.lean ====
section
/-! DEFINITION. The statements about the model, for the provers. The first group speaks of the whole machine, the second of
the functions the blocks share, the rest of the commands, in the order of the manual's chapters. Every command of the table
has a statement that says with which state it answers. -/

open Sys2Proof Sys2Proof.Machine

/-! ### The whole machine -/

/-- A step takes the command at the front of the queue and executes it on the state with the queue's rest. -/
def Obligations.StepTakesFrontCommand : Prop :=
  ∀ (c : Instr) (rest : List Instr) (s : State),
    step { s with pending := c :: rest } = exec c { s with pending := rest }

/-- Every command completes from every state, and leaves the queue of waiting commands alone. -/
def Obligations.EveryCommandCompletes : Prop :=
  ∀ (c : Instr) (s : State), ∃ t : State, exec c s = .next t ∧ t.pending = s.pending

/-- The state after power-on is safe, and at rest until its load ends. -/
def Obligations.ResetIsSafe : Prop := Safe State.reset ∧ HeldInReset State.reset

/-- Every step keeps a safe state safe, as Safety.lean says it: E within C (R170); every counter a 16-bit count (R213); at most 48
entries with distinct keys (R50); at most 2 replies and 8 relays (R208, R41); the outputs grounded outside DRIVE (R129); the lock
held exactly during a pass (R70); at most 3 consecutive aborts, 3 only in LOCKOUT (R165, R166); the rotation pointer on a departure
row (R120); N in 4..10, N + 1 rows, and partial counters of at most 32, PARTIAL latched only below them (R94, R134, R148); each
accepted frame once in its buffer (R17). Outside IN_RESET besides: at most 64 seen entries with distinct keys and copies 0..15
(R36), WAITING exactly for the relays in the queue (R41), dispatch pending exactly for the accepted frames, and at most 7 deferrals
of what waits (R31). -/
def Obligations.EveryStepKeepsSafe : Prop :=
  ∀ s t : State, Safe s → step s = .next t → Safe t

/-- Every step keeps a part that is held in a reset or a load at rest (R194, R203). The values of the stopped receiver, and that
the receiver, the quiet timer and the channel access unit have their reset values from the assertion of RESET on, are the
model's choice (log entries 7 and 28). -/
def Obligations.EveryStepKeepsHeldAtRest : Prop :=
  ∀ s t : State, HeldInReset s → step s = .next t → HeldInReset t

/-- While the part is held in a reset or a load, no command but power-on, the two edges of RESET and those of the load reaches
any block but the clock with its wall reference, the input levels, the energy account with its LOW counter, and the droop-seen
flag of the fault record (R194). That the account alone takes a stage change then is the model's reading (log entry 9). -/
def Obligations.HeldPartTakesNothing : Prop :=
  ∀ (c : Instr) (s t : State), HeldInReset s → active s = false →
    (∀ l n, c ≠ .powerOn l n) → c ≠ .resetAssert → (∀ n, c ≠ .resetRelease n) → c ≠ .loadRetryWaitEnd →
    (∀ r, c ≠ .loadEnd r) → exec c s = .next t →
      t = { s with
        clock := t.clock
        wall := t.wall
        pins := t.pins
        account := t.account
        maint := { s.maint with counters := { s.maint.counters with lowEvents := t.maint.counters.lowEvents } }
        monitor := { s.monitor with record :=
          { s.monitor.record with droopSeen := t.monitor.record.droopSeen } } }

/-- The clock rises by 1 at a tick, modulo 2^32, is 0 after power-on, and is set or corrected by nothing else (R74). The
configuration in force and the start-up state change only at power-on, at the edges of RESET, at the end of a load and, for
the state, at the end of the fill period (R192, R203, R205). -/
def Obligations.ClockAndStartupMoveOnlyAtTheirCommands : Prop :=
  (∀ (c : Instr) (s t : State), exec c s = .next t →
     t.clock = (match c with
       | .tick => s.clock + 1
       | .powerOn _ _ => 0
       | _ => s.clock)) ∧
  (∀ (c : Instr) (s t : State), (∀ l n, c ≠ .powerOn l n) → (∀ r, c ≠ .loadEnd r) → c ≠ .resetAssert →
     (∀ n, c ≠ .resetRelease n) → exec c s = .next t →
       t.cfg = s.cfg ∧ t.cfgInForce = s.cfgInForce ∧ t.startup.kind = s.startup.kind ∧
       (c ≠ .fillPeriodEnd → t.startup.state = s.startup.state))

/-! ### Frames, bodies and check sequences -/

/-- A frame laid out by Table 1-1 reads back with every field it was given, is well placed, and passes both checks. -/
def Obligations.BuiltFrameReadsBack : Prop :=
  ∀ (key : Byte) (kind hop : Nat) (origin seq : Word16) (age : Nat) (subject : Word16) (trail : List Word16)
    (body : List Byte),
    kind ≤ 15 → hop ≤ 15 → age ≤ 8191 → trail.length ≤ 7 → 13 + 2 * trail.length + body.length ≤ 255 →
      let l := (buildFrame key kind hop origin seq age subject trail (withBodyCheck body)).drop 2
      readFrame l =
        { len := 13 + 2 * trail.length + body.length, networkKey := key, kind := kind, hop := hop, origin := origin,
          seq := seq, age := age, trailCount := trail.length, subject := subject, trail := trail,
          check := headerCheck (l.take (11 + 2 * trail.length)), body := body, bodyCheckWord := bodyCheck body } ∧
      l.length = 14 + 2 * trail.length + body.length ∧
      (readFrame l).wellPlaced = true ∧ headerOk l = true ∧ (readFrame l).bodyOk = true

/-- The relay of a frame (R47): hop limit down by 1, age up by the hold time and at most 8191, the own id at the end of the
trail in the place of the oldest of four, L up by 2 when the trail grows, the header check computed again; every other field
as received. -/
def Obligations.RelayRewritesTheHeader : Prop :=
  ∀ (s : State) (origin seq : Word16) (e : RelayEntry) (l : List Byte),
    findRelay origin seq s.relayQ = some e → e.frame = syncBytes ++ l → l.length = (readFrame l).len + 1 →
    (readFrame l).wellPlaced = true → (readFrame l).trailCount ≤ 4 → 1 ≤ (readFrame l).hop →
    ((readFrame l).trailCount = 4 ∨ (readFrame l).len ≤ 94) →
      let f := readFrame l
      let sent := candidateFrame s (.relay origin seq)
      let grows := if f.trailCount = 4 then 0 else 1
      sent.take 2 = syncBytes ∧ headerOk (sent.drop 2) = true ∧ sent.length = f.len + 2 * grows + 3 ∧
      readFrame (sent.drop 2) =
        { f with
          len := f.len + 2 * grows
          hop := f.hop - 1
          age := min 8191 (f.age + (s.clock - e.holdStart).toNat)
          trailCount := f.trailCount + grows
          trail := (if f.trailCount = 4 then f.trail.drop 1 else f.trail) ++ [s.cfg.ownId]
          check := headerCheck ((sent.drop 2).take (11 + 2 * (f.trailCount + grows))) }

/-- A reply is a frame of kind 5 with the fields of R207, its result the code of Table 11-1, and both its checks hold. The
STATUS payload has 56 bytes with the fields of Table 11-2 at their places: the codes of R180, R189, R152 and R169 and the twenty
counters, two bytes each. The TABLE payload has ten bytes for each of at most six entries from the start index on, with the
fields of Table 11-4. -/
def Obligations.RepliesCarryTheirFields : Prop :=
  (∀ (s : State) (origin seq : Word16) (echo : Nat) (r : Result) (payload : List Byte), payload.length ≤ 60 →
     let l := (replyFrame s origin seq echo r payload).drop 2
     let f := readFrame l
     f.networkKey = s.cfg.networkKey ∧ f.kind = 5 ∧ f.hop = 1 ∧ f.origin = s.cfg.ownId ∧ f.seq = s.maint.seq ∧
     f.age = 0 ∧ f.trail = [] ∧ f.subject = origin ∧ f.len = 17 + payload.length ∧
     f.body = natByte echo :: (match r with
         | .ok => 0 | .unknown => 1 | .badLength => 2 | .bodyCheck => 3 | .denied => 4 | .badRange => 5 | .stage => 6)
       :: (word16Bytes seq ++ payload) ∧
     headerOk l = true ∧ f.bodyOk = true ∧ (replyFrame s origin seq echo r payload).take 2 = syncBytes) ∧
  (∀ s : State, (statusPayload s).length = 56 ∧
     ∀ start : Nat, (tablePayload s start).length = 10 * min 6 (s.table.length - start)) ∧
  (∀ s : State,
     let p := statusPayload s
     let stage := match s.account.stage with | .full => 0 | .thrift => 1 | .scant => 2 | .frozen => 3
     let freeze := match s.account.freeze with | .none => 0 | .pending => 1 | .drawn => 2 | .skipped => 3
     byteAt p 0 = natByte (stage + 16 * freeze) ∧
     wordAt p 1 = BitVec.ofNat 16 (s.account.e / 65536) ∧ wordAt p 3 = BitVec.ofNat 16 s.account.e ∧
     byteAt p 5 = (match s.engine.lastBand with
       | none => 0xFF | some .noDriveCold => 0 | some .b0 => 1 | some .b1 => 2 | some .b2 => 3 | some .b3 => 4
       | some .b4 => 5 | some .b5 => 6 | some .noDriveHot => 7) ∧
     byteAt p 6 = (match s.engine.reading with | none => 0x80 | some x => BitVec.ofInt 8 x.degrees) ∧
     byteAt p 7 = natByte s.table.length ∧ byteAt p 8 = natByte s.seen.length ∧ byteAt p 9 = natByte s.relayQ.length ∧
     byteAt p 10 = (match s.engine.state with
       | .idle => 0 | .prepare => 1 | .drive => 2 | .settle => 3 | .lockout => 4) ∧
     byteAt p 11 = natByte s.monitor.aborts ∧
     byteAt p 12 = (match s.monitor.record.cause with | .none => 0 | .pfault => 1 | .droop => 2 | .noAnswer => 3)
       + (if s.monitor.record.droopSeen then 0x80 else 0) ∧
     byteAt p 13 = (match s.monitor.record.row with | none => 0xFF | some r => natByte r) ∧
     (s.monitor.record.place = none → byteAt p 14 = 0) ∧
     (∀ q : Phase, s.monitor.record.place = some (.full, q) → q ≠ .reinforce → byteAt p 14 = (match q with
       | .invert => 1 | .black => 2 | .white => 3 | .write => 4 | .rest => 5 | .reinforce => 0)) ∧
     (∀ q : Phase, s.monitor.record.place = some (.partialWave, q) → q = .write ∨ q = .reinforce ∨ q = .rest →
       byteAt p 14 = (match q with
         | .write => 0x81 | .reinforce => 0x82 | .rest => 0x83 | .invert => 0 | .black => 0 | .white => 0)) ∧
     byteAt p 15 = natByte s.monitor.record.frame ∧
     ∀ (i n : Nat), (countersList s.maint.counters)[i]? = some n → wordAt p (16 + 2 * i) = BitVec.ofNat 16 n) ∧
  (∀ (s : State) (start i : Nat) (e : DepEntry), i < 6 → s.table[start + i]? = some e →
     let q := (tablePayload s start).drop (10 * i)
     let notes : Notes := e.notes.getD ⟨false, false, false⟩
     wordAt q 0 = BitVec.ofNat 16 e.key.route ∧
     (byteAt q 2).getLsbD 0 = e.key.dir ∧ (byteAt q 2).getLsbD 1 = decide (e.source = .live) ∧
     (byteAt q 2).getLsbD 2 = decide (e.state = .cancelled) ∧ (byteAt q 2).getLsbD 3 = e.stale ∧ (byteAt q 2).toNat < 16 ∧
     wordAt q 3 = BitVec.ofNat 16 e.key.trip ∧ (wordAt q 5).toInt = remSeconds e.d s.clock ∧
     byteAt q 7 = natByte (e.bay.getD 0) ∧
     (byteAt q 8).getLsbD 0 = notes.lastTrip ∧ (byteAt q 8).getLsbD 1 = notes.stepFree ∧
     (byteAt q 8).getLsbD 2 = notes.shortWorking ∧ (byteAt q 8).toNat < 8 ∧
     byteAt q 9 = (match e.shownRow with | none => 0xFF | some r => natByte r))

/-- When a body is consistent for its kind (R9 to R12), and the fields it then has (Table 1-2): a report, an amendment with its
present fields in their order, a schedule bundle with its items in theirs, a request and a reply. -/
def Obligations.BodiesAreConsistentByTheirRules : Prop :=
  (∀ l : List Byte,
    ((readBody 1 l).isSome = true ↔
      l.length = 6 + (if (byteAt l 5).getLsbD 0 then 1 else 0) + (if (byteAt l 5).getLsbD 1 then 1 else 0) ∧
      ((byteAt l 4).toNat = 0 ∨ (byteAt l 4).toNat = 1) ∧
      ((byteAt l 5).getLsbD 0 = true → 1 ≤ (byteAt l 6).toNat ∧ (byteAt l 6).toNat ≤ 26)) ∧
    ((readBody 2 l).isSome = true ↔
      l.length = 3 + (if (byteAt l 2).getLsbD 0 then 2 else 0) + (if (byteAt l 2).getLsbD 1 then 1 else 0)
        + (if (byteAt l 2).getLsbD 2 then 1 else 0) + (if (byteAt l 2).getLsbD 3 then 1 else 0) ∧
      ((byteAt l 2).getLsbD 1 = true →
        let bay := (byteAt l (3 + if (byteAt l 2).getLsbD 0 then 2 else 0)).toNat
        1 ≤ bay ∧ bay ≤ 26) ∧
      ((byteAt l 2).getLsbD 3 = true → (byteAt l (l.length - 1)).toNat ≤ 1)) ∧
    ((readBody 3 l).isSome = true ↔
      4 ≤ l.length ∧
      (byteAt l 0).toNat * 65536 + (byteAt l 1).toNat * 256 + (byteAt l 2).toNat ≤ 86399 ∧
      1 ≤ (byteAt l 3).toNat ∧ (byteAt l 3).toNat ≤ 6 ∧ l.length = 4 + 4 * (byteAt l 3).toNat) ∧
    ((readBody 4 l).isSome = true ↔ l.length = 4) ∧
    ((readBody 5 l).isSome = true ↔ 4 ≤ l.length ∧ l.length ≤ 64)) ∧
  (∀ (l : List Byte) (b : Body),
    let word (i : Nat) : Nat := (byteAt l i).toNat * 256 + (byteAt l (i + 1)).toNat
    let signed (i : Nat) : Int := if word i < 32768 then (word i : Int) else (word i : Int) - 65536
    let notes (i : Nat) : Notes := ⟨(byteAt l i).getLsbD 0, (byteAt l i).getLsbD 1, (byteAt l i).getLsbD 2⟩
    (readBody 1 l = some b →
      let bay := (byteAt l 5).getLsbD 0
      b = .report (word 0) (signed 2) (decide ((byteAt l 4).toNat = 1))
        (if bay then some (byteAt l 6).toNat else none)
        (if (byteAt l 5).getLsbD 1 then some (notes (if bay then 7 else 6)) else none)) ∧
    (readBody 2 l = some b →
      let rem := (byteAt l 2).getLsbD 0
      let bay := (byteAt l 2).getLsbD 1
      let note := (byteAt l 2).getLsbD 2
      let i := if rem then 5 else 3
      let j := if bay then i + 1 else i
      b = .amendment (word 0) (if rem then some (signed 3) else none) (if bay then some (byteAt l i).toNat else none)
        (if note then some (notes j) else none)
        (if (byteAt l 2).getLsbD 3 then some (decide ((byteAt l (if note then j + 1 else j)).toNat = 1)) else none)) ∧
    (readBody 3 l = some b →
      b = .bundle ((byteAt l 0).toNat * 65536 + (byteAt l 1).toNat * 256 + (byteAt l 2).toNat)
        ((List.range (byteAt l 3).toNat).map (fun i => (word (4 + 4 * i), signed (6 + 4 * i))))) ∧
    (readBody 4 l = some b → b = .request (wordAt l 0) (byteAt l 2).toNat (byteAt l 3).toNat) ∧
    (readBody 5 l = some b → b = .reply))

/-! ### Local time and the countdown -/

/-- The figures of the countdown. The remaining seconds are the signed ticks remaining (R76) divided by 8 and rounded down, kept
between −300 and 7200 (R81). The display value is the first that applies of CANCELLED, DUE, MINUTES 1 to 59, CLOCK and LATER
(R87 to R92). The time of day is wall_ref plus the signed ticks since ref_tick, brought into the day, as hours and minutes
with the seconds dropped (R85). -/
def Obligations.CountdownFigures : Prop :=
  (∀ d now : Tick,
     let rem := (d - now).toInt
     ((-300 : Int) ≤ remSeconds d now ∧ remSeconds d now ≤ 7200) ∧
     (∀ q : Int, 8 * q ≤ rem → rem < 8 * q + 8 →
       (q < -300 → remSeconds d now = -300) ∧ (7200 < q → remSeconds d now = 7200) ∧
       (-300 ≤ q → q ≤ 7200 → remSeconds d now = q))) ∧
  (∀ (e : DepEntry) (now : Tick) (wall : Option WallRef),
     let rem := (e.d - now).toInt
     (e.state = .cancelled → displayValue e now wall = .cancelled) ∧
     (e.state = .active →
       (rem < 480 → displayValue e now wall = .due) ∧
       (480 ≤ rem → rem < 28800 →
         ∃ m : Nat, displayValue e now wall = .minutes m ∧ 1 ≤ m ∧ m ≤ 59 ∧
           480 * (m : Int) ≤ rem ∧ rem < 480 * (m : Int) + 480) ∧
       (28800 ≤ rem → ∀ w, wall = some w → displayValue e now wall = clockOf w e.d) ∧
       (28800 ≤ rem → wall = none → displayValue e now wall = .later))) ∧
  (∀ (w : WallRef) (x : Tick), ∃ v : Nat, v < 691200 ∧
     (∃ k : Int, (v : Int) = (w.wallRef : Int) + (x - w.refTick).toInt + 691200 * k) ∧
     ∃ hh mm sec : Nat, clockOf w x = .clock hh mm ∧ hh ≤ 23 ∧ mm ≤ 59 ∧ sec < 480 ∧ v = 28800 * hh + 480 * mm + sec)

/-! ### Start-up (chapter 10) -/

/-- POWER_ON (R193): what the part holds just after power-on, whatever it held before. With RESET deasserted the load begins
with the bus free check, which passes when one of its ten samples finds SDA high, with a pulse on the bus before each sample but
the first and a STOP when pulses were sent; the first attempt's START follows (R196, R197). The receiver and its first sync
(R24), the composer's items (R99), the rows, each departure row's desired record EMPTY and the banner row's BLANK (R98), the
controller with its pointer at N − 1 (R127), engine, monitor and responder. That N and the rows have the values of the default N
until the load ends is the model's choice (log entry 7), and so is the count of NACKs that stands, which is the model's own (log
entry 44). -/
def Obligations.PowerOnLeavesResetValues : Prop :=
  ∀ (levels : Pins) (k : Nat) (s : State), ∃ t : State, exec (.powerOn levels k) s = .next t ∧
    t.clock = 0 ∧ t.wall = none ∧ t.pins = levels ∧ t.pending = s.pending ∧ t.cfgInForce = false ∧
    t.startup.kind = .powerOn ∧ t.startup.state = (if levels.reset then .inReset else .loading) ∧
    t.startup.fillTimer = none ∧
    (levels.reset = true → t.loader = ⟨.stopped, 0, none, [], s.loader.nacks⟩) ∧
    (levels.reset = false → t.loader = ⟨if k ≤ 9 then .addressing 1 else .busStuck, min k 9, none,
      List.replicate (min k 9) .pulse ++ (if k = 0 then [.start] else if k ≤ 9 then [.stop, .start] else []), s.loader.nacks⟩) ∧
    t.account = ⟨false, 0, none, .scant, .none⟩ ∧
    t.rx.state = .off ∧ t.rx.firstSync = false ∧ t.rx.reception = .none ∧ t.rx.charError = false ∧
    t.rx.bufA = none ∧ t.rx.bufB = none ∧ t.rx.accepted = [] ∧ t.rx.window.running = false ∧ t.rx.window.on = false ∧
    t.quiet = .expired ∧ t.cau = .idle ∧ t.seen = [] ∧ t.relayQ = [] ∧ t.table = [] ∧ t.lock = .free ∧
    t.sweepWaiting = false ∧ t.composer = ⟨.suspended, false, none, false, none, false, false⟩ ∧
    t.rows.length = t.cfg.n + 1 ∧
    (∀ (r : Nat) (row : Row), t.rows[r]? = some row →
      row = ⟨if r < t.cfg.n then .departure ⟨none, none, none, none, .empty, false, false⟩ else .banner .blank,
        none, none, false, false, false, 0⟩) ∧
    t.ctl.state = .opened ∧ t.ctl.clearItem = none ∧ t.ctl.pointer = t.cfg.n - 1 ∧ t.ctl.retry = none ∧
    t.ctl.interval = none ∧
    t.engine = ⟨.idle, none, none, none, none, none, none, none, none, .stopped, .grounded⟩ ∧
    t.monitor = ⟨⟨.none, false, none, none, 0⟩, 0, none⟩ ∧ t.maint.replies = [] ∧ t.maint.seq = 0 ∧
    countersList t.maint.counters = List.replicate 20 0

/-- RESET_ASSERT (R194): transmission, reception, refresh and load are cut, a pass in progress is lost with the lock free and the
composer SUSPENDED, the rows in service become indeterminate, the reservation is released without debit, the timers stop, and
everything else stands. That the receiver, the quiet timer and the channel access unit have their reset values and the composer
is SUSPENDED with its flags as they were from the assertion on, and not from the release, is the model's choice (log entry 28), and
so are the tick 0 and the SCANT pattern of the stopped window generator (log entry 7). -/
def Obligations.ResetAssertCutsWorkInFlight : Prop :=
  ∀ s : State, s.pins.reset = false → exec .resetAssert s = .next { s with
    pins := { s.pins with reset := true }
    startup := ⟨.inReset, s.startup.kind, s.startup.state, none⟩
    loader := { s.loader with phase := .stopped }
    rx := ⟨.off, false, .none, false, none, none, [], ⟨false, 0, .scant, false⟩⟩
    quiet := .expired
    cau := .idle
    lock := .free
    composer := { s.composer with state := .suspended, pass := none }
    rows := s.rows.map (fun row => { row with shown := if row.inService then none else row.shown })
    ctl := { s.ctl with retry := none, interval := none }
    engine := { s.engine with frameClock := .stopped, bus := .grounded }
    monitor := { s.monitor with lockout := none }
    account := { s.account with reservation := none } }

/-- RESET_RELEASE (R195, Table 10-2): what a line reset loses takes its reset values; the clock, the wall reference, E, the
stage, the freeze state, the fault record and the shown records stand, each desired record becoming its row's shown record, or
EMPTY, or BLANK for the banner row, where that is absent; the masks stand in FROZEN with the freeze drawn or skipped; the load
begins with its bus free check. That the configuration fields, the rows and the pointer of the old N stand until the load ends, and
that the load outcome is absent until then, is the model's reading (log entries 8, 31 and 32); the tick and pattern of the stopped
window generator are placeholders (log entry 7), and the count of NACKs that stands is the model's own (log entry 44). -/
def Obligations.ResetReleaseLosesAndKeeps : Prop :=
  ∀ (k : Nat) (s : State), s.pins.reset = true → ∃ t : State, exec (.resetRelease k) s = .next t ∧
    t = { s with
      pins := { s.pins with reset := false }
      startup := ⟨.loading, if s.startup.before = .fill ∨ s.startup.before = .service then .line else s.startup.kind,
        s.startup.before, none⟩
      loader := ⟨if k ≤ 9 then .addressing 1 else .busStuck, min k 9, none,
        List.replicate (min k 9) .pulse ++ (if k = 0 then [.start] else if k ≤ 9 then [.stop, .start] else []), s.loader.nacks⟩
      cfgInForce := false
      rx := ⟨.off, false, .none, false, none, none, [], ⟨false, 0, .scant, false⟩⟩
      quiet := .expired
      cau := .idle
      seen := []
      relayQ := []
      table := []
      lock := .free
      sweepWaiting := false
      composer := ⟨.suspended, false, none, false, none, false, false⟩
      rows := t.rows
      ctl := ⟨.opened, none, s.cfg.n - 1, s.cfg.n - 1, none, none⟩
      engine := ⟨.idle, none, none, none, none, none, none, none, none, .stopped, .grounded⟩
      monitor := ⟨s.monitor.record, 0, none⟩
      account := { s.account with reservation := none }
      maint := ⟨[], 0, t.maint.counters⟩ } ∧
    countersList t.maint.counters = List.replicate 20 0 ∧ t.rows.length = s.rows.length ∧
    ∀ (r : Nat) (row : Row), s.rows[r]? = some row → ∃ row' : Row, t.rows[r]? = some row' ∧
      row' = ⟨row.shown.getD (if r < s.cfg.n then .departure ⟨none, none, none, none, .empty, false, false⟩
          else .banner .blank), row.shown, none, false, false,
        r < s.cfg.n && (s.account.stage = .frozen && (s.account.freeze = .drawn || s.account.freeze = .skipped)), 0⟩

/-- LOAD_RETRY_WAIT_END (R197): after a NACKed attempt the next of at most four begins; the fourth ends the addressing with
NO_MEMORY (its wait there is the table's, log entry 31). On the two-wire bus an attempt sends, after its START, the address byte
of 0x51 for write, the word address 0 as two bytes, a repeated START and the address byte for read, up to the byte that meets a
NACK, which before LOAD_RETRY_WAIT_END is a free value (log entry 44), and a STOP; an attempt that is ACKed reads the record,
ACKing each byte but the last, and sends a STOP (R197, R198). What a load then puts in force: the record's configuration when a
record was read and is valid; the defaults, with the outcome that names the cause, for an invalid record, a fourth attempt
without one, a phase of NO_MEMORY and one of BUS_STUCK (R200, R202). When a record of 512 bytes is valid, test by test (R200).
What a valid record puts in force, field by field: its bytes at the places of Table 10-3 and Table 10-4, the tunables clamped to
their ranges and H kept within C − T1 (R201), labels and texts with a space for each byte that is not drawn (log entry 35). -/
def Obligations.LoadRetriesThenDecides : Prop :=
  (∀ (k : Nat) (s : State), s.startup.state = .loading → s.loader.phase = .addressing k → k ≤ 4 →
     exec .loadRetryWaitEnd s = .next { s with loader := { s.loader with
       phase := if k < 4 then .addressing (k + 1) else .noMemory
       bus := s.loader.bus ++ lastAttempt (.nack (Config.nackedByte s.loader.nacks)) ++ (if k < 4 then [.start] else [])
       nacks := s.loader.nacks + 1 } }) ∧
  (let w : BusEvent := .address 0x51 false true
   lastAttempt (.nack .addressWrite) = [.address 0x51 false false, .stop] ∧
   lastAttempt (.nack .wordHigh) = [w, .word 0 false, .stop] ∧
   lastAttempt (.nack .wordLow) = [w, .word 0 true, .word 0 false, .stop] ∧
   lastAttempt (.nack .addressRead) = [w, .word 0 true, .word 0 true, .repeatedStart, .address 0x51 true false, .stop] ∧
   ∀ r : List Byte, lastAttempt (.read r) =
     [w, .word 0 true, .word 0 true, .repeatedStart, .address 0x51 true true] ++
       r.mapIdx (fun i b => .data b (decide (i + 1 < r.length))) ++ [.stop]) ∧
  (∀ (l : Loader) (answer : MemoryAnswer),
     (∀ k : Nat, l.phase = .addressing k → l.ending answer = { l with bus := l.bus ++ lastAttempt answer }) ∧
     ((∀ k : Nat, l.phase ≠ .addressing k) → l.ending answer = l)) ∧
  (∀ (answer : MemoryAnswer) (b : AddressByte) (k : Nat),
     loadResult .busStuck answer = some (.busStuck, Cfg.defaults) ∧
     loadResult .noMemory answer = some (.noMemory, Cfg.defaults) ∧
     (k < 4 → loadResult (.addressing k) (.nack b) = none) ∧
     (4 ≤ k → loadResult (.addressing k) (.nack b) = some (.noMemory, Cfg.defaults))) ∧
  (∀ (r : List Byte) (k : Nat), r.length = 512 →
     let b (i : Nat) : Nat := (byteAt r i).toNat
     let two (i : Nat) : Nat := b i * 256 + b (i + 1)
     let four (i : Nat) : Nat := b i * 16777216 + b (i + 1) * 65536 + b (i + 2) * 256 + b (i + 3)
     let t3 := max 1 (four 26)
     let clamp (lo hi v : Nat) : Nat := max lo (min hi v)
     let drawn (i n : Nat) : List Byte := (List.range n).map (fun j =>
       if 0x20 ≤ b (i + j) ∧ b (i + j) ≤ 0x7E then byteAt r (i + j) else 0x20)
     let bit0 (i : Nat) : Bool := decide (b i % 2 = 1)
     let bit1 (i : Nat) : Bool := decide (b i / 2 % 2 = 1)
     let routeOk (i : Nat) : Prop := 1 ≤ two i ∧ two i ≤ 32767 ∧
       (bit0 (i + 2) = true → b (i + 7) ≤ 23) ∧ (bit1 (i + 2) = true → b (i + 8) ≤ 23)
     let route (i : Nat) : RouteRecord :=
       ⟨two i, bit0 (i + 2), bit1 (i + 2), drawn (i + 3) 4,
        if bit0 (i + 2) then drawn (256 + 10 * b (i + 7)) 10 else [],
        if bit1 (i + 2) then drawn (256 + 10 * b (i + 8)) 10 else []⟩
     let valid := two 0 = 0x4A4C ∧ b 2 = 1 ∧ (bodyCheck (r.take 510)).toNat = two 510 ∧
       1 ≤ two 3 ∧ two 3 ≤ 0xFFFD ∧ 4 ≤ b 8 ∧ b 8 ≤ 10 ∧ t3 < four 22 ∧ four 22 < four 18 ∧ four 18 ≤ four 14 ∧
       b 32 ≤ 12 ∧ ∀ i : Nat, i < b 32 → routeOk (33 + 18 * i)
     (¬ valid → loadResult (.addressing k) (.read r) = some (.invalid, Cfg.defaults)) ∧
     (valid → ∃ c : Cfg, loadResult (.addressing k) (.read r) = some (.valid, c) ∧ c.configured = true ∧
       c.ownId.toNat = two 3 ∧ c.networkKey = byteAt r 5 ∧ c.maintenanceKey.toNat = two 6 ∧ c.n = b 8 ∧
       c.period = clamp 10 60 (b 9) ∧ c.riseThreshold = clamp 1 3 (b 10) ∧ c.suppression = clamp 1 3 (b 11) ∧
       c.partialLimit = clamp 8 32 (b 12) ∧ c.clearHours = clamp 1 24 (b 13) ∧
       c.capacity = four 14 ∧ c.t1 = four 18 ∧ c.t2 = four 22 ∧ c.t3 = t3 ∧
       c.h = min (1000 * two 30) (four 14 - four 18) ∧
       c.routes = (List.range (b 32)).map (fun i => route (33 + 18 * i))))

/-- LOAD_END after power-on (R190, R203): the configuration is in force, the fill period runs for 960 ticks, the generator
is seeded, the account is RUNNING in SCANT with E = T3 + H within C, a SCANT listening period begins, and the receiver
listens when the energy gate is open. What the last attempt sent stands on the two-wire bus, when there was one (R197, R198). -/
def Obligations.LoadEndStartsTheAccount : Prop :=
  ∀ (answer : MemoryAnswer) (o : LoadOutcome) (c : Cfg) (s : State),
    s.startup.state = .loading → loadResult s.loader.phase answer = some (o, c) →
    c.t3 < c.t2 → c.t2 < c.t1 → c.t1 ≤ c.capacity →
    s.account = ⟨false, 0, none, .scant, .none⟩ → s.pins.low = false → s.rx = Receiver.initial → s.cau = .idle →
      let e := min c.capacity (c.t3 + c.h)
      let listens := 40 + (c.n + 1) * 210 < e
      exec (.loadEnd answer) s = .next { s with
        cfg := c
        cfgInForce := true
        loader := { s.loader with phase := .ended, outcome := some o, bus := (s.loader.ending answer).bus }
        startup := { s.startup with state := .fill, fillTimer := some 960 }
        rng := if c.ownId = 0xACE1 then 0xACE1 else c.ownId ^^^ 0xACE1
        rows := (if c.n = s.cfg.n then s.rows else Row.initialRows c.n).map (fun row => { row with mask := false })
        ctl := Controller.initial c.n
        account := ⟨true, e, none, .scant, .none⟩
        rx := { Receiver.initial with
          window := ⟨true, s.clock, .scant, true⟩
          state := if listens then .listen else .off }
        quiet := if listens then .running 30 else s.quiet }

/-- LOAD_END after a line reset, with no threshold of the loaded configuration crossed (R203): E and the stage stand, within the
C loaded, what the last attempt sent stands on the two-wire bus (R197, R198), and with LOW deasserted and no freeze to enter
again nothing else is done. A LOW asserted at the end of a load is acted on (R203); that this holds after a line reset, where
the rule on LOW (R175) names the load after power-on alone, is the model's reading (log entry 21). Outside FROZEN, LOW_EVENTS
counts, E falls below T3, the stage falls to FROZEN with the freeze pending, and the freeze picture is granted at once, since
the controller is OPEN and the engine IDLE. In FROZEN with the freeze pending, LOW deasserted or asserted, the freeze is entered
again (R191): the freeze content is desired in every row, and the FREEZE clear is requested and so granted (in the order of log
entry 22). -/
def Obligations.LoadEndResumesTheAccount : Prop :=
  ∀ (answer : MemoryAnswer) (o : LoadOutcome) (c : Cfg) (s : State),
    s.startup.state = .loading → loadResult s.loader.phase answer = some (o, c) → s.rx = Receiver.initial → s.cau = .idle →
      let ended (e : Nat) (rows : List Row) (ctl : Controller) (account : Account) : State :=
        let listens := 40 + (c.n + 1) * 210 < e
        { s with
          cfg := c
          cfgInForce := true
          loader := { s.loader with phase := .ended, outcome := some o, bus := (s.loader.ending answer).bus }
          startup := { s.startup with state := .fill, fillTimer := some 960 }
          rng := if c.ownId = 0xACE1 then 0xACE1 else c.ownId ^^^ 0xACE1
          rows := rows
          ctl := ctl
          account := account
          rx := { Receiver.initial with
            window := ⟨true, s.clock, account.stage, true⟩
            state := if listens then .listen else .off }
          quiet := if listens then .running 30 else s.quiet }
      let old := if c.n = s.cfg.n then s.rows else Row.initialRows c.n
      let kept := min c.capacity s.account.e
      let freezing (e : Nat) : State := { ended e
          (old.mapIdx (fun r row =>
            let frozen : RowRecord := if r < c.n then emptyRecord else .banner .outOfDate
            { row with
              desired := frozen, drawing := some frozen, pending := false, inService := true, mask := false }))
          ⟨.granted, none, c.n - 1, c.n - 1, none, none⟩ ⟨true, e, none, .frozen, .pending⟩ with
        engine := ⟨.prepare, some (.clear .freeze), none, none, none, none, none, none, some (0, 0), .stopped, .grounded⟩ }
      (s.account.running = true → s.account.reservation = none → s.pins.low = false →
       stageHolds c s.account.stage kept = true → ¬ (s.account.stage = .frozen ∧ s.account.freeze = .pending) →
         let masked := s.account.stage = .frozen ∧ (s.account.freeze = .drawn ∨ s.account.freeze = .skipped)
         exec (.loadEnd answer) s = .next (ended kept (old.mapIdx (fun r row => { row with mask := r < c.n ∧ masked }))
           ⟨.opened, none, c.n - 1, c.n - 1, none, none⟩ { s.account with e := kept })) ∧
      (s.pins.low = true → c.t3 < c.t2 → c.t2 < c.t1 → c.t1 ≤ c.capacity → 1 ≤ c.t3 → s.engine = Engine.initial →
       s.relayQ = [] → s.composer.state = .suspended →
       (s.account = ⟨false, 0, none, .scant, .none⟩ ∨ (s.account.running = true ∧ s.account.reservation = none ∧
         s.account.stage ≠ .frozen ∧ stageHolds c s.account.stage kept = true)) →
         exec (.loadEnd answer) s = .next (State.count .lowEvents (freezing
           (min (if s.account.running then kept else min c.capacity (c.t3 + c.h)) (c.t3 - 1))))) ∧
      (s.account.running = true → s.account.reservation = none → s.account.stage = .frozen →
       s.account.freeze = .pending → stageHolds c .frozen kept = true → s.engine = Engine.initial →
         (s.pins.low = false → exec (.loadEnd answer) s = .next (freezing kept)) ∧
         (s.pins.low = true → c.t3 < c.t2 → c.t2 < c.t1 → 1 ≤ c.t3 →
           exec (.loadEnd answer) s = .next (State.count .lowEvents (freezing (min kept (c.t3 - 1))))))

/-- FILL_PERIOD_END (R205): the part is in SERVICE, the full-clear interval starts, and outside FROZEN the first pass
starts, which after a power-on carries an ORDINARY panel clear to its completion (R106, R115). A sweep that is due is made before
the pass takes the lock (R69). -/
def Obligations.FillPeriodEndStartsService : Prop :=
  ∀ s : State, s.startup.state = .fill → s.startup.fillTimer = some 0 →
    let held := { s with
      startup := { s.startup with state := .service, fillTimer := none }
      ctl := { s.ctl with interval := some (28800 * s.cfg.clearHours) } }
    (s.account.stage = .frozen → exec .fillPeriodEnd s = .next held) ∧
    (s.account.stage ≠ .frozen → exec .fillPeriodEnd s = .next { held with
      table := if s.sweepWaiting then sweptTable s.clock s.table else s.table
      sweepWaiting := false
      lock := .held
      composer := ⟨.passing, false, some (s.clock + BitVec.ofNat 32 (periodTicks s.cfg s.account.stage)), false,
        some ⟨s.clock, s.account.stage, s.wall, s.composer.clearArmed || decide (s.startup.kind = .powerOn)⟩,
        false, false⟩ })

/-! ### The clock's moments (chapters 1 to 4) -/

/-- TICK (R75), in the model's order (log entry 10), where no debit crosses a threshold. In a working part the count rises,
every running timer loses a tick, a reading of 480 ticks is old, and the powered receiver is charged 1 q (R16). At a whole
second boundary a sweep falls due (R69), the baseline of 1 q is debited (R172), and an IDLE composer with the recompose flag set
starts a pass (R101), before which the sweep is made. That a pass started at the tick at which the wall reference ends has it
still present is the model's choice (log entry 39), and that the tick at which a listening window closes is charged and the one at
which it opens is not (log entry 42). A charge that closes the energy gate takes a listening receiver OFF (R16),
and an attempt that is sensing or contending is abandoned with its candidate (R32): the relay becomes ABANDONED with
RELAY_ABANDONED counted, the reply is discarded with no counter. Held in a reset or a load, the count rises and the baseline is
debited alone (R194). -/
def Obligations.TickTakesItsTurns : Prop :=
  (∀ s : State, active s = true → s.account.running = true →
     let boundary := decide ((s.clock + 1).toNat % 8 = 0)
     let ticked (e : Nat) : State := { withE s e with
       clock := s.clock + 1
       startup := { s.startup with fillTimer := s.startup.fillTimer.map (· - 1) }
       ctl := { s.ctl with retry := s.ctl.retry.map (· - 1), interval := s.ctl.interval.map (· - 1) }
       monitor := { s.monitor with lockout := s.monitor.lockout.map (· - 1) }
       engine := { s.engine with reading := s.engine.reading.map (fun r =>
         { r with old := r.old || decide (480 ≤ (s.clock + 1 - r.tick).toInt) }) } }
     (let charged := if s.rx.state = .listen ∨ s.rx.state = .receiving then 1 else 0
      let e := s.account.e - charged
      let e' := e - (if boundary then 1 else 0)
      crossesNothing s e = true → crossesNothing s e' = true →
        (boundary = false → exec .tick s = .next (ticked e')) ∧
        (boundary = true → s.composer.state ≠ .idle ∨ s.composer.recompose = false →
          exec .tick s = .next { ticked e' with sweepWaiting := true }) ∧
        (boundary = true → s.composer.state = .idle → s.composer.recompose = true → exec .tick s = .next { ticked e' with
          table := sweptTable (s.clock + 1) s.table
          sweepWaiting := false
          lock := .held
          composer := ⟨.passing, false, some (s.clock + 1 + BitVec.ofNat 32 (periodTicks s.cfg s.account.stage)), false,
            some ⟨s.clock + 1, s.account.stage, s.wall, s.composer.clearArmed⟩, false, false⟩ })) ∧
     (let e := s.account.e - 1
      let off : State := { ticked e with rx := { s.rx with state := .off } }
      boundary = false → s.rx.state = .listen → stageHolds s.cfg s.account.stage e = true → gateOpen (withE s e) = false →
        (s.cau = .idle → exec .tick s = .next off) ∧
        (∀ x : RelayEntry, s.relayQ = [x] → s.maint.replies = [] →
          ((s.cau = .sensing ∧ (x.due - (s.clock + 1)).toInt ≤ 0) ∨ ∃ ms : Nat, s.cau = .contending (.relay x.origin x.seq) ms) →
          exec .tick s = .next (State.count .relayAbandoned { off with
            cau := .idle
            relayQ := []
            seen := s.seen.map (fun y =>
              if y.origin = x.origin && y.seq = x.seq then { y with state := .abandoned } else y) })) ∧
        (∀ r : Reply, s.maint.replies = [r] → (s.cau = .sensing ∨ ∃ ms : Nat, s.cau = .contending .reply ms) →
          (∀ x ∈ s.relayQ, 0 < (x.due - (s.clock + 1)).toInt) →
          exec .tick s = .next { off with cau := .idle, maint := { s.maint with replies := [] } }))) ∧
  (∀ s : State, active s = false → s.rx.state = .off ∨ s.rx.state = .transmitting →
     ((s.clock + 1).toNat % 8 ≠ 0 → exec .tick s = .next { s with clock := s.clock + 1 }) ∧
     ((s.clock + 1).toNat % 8 = 0 → s.account.running = false → exec .tick s = .next { s with clock := s.clock + 1 }) ∧
     ((s.clock + 1).toNat % 8 = 0 → s.account.running = true → crossesNothing s (s.account.e - 1) = true →
       exec .tick s = .next (withE { s with clock := s.clock + 1 } (s.account.e - 1))))

/-- SEEN_ENTRY_AGE_OUT (R40): at a whole second boundary every entry more than 4800 ticks old is freed, unless it is WAITING or has
dispatch pending; the others keep their order; at no other tick is an entry freed. RELAY_LIFETIME_EXPIRY (R45): at a whole second
boundary every relay whose hold start lies 240 ticks or more back is removed, its seen entry becomes ABANDONED, and RELAY_ABANDONED
counts each. An idle unit and a contention delay for a relay that stays go on; a contention delay for one that is removed is
cancelled, and with no candidate ready the attempt ends (R34). -/
def Obligations.EntriesAndRelaysAgeOut : Prop :=
  (∀ s : State, active s = true →
     (s.clock.toNat % 8 = 0 → exec .seenEntryAgeOut s = .next { s with seen := s.seen.filter (fun e =>
       !(decide (4800 < (s.clock - e.firstHeard).toInt) && !(decide (e.state = .waiting) || e.dispatchPending))) }) ∧
     (s.clock.toNat % 8 ≠ 0 → exec .seenEntryAgeOut s = .next s)) ∧
  (∀ s : State, active s = true → s.clock.toNat % 8 = 0 → CountersInRange s →
     let ended := s.relayQ.filter (fun e => decide (240 ≤ (s.clock - e.holdStart).toInt))
     let left : State := { s with
       relayQ := s.relayQ.filter (fun e => !ended.any (fun x => x.origin = e.origin && x.seq = e.seq))
       seen := s.seen.map (fun e =>
         if ended.any (fun x => x.origin = e.origin && x.seq = e.seq) then { e with state := .abandoned } else e)
       maint := { s.maint with counters := { s.maint.counters with
         relayAbandoned := min 65535 (s.maint.counters.relayAbandoned + ended.length) } } }
     (s.cau = .idle → exec .relayLifetimeExpiry s = .next left) ∧
     (∀ (o q : Word16) (ms : Nat), s.cau = .contending (.relay o q) ms →
       ((∃ e ∈ left.relayQ, e.origin = o ∧ e.seq = q) → exec .relayLifetimeExpiry s = .next left) ∧
       ((∀ e ∈ left.relayQ, ¬ (e.origin = o ∧ e.seq = q)) → candidate? left = none →
         receiverAgrees { s with cau := .idle } = true →
         exec .relayLifetimeExpiry s = .next { left with cau := .idle })))

/-- TABLE_SWEEP (R67, R68, R72): with the lock free the sweep removes the entries 960 or more ticks past, marks stale the LIVE
entries heard of last more than 4800 ticks ago, and sets the recompose flag when that changes what the first N entries show; no
counter counts. While the lock is held it waits (R69). What the first N entries of a table in its order show changes exactly
when an entry enters or leaves the first N, or one that stays there changes its D, source, state, bay, notes or stale flag
(R72). -/
def Obligations.SweepRemovesAndMarks : Prop :=
  (∀ s : State, active s = true → s.sweepWaiting = true →
    (s.lock = .held → exec .tableSweep s = .next s) ∧
    (s.lock = .free →
      let swept := (s.table.filter (fun e => decide ((-960 : Int) < (e.d - s.clock).toInt))).map (fun e =>
        { e with stale := e.stale || (decide (e.source = .live) && decide (4800 < (s.clock - e.lastReport).toInt)) })
      sweptTable s.clock s.table = swept ∧
      exec .tableSweep s = .next { s with
        table := swept
        sweepWaiting := false
        composer := { s.composer with recompose :=
          s.composer.recompose || decide (noticeView s.cfg.n swept ≠ noticeView s.cfg.n s.table) } })) ∧
  (∀ (now : Tick) (n : Nat) (l l' : List DepEntry),
    l.Pairwise (fun a b => entryBefore now a b = true) → l'.Pairwise (fun a b => entryBefore now a b = true) →
    (l.map (·.key)).Nodup → (l'.map (·.key)).Nodup →
    (noticeView n l ≠ noticeView n l' ↔
      (∃ k : Key, ¬ (k ∈ (l.take n).map (·.key) ↔ k ∈ (l'.take n).map (·.key))) ∨
      ∃ e ∈ l.take n, ∃ e' ∈ l'.take n, e.key = e'.key ∧ ¬ (e.d = e'.d ∧ e.source = e'.source ∧ e.state = e'.state ∧
        e.bay = e'.bay ∧ e.notes = e'.notes ∧ e.stale = e'.stale)))

/-- WALL_REFERENCE_EXPIRY (R84): the reference becomes absent when 691,200 ticks have passed since its tick, held part or
not, and nothing else changes; before that it stands. -/
def Obligations.WallReferenceExpires : Prop :=
  ∀ (s : State) (w : WallRef), s.wall = some w →
    (691200 ≤ (s.clock - w.refTick).toInt → exec .wallReferenceExpiry s = .next { s with wall := none }) ∧
    ((s.clock - w.refTick).toInt < 691200 → exec .wallReferenceExpiry s = .next s)

/-- LISTEN_PERIOD_END (R13, R14): when the running period's length has passed, the next begins at once with the current stage's
pattern and its window on; the receiver goes from OFF to LISTEN with the quiet timer loaded when the gate is open.
LISTEN_WINDOW_OFF (R13, R14): when the on span of a THRIFT, SCANT or FROZEN pattern has passed, the window turns off; a
receiver in LISTEN with no carrier-sense request enters OFF, and one in RECEIVING runs on. -/
def Obligations.ListeningPeriodsAndTheirWindows : Prop :=
  (∀ s : State, active s = true → s.rx.window.running = true → s.cau = .idle →
     ((match s.rx.window.pattern with | .full => 8 | .thrift => 64 | .scant => 128 | .frozen => 480 : Int)
       ≤ (s.clock - s.rx.window.start).toInt) →
     let w : Window := ⟨true, s.clock, s.account.stage, true⟩
     (gateOpen s = true → s.rx.state = .off → exec .listenPeriodEnd s = .next { s with
       rx := { s.rx with window := w, state := .listen, firstSync := false }, quiet := .running 30 }) ∧
     (s.rx.state = .receiving ∨ s.rx.state = .transmitting ∨ (s.rx.state = .listen ∧ gateOpen s = true) ∨
         (s.rx.state = .off ∧ gateOpen s = false) →
       exec .listenPeriodEnd s = .next { s with rx := { s.rx with window := w } })) ∧
  (∀ s : State, s.rx.window.running = true → s.rx.window.on = true → s.rx.window.pattern ≠ .full → s.cau = .idle →
     ((match s.rx.window.pattern with | .full => 8 | .thrift => 48 | .scant => 16 | .frozen => 16 : Int)
       ≤ (s.clock - s.rx.window.start).toInt) →
     (s.rx.state = .listen → exec .listenWindowOff s = .next { s with
       rx := { s.rx with window := { s.rx.window with on := false }, state := .off } }) ∧
     (s.rx.state ≠ .listen → exec .listenWindowOff s = .next { s with
       rx := { s.rx with window := { s.rx.window with on := false } } }))

/-! ### The air receiver (chapter 1) -/

/-- CHARACTER_RECEIVED outside a frame (R1 to R3): in OFF and TRANSMITTING no character is taken; in LISTEN a good 0xC3 is the
first sync byte, a good 0x3C after it is the second and begins a frame in buffer A, or B when A is taken, or in none, which
counts RX_OVERRUN; every other character makes the first sync absent. SYNC_GAP_TIMEOUT (R2) makes it absent in LISTEN and does
nothing elsewhere. -/
def Obligations.HuntingTakesSyncPairs : Prop :=
  (∀ (ch : Byte) (err : Bool) (s : State),
     (s.rx.state = .off ∨ s.rx.state = .transmitting → exec (.characterReceived ch ⟨err, none⟩) s = .next s) ∧
     (s.rx.state = .listen →
       (err = false → ch = 0xC3 →
         exec (.characterReceived ch ⟨err, none⟩) s = .next { s with rx := { s.rx with firstSync := true } }) ∧
       (err = true ∨ (ch ≠ 0xC3 ∧ ¬ (ch = 0x3C ∧ s.rx.firstSync = true)) →
         exec (.characterReceived ch ⟨err, none⟩) s = .next { s with rx := { s.rx with firstSync := false } }) ∧
       (err = false → ch = 0x3C → s.rx.firstSync = true →
         (s.rx.bufA = none → exec (.characterReceived ch ⟨err, none⟩) s = .next { s with rx := { s.rx with
           state := .receiving, firstSync := false, charError := false,
           bufA := some ⟨[], none⟩, reception := .length (.buffer .a) } }) ∧
         (s.rx.bufA ≠ none → s.rx.bufB = none → exec (.characterReceived ch ⟨err, none⟩) s = .next { s with rx := { s.rx with
           state := .receiving, firstSync := false, charError := false,
           bufB := some ⟨[], none⟩, reception := .length (.buffer .b) } }) ∧
         (s.rx.bufA ≠ none → s.rx.bufB ≠ none →
           exec (.characterReceived ch ⟨err, none⟩) s = .next (State.count .rxOverrun { s with rx := { s.rx with
             state := .receiving, firstSync := false, charError := false, reception := .length .overrun } }))))) ∧
  (∀ s : State,
     (s.rx.state = .listen → exec .syncGapTimeout s = .next { s with rx := { s.rx with firstSync := false } }) ∧
     (s.rx.state ≠ .listen → exec .syncGapTimeout s = .next s))

/-- CHARACTER_RECEIVED within a frame before its last character (R4, R5): a length byte of 13 to 96 is stored in the frame's buffer
and that many characters follow; any other is a length failure, which frees the buffer, counts RX_LENGTH and skips as many
characters; a later character is stored, and a bad stop bit marks the frame. An overrun frame is followed in the same way, its
characters stored nowhere and a length failure counted by nothing (R3). -/
def Obligations.FrameCharactersAreStored : Prop :=
  ∀ (ch : Byte) (err : Bool) (s : State), s.rx.state = .receiving →
    (∀ (id : BufId) (b : RxBuffer), bufferOf s id = some b →
      let filled (buf : Option RxBuffer) : Receiver := { s.rx with
        bufA := if id = .a then buf else s.rx.bufA, bufB := if id = .b then buf else s.rx.bufB }
      (s.rx.reception = .length (.buffer id) →
        (13 ≤ ch.toNat → ch.toNat ≤ 96 → exec (.characterReceived ch ⟨err, none⟩) s = .next { s with
          rx := { filled (some { b with bytes := b.bytes ++ [ch] }) with
            reception := .body (.buffer id) ch.toNat, charError := err } }) ∧
        (1 ≤ ch.toNat → ch.toNat < 13 ∨ 96 < ch.toNat → exec (.characterReceived ch ⟨err, none⟩) s =
          .next (State.count .rxLength { s with rx := { filled none with reception := .skip ch.toNat } })) ∧
        (ch.toNat = 0 → wantedOn s = true ∨ s.cau = .idle → exec (.characterReceived ch ⟨err, none⟩) s =
          .next (State.count .rxLength { s with rx := { filled none with
            state := if wantedOn s then .listen else .off
            reception := .none, firstSync := false, charError := false } }))) ∧
      (∀ left : Nat, 2 ≤ left → s.rx.reception = .body (.buffer id) left →
        exec (.characterReceived ch ⟨err, none⟩) s = .next { s with rx := { filled (some { b with bytes := b.bytes ++ [ch] }) with
          reception := .body (.buffer id) (left - 1)
          charError := s.rx.charError || err } })) ∧
    (s.rx.reception = .length .overrun →
      (13 ≤ ch.toNat → ch.toNat ≤ 96 → exec (.characterReceived ch ⟨err, none⟩) s = .next { s with rx := { s.rx with
        reception := .body .overrun ch.toNat, charError := err } }) ∧
      (1 ≤ ch.toNat → ch.toNat < 13 ∨ 96 < ch.toNat → exec (.characterReceived ch ⟨err, none⟩) s = .next { s with
        rx := { s.rx with reception := .skip ch.toNat } })) ∧
    (∀ left : Nat, 2 ≤ left → s.rx.reception = .skip left →
      exec (.characterReceived ch ⟨err, none⟩) s = .next { s with rx := { s.rx with reception := .skip (left - 1) } }) ∧
    (∀ left : Nat, 2 ≤ left → s.rx.reception = .body .overrun left →
      exec (.characterReceived ch ⟨err, none⟩) s = .next { s with rx := { s.rx with
        reception := .body .overrun (left - 1), charError := s.rx.charError || err } })

/-- CHARACTER_RECEIVED for the last character of a frame, in either buffer (R5, R13, R18 step 2): the receiver leaves RECEIVING
for LISTEN when it is wanted on and for OFF otherwise; a character error anywhere drops the frame with RX_CHAR and frees its
buffer; otherwise the bytes with this character go through the validation chain. The last character of an overrun frame, or of a
skip (R4), ends the reception alone. -/
def Obligations.LastCharacterEndsTheFrame : Prop :=
  ∀ (ch : Byte) (err : Bool) (s : State), s.rx.state = .receiving → wantedOn s = true ∨ s.cau = .idle →
    let ended (rx : Receiver) : State := { s with rx := { rx with
      state := if wantedOn s then .listen else .off
      reception := .none, firstSync := false, charError := false } }
    (∀ (id : BufId) (b : RxBuffer), bufferOf s id = some b → s.rx.reception = .body (.buffer id) 1 →
      let filled (buf : Option RxBuffer) : Receiver := { s.rx with
        bufA := if id = .a then buf else s.rx.bufA, bufB := if id = .b then buf else s.rx.bufB }
      (s.rx.charError = true ∨ err = true →
        exec (.characterReceived ch ⟨err, none⟩) s = .next (State.count .rxChar (ended (filled none)))) ∧
      (s.rx.charError = false → err = false →
        exec (.characterReceived ch ⟨err, none⟩) s =
          .next (validate id (b.bytes ++ [ch]) (ended (filled (some { b with bytes := b.bytes ++ [ch] })))))) ∧
    (s.rx.reception = .body .overrun 1 ∨ s.rx.reception = .skip 1 →
      exec (.characterReceived ch ⟨err, none⟩) s = .next (ended s.rx))

/-- The early end of a frame or a skip, by INTER_CHARACTER_GAP_TIMEOUT or CD_DEASSERT (R4, R5, R18 step 2): a frame in either
buffer is dropped with RX_CHAR for a character error and RX_SHORT otherwise, and with RX_SHORT before its length byte; an overrun
frame and a skip end with no counter. The receiver enters LISTEN when it is wanted on and OFF otherwise (R13). -/
def Obligations.EarlyEndDropsTheFrame : Prop :=
  ∀ s : State, s.rx.state = .receiving → s.cau = .idle ∨ (wantedOn s = true ∧ s.cau ≠ .sensing) →
    let ended (rx : Receiver) : State := { s with rx := { rx with
      state := if wantedOn s then .listen else .off
      reception := .none, firstSync := false, charError := false } }
    let low (u : State) : State := { u with pins := { s.pins with cd := false } }
    (∀ id : BufId,
      let freed : Receiver := { s.rx with
        bufA := if id = .a then none else s.rx.bufA, bufB := if id = .b then none else s.rx.bufB }
      let dropped (k : Counter) : State := State.count k (ended freed)
      (∀ left : Nat, s.rx.reception = .body (.buffer id) left →
        let k : Counter := if s.rx.charError then .rxChar else .rxShort
        exec .interCharacterGapTimeout s = .next (dropped k) ∧
        (s.pins.cd = true → exec .cdDeassert s = .next (low (dropped k)))) ∧
      (s.rx.reception = .length (.buffer id) → s.rx.charError = false →
        exec .interCharacterGapTimeout s = .next (dropped .rxShort) ∧
        (s.pins.cd = true → exec .cdDeassert s = .next (low (dropped .rxShort))))) ∧
    (s.rx.reception = .length .overrun ∨ (∃ left : Nat, s.rx.reception = .body .overrun left ∨ s.rx.reception = .skip left) →
      exec .interCharacterGapTimeout s = .next (ended s.rx) ∧
      (s.pins.cd = true → exec .cdDeassert s = .next (low (ended s.rx))))

/-- The validation chain's drops at steps 3 to 6 (R18), in their order: header check or placement, network key, format, and the
part's own frames. A dropped frame frees its buffer, counts once, and changes nothing else. The interest filter (R20): which
first copies are skipped; a skipped frame counts RX_SKIPPED, frees its buffer and makes no seen entry, and a DAMAGED entry of its
key stands. -/
def Obligations.ValidationDropsAndSkips : Prop :=
  ∀ (id : BufId) (l : List Byte) (s : State),
    let f := readFrame l
    let dropped (k : Counter) : State := State.count k { s with rx := { s.rx with
      bufA := if id = .a then none else s.rx.bufA, bufB := if id = .b then none else s.rx.bufB } }
    (f.len < 13 + 2 * f.trailCount ∨ headerOk l = false → validate id l s = dropped .rxHeader) ∧
    (13 + 2 * f.trailCount ≤ f.len → headerOk l = true →
      (f.networkKey ≠ s.cfg.networkKey → validate id l s = dropped .rxForeign) ∧
      (f.networkKey = s.cfg.networkKey →
        (f.kind = 0 ∨ 6 ≤ f.kind ∨ 5 ≤ f.trailCount → validate id l s = dropped .rxHeader) ∧
        (1 ≤ f.kind → f.kind ≤ 5 → f.trailCount ≤ 4 → f.origin = s.cfg.ownId →
          validate id l s = dropped .rxDuplicate)) ∧
      (f.networkKey = s.cfg.networkKey → f.trailCount ≤ 4 → f.origin ≠ s.cfg.ownId →
        (∀ e : SeenEntry, findSeen f.origin f.seq s.seen = some e → e.state = .damaged) →
        let filtered := (1 ≤ f.kind ∧ f.kind ≤ 3 ∧ inInterest s.cfg f.route f.dir = false ∧ s.account.stage ≠ .full) ∨
          (f.kind = 4 ∧ f.subject ≠ s.cfg.ownId ∧ f.subject ≠ 0xFFFF)
        (skips s f = true ↔ filtered) ∧ (filtered → validate id l s = dropped .rxSkipped)))

/-- A duplicate (R19, R38, R44): RX_DUPLICATE counts, the copies count rises and stays at 15, and when it brings a WAITING
relay to the suppression threshold the relay leaves the queue, its entry is SUPPRESSED and RELAY_SUPPRESSED counts. When that relay
has a contention delay running, the delay is cancelled, and with no candidate ready the attempt ends (R34). -/
def Obligations.DuplicatesRaiseCopies : Prop :=
  ∀ (id : BufId) (l : List Byte) (s : State) (e : SeenEntry),
    let f := readFrame l
    13 + 2 * f.trailCount ≤ f.len → headerOk l = true → f.networkKey = s.cfg.networkKey → 1 ≤ f.kind → f.kind ≤ 5 →
    f.trailCount ≤ 4 → f.origin ≠ s.cfg.ownId → findSeen f.origin f.seq s.seen = some e → e.state ≠ .damaged →
      let dropped := State.count .rxDuplicate { s with
        rx := { s.rx with bufA := if id = .a then none else s.rx.bufA, bufB := if id = .b then none else s.rx.bufB }
        seen := s.seen.map (fun x =>
          if x.origin = f.origin ∧ x.seq = f.seq then { x with copies := min 15 (e.copies + 1) } else x) }
      let suppressed := State.count .relaySuppressed { dropped with
        seen := dropped.seen.map (fun x =>
          if x.origin = f.origin ∧ x.seq = f.seq then { x with state := .suppressed } else x)
        relayQ := s.relayQ.filter (fun x => ¬ (x.origin = f.origin ∧ x.seq = f.seq)) }
      (s.cau = .idle →
        (¬ (e.state = .waiting ∧ s.cfg.suppression ≤ min 15 (e.copies + 1)) → validate id l s = dropped) ∧
        (e.state = .waiting → s.cfg.suppression ≤ min 15 (e.copies + 1) → validate id l s = suppressed)) ∧
      (∀ ms : Nat, s.cau = .contending (.relay f.origin f.seq) ms → e.state = .waiting →
        s.cfg.suppression ≤ min 15 (e.copies + 1) → candidate? suppressed = none →
        receiverAgrees { s with cau := .idle } = true → validate id l s = { suppressed with cau := .idle })

/-- Steps 9 to 11 for a first copy, in either buffer (R20 to R23, R37): a departure frame in the interest set, or any in FULL, a
request addressed to the part, or a reply. A first copy has no seen entry, or a DAMAGED one, which keeps its copies, its tick
and its place; a new entry joins at the end of the order, after the eviction of the first entry that is neither WAITING nor
dispatch pending when the table holds 64 (R39). A failed body check leaves a DAMAGED entry, an inconsistent body a HEARD one,
each with RX_BODY and the buffer free. A request so refused is answered BODY_CHECK or BAD_LENGTH with echo 0, unless 2 replies
wait (R206, R207), and an IDLE unit starts an attempt with that reply, SENSING while the channel is not quiet (R29). A good
frame counts RX_OK and makes its entry HEARD; a departure frame, with dispatch pending, and a request stay in the buffer with
the current tick as reception-end tick, and a reply's buffer is free. That a departure frame stays there whatever the lock,
until the command FRAME_DISPATCH, and a request until its own command, is the model's choice (log entry 11). -/
def Obligations.FirstCopiesAreAccepted : Prop :=
  ∀ (id : BufId) (l : List Byte) (s : State) (b : RxBuffer),
    let f := readFrame l
    let departure := decide (1 ≤ f.kind ∧ f.kind ≤ 3)
    13 + 2 * f.trailCount ≤ f.len → headerOk l = true → f.networkKey = s.cfg.networkKey → f.trailCount ≤ 4 →
    f.origin ≠ s.cfg.ownId → bufferOf s id = some b →
    (∀ e : SeenEntry, findSeen f.origin f.seq s.seen = some e → e.state = .damaged) →
    ((departure = true ∧ (inInterest s.cfg f.route f.dir = true ∨ s.account.stage = .full)) ∨
      (f.kind = 4 ∧ (f.subject = s.cfg.ownId ∨ f.subject = 0xFFFF)) ∨ f.kind = 5) →
      let known := (findSeen f.origin f.seq s.seen).isSome
      let room := if 64 ≤ s.seen.length then s.seen.eraseP (fun e => e.state ≠ .waiting && !e.dispatchPending) else s.seen
      let fresh (st : SeenState) (pend : Bool) : List SeenEntry := room ++ [⟨f.origin, f.seq, st, 0, s.clock, pend⟩]
      let heard (pend : Bool) : List SeenEntry :=
        if known then s.seen.map (fun e =>
          if e.origin = f.origin && e.seq = f.seq then { e with state := .heard, dispatchPending := pend } else e)
        else fresh .heard pend
      let filled (buf : Option RxBuffer) : Receiver := { s.rx with
        bufA := if id = .a then buf else s.rx.bufA, bufB := if id = .b then buf else s.rx.bufB }
      let failed (seen : List SeenEntry) : State := State.count .rxBody { s with rx := filled none, seen := seen }
      let bad : State := failed (if known then s.seen else fresh .damaged false)
      let malformed : State := failed (heard false)
      let good (rx : Receiver) : State := State.count .rxOk { s with rx := rx, seen := heard departure }
      let held : Receiver := { filled (some { b with endTick := some s.clock }) with accepted := s.rx.accepted ++ [id] }
      let refused (r : Result) (u : State) : State := { u with
        cau := if s.cau = .idle then .sensing else s.cau
        maint := { u.maint with
          replies := s.maint.replies ++ [⟨replyFrame s f.origin f.seq 0 r [], 0⟩], seq := s.maint.seq + 1 } }
      let answers := s.maint.replies.length < 2 ∧ ((s.cau ≠ .idle ∧ receiverAgrees s = true) ∨
        (s.cau = .idle ∧ active s = true ∧ gateOpen s = true ∧ s.rx.state = .listen ∧
          (s.quiet ≠ .expired ∨ s.pins.cd = true)))
      (bodyCheck f.body ≠ f.bodyCheckWord →
        (f.kind ≠ 4 ∨ 2 ≤ s.maint.replies.length → validate id l s = bad) ∧
        (f.kind = 4 → answers → validate id l s = refused .bodyCheck bad)) ∧
      (bodyCheck f.body = f.bodyCheckWord → readBody f.kind f.body = none →
        (f.kind ≠ 4 ∨ 2 ≤ s.maint.replies.length → validate id l s = malformed) ∧
        (f.kind = 4 → answers → validate id l s = refused .badLength malformed)) ∧
      (bodyCheck f.body = f.bodyCheckWord → readBody f.kind f.body ≠ none →
        (f.kind ≠ 5 → validate id l s = good held) ∧ (f.kind = 5 → validate id l s = good (filled none)))

/-- A counter's event raises that counter by 1 and no other, and a counter at 65535 stays there (R213). The counters and their
places are those of Table 11-3, in its order. -/
def Obligations.CountersRiseAndStay : Prop :=
  (∀ (k : Counter) (c : Counters), (∀ n ∈ countersList c, n ≤ 65535) →
    countersList (countOn k c) = (countersList c).modify k.place (fun n => min 65535 (n + 1))) ∧
  [Counter.rxOk, .rxLength, .rxChar, .rxShort, .rxHeader, .rxForeign, .rxDuplicate, .rxBody, .rxOverrun, .rxSkipped, .relaySent,
    .relaySuppressed, .relayAbandoned, .tableApplied, .tableIgnored, .tableEvicted, .tableRefused, .drawDone, .drawAborted,
    .lowEvents].map Counter.place = List.range 20 ∧
  (∀ c : Counters, countersList c =
    [c.rxOk, c.rxLength, c.rxChar, c.rxShort, c.rxHeader, c.rxForeign, c.rxDuplicate, c.rxBody, c.rxOverrun, c.rxSkipped,
      c.relaySent, c.relaySuppressed, c.relayAbandoned, c.tableApplied, c.tableIgnored, c.tableEvicted, c.tableRefused,
      c.drawDone, c.drawAborted, c.lowEvents])

/-! ### The departure table (chapter 3) -/

/-- FRAME_DISPATCH waits while the table lock is held, and does nothing without an accepted departure frame (R23, R70). Dispatch
of the report of a trip the table does not hold (R56, R58, R59, R78), its hop limit 0 so that it is not relayed (R42): the
entry joins at its place in the table order, anchored at its reception-end tick and age with its remaining seconds taken at
most 7200, TABLE_APPLIED counts, dispatch pending becomes no, and the buffer is free. -/
def Obligations.DispatchInsertsAReport : Prop :=
  (∀ s : State, (s.lock = .held ∨ ∀ id ∈ s.rx.accepted, holdsDeparture s id = false) → exec .frameDispatch s = .next s) ∧
  (∀ (s : State) (id : BufId) (l : List Byte) (t0 : Tick) (trip : Nat) (r : Int) (c : Bool) (bay : Option Nat)
     (notes : Option Notes),
     let f := readFrame l
     let key : Key := ⟨f.route, f.dir, trip⟩
     s.lock = .free → s.rx.accepted.find? (holdsDeparture s) = some id → bufferOf s id = some ⟨l, some t0⟩ →
     f.kind = 1 → readBody 1 f.body = some (.report trip r c bay notes) → f.hop = 0 →
     inInterest s.cfg f.route f.dir = true → f.age < 2400 → (-300 : Int) ≤ r → findEntry key s.table = none →
     s.table.length < 48 → s.composer.wallSignal = false → candidate? s = none → receiverAgrees s = true →
       let e : DepEntry := ⟨key, .live, if c then .cancelled else .active,
         t0 + BitVec.ofInt 32 (8 * min r 7200 - f.age), t0, f.origin, f.seq, bay, notes, false, none⟩
       let table := insertEntry s.clock e s.table
       exec .frameDispatch s = .next (State.count .tableApplied { s with
         table := table
         composer := { s.composer with recompose :=
           s.composer.recompose || decide (noticeView s.cfg.n table ≠ noticeView s.cfg.n s.table) }
         seen := s.seen.map (fun x =>
           if x.origin = f.origin ∧ x.seq = f.seq then { x with dispatchPending := false } else x)
         rx := { s.rx with
           bufA := if id = .a then none else s.rx.bufA
           bufB := if id = .b then none else s.rx.bufB
           accepted := s.rx.accepted.filter (· ≠ id) } }))

/-- FRAME_DISPATCH of a schedule bundle, its hop limit 0 (R64, R65, R83, R102). Below an age of 2400 ticks the wall reference is
set from the bundle's time of day, age and reception-end tick, the items of a bundle in the interest set are then applied in
their order, and an IDLE composer starts a pass with the new reference. At 2400 ticks or more each item of such a bundle counts
TABLE_IGNORED and nothing else is done. One item (R65): ignored below −300 s, under a LIVE entry, and under a SCHEDULED entry
that the same origin set with a newer sequence; otherwise it inserts a SCHEDULED entry, or replaces the SCHEDULED entry of its
key, which keeps its shown row, stays at its place when its D did not change and takes the place of its new D otherwise (R55). The
recompose flag is set when that changes what the first N entries show (R72). -/
def Obligations.DispatchOfABundleSetsTheWallReference : Prop :=
  (∀ (s : State) (id : BufId) (l : List Byte) (t0 : Tick) (tod : Nat) (items : List (Nat × Int)),
    let f := readFrame l
    s.lock = .free → s.rx.accepted.find? (holdsDeparture s) = some id → bufferOf s id = some ⟨l, some t0⟩ →
    f.kind = 3 → readBody 3 f.body = some (.bundle tod items) → f.hop = 0 → candidate? s = none → receiverAgrees s = true →
      let wall : WallRef := ⟨(8 * tod + f.age) % 691200, t0⟩
      let timed : State := { s with wall := some wall }
      let applied := if inInterest s.cfg f.route f.dir then items.foldl (fun u i => u.applyItem f t0 i) timed else timed
      let done (u : State) : State := { u with
        seen := s.seen.map (fun x =>
          if x.origin = f.origin ∧ x.seq = f.seq then { x with dispatchPending := false } else x)
        rx := { s.rx with
          bufA := if id = .a then none else s.rx.bufA
          bufB := if id = .b then none else s.rx.bufB
          accepted := s.rx.accepted.filter (· ≠ id) } }
      (f.age < 2400 → s.composer.state = .idle → exec .frameDispatch s = .next { done applied with
        table := if s.sweepWaiting then sweptTable s.clock applied.table else applied.table
        sweepWaiting := false
        lock := .held
        composer := ⟨.passing, false, some (s.clock + BitVec.ofNat 32 (periodTicks s.cfg s.account.stage)), false,
          some ⟨s.clock, s.account.stage, some wall, s.composer.clearArmed⟩, false, false⟩ }) ∧
      (f.age < 2400 → s.composer.state = .suspended → exec .frameDispatch s = .next { done applied with
        composer := { applied.composer with wallSignal := false } }) ∧
      (2400 ≤ f.age → s.composer.wallSignal = false → CountersInRange s →
        exec .frameDispatch s = .next (done { s with maint := { s.maint with counters := { s.maint.counters with
          tableIgnored := min 65535 (s.maint.counters.tableIgnored +
            (if inInterest s.cfg f.route f.dir then items.length else 0)) } } }))) ∧
  (∀ (f : Frame) (t0 : Tick) (trip : Nat) (r : Int) (s : State),
    let key : Key := ⟨f.route, f.dir, trip⟩
    let made (shown : Option Nat) : DepEntry := ⟨key, .scheduled, .active, t0 + BitVec.ofInt 32 (8 * min r 7200 - f.age), t0,
      f.origin, f.seq, none, none, false, shown⟩
    let applied (table : List DepEntry) : State := State.count .tableApplied { s with
      table := table
      composer := { s.composer with recompose :=
        s.composer.recompose || decide (noticeView s.cfg.n table ≠ noticeView s.cfg.n s.table) } }
    (r < -300 → s.applyItem f t0 (trip, r) = State.count .tableIgnored s) ∧
    (-300 ≤ r → findEntry key s.table = none →
      (s.table.length < 48 → s.applyItem f t0 (trip, r) = applied (insertEntry s.clock (made none) s.table)) ∧
      (48 ≤ s.table.length → s.applyItem f t0 (trip, r) = s.insertNew (made none))) ∧
    (-300 ≤ r → ∀ e : DepEntry, findEntry key s.table = some e →
      let ahead := (e.repSeq.toNat + 65536 - f.seq.toNat) % 65536
      let newer := e.repOrigin = f.origin ∧ 1 ≤ ahead ∧ ahead ≤ 32767
      (e.source = .live ∨ newer → s.applyItem f t0 (trip, r) = State.count .tableIgnored s) ∧
      (e.source = .scheduled → ¬ newer →
        let e' := made e.shownRow
        s.applyItem f t0 (trip, r) = applied (if e'.d = e.d then s.table.map (fun x => if x.key = key then e' else x)
          else insertEntry s.clock e' (s.table.filter (fun x => x.key ≠ key))))))

/-- A report and its tests (R53, R56 to R58, R60, R61). Outside the interest set it changes nothing and counts nothing. Within it,
an age of 2400 ticks or more or a remaining time below −300 counts TABLE_IGNORED and changes no entry, however the table stands.
A report that passes these tests, for a trip the table holds, is applied when the entry is SCHEDULED, when another origin set
it, or when its sequence is 1 to 32767 ahead modulo 65536; then the entry takes the report's fields and keeps its shown row. It
stays at its place when its D did not change and takes the place of its new D otherwise (R55), and the recompose flag is set when
that changes what the first N entries show (R72). Otherwise TABLE_IGNORED counts and nothing else changes. -/
def Obligations.ReportsApplyByReporterAndSequence : Prop :=
  ∀ (f : Frame) (t0 : Tick) (trip : Nat) (r : Int) (c : Bool) (bay : Option Nat) (notes : Option Notes) (s : State),
    let key : Key := ⟨f.route, f.dir, trip⟩
    (inInterest s.cfg f.route f.dir = false → s.applyReport f t0 trip r c bay notes = s) ∧
    (inInterest s.cfg f.route f.dir = true → 2400 ≤ f.age ∨ r < -300 →
      s.applyReport f t0 trip r c bay notes = State.count .tableIgnored s) ∧
    (∀ e : DepEntry, inInterest s.cfg f.route f.dir = true → f.age < 2400 → (-300 : Int) ≤ r →
      findEntry key s.table = some e →
      let ahead := (f.seq.toNat + 65536 - e.repSeq.toNat) % 65536
      ((e.source = .scheduled ∨ e.repOrigin ≠ f.origin ∨ (1 ≤ ahead ∧ ahead ≤ 32767)) →
        let e' : DepEntry := ⟨key, .live, if c then .cancelled else .active,
          t0 + BitVec.ofInt 32 (8 * min r 7200 - f.age), t0, f.origin, f.seq, bay, notes, false, e.shownRow⟩
        let table := if e'.d = e.d then s.table.map (fun x => if x.key = key then e' else x)
          else insertEntry s.clock e' (s.table.filter (fun x => x.key ≠ key))
        s.applyReport f t0 trip r c bay notes = State.count .tableApplied { s with
          table := table
          composer := { s.composer with recompose :=
            s.composer.recompose || decide (noticeView s.cfg.n table ≠ noticeView s.cfg.n s.table) } }) ∧
      (¬ (e.source = .scheduled ∨ e.repOrigin ≠ f.origin ∨ (1 ≤ ahead ∧ ahead ≤ 32767)) →
        s.applyReport f t0 trip r c bay notes = State.count .tableIgnored s))

/-- An amendment (R53, R56, R62, R63). Outside the interest set it changes nothing and counts nothing. Within it, it is ignored
with TABLE_IGNORED at an age of 2400 ticks or more, for a trip the table does not hold, for one whose reporter is the same
origin with a sequence not behind, and for a remaining time below −300; with no field it counts TABLE_APPLIED alone; otherwise
the entry takes the fields present and keeps the others, and its source. It stays at its place when its D did not change and
takes the place of its new D otherwise (R55), and the recompose flag is set when that changes what the first N entries show
(R72). -/
def Obligations.AmendmentsChangeTheFieldsPresent : Prop :=
  ∀ (f : Frame) (t0 : Tick) (trip : Nat) (r : Option Int) (bay : Option Nat) (notes : Option Notes) (c : Option Bool)
    (s : State),
    let key : Key := ⟨f.route, f.dir, trip⟩
    (inInterest s.cfg f.route f.dir = false → s.applyAmendment f t0 trip r bay notes c = s) ∧
    (inInterest s.cfg f.route f.dir = true → 2400 ≤ f.age →
      s.applyAmendment f t0 trip r bay notes c = State.count .tableIgnored s) ∧
    (inInterest s.cfg f.route f.dir = true → f.age < 2400 →
      (findEntry key s.table = none → s.applyAmendment f t0 trip r bay notes c = State.count .tableIgnored s) ∧
      (∀ e : DepEntry, findEntry key s.table = some e →
        let ahead := (f.seq.toNat + 65536 - e.repSeq.toNat) % 65536
        let barred := e.repOrigin = f.origin ∧ ¬ (1 ≤ ahead ∧ ahead ≤ 32767)
        (barred ∨ (∃ q, r = some q ∧ q < -300) →
          s.applyAmendment f t0 trip r bay notes c = State.count .tableIgnored s) ∧
        (¬ barred → r = none → bay = none → notes = none → c = none →
          s.applyAmendment f t0 trip r bay notes c = State.count .tableApplied s) ∧
        (¬ barred → (∀ q, r = some q → -300 ≤ q) → (r ≠ none ∨ bay ≠ none ∨ notes ≠ none ∨ c ≠ none) →
          let e' : DepEntry := { e with
            d := (match r with | some q => t0 + BitVec.ofInt 32 (8 * min q 7200 - f.age) | none => e.d)
            bay := (match bay with | some x => some x | none => e.bay)
            notes := (match notes with | some x => some x | none => e.notes)
            state := (match c with | some true => .cancelled | some false => .active | none => e.state)
            repOrigin := f.origin, repSeq := f.seq, lastReport := t0, stale := false }
          let table := if e'.d = e.d then s.table.map (fun x => if x.key = key then e' else x)
            else insertEntry s.clock e' (s.table.filter (fun x => x.key ≠ key))
          s.applyAmendment f t0 trip r bay notes c = State.count .tableApplied { s with
            table := table
            composer := { s.composer with recompose :=
              s.composer.recompose || decide (noticeView s.cfg.n table ≠ noticeView s.cfg.n s.table) } })))

/-- Insertion keeps the table order (R54, R55): the signed distance of D from the current tick, then route, direction and trip,
each ascending. The capacity rule (R66): a new entry joins a full table only when it comes before the last entry in that order,
which it then evicts; otherwise TABLE_REFUSED counts and the table stands. -/
def Obligations.TableKeepsOrderAndCapacity : Prop :=
  (∀ (now : Tick) (e : DepEntry) (l : List DepEntry),
     l.Pairwise (fun a b => entryBefore now a b = true) → (∀ x ∈ l, x.key ≠ e.key) →
       (insertEntry now e l).Pairwise (fun a b => entryBefore now a b = true) ∧ (insertEntry now e l).Perm (e :: l) ∧
       ∀ a b : DepEntry, entryBefore now a b = true ↔
         ((a.d - now).toInt < (b.d - now).toInt ∨ ((a.d - now).toInt = (b.d - now).toInt ∧
           (a.key.route < b.key.route ∨ (a.key.route = b.key.route ∧
             ((a.key.dir = false ∧ b.key.dir = true) ∨ (a.key.dir = b.key.dir ∧ a.key.trip < b.key.trip))))))) ∧
  (∀ (e last : DepEntry) (s : State), s.table.length = 48 → s.table.getLast? = some last →
     (entryBefore s.clock e last = false → s.insertNew e = State.count .tableRefused s) ∧
     (entryBefore s.clock e last = true →
       let table := insertEntry s.clock e s.table.dropLast
       table.length = 48 ∧
       s.insertNew e = State.count .tableApplied (State.count .tableEvicted { s with
         table := table
         composer := { s.composer with recompose :=
           s.composer.recompose || decide (noticeView s.cfg.n table ≠ noticeView s.cfg.n s.table) } })))

/-! ### Channel access and relaying (chapter 2) -/

/-- The relay decision (R42, R43): a frame that is not eligible leaves its entry as it is; an eligible one is SUPPRESSED when
its copies have reached the threshold, ABANDONED when the queue holds 8, and otherwise queued, due 2 to 10 ticks after its
reception-end tick by a draw of the random generator. In a queue in non-decreasing order of due tick a new entry stands behind
those due no later and before those due later (R41). -/
def Obligations.RelayDecisionByEligibility : Prop :=
  (∀ (f : Frame) (bytes : List Byte) (t0 : Tick) (s : State) (e : SeenEntry),
    findSeen f.origin f.seq s.seen = some e →
    let mine (x : SeenEntry) : Bool := x.origin = f.origin && x.seq = f.seq
    let decided (st : Option SeenState) : State := { s with seen := s.seen.map (fun x =>
      if mine x then { x with dispatchPending := false, state := st.getD x.state } else x) }
    let eligible := 1 ≤ f.hop ∧ s.cfg.ownId ∉ f.trail ∧ f.age < 2400 ∧
      (s.account.stage = .full ∨ (s.account.stage = .thrift ∧ inInterest s.cfg f.route f.dir = true)) ∧
      (f.trailCount = 4 ∨ f.len ≤ 94)
    (¬ eligible → s.relayDecision f bytes t0 = decided none) ∧
    (eligible → s.cfg.suppression ≤ e.copies →
      s.relayDecision f bytes t0 = State.count .relaySuppressed (decided (some .suppressed))) ∧
    (eligible → e.copies < s.cfg.suppression → 8 ≤ s.relayQ.length →
      s.relayDecision f bytes t0 = State.count .relayAbandoned (decided (some .abandoned))) ∧
    (eligible → e.copies < s.cfg.suppression → s.relayQ.length < 8 →
      ∃ delay : Nat, 2 ≤ delay ∧ delay ≤ 10 ∧
        125 * delay < 200 + 4 * ((lfsrDraw s.rng).toNat % 256) + 125 ∧
        200 + 4 * ((lfsrDraw s.rng).toNat % 256) ≤ 125 * delay ∧
        s.relayDecision f bytes t0 = { decided (some .waiting) with
          rng := lfsrDraw s.rng
          relayQ := insertRelay s.clock
            ⟨f.origin, f.seq, 0xC3 :: 0x3C :: bytes, t0, t0 + BitVec.ofNat 32 delay, 0⟩ s.relayQ })) ∧
  (∀ (now : Tick) (e : RelayEntry) (l : List RelayEntry),
    l.Pairwise (fun a b => (a.due - now).toInt ≤ (b.due - now).toInt) →
      ∃ before after : List RelayEntry, l = before ++ after ∧ insertRelay now e l = before ++ e :: after ∧
        (∀ x ∈ before, (x.due - now).toInt ≤ (e.due - now).toInt) ∧ ∀ x ∈ after, (e.due - now).toInt < (x.due - now).toInt)

/-- CD_ASSERT (R26, R31): the level is taken; a powered receiver loads the quiet timer, and a running contention delay is deferred,
back to SENSING with one deferral more. The eighth deferral (R31, R35), by CD_ASSERT or by CONTENTION_DELAY_END with CD
asserted: the relay is abandoned, its entry ABANDONED and RELAY_ABANDONED counted, and with no other candidate the attempt
ends; the reply is discarded with no counter, and the attempt ends or, with another candidate ready, the next one is in SENSING. -/
def Obligations.CarrierLoadsQuietTimerAndDefers : Prop :=
  (∀ s : State, s.pins.cd = false →
     let high : State := { s with pins := { s.pins with cd := true } }
     (s.rx.state = .off ∨ s.rx.state = .transmitting → exec .cdAssert s = .next high) ∧
     (s.rx.state = .listen ∨ s.rx.state = .receiving →
       (s.cau = .idle ∨ s.cau = .sensing → exec .cdAssert s = .next { high with quiet := .running 30 }) ∧
       (∀ (ms : Nat) (r : Reply) (rest : List Reply), s.cau = .contending .reply ms → s.maint.replies = r :: rest →
         r.deferrals < 7 → exec .cdAssert s = .next { high with
           quiet := .running 30
           cau := .sensing
           maint := { s.maint with replies := { r with deferrals := r.deferrals + 1 } :: rest } }) ∧
       (∀ (ms : Nat) (o q : Word16) (e : RelayEntry), s.cau = .contending (.relay o q) ms →
         findRelay o q s.relayQ = some e → e.deferrals < 7 → exec .cdAssert s = .next { high with
           quiet := .running 30
           cau := .sensing
           relayQ := s.relayQ.map (fun x =>
             if x.origin = o && x.seq = q then { x with deferrals := x.deferrals + 1 } else x) }))) ∧
  (∀ (s : State) (ms : Nat) (o q : Word16) (e : RelayEntry),
     s.cau = .contending (.relay o q) ms → s.relayQ = [e] → e.origin = o → e.seq = q → e.deferrals = 7 →
     s.maint.replies = [] → s.rx.state = .listen → s.rx.window.on = true → active s = true → gateOpen s = true →
       let left (u : State) : State := State.count .relayAbandoned { u with
         cau := .idle
         relayQ := []
         seen := s.seen.map (fun x => if x.origin = o && x.seq = q then { x with state := .abandoned } else x) }
       (s.pins.cd = false → exec .cdAssert s =
         .next (left { s with pins := { s.pins with cd := true }, quiet := .running 30 })) ∧
       (s.pins.cd = true → exec .contentionDelayEnd s = .next (left s))) ∧
  (∀ (s : State) (ms : Nat) (r : Reply) (rest : List Reply),
     s.cau = .contending .reply ms → s.maint.replies = r :: rest → r.deferrals = 7 →
     s.rx.state = .listen → s.rx.window.on = true → active s = true → gateOpen s = true →
       let left (u : State) : State := { u with
         cau := if rest = [] ∧ ∀ x ∈ s.relayQ, 0 < (x.due - s.clock).toInt then .idle else .sensing
         maint := { s.maint with replies := rest } }
       (s.pins.cd = false → exec .cdAssert s =
         .next (left { s with pins := { s.pins with cd := true }, quiet := .running 30 })) ∧
       (s.pins.cd = true → exec .contentionDelayEnd s = .next (left s)))

/-- QUIET_TIMER_EXPIRY (R26, R28 to R30): held loaded while CD is asserted at a powered receiver; otherwise the timer is
expired, and a unit in SENSING draws its contention delay of 0 to 126 ms for the oldest reply, or else the first ready relay. A
delay of 0 ms ends at its draw: the reply or the relay whose frame costs no more than the spendable energy goes on the air at
once (R32, R33). CD_DEASSERT outside a frame (R26): the level is taken, and in SENSING with the quiet timer expired the same
draw is made. -/
def Obligations.QuietChannelStartsContention : Prop :=
  (∀ (s : State) (ms : Nat), s.quiet = .running ms →
     (s.pins.cd = true → s.rx.state = .listen ∨ s.rx.state = .receiving → exec .quietTimerExpiry s = .next s) ∧
     (s.pins.cd = false → s.cau ≠ .sensing → exec .quietTimerExpiry s = .next { s with quiet := .expired }) ∧
     (s.pins.cd = false → s.cau = .sensing → (lfsrDraw s.rng).toNat % 64 ≠ 0 → ∀ c : Candidate,
       ((s.maint.replies ≠ [] ∧ c = .reply) ∨
         (s.maint.replies = [] ∧ ∃ e, s.relayQ.find? (fun x => decide ((x.due - s.clock).toInt ≤ 0)) = some e ∧
           c = .relay e.origin e.seq)) →
       exec .quietTimerExpiry s = .next { s with
         quiet := .expired
         rng := lfsrDraw s.rng
         cau := .contending c ((lfsrDraw s.rng).toNat % 64 * 2) })) ∧
  (∀ (s : State) (ms : Nat), s.quiet = .running ms → s.pins.cd = false → s.cau = .sensing →
     (lfsrDraw s.rng).toNat % 64 = 0 → s.rx.state = .listen → s.rx.reception = .none →
     let sent (frame : List Byte) (relay : Bool) (u : State) : State := { u with
       quiet := .expired
       rng := lfsrDraw s.rng
       cau := .sending frame relay
       rx := { s.rx with state := .transmitting, firstSync := false, charError := false } }
     (∀ (r : Reply) (rest : List Reply), s.maint.replies = r :: rest → (r.frame.length : Int) ≤ spendable s →
       exec .quietTimerExpiry s = .next (sent r.frame false { s with maint := { s.maint with replies := rest } })) ∧
     (∀ e : RelayEntry, s.maint.replies = [] →
       s.relayQ.find? (fun x => decide ((x.due - s.clock).toInt ≤ 0)) = some e →
       let frame := candidateFrame s (.relay e.origin e.seq)
       (frame.length : Int) ≤ spendable s →
       exec .quietTimerExpiry s = .next (sent frame true { s with
         relayQ := s.relayQ.filter (fun x => !(x.origin = e.origin && x.seq = e.seq))
         seen := s.seen.map (fun x => if x.origin = e.origin && x.seq = e.seq then { x with state := .relayed } else x) }))) ∧
  (∀ s : State, s.pins.cd = true → s.rx.state ≠ .receiving →
     let low : State := { s with pins := { s.pins with cd := false } }
     (s.cau ≠ .sensing ∨ s.quiet ≠ .expired → exec .cdDeassert s = .next low) ∧
     (∀ c : Candidate, s.cau = .sensing → s.quiet = .expired → candidate? s = some c →
       (lfsrDraw s.rng).toNat % 64 ≠ 0 → exec .cdDeassert s = .next { low with
         rng := lfsrDraw s.rng, cau := .contending c ((lfsrDraw s.rng).toNat % 64 * 2) }))

/-- RELAY_DUE (R28, R29, R32): a relay whose due tick has come starts an attempt of an IDLE unit: SENSING with carrier sense
while the channel is not quiet; a contention delay when it is; abandoned when the energy gate is closed. A unit that is not IDLE,
or without a ready relay, does nothing. -/
def Obligations.DueRelayStartsAnAttempt : Prop :=
  ∀ s : State, active s = true →
    (s.cau ≠ .idle ∨ (∀ e ∈ s.relayQ, 0 < (e.due - s.clock).toInt) → exec .relayDue s = .next s) ∧
    (∀ e : RelayEntry, s.cau = .idle → s.relayQ.find? (fun x => decide ((x.due - s.clock).toInt ≤ 0)) = some e →
      s.maint.replies = [] →
      (gateOpen s = true → s.rx.state = .listen → (s.quiet ≠ .expired ∨ s.pins.cd = true) →
        exec .relayDue s = .next { s with cau := .sensing }) ∧
      (gateOpen s = true → s.rx.state = .off →
        exec .relayDue s = .next { s with
          cau := .sensing, rx := { s.rx with state := .listen, firstSync := false }, quiet := .running 30 }) ∧
      (gateOpen s = true → s.rx.state = .listen → s.quiet = .expired → s.pins.cd = false →
        (lfsrDraw s.rng).toNat % 64 ≠ 0 → exec .relayDue s = .next { s with
          rng := lfsrDraw s.rng
          cau := .contending (.relay e.origin e.seq) ((lfsrDraw s.rng).toNat % 64 * 2) }) ∧
      (gateOpen s = false → s.rx.state = .off → s.relayQ = [e] → exec .relayDue s = .next (State.count .relayAbandoned { s with
        relayQ := []
        seen := s.seen.map (fun x =>
          if x.origin = e.origin && x.seq = e.seq then { x with state := .abandoned } else x) })))

/-- CONTENTION_DELAY_END with CD deasserted (R30, R32, R33, R47, R48): the relay whose whole frame, 3 + L characters, costs no more
than the spendable energy goes on the air, leaves the queue, its entry is RELAYED and the receiver TRANSMITTING; one that costs
more is abandoned. A reply goes on the air in the same way and leaves its queue; one that costs more is discarded with no counter,
and the attempt ends with no other candidate, or the next one draws its contention delay (R32, R35, R208). A CHARACTER_RECEIVED
that carries the end of the contention delay or of the quiet timer at its instant is that end's own command and then the character,
but where the end asserts TXEN and the character is the last of a frame in reception: then the frame is not cut (R5), and ends
behind the assertion, a frame with a character error as RX_CHAR, an overrun frame with nothing more, and a good one by its
validation, where a request finds the place of the reply that is on the air (R208); that one command takes both is the model's
choice (log entry 41). -/
def Obligations.ContentionEndSendsOrAbandons : Prop :=
  (∀ (s : State) (ms : Nat) (o q : Word16), s.pins.cd = false → s.cau = .contending (.relay o q) ms →
     let frame := candidateFrame s (.relay o q)
     let left (st : SeenState) : State := { s with
       relayQ := s.relayQ.filter (fun x => !(x.origin = o && x.seq = q))
       seen := s.seen.map (fun x => if x.origin = o && x.seq = q then { x with state := st } else x) }
     ((frame.length : Int) ≤ spendable s → s.rx.state = .listen → s.rx.reception = .none →
       exec .contentionDelayEnd s = .next { left .relayed with
         cau := .sending frame true
         rx := { s.rx with state := .transmitting, firstSync := false, charError := false } }) ∧
     (spendable s < (frame.length : Int) → candidate? (left .abandoned) = none → s.rx.state = .listen →
       s.rx.window.on = true → active s = true → gateOpen s = true →
       exec .contentionDelayEnd s = .next (State.count .relayAbandoned { left .abandoned with cau := .idle }))) ∧
  (∀ (s : State) (ms : Nat) (r : Reply) (rest : List Reply), s.pins.cd = false → s.cau = .contending .reply ms →
     s.maint.replies = r :: rest → (r.frame.length : Int) ≤ spendable s → s.rx.state = .listen →
     s.rx.reception = .none →
       exec .contentionDelayEnd s = .next { s with
         cau := .sending r.frame false
         maint := { s.maint with replies := rest }
         rx := { s.rx with state := .transmitting, firstSync := false, charError := false } }) ∧
  (∀ (s : State) (ms : Nat) (r : Reply) (rest : List Reply), s.pins.cd = false → s.cau = .contending .reply ms →
     s.maint.replies = r :: rest → spendable s < (r.frame.length : Int) → s.rx.state = .listen → s.rx.window.on = true →
     active s = true → gateOpen s = true →
       let left : State := { s with cau := .idle, maint := { s.maint with replies := rest } }
       (candidate? left = none → exec .contentionDelayEnd s = .next left) ∧
       (∀ c : Candidate, candidate? left = some c → s.quiet = .expired → (lfsrDraw s.rng).toNat % 64 ≠ 0 →
         exec .contentionDelayEnd s = .next { left with
           rng := lfsrDraw s.rng, cau := .contending c ((lfsrDraw s.rng).toNat % 64 * 2) })) ∧
  (∀ (e : TimerEnd) (ch : Byte) (err : Bool) (s t : State),
     let i : Instr := match e with | .quiet => .quietTimerExpiry | .contention => .contentionDelayEnd
     let both := exec (.characterReceived ch ⟨err, some e⟩) s
     exec i s = .next t →
     (s.rx.state ≠ .receiving ∨ (∀ x : RxTarget, s.rx.reception ≠ .body x 1) ∨ t.rx.state ≠ .transmitting →
       both = exec (.characterReceived ch ⟨err, none⟩) t) ∧
     (s.rx.state = .receiving → t.rx.state = .transmitting →
       let cleared (rx : Receiver) : Receiver := { rx with reception := .none, firstSync := false, charError := false }
       (s.rx.reception = .body .overrun 1 → both = exec i { s with rx := cleared s.rx }) ∧
       (∀ (id : BufId) (b : RxBuffer), s.rx.reception = .body (.buffer id) 1 → bufferOf s id = some b →
         let held (x : Option RxBuffer) : State := { s with rx := cleared { s.rx with
           bufA := if id = .a then x else s.rx.bufA
           bufB := if id = .b then x else s.rx.bufB } }
         let bytes := b.bytes ++ [ch]
         (s.rx.charError = true ∨ err = true →
           both = exec i (State.count .rxChar (held none))) ∧
         (∀ v : State, s.rx.charError = false → err = false → exec i (held (some { b with bytes := bytes })) = .next v →
           v.rx.state = .transmitting ∧ both = .next (validate id bytes v)))))

/-- TRANSMISSION_END (R33, R35, R48): the frame's length is debited, the quiet timer loaded, RELAY_SENT counts for a relay, and
with no candidate ready the unit is IDLE and the receiver listens or is OFF as it is wanted. -/
def Obligations.TransmissionEndDebitsAndCounts : Prop :=
  ∀ (s : State) (frame : List Byte) (relay : Bool), s.cau = .sending frame relay → s.rx.state = .transmitting →
    s.rx.reception = .none → s.account.running = true → active s = true → candidate? s = none →
    stageHolds s.cfg s.account.stage (s.account.e - frame.length) = true →
      let listens := s.rx.window.on && gateOpen (withE s (s.account.e - frame.length))
      exec .transmissionEnd s = .next (withE { s with
        cau := .idle
        quiet := .running 30
        maint := if relay then { s.maint with counters := { s.maint.counters with
          relaySent := bump s.maint.counters.relaySent } } else s.maint
        rx := { s.rx with state := if listens then .listen else .off, firstSync := false, charError := false } }
        (s.account.e - frame.length))

/-! ### Maintenance requests (chapter 11) -/

/-- STATUS_REQUEST, TABLE_REQUEST, CLEAR_REQUEST and UNKNOWN_REQUEST_CODE with the key in force and room in the reply queue
(R206 to R211), an attempt being in progress: the buffer is free, the reply of R207 joins with the result and payload of its
code, and the reply sequence counter rises; CLEAR sets every counter to 0 first. REFRESH_REQUEST with a refresh in service
(R115, R212): STAGE in FROZEN; otherwise OK, and a panel clear item that is absent becomes ORDINARY; with the
controller OPEN, the engine IDLE and no fresh reading in hand that clear is granted at once, every row in service with its desired
record as its drawing record (R118, R122). An answered request that
finds the unit IDLE and no other reply waiting starts an attempt at once with its reply (R29, R30, R32, R33): SENSING while the
channel is not quiet, and otherwise a contention delay, after one of 0 ms the reply on the air or, when it costs more than the
spendable energy, abandoned, the attempt ending with it when no relay is ready. -/
def Obligations.RequestsAreAnswered : Prop :=
  (∀ (s : State) (id : BufId) (q : Request), s.maint.replies.length < 2 → q.key = s.cfg.maintenanceKey →
     s.cau ≠ .idle → receiverAgrees s = true →
     let free : Receiver := { s.rx with
       bufA := if id = .a then none else s.rx.bufA
       bufB := if id = .b then none else s.rx.bufB
       accepted := s.rx.accepted.filter (· ≠ id) }
     let replied (r : Result) (payload : List Byte) (m : Maint) : State := { s with
       rx := free
       maint := { m with
         replies := s.maint.replies ++ [⟨replyFrame s q.origin q.seq q.code r payload, 0⟩], seq := s.maint.seq + 1 } }
     (findRequest (fun c => decide (c = 1)) s = some (id, q) →
       exec .statusRequest s = .next (replied .ok (statusPayload s) s.maint)) ∧
     (findRequest (fun c => decide (c = 2)) s = some (id, q) →
       (s.table.length ≤ q.arg → exec .tableRequest s = .next (replied .badRange [] s.maint)) ∧
       (q.arg < s.table.length → exec .tableRequest s = .next (replied .ok (tablePayload s q.arg) s.maint))) ∧
     (findRequest (fun c => decide (c = 3)) s = some (id, q) →
       exec .clearRequest s = .next (replied .ok [] { s.maint with counters := Counters.zero })) ∧
     (findRequest (fun c => !(decide (1 ≤ c) && decide (c ≤ 4))) s = some (id, q) →
       exec .unknownRequestCode s = .next (replied .unknown [] s.maint))) ∧
  (∀ (s : State) (id : BufId) (q : Request), s.maint.replies.length < 2 → q.key = s.cfg.maintenanceKey →
     s.cau ≠ .idle → receiverAgrees s = true → s.engine.state ≠ .idle →
     findRequest (fun c => decide (c = 4)) s = some (id, q) →
     let replied (r : Result) (item : Option ClearKind) : State := { s with
       rx := { s.rx with
         bufA := if id = .a then none else s.rx.bufA
         bufB := if id = .b then none else s.rx.bufB
         accepted := s.rx.accepted.filter (· ≠ id) }
       ctl := { s.ctl with clearItem := item }
       maint := { s.maint with
         replies := s.maint.replies ++ [⟨replyFrame s q.origin q.seq q.code r [], 0⟩], seq := s.maint.seq + 1 } }
     (s.account.stage = .frozen → exec .refreshRequest s = .next (replied .stage s.ctl.clearItem)) ∧
     (s.account.stage ≠ .frozen →
       exec .refreshRequest s = .next (replied .ok (some (s.ctl.clearItem.getD .ordinary))))) ∧
  (∀ (s : State) (id : BufId) (q : Request), s.maint.replies.length < 2 → q.key = s.cfg.maintenanceKey →
     s.cau ≠ .idle → active s = true → receiverAgrees s = true → s.engine.state = .idle → s.ctl.state = .opened →
     s.ctl.clearItem ≠ some .freeze → s.account.stage ≠ .frozen → (∀ x, s.engine.reading = some x → x.old = true) →
     findRequest (fun c => decide (c = 4)) s = some (id, q) →
       exec .refreshRequest s = .next { s with
         rx := { s.rx with
           bufA := if id = .a then none else s.rx.bufA
           bufB := if id = .b then none else s.rx.bufB
           accepted := s.rx.accepted.filter (· ≠ id) }
         rows := s.rows.map (fun row => { row with pending := false, inService := true, drawing := some row.desired })
         ctl := { s.ctl with state := .granted, clearItem := none, grantPointer := s.ctl.pointer }
         engine := { s.engine with state := .prepare, refresh := some (.clear .ordinary), counts := some (0, 0) }
         maint := { s.maint with
           replies := s.maint.replies ++ [⟨replyFrame s q.origin q.seq q.code .ok [], 0⟩], seq := s.maint.seq + 1 } }) ∧
  (∀ (c : Instr) (p : Nat → Bool) (s v : State) (id : BufId) (q : Request) (r : Reply),
     ((c = .statusRequest ∧ p = fun n => decide (n = 1)) ∨ (c = .tableRequest ∧ p = fun n => decide (n = 2)) ∨
       (c = .clearRequest ∧ p = fun n => decide (n = 3)) ∨ (c = .refreshRequest ∧ p = fun n => decide (n = 4)) ∨
       (c = .unknownRequestCode ∧ p = fun n => !(decide (1 ≤ n) && decide (n ≤ 4)))) →
     findRequest p s = some (id, q) → s.maint.replies = [] → s.cau = .idle → active s = true → gateOpen s = true →
     s.rx.state = .listen → s.rx.window.on = true → s.rx.reception = .none → s.engine.state ≠ .idle →
     exec c { s with cau := .sensing } = .next v → v.maint.replies = [r] →
     let draw := (lfsrDraw s.rng).toNat % 64
     let drawn (u : CauState) : State := { v with rng := lfsrDraw s.rng, cau := u }
     (s.quiet ≠ .expired ∨ s.pins.cd = true → exec c s = .next v) ∧
     (s.quiet = .expired → s.pins.cd = false →
       (draw ≠ 0 → exec c s = .next (drawn (.contending .reply (draw * 2)))) ∧
       (draw = 0 → (r.frame.length : Int) ≤ spendable s → exec c s = .next { drawn (.sending r.frame false) with
         maint := { v.maint with replies := [] }
         rx := { v.rx with state := .transmitting, firstSync := false, charError := false } }) ∧
       (draw = 0 → spendable s < (r.frame.length : Int) → (∀ e ∈ s.relayQ, 0 < (e.due - s.clock).toInt) →
         exec c s = .next { drawn .idle with maint := { v.maint with replies := [] } })))

/-- The two answers before a request's own rule (R206), for the five request commands alike: with 2 replies waiting it is
dropped, its buffer free and nothing else changed; with another key it is DENIED without effect. -/
def Obligations.RequestsAreDroppedOrDenied : Prop :=
  ∀ (c : Instr) (p : Nat → Bool) (s : State) (id : BufId) (q : Request),
    ((c = .statusRequest ∧ p = fun n => decide (n = 1)) ∨ (c = .tableRequest ∧ p = fun n => decide (n = 2)) ∨
      (c = .clearRequest ∧ p = fun n => decide (n = 3)) ∨ (c = .refreshRequest ∧ p = fun n => decide (n = 4)) ∨
      (c = .unknownRequestCode ∧ p = fun n => !(decide (1 ≤ n) && decide (n ≤ 4)))) →
    findRequest p s = some (id, q) →
    let freed : State := { s with rx := { s.rx with
      bufA := if id = .a then none else s.rx.bufA
      bufB := if id = .b then none else s.rx.bufB
      accepted := s.rx.accepted.filter (· ≠ id) } }
    (2 ≤ s.maint.replies.length → exec c s = .next freed) ∧
    (s.maint.replies.length < 2 → q.key ≠ s.cfg.maintenanceKey → s.cau ≠ .idle → receiverAgrees s = true →
      exec c s = .next { freed with maint := { s.maint with
        replies := s.maint.replies ++ [⟨replyFrame s q.origin q.seq q.code .denied [], 0⟩]
        seq := s.maint.seq + 1 } })

/-! ### The energy account (chapter 9) -/

/-- HARVEST_PULSE (R126, R171): 64 q are credited, at most to C, and a HELD controller is released for OPEN; a pulse before the
account runs does nothing. No stage threshold is crossed and nothing is selectable. -/
def Obligations.HarvestCreditsAndReleases : Prop :=
  ∀ s : State,
    (s.account.running = false → exec .harvestPulse s = .next s) ∧
    (s.account.running = true → active s = true → nothingToSelect s = true →
      let e := min s.cfg.capacity (s.account.e + 64)
      crossesNothing s e = true → exec .harvestPulse s = .next (withE { s with
        ctl := if s.ctl.state = .held then { s.ctl with state := .opened, retry := none } else s.ctl } e))

/-- LOW_ASSERT (R175), its operand the level LOW has afterwards: before the account runs the level alone is taken; in FROZEN E
falls to T3 − 1 when it is above, and LOW_EVENTS counts even when E is not changed. From another stage, while no attempt runs
or one contends for a relay (R46, R108, R117, R181, R185): one stage change to FROZEN, every relay abandoned and its contention
delay cancelled, the freeze pending and its panel clear requested, the freeze content desired in every row and the composer
SUSPENDED, unless a pass is in progress, which goes on; a HELD controller is released. With the engine IDLE and no fresh reading in
hand the freeze picture is granted at once, every row in service with the freeze content as its drawing record (R118, R122,
R126). That the
command on a standing LOW which leaves it deasserted is the release, with no effect but the level, and that one which leaves it
asserted is a new assertion, is the model's choice (log entry 4). -/
def Obligations.LowClampsAndFreezes : Prop :=
  (∀ (stays : Bool) (s : State),
     let level : State := { s with pins := { s.pins with low := stays } }
     (s.pins.low = true → stays = false → exec (.lowAssert stays) s = .next level) ∧
     (s.account.running = false → exec (.lowAssert stays) s = .next level) ∧
     (s.pins.low = false ∨ stays = true → s.account.running = true → s.account.stage = .frozen →
       s.cfg.t3 ≤ s.cfg.t2 → s.cfg.t2 ≤ s.cfg.t1 → 1 ≤ s.cfg.t3 →
       receiverAgrees (withE s (min s.account.e (s.cfg.t3 - 1))) = true →
       exec (.lowAssert stays) s =
         .next (State.count .lowEvents (withE level (min s.account.e (s.cfg.t3 - 1)))))) ∧
  (∀ (stays : Bool) (s : State), s.pins.low = false ∨ stays = true → s.account.running = true → active s = true →
     s.account.stage ≠ .frozen → s.cfg.t3 < s.cfg.t2 → s.cfg.t2 < s.cfg.t1 → 1 ≤ s.cfg.t3 → CountersInRange s →
     (s.cau = .idle ∨ ∃ (ms : Nat) (o q : Word16), s.cau = .contending (.relay o q) ms ∧ s.maint.replies = []) →
     receiverAgrees (withE { s with cau := .idle } (min s.account.e (s.cfg.t3 - 1))) = true →
       let passing := s.composer.state = .passing
       let content (r : Nat) : RowRecord := if r < s.cfg.n then emptyRecord else .banner .outOfDate
       let desired (r : Nat) (row : Row) : RowRecord := if passing then row.desired else content r
       let released : Controller := if s.ctl.state = .held then { s.ctl with state := .opened, retry := none } else s.ctl
       let frozen (rows : List Row) (ctl : Controller) (engine : Engine) : State := State.count .lowEvents { s with
         pins := { s.pins with low := stays }
         account := { s.account with e := min s.account.e (s.cfg.t3 - 1), stage := .frozen, freeze := .pending }
         cau := .idle
         relayQ := []
         seen := s.seen.map (fun x =>
           if s.relayQ.any (fun y => y.origin = x.origin && y.seq = x.seq) then { x with state := .abandoned } else x)
         maint := { s.maint with counters := { s.maint.counters with
           relayAbandoned := min 65535 (s.maint.counters.relayAbandoned + s.relayQ.length) } }
         composer := if passing then s.composer else { s.composer with state := .suspended }
         rows := rows
         ctl := ctl
         engine := engine }
       (s.engine.state ≠ .idle → exec (.lowAssert stays) s = .next (frozen
         (s.rows.mapIdx (fun r row => { row with desired := desired r row }))
         { released with clearItem := some .freeze } s.engine)) ∧
       (s.engine.state = .idle → s.ctl.state ≠ .granted → (∀ x, s.engine.reading = some x → x.old = true) →
         exec (.lowAssert stays) s = .next (frozen
           (s.rows.mapIdx (fun r row => { row with
             desired := desired r row, drawing := some (content r), pending := false, inService := true }))
           { released with state := .granted, clearItem := none, grantPointer := s.ctl.pointer }
           { s.engine with state := .prepare, refresh := some (.clear .freeze), counts := some (0, 0) })))

/-- The stage rules at a change of E (R180 to R182), for thresholds in their order: a fall goes at once to the band of E, and
otherwise the stage is the highest that the rises reach, each at its threshold plus H. What a stage change does in a working
part with a refresh in service or a lockout. A rise of one stage at a HARVEST pulse (R15, R102, R109, R126, R188): a rise to
FULL restarts the listening window; a rise from FROZEN ends the freeze, clears the masks, discards a FREEZE request and arms the
ORDINARY panel clear for the next pass; an IDLE composer starts a pass, one in a pass is due another, and a SUSPENDED one starts
a pass when FROZEN is left in SERVICE. A fall at a tick by the receiver's debit (R46, R108, R117, R181, R185): below THRIFT
every relay is abandoned and its contention delay cancelled; in FROZEN the freeze is pending, its panel clear is requested, and
an IDLE composer writes the freeze content and is SUSPENDED. Both release a HELD controller. The first clause is about the held
part alone: that it goes by the thresholds and the H last loaded during the load after a line reset is the model's reading (log
entry 8). That a pass started at the tick at which the wall reference ends has it still present is the model's choice (log entry
39). -/
def Obligations.StageFollowsTheEstimate : Prop :=
  (∀ (ctl : State → State) (s : State), active s = false → s.cfg.t3 < s.cfg.t2 → s.cfg.t2 < s.cfg.t1 →
    let e := s.account.e
    let c := s.cfg
    let t := (stageRules ctl s).account.stage
    (stageRank (bandOfEnergy c e) < stageRank s.account.stage → t = bandOfEnergy c e) ∧
    (stageRank s.account.stage ≤ stageRank (bandOfEnergy c e) →
      t = if s.account.stage = .full ∨ c.t1 + c.h ≤ e then .full
        else if s.account.stage = .thrift ∨ c.t2 + c.h ≤ e then .thrift
        else if s.account.stage = .scant ∨ c.t3 + c.h ≤ e then .scant
        else .frozen)) ∧
  (∀ (s : State) (new : Stage), active s = true → s.account.running = true → s.engine.state ≠ .idle →
    s.cfg.t3 < s.cfg.t2 → s.cfg.t2 < s.cfg.t1 →
    let started (clear : Bool) (v : State) : State := { v with
      table := if v.sweepWaiting then sweptTable v.clock v.table else v.table
      sweepWaiting := false
      lock := .held
      composer := ⟨.passing, false, some (v.clock + BitVec.ofNat 32 (periodTicks s.cfg new)), false,
        some ⟨v.clock, new, s.wall, clear⟩, false, false⟩ }
    let released : Controller := if s.ctl.state = .held then { s.ctl with state := .opened, retry := none } else s.ctl
    -- rises
    (let e := min s.cfg.capacity (s.account.e + 64)
     let up (v : State) : State := withE { v with account := { s.account with stage := new }, ctl := released } e
     ((s.account.stage = .thrift ∧ new = .full ∧ s.cfg.t1 + s.cfg.h ≤ e) ∨
       (s.account.stage = .scant ∧ new = .thrift ∧ s.cfg.t2 + s.cfg.h ≤ e ∧ e < s.cfg.t1 + s.cfg.h) →
       let window := if new = .full ∧ s.rx.window.running = true then ⟨true, s.clock, .full, true⟩ else s.rx.window
       let v := up { s with rx := { s.rx with window := window } }
       let after (v : State) : State := match s.composer.state with
         | .idle => started s.composer.clearArmed v
         | .passing => { v with composer := { s.composer with passDue := true } }
         | .suspended => v
       (receiverAgrees v = true → exec .harvestPulse s = .next (after v)) ∧
       (s.rx.state = .off → wantedOn v = true → s.cau = .idle → exec .harvestPulse s = .next (after { v with
         rx := { v.rx with state := .listen, firstSync := false }, quiet := .running 30 }))) ∧
     (s.account.stage = .frozen → new = .scant → s.cfg.t3 + s.cfg.h ≤ e → e < s.cfg.t2 + s.cfg.h →
       receiverAgrees (withE s e) = true →
       let v : State := { up s with
         account := { s.account with e := e, stage := .scant, freeze := .none }
         rows := s.rows.mapIdx (fun r row => { row with mask := if r < s.cfg.n then false else row.mask })
         ctl := { released with clearItem := if s.ctl.clearItem = some .freeze then none else s.ctl.clearItem }
         composer := { s.composer with clearArmed := true } }
       (s.composer.state = .suspended → s.startup.state = .service → exec .harvestPulse s = .next (started true v)) ∧
       (s.composer.state = .suspended → s.startup.state = .fill → exec .harvestPulse s = .next v) ∧
       (s.composer.state = .passing →
         exec .harvestPulse s = .next { v with composer := { v.composer with passDue := true } }))) ∧
    -- falls
    ((s.clock + 1).toNat % 8 ≠ 0 → s.rx.state = .listen → s.rx.window.on = true →
     let e := s.account.e - 1
     gateOpen (withE s e) = true →
     (s.cau = .idle ∨ ∃ (ms : Nat) (o q : Word16), s.cau = .contending (.relay o q) ms ∧ s.maint.replies = []) →
     CountersInRange s →
     let u : State := { withE s e with
       clock := s.clock + 1
       startup := { s.startup with fillTimer := s.startup.fillTimer.map (· - 1) }
       ctl := if s.ctl.state = .held then
           { s.ctl with state := .opened, retry := none, interval := s.ctl.interval.map (· - 1) }
         else { s.ctl with retry := s.ctl.retry.map (· - 1), interval := s.ctl.interval.map (· - 1) }
       monitor := { s.monitor with lockout := s.monitor.lockout.map (· - 1) }
       engine := { s.engine with reading := s.engine.reading.map (fun r =>
         { r with old := r.old || decide (480 ≤ (s.clock + 1 - r.tick).toInt) }) } }
     let dropped (v : State) : State := { v with
       cau := .idle
       relayQ := []
       seen := s.seen.map (fun x =>
         if s.relayQ.any (fun y => y.origin = x.origin && y.seq = x.seq) then { x with state := .abandoned } else x)
       maint := { s.maint with counters := { s.maint.counters with
         relayAbandoned := min 65535 (s.maint.counters.relayAbandoned + s.relayQ.length) } } }
     let staged (v : State) : State := { v with account := { v.account with stage := new } }
     let after (v : State) : State := match s.composer.state with
       | .idle => started s.composer.clearArmed v
       | .passing => { v with composer := { s.composer with passDue := true } }
       | .suspended => v
     (s.account.stage = .full → new = .thrift → s.cfg.t2 ≤ e → e < s.cfg.t1 →
       exec .tick s = .next (after (staged u))) ∧
     (s.account.stage = .full ∨ s.account.stage = .thrift → new = .scant → s.cfg.t3 ≤ e → e < s.cfg.t2 →
       exec .tick s = .next (after (staged (dropped u)))) ∧
     (s.account.stage ≠ .frozen → new = .frozen → e < s.cfg.t3 →
       let v : State := { dropped u with
         account := { s.account with e := e, stage := .frozen, freeze := .pending }
         ctl := { u.ctl with clearItem := some .freeze } }
       let content (r : Nat) (row : Row) : Row := { row with
         desired := if r < s.cfg.n then emptyRecord else .banner .outOfDate }
       (s.composer.state = .idle → exec .tick s = .next { v with
         rows := s.rows.mapIdx content, composer := { s.composer with state := .suspended } }) ∧
       (s.composer.state = .passing → exec .tick s = .next v) ∧
       (s.composer.state = .suspended → exec .tick s = .next { v with rows := s.rows.mapIdx content }))))

/-- The banner reserve of N rows is the cost of a panel clear in band B0 (R176, R144). -/
def Obligations.BannerReserveIsAColdPanelClear : Prop :=
  ∀ (n : Nat) (k : ClearKind), bannerReserve n = 40 + (n + 1) * 210 ∧ bannerReserve n = refreshCost n (.clear k) .full .b0 ∧
    ∀ (w : Waveform) (b : Band), refreshCost n (.clear k) w b ≤ bannerReserve n

/-! ### Row composition (chapter 5) -/

/-- COMPOSITION_PERIOD_END (R100, R103): an IDLE composer whose next-pass tick has come starts a pass, which takes the lock, after
a sweep that is due (R69), and sets the next-pass tick by the stage's period; the other states, and an earlier tick, start none. -/
def Obligations.PeriodEndStartsAPass : Prop :=
  ∀ (s : State) (next : Tick), active s = true → s.composer.nextPass = some next →
    ((next - s.clock).toInt ≤ 0 → s.composer.state = .idle → exec .compositionPeriodEnd s = .next { s with
      table := if s.sweepWaiting then sweptTable s.clock s.table else s.table
      sweepWaiting := false
      lock := .held
      composer := ⟨.passing, false,
        some (s.clock + BitVec.ofNat 32 (match s.account.stage with
          | .full => 8 * s.cfg.period | .thrift => 8 * max s.cfg.period 15 | .scant => 480 | .frozen => 480)), false,
        some ⟨s.clock, s.account.stage, s.wall, s.composer.clearArmed⟩, false, false⟩ }) ∧
    (0 < (next - s.clock).toInt ∨ s.composer.state ≠ .idle → exec .compositionPeriodEnd s = .next s)

/-- PASS_COMPLETION (R102 to R108): the candidates become the desired records, each row that differs from its shown record is
pending, the ORDINARY panel clear that the pass carries is requested, every entry's shown row is up to date, and the lock is
freed. At the release the waiting frames, at most two, are dispatched in their order, each as FRAME_DISPATCH dispatches it, and
then a waiting sweep is made (R69, R70); 2 q are debited after that (the model's order, log entry 13), a debit that crosses no
threshold. The composer is then IDLE. A pass that is due starts at once, with the table and the wall reference as the waiting
work has left them; that the reference a waiting bundle sets calls for a pass here is the model's reading (log entry 13). In
FROZEN the composer is SUSPENDED and the freeze content desired; that the stage at the completion decides is the model's choice
(log entry 34). An OPEN controller selects, once: that it does so after the dispatches, the sweep, the debit, the start of the next
pass and the freeze content, and not at the requests of the completion's rows, is the model's reading (log entry 16). -/
def Obligations.PassCompletionWritesRecordsAndFreesTheLock : Prop :=
  ∀ (s : State) (p : Pass), active s = true → s.composer.state = .passing → s.composer.pass = some p →
    BuffersInRange s → s.account.running = true →
      let stage := s.account.stage
      let desired (r : Nat) (row : Row) : RowRecord :=
        if r < s.cfg.n then desiredOf s.cfg p.stage
          (match s.table[r]? with | some e => contentOf s.cfg e p.evalTick p.wall | none => emptyContent) row.shown
        else .banner (bannerOf s)
      let freed : State := { s with
        rows := s.rows.mapIdx (fun r row => { row with
          desired := desired r row, pending := row.pending || decide (row.shown ≠ some (desired r row)) })
        table := s.table.map (fun e => { e with shownRow := shownRowOf s.cfg.n s.rows e.key })
        ctl := { s.ctl with
          clearItem := if p.clear = true ∧ stage ≠ .frozen then some (s.ctl.clearItem.getD .ordinary) else s.ctl.clearItem }
        lock := .free }
      let dispatched (u : State) : State := match exec .frameDispatch u with
        | .next v => v
        | .fault _ => u
        | .refused _ => u
      let u := dispatched (dispatched freed)
      let swept := sweptTable s.clock u.table
      let w : State := if s.sweepWaiting = false then u else { u with
        table := swept
        sweepWaiting := false
        composer := { u.composer with recompose :=
          u.composer.recompose || decide (noticeView s.cfg.n swept ≠ noticeView s.cfg.n u.table) } }
      let e := s.account.e - 2
      let settled (v : State) : State := if s.ctl.state = .opened then select v else v
      let timed (id : BufId) : Prop := ∃ b, bufferOf s id = some b ∧ (readFrame b.bytes).kind = 3 ∧
        (readFrame b.bytes).age < 2400 ∧ readBody 3 (readFrame b.bytes).body ≠ none
      let called := s.composer.passDue = true ∨ s.composer.wallSignal = true ∨ ∃ id ∈ s.rx.accepted, timed id
      crossesNothing w e = true →
        (s.rx.accepted = [] → u = freed) ∧
        (stage ≠ .frozen → ¬ called → exec .passCompletion s = .next (settled { withE w e with
          composer := { w.composer with state := .idle, pass := none, wallSignal := false } })) ∧
        (stage ≠ .frozen → called → exec .passCompletion s = .next (settled { withE w e with
          lock := .held
          composer := ⟨.passing, false, some (s.clock + BitVec.ofNat 32 (periodTicks s.cfg stage)), false,
            some ⟨s.clock, stage, w.wall, s.composer.clearArmed⟩, false, false⟩ })) ∧
        (stage = .frozen → exec .passCompletion s = .next (settled { withE w e with
          rows := w.rows.mapIdx (fun r row => { row with
            desired := if r < s.cfg.n then emptyRecord else .banner .outOfDate })
          composer := { w.composer with state := .suspended, pass := none, wallSignal := false } }))

/-- Hysteresis (R105): against a shown record of the same key that differs in its minutes alone, a rise below the threshold and, in
SCANT, a fall of one minute keep the shown record; every other candidate is written whole. The banner message of a pass (R96):
the first that applies of NOT_CONFIGURED, NO_SERVICE, NO_LIVE and BLANK. The candidate of an entry (R95): its key, the label and
the text of the first route record that serves its route and direction, its bay, its display value, the live marker of a LIVE entry
that is not stale, and the note of LAST_TRIP; the EMPTY candidate has none of them. -/
def Obligations.RowsAndBannerSayWhatTheRulesChoose : Prop :=
  (∀ (c : Cfg) (stage : Stage) (cand shown : RowContent) (m' m : Nat), stage ≠ .frozen →
     (cand.value = .minutes m' → shown.value = .minutes m → { cand with value := shown.value } = shown →
       desiredOf c stage cand (some (.departure shown)) =
         if (m < m' ∧ m' - m < c.riseThreshold) ∨ (m' < m ∧ stage = .scant ∧ m - m' < 2) then .departure shown
         else .departure cand) ∧
     (¬ ((∃ a, cand.value = .minutes a) ∧ (∃ a, shown.value = .minutes a) ∧
         { cand with value := shown.value } = shown) →
       desiredOf c stage cand (some (.departure shown)) = .departure cand) ∧
     desiredOf c stage cand none = .departure cand) ∧
  (∀ s : State,
     (s.cfg.configured = false → bannerOf s = .notConfigured) ∧
     (s.cfg.configured = true → s.table = [] → bannerOf s = .noService) ∧
     (s.cfg.configured = true → s.table ≠ [] →
       ((∀ (r : Nat) (e : DepEntry), r < s.cfg.n → s.table[r]? = some e → ¬ (e.source = .live ∧ e.stale = false)) →
         bannerOf s = .noLive) ∧
       ((∃ (r : Nat) (e : DepEntry), r < s.cfg.n ∧ s.table[r]? = some e ∧ e.source = .live ∧ e.stale = false) →
         bannerOf s = .blank))) ∧
  (∀ (c : Cfg) (e : DepEntry) (now : Tick) (wall : Option WallRef),
     let serves (r : RouteRecord) : Prop := r.code = e.key.route ∧ (if e.key.dir then r.serves1 else r.serves0) = true
     let content (label dest : Option (List Byte)) : RowContent :=
       ⟨some e.key, label, dest, e.bay, displayValue e now wall, decide (e.source = .live ∧ e.stale = false),
        decide (∃ n, e.notes = some n ∧ n.lastTrip = true)⟩
     (∀ (before after : List RouteRecord) (r : RouteRecord), c.routes = before ++ r :: after → serves r →
       (∀ x ∈ before, ¬ serves x) →
       contentOf c e now wall = content (some r.label) (some (if e.key.dir then r.text1 else r.text0))) ∧
     ((∀ x ∈ c.routes, ¬ serves x) → contentOf c e now wall = content none none)) ∧
  emptyContent = ⟨none, none, none, none, .empty, false, false⟩

/-! ### Redraw requests, panel drive and drive faults (chapters 6 to 8) -/

/-- What a selection takes (R118 to R120): the panel clear, then the banner row, then the first departure row from the rotation
pointer on that is pending and not masked. FULL_CLEAR_INTERVAL_EXPIRY (R115, R116): the timer starts again from its full length;
outside FROZEN an ORDINARY panel clear is requested, which an OPEN controller with the engine IDLE and no reading in hand grants
at once (R121, R122), every row in service with its desired record as its drawing record; in FROZEN nothing is requested. -/
def Obligations.SelectionTakesTheFirstAndGrants : Prop :=
  (∀ s : State,
    (∀ k : ClearKind, s.ctl.clearItem = some k → selection s = some (.clear k)) ∧
    (s.ctl.clearItem = none → (∃ row, s.rows[s.cfg.n]? = some row ∧ row.pending = true) →
      selection s = some (.row s.cfg.n)) ∧
    (s.ctl.clearItem = none → (∀ row, s.rows[s.cfg.n]? = some row → row.pending = false) →
      let selectable (r : Nat) : Prop := ∃ row, s.rows[r]? = some row ∧ row.pending = true ∧ row.mask = false
      ∀ i : Nat, i < s.cfg.n → selectable ((s.ctl.pointer + 1 + i) % s.cfg.n) →
        (∀ j : Nat, j < i → ¬ selectable ((s.ctl.pointer + 1 + j) % s.cfg.n)) →
          selection s = some (.row ((s.ctl.pointer + 1 + i) % s.cfg.n)))) ∧
  (∀ s : State, active s = true → s.ctl.interval = some 0 →
    let again : Controller := { s.ctl with interval := some (28800 * s.cfg.clearHours) }
    (s.account.stage = .frozen → nothingToSelect s = true →
      exec .fullClearIntervalExpiry s = .next { s with ctl := again }) ∧
    (s.account.stage ≠ .frozen → s.engine.state ≠ .idle →
      exec .fullClearIntervalExpiry s =
        .next { s with ctl := { again with clearItem := some (s.ctl.clearItem.getD .ordinary) } }) ∧
    (s.account.stage ≠ .frozen → s.engine.state = .idle → s.ctl.state = .opened → s.ctl.clearItem = none →
      s.engine.reading = none → exec .fullClearIntervalExpiry s = .next { s with
        rows := s.rows.map (fun row =>
          { row with pending := false, inService := true, drawing := some row.desired })
        ctl := { again with state := .granted, clearItem := none, grantPointer := s.ctl.pointer }
        engine := { s.engine with state := .prepare, refresh := some (.clear .ordinary), counts := some (0, 0) } }))

/-- TEMPERATURE_ANSWER in a drivable band with the energy at hand and no fault input asserted (R130 to R137, R144, R178): the
reading is clamped and held, the cost reserved, and DRIVE begins at the first frame. A row refresh is PARTIAL unless its row is
indeterminate, its counter has reached the limit, or the band is B0 or B1; a panel clear is FULL and begins at row 0; the freeze
picture is tested against E alone. The bands of the temperatures and the drive frames of the waveforms (Table 7-3). -/
def Obligations.TemperatureAnswerEntersDrive : Prop :=
  (∀ (degrees : Int) (s : State) (x : Refresh), active s = true → s.engine.state = .prepare → s.engine.refresh = some x →
    s.pins.pfault = false → s.pins.droop = false → s.account.reservation = none →
    let temp := max (-40) (min 85 degrees)
    let band := bandOfTemp temp
    band ≠ .noDriveCold → band ≠ .noDriveHot →
    let driven (w : Waveform) (row cost : Nat) (p : Phase) : State := { s with
      account := { s.account with reservation := some cost }
      engine := { s.engine with
        state := .drive, reading := some ⟨temp, s.clock, false⟩, lastBand := some band, band := some band,
        waveform := some w, cost := some cost, position := some ⟨p, 1, row, false⟩, counts := some (0, 0),
        frameClock := .running, bus := .driving row p } }
    (∀ (r : Nat) (row : Row), x = .row r → s.rows[r]? = some row →
      let full := row.shown = none ∨ s.cfg.partialLimit ≤ row.partialCount ∨ band = .b0 ∨ band = .b1
      let w : Waveform := if full then .full else .partialWave
      let cost := 20 + 4 * driveFrames w band + 2
      (cost : Int) ≤ (s.account.e : Int) - bannerReserve s.cfg.n →
      receiverAgrees { s with account := { s.account with reservation := some cost } } = true →
        exec (.temperatureAnswer degrees) s = .next (driven w r cost (if full then .invert else .write))) ∧
    (∀ k : ClearKind, x = .clear k →
      let cost := 40 + (s.cfg.n + 1) * (4 * driveFrames .full band + 2)
      (k = .ordinary → (cost : Int) ≤ (s.account.e : Int) - bannerReserve s.cfg.n) → (k = .freeze → cost ≤ s.account.e) →
      receiverAgrees { s with account := { s.account with reservation := some cost } } = true →
        exec (.temperatureAnswer degrees) s = .next (driven .full 0 cost .invert))) ∧
  (∀ t : Int,
    (t ≤ -21 → bandOfTemp t = .noDriveCold) ∧ (-20 ≤ t → t ≤ -11 → bandOfTemp t = .b0) ∧
    (-10 ≤ t → t ≤ -1 → bandOfTemp t = .b1) ∧ (0 ≤ t → t ≤ 9 → bandOfTemp t = .b2) ∧
    (10 ≤ t → t ≤ 24 → bandOfTemp t = .b3) ∧ (25 ≤ t → t ≤ 39 → bandOfTemp t = .b4) ∧
    (40 ≤ t → t ≤ 54 → bandOfTemp t = .b5) ∧ (55 ≤ t → bandOfTemp t = .noDriveHot)) ∧
  [Band.b0, .b1, .b2, .b3, .b4, .b5].map (driveFrames .full) = [52, 36, 26, 18, 14, 13] ∧
  [Band.b2, .b3, .b4, .b5].map (driveFrames .partialWave) = [14, 11, 8, 7]

/-- TEMPERATURE_ANSWER that ends in a refusal (R125, R133, R135, R136, R160, R186): in a NO DRIVE band, with DROOP asserted,
which sets the droop-seen flag, or with E − B (E alone for the freeze picture) below the cost of the waveform chosen, the grant
is withdrawn whole: the refresh's rows pending again, the pointer where it was, the engine IDLE and the controller HELD for 480
ticks. An ORDINARY panel clear is requested again outside FROZEN, the freeze picture in FROZEN; one refused after the stage left
FROZEN is not, and the item stands. A freeze picture that E cannot pay for in FROZEN is skipped, its item absent and every
departure row masked. That every row is pending again after a refused panel clear, those not pending before the grant included,
is the model's reading (log entry 18), and that the stage at the refusal alone decides what becomes of a FREEZE request already
standing its choice (log entry 36). -/
def Obligations.TemperatureAnswerMayBeRefused : Prop :=
  ∀ (degrees : Int) (s : State) (x : Refresh), active s = true → s.engine.state = .prepare → s.engine.refresh = some x →
    s.account.reservation = none → (∀ r : Nat, x = .row r → r < s.rows.length) →
    let temp := max (-40) (min 85 degrees)
    let band := bandOfTemp temp
    let noDrive := temp ≤ -21 ∨ 55 ≤ temp
    let back (row : Row) : Row := { row with pending := true, inService := false, drawing := none }
    let withdrawn (rows : List Row) (item : Option ClearKind) : State := { s with
      rows := rows
      ctl := { s.ctl with state := .held, clearItem := item, retry := some 480, pointer := s.ctl.grantPointer }
      engine := { s.engine with
        state := .idle, refresh := none, reading := some ⟨temp, s.clock, false⟩, lastBand := some band, band := none,
        waveform := none, cost := none, position := none, counts := none, frameClock := .stopped, bus := .grounded } }
    let frozen := s.account.stage = .frozen
    let refused : State := match x with
      | .row r => withdrawn (s.rows.modify r back) s.ctl.clearItem
      | .clear .ordinary => withdrawn (s.rows.map back)
          (if frozen then s.ctl.clearItem else some (s.ctl.clearItem.getD .ordinary))
      | .clear .freeze => withdrawn (s.rows.map back) (if frozen then some .freeze else s.ctl.clearItem)
    let short : Prop := match x with
      | .row r => ∀ row : Row, s.rows[r]? = some row →
          let full := row.shown = none ∨ s.cfg.partialLimit ≤ row.partialCount ∨ band = .b0 ∨ band = .b1
          (s.account.e : Int) - bannerReserve s.cfg.n < 20 + 4 * driveFrames (if full then .full else .partialWave) band + 2
      | .clear .ordinary =>
          (s.account.e : Int) - bannerReserve s.cfg.n < 40 + (s.cfg.n + 1) * (4 * driveFrames .full band + 2)
      | .clear .freeze => s.account.e < 40 + (s.cfg.n + 1) * (4 * driveFrames .full band + 2)
    (noDrive → exec (.temperatureAnswer degrees) s = .next refused) ∧
    (¬ noDrive → s.pins.droop = true → exec (.temperatureAnswer degrees) s =
      .next { refused with monitor := { s.monitor with record := { s.monitor.record with droopSeen := true } } }) ∧
    (¬ noDrive → s.pins.droop = false → short → ¬ (x = .clear .freeze ∧ frozen) →
      exec (.temperatureAnswer degrees) s = .next refused) ∧
    (¬ noDrive → s.pins.droop = false → short → x = .clear .freeze → frozen →
      exec (.temperatureAnswer degrees) s = .next { withdrawn
          (s.rows.mapIdx (fun r row => { back row with mask := if r < s.cfg.n then true else row.mask })) none with
        account := { s.account with freeze := .skipped } })

/-- TEMPERATURE_NO_ANSWER (R132, R157 to R162, R165 to R167): the refresh's rows are no longer in service and keep their shown
records, pending where those differ from the desired ones; nothing is debited; the record names NO_ANSWER and the row, none for
a panel clear; DRAW_ABORTED counts. Outside FROZEN an ORDINARY panel clear is requested when three rows or more are
indeterminate and for every aborted panel clear (that it is so for a freeze picture whose stage has left FROZEN is the model's
reading, log entry 24); the freeze picture in FROZEN is requested again. The first and second abort in a row leave the engine
IDLE and the controller to select, or HELD for 480 ticks after the freeze picture in FROZEN; the third enters LOCKOUT for 2400
ticks with the controller HELD. -/
def Obligations.NoAnswerAborts : Prop :=
  ∀ (s : State) (x : Refresh), active s = true → s.engine.state = .prepare → s.engine.refresh = some x →
    s.engine.waveform = none → s.engine.position = none →
      let mine (r : Nat) : Bool := match x with | .row k => decide (r = k) | .clear _ => true
      let freezing := x = .clear .freeze ∧ s.account.stage = .frozen
      let clears := 3 ≤ (s.rows.filter (fun row => row.shown.isNone)).length ∨ ∃ k : ClearKind, x = .clear k
      let ended (st : EngineState) (ctl : Controller) (lockout : Option Nat) : State := State.count .drawAborted { s with
        rows := s.rows.mapIdx (fun r row => if mine r then { row with
          inService := false, drawing := none, pending := row.pending || decide (row.shown ≠ some row.desired) } else row)
        ctl := ctl
        engine := { s.engine with
          state := st, refresh := none, band := none, cost := none, counts := none, frameClock := .stopped,
          bus := .grounded }
        monitor := ⟨⟨.noAnswer, false, match x with | .row k => some k | .clear _ => none, none, 0⟩,
          s.monitor.aborts + 1, lockout⟩ }
      let aborted (item : Option ClearKind) : Prop :=
        let held : Controller := { s.ctl with state := .held, clearItem := item, retry := some 480 }
        (s.monitor.aborts < 2 → ¬ freezing → exec .temperatureNoAnswer s =
          .next (select (ended .idle { s.ctl with state := .opened, clearItem := item } s.monitor.lockout))) ∧
        (s.monitor.aborts < 2 → freezing → exec .temperatureNoAnswer s = .next (ended .idle held s.monitor.lockout)) ∧
        (s.monitor.aborts = 2 → exec .temperatureNoAnswer s = .next (ended .lockout held (some 2400)))
      (freezing → aborted (some .freeze)) ∧
      (s.account.stage ≠ .frozen → clears → aborted (some (s.ctl.clearItem.getD .ordinary))) ∧
      (¬ freezing → s.account.stage = .frozen ∨ ¬ clears → aborted s.ctl.clearItem)

/-- PFAULT_ASSERT and DROOP_ASSERT in DRIVE, with a debit that crosses no threshold (R155 to R162, R165 to R167, R179): the
outputs are grounded, the rows in service become indeterminate and pending, the reservation is released and 20 + 4·dFd + dFg
debited for a row, 40 + (N + 1)·(4·dFd + dFg) for a panel clear, the record names the cause, the row (none for a panel clear),
phase and frame of the cut, and DRAW_ABORTED counts. Outside FROZEN an ORDINARY panel clear is requested when three rows or more
are indeterminate; the freeze picture in FROZEN is requested again. The first and second abort in a row leave the engine IDLE
and the controller to select, or HELD for 480 ticks after the freeze picture in FROZEN; the third enters LOCKOUT for 2400 ticks
with the controller HELD. -/
def Obligations.FaultsInDriveAbort : Prop :=
  ∀ (stays : Bool) (s : State) (x : Refresh) (fd fg : Nat) (w : Waveform) (p : Position),
    active s = true → s.engine.state = .drive → s.engine.refresh = some x → s.engine.waveform = some w →
    s.engine.position = some p → s.engine.counts = some (fd, fg) → s.account.running = true →
    let e := s.account.e - (match x with
      | .row _ => 20 + 4 * fd + fg
      | .clear _ => 40 + (s.cfg.n + 1) * (4 * fd + fg))
    crossesNothing { s with account := { s.account with reservation := none } } e = true →
      let mine (r : Nat) : Bool := match x with | .row k => decide (r = k) | .clear _ => true
      let cut : List Row := s.rows.map (fun row => { row with shown := if row.inService then none else row.shown })
      let freezing := x = .clear .freeze ∧ s.account.stage = .frozen
      let clears := 3 ≤ (cut.filter (fun row => row.shown.isNone)).length
      let ended (c : FaultCause) (u : State) (st : EngineState) (ctl : Controller) (lockout : Option Nat) : State :=
        State.count .drawAborted { u with
          rows := cut.mapIdx (fun r row => if mine r then { row with
            inService := false, drawing := none, pending := row.pending || decide (row.shown ≠ some row.desired) } else row)
          table := s.table.map (fun y => { y with shownRow := shownRowOf s.cfg.n cut y.key })
          ctl := ctl
          account := { s.account with e := e, reservation := none }
          engine := { s.engine with
            state := st, refresh := none, band := none, waveform := none, cost := none, position := none,
            counts := none, frameClock := .stopped, bus := .grounded }
          monitor := ⟨⟨c, false, match x with | .row k => some k | .clear _ => none, some (w, p.phase), p.frame⟩,
            s.monitor.aborts + 1, lockout⟩ }
      let aborted (item : Option ClearKind) (i : Instr) (c : FaultCause) (u : State) : Prop :=
        let held : Controller := { s.ctl with state := .held, clearItem := item, retry := some 480 }
        (s.monitor.aborts < 2 → ¬ freezing → exec i s =
          .next (select (ended c u .idle { s.ctl with state := .opened, clearItem := item } s.monitor.lockout))) ∧
        (s.monitor.aborts < 2 → freezing → exec i s = .next (ended c u .idle held s.monitor.lockout)) ∧
        (s.monitor.aborts = 2 → exec i s = .next (ended c u .lockout held (some 2400)))
      let both (item : Option ClearKind) : Prop :=
        aborted item (.pfaultAssert stays) .pfault { s with pins := { s.pins with pfault := stays } } ∧
        (s.pins.droop = false → aborted item .droopAssert .droop { s with pins := { s.pins with droop := true } })
      (freezing → both (some .freeze)) ∧
      (s.account.stage ≠ .frozen → clears → both (some (s.ctl.clearItem.getD .ordinary))) ∧
      (¬ freezing → s.account.stage = .frozen ∨ ¬ clears → both s.ctl.clearItem)

/-- The fault inputs outside DRIVE and the releases. PFAULT_ASSERT takes the level alone and DROOP_ASSERT sets the droop-seen
flag besides (R160, R163). DROOP_RELEASE and RETRY_TIMER_EXPIRY release a HELD controller for OPEN (R126), nothing being
selectable. LOCKOUT_END sets the abort count to 0, leaves the engine IDLE and releases the controller (R166). With a row
selectable and no fresh reading in hand, each of these releases, and that of a HARVEST pulse, grants the selection at once
(R118, R121, R126). -/
def Obligations.FaultInputsAndReleases : Prop :=
  ∀ s : State, active s = true →
    let released : Controller := if s.ctl.state = .held then { s.ctl with state := .opened, retry := none } else s.ctl
    (∀ stays : Bool, s.engine.state ≠ .drive →
      exec (.pfaultAssert stays) s = .next { s with pins := { s.pins with pfault := stays } }) ∧
    (s.engine.state ≠ .drive → s.pins.droop = false → exec .droopAssert s = .next { s with
      pins := { s.pins with droop := true }
      monitor := { s.monitor with record := { s.monitor.record with droopSeen := true } } }) ∧
    (nothingToSelect s = true → s.pins.droop = true →
      exec .droopRelease s = .next { s with pins := { s.pins with droop := false }, ctl := released }) ∧
    (nothingToSelect s = true → s.ctl.state = .held → s.ctl.retry = some 0 →
      exec .retryTimerExpiry s = .next { s with ctl := { s.ctl with state := .opened, retry := none } }) ∧
    (s.engine.state = .lockout → s.monitor.lockout = some 0 → selection s = none →
      exec .lockoutEnd s = .next { s with
        monitor := { s.monitor with lockout := none, aborts := 0 }
        engine := { s.engine with state := .idle }
        ctl := released }) ∧
    (∀ r : Nat, s.ctl.state = .held → selection s = some (.row r) → (∀ x, s.engine.reading = some x → x.old = true) →
      let granted (u : State) : State := { u with
        rows := s.rows.modify r (fun row => { row with pending := false, inService := true, drawing := some row.desired })
        ctl := { s.ctl with
          state := .granted, retry := none, pointer := if r < s.cfg.n then r else s.ctl.pointer
          grantPointer := s.ctl.pointer }
        engine := { s.engine with state := .prepare, refresh := some (.row r), counts := some (0, 0) } }
      let e := min s.cfg.capacity (s.account.e + 64)
      (s.engine.state = .idle → s.pins.droop = true →
        exec .droopRelease s = .next (granted { s with pins := { s.pins with droop := false } })) ∧
      (s.engine.state = .idle → s.ctl.retry = some 0 → exec .retryTimerExpiry s = .next (granted s)) ∧
      (s.engine.state = .idle → s.account.running = true → crossesNothing s e = true →
        exec .harvestPulse s = .next (granted (withE s e))) ∧
      (s.engine.state = .lockout → s.monitor.lockout = some 0 →
        exec .lockoutEnd s = .next (granted { s with monitor := { s.monitor with lockout := none, aborts := 0 } })))

/-- DRIVE_FRAME_END (R139 to R143, R146), which ends one frame clock period (log entry 6): in a panel frame the next row's
period begins until row N's ends; then the frame counts as a drive frame, in REST as a ground frame; the next frame of the phase
follows, or the next phase, after a dead gap with the outputs grounded between INVERT and BLACK, BLACK and WHITE, WHITE and
WRITE of FULL; after the last REST frame the engine is in SETTLE, the position at that frame (the model's reading, log entry
29). DEAD_GAP_END (R142): the next phase's first frame starts. DRIVE_FRAME_END in a dead gap and DEAD_GAP_END outside one change
nothing (the model's reading, log entry 3). The frames of each phase (Table 7-3). The message of a frame: its row, the class map
and the levels of Tables 7-4 and 7-5, a class that a table leaves unused without a level (log entry 38). A record's image
depends on its drawn fields alone; an EMPTY record and the BLANK banner are blank rows and render white (the banner by the
model's reading, log entry 25). A step with no command waiting changes nothing (log entry 6). -/
def Obligations.FramesGapsAndRowPeriods : Prop :=
  (∀ (s : State) (x : Refresh) (w : Waveform) (b : Band) (p : Position) (fd fg : Nat),
    frameInHand s = some (x, w, b, p, (fd, fg)) →
    let first := match x with | .row r => r | .clear _ => 0
    let last := match x with | .row _ => True | .clear _ => s.cfg.n ≤ p.row
    let counted (ground : Bool) : Engine := { s.engine with
      counts := some (if ground then (fd, fg + 1) else (fd + 1, fg)) }
    let drive (e : Engine) (q : Phase) (frame : Nat) : Engine := { e with
      position := some ⟨q, frame, first, false⟩, frameClock := .running, bus := .driving first q }
    let gap (q : Phase) : Engine := { counted false with
      position := some ⟨q, 1, first, true⟩, frameClock := .held, bus := .grounded }
    (p.gap = true → exec .driveFrameEnd s = .next s ∧
      exec .deadGapEnd s = .next { s with engine := drive s.engine p.phase p.frame }) ∧
    (p.gap = false → exec .deadGapEnd s = .next s) ∧
    (p.gap = false → ¬ last → exec .driveFrameEnd s = .next { s with engine := { s.engine with
      position := some ⟨p.phase, p.frame, p.row + 1, false⟩, bus := .driving (p.row + 1) p.phase } }) ∧
    (p.gap = false → last → p.frame < phaseFrames w b p.phase →
      exec .driveFrameEnd s = .next { s with
        engine := drive (counted (p.phase = .rest)) p.phase (p.frame + 1) }) ∧
    (p.gap = false → last → phaseFrames w b p.phase ≤ p.frame →
      (w = .full → p.phase = .invert → exec .driveFrameEnd s = .next { s with engine := gap .black }) ∧
      (w = .full → p.phase = .black → exec .driveFrameEnd s = .next { s with engine := gap .white }) ∧
      (w = .full → p.phase = .white → exec .driveFrameEnd s = .next { s with engine := gap .write }) ∧
      (w = .full → p.phase = .write →
        exec .driveFrameEnd s = .next { s with engine := drive (counted false) .rest 1 }) ∧
      (w = .partialWave → p.phase = .write →
        exec .driveFrameEnd s = .next { s with engine := drive (counted false) .reinforce 1 }) ∧
      (w = .partialWave → p.phase = .reinforce →
        exec .driveFrameEnd s = .next { s with engine := drive (counted false) .rest 1 }) ∧
      (p.phase = .rest → exec .driveFrameEnd s = .next { s with engine := { counted true with
        state := .settle, frameClock := .stopped, bus := .grounded } }))) ∧
  ([Band.b0, .b1, .b2, .b3, .b4, .b5].map (fun b => [Phase.invert, .black, .white, .write, .rest].map (phaseFrames .full b)) =
      [[12, 12, 12, 16, 2], [8, 8, 8, 12, 2], [6, 6, 6, 8, 2], [4, 4, 4, 6, 2], [3, 3, 3, 5, 2], [3, 3, 3, 4, 2]] ∧
    [Band.b2, .b3, .b4, .b5].map (fun b => [Phase.write, .reinforce, .rest].map (phaseFrames .partialWave b)) =
      [[10, 4, 2], [8, 3, 2], [6, 2, 2], [5, 2, 2]]) ∧
  (∀ (s : State) (r : Nat) (q : Phase) (w : Waveform) (row : Row), s.engine.bus = .driving r q → s.engine.waveform = some w →
    s.rows[r]? = some row →
    let black (x : Option RowRecord) (i : Nat) : Bool := match x with | some y => inkAt y i | none => false
    let message (cls : Nat → PixelClass) (l : ClassLevels) : Option FrameMessage :=
      some ⟨r, (List.range Config.rowPixels).map cls, l⟩
    let now (i : Nat) : PixelClass := if black row.shown i then .class1 else .class2
    let aim (i : Nat) : PixelClass := if black row.drawing i then .class1 else .class2
    let changed (i : Nat) : PixelClass := if black row.shown i = black row.drawing i then .class0 else aim i
    (w = .full →
      (q = .invert → frameMessage s = message now ⟨none, some .negative, some .positive⟩) ∧
      (q = .black → frameMessage s = message now ⟨none, some .positive, some .positive⟩) ∧
      (q = .white → frameMessage s = message now ⟨none, some .negative, some .negative⟩) ∧
      (q = .write → frameMessage s = message aim ⟨none, some .positive, some .negative⟩) ∧
      (q = .rest → frameMessage s = message (fun _ => .class0) ⟨some .ground, none, none⟩)) ∧
    (w = .partialWave →
      (q = .write ∨ q = .reinforce → frameMessage s = message changed ⟨some .ground, some .positive, some .negative⟩) ∧
      (q = .rest → frameMessage s = message changed ⟨some .ground, some .ground, some .ground⟩))) ∧
  (∀ (c : RowContent) (k : Option Key) (i : Nat), inkAt (.departure { c with key := k }) i = inkAt (.departure c) i ∧
    (c.value = .empty → inkAt (.departure c) i = false) ∧ inkAt (.banner .blank) i = false) ∧
  (∀ s : State, s.pending = [] → step s = .next s)

/-- REFRESH_COMPLETION (R147 to R149, R179), with a debit that crosses no threshold: the rows drawn show what was being drawn,
their partial counters are 0 after FULL and one more after PARTIAL, they leave service and are pending when the desired record
differs; the cost is debited with the release of the reservation; DRAW_DONE counts; the abort count is 0; the engine is IDLE and
the controller OPEN, and it selects. A panel clear completed in SERVICE restarts the full-clear interval, one completed in the
fill period does not. The freeze picture completed in FROZEN with no FREEZE request standing is recorded as drawn and masks the
departure rows; after the stage has left FROZEN, or with a FREEZE request of a new stay standing, it leaves the freeze state and
the masks as they are (R149, R187), and that request is granted next. -/
def Obligations.CompletionShowsWhatWasDrawn : Prop :=
  ∀ (s : State) (x : Refresh) (w : Waveform) (cost : Nat), active s = true → s.engine.state = .settle →
    s.engine.refresh = some x → s.engine.waveform = some w → s.engine.cost = some cost → s.account.running = true →
    crossesNothing { s with account := { s.account with reservation := none } } (s.account.e - cost) = true →
      let drawn (row : Row) : Row := { row with
        shown := row.drawing
        drawing := none
        inService := false
        partialCount := (match w with | .full => 0 | .partialWave => row.partialCount + 1)
        pending := row.pending || decide (row.drawing ≠ some row.desired) }
      let completed (rows : List Row) (freeze : FreezeState) (interval : Option Nat) : State := State.count .drawDone { s with
        rows := rows
        table := s.table.map (fun e => { e with shownRow := shownRowOf s.cfg.n rows e.key })
        account := { s.account with e := s.account.e - cost, reservation := none, freeze := freeze }
        monitor := { s.monitor with aborts := 0 }
        engine := { s.engine with
          state := .idle, refresh := none, band := none, waveform := none, cost := none, position := none,
          counts := none, frameClock := .stopped, bus := .grounded }
        ctl := { s.ctl with state := .opened, interval := interval } }
      (∀ r : Nat, x = .row r →
        let u := completed (s.rows.modify r drawn) s.account.freeze s.ctl.interval
        exec .refreshCompletion s = .next (select u) ∧ (selection u = none → exec .refreshCompletion s = .next u)) ∧
      (x = .clear .freeze →
        let done := s.account.stage = .frozen ∧ s.ctl.clearItem ≠ some .freeze
        let u := completed
          (s.rows.mapIdx (fun r row => { drawn row with mask := if r < s.cfg.n ∧ done then true else row.mask }))
          (if done then .drawn else s.account.freeze)
          (if s.startup.state = .service then some (28800 * s.cfg.clearHours) else s.ctl.interval)
        exec .refreshCompletion s = .next (select u) ∧
        (s.ctl.clearItem = some .freeze → (∀ y, s.engine.reading = some y → y.old = true) →
          exec .refreshCompletion s = .next { u with
            rows := u.rows.mapIdx (fun r row => { row with
              pending := false, inService := true
              drawing := some (if r < s.cfg.n then emptyRecord else .banner .outOfDate) })
            ctl := { u.ctl with state := .granted, clearItem := none, grantPointer := s.ctl.pointer }
            engine := { u.engine with state := .prepare, refresh := some (.clear .freeze), counts := some (0, 0) } })) ∧
      (x = .clear .ordinary →
        exec .refreshCompletion s = .next (select (completed (s.rows.map drawn) s.account.freeze
          (if s.startup.state = .service then some (28800 * s.cfg.clearHours) else s.ctl.interval))))
end

