-- ==== Sys2Proof/Laws/State.lean ====
section
/-! SUPPORT. What each small update of the state does to each field, true by definition, so that no later proof unfolds a
record update. -/

namespace Sys2Proof.Machine

variable (s : State)

/-! ### State.count -/

@[simp] theorem State.count_clock (k : Counter) : (s.count k).clock = s.clock := rfl
@[simp] theorem State.count_wall (k : Counter) : (s.count k).wall = s.wall := rfl
@[simp] theorem State.count_pins (k : Counter) : (s.count k).pins = s.pins := rfl
@[simp] theorem State.count_startup (k : Counter) : (s.count k).startup = s.startup := rfl
@[simp] theorem State.count_loader (k : Counter) : (s.count k).loader = s.loader := rfl
@[simp] theorem State.count_cfg (k : Counter) : (s.count k).cfg = s.cfg := rfl
@[simp] theorem State.count_cfgInForce (k : Counter) : (s.count k).cfgInForce = s.cfgInForce := rfl
@[simp] theorem State.count_rx (k : Counter) : (s.count k).rx = s.rx := rfl
@[simp] theorem State.count_rng (k : Counter) : (s.count k).rng = s.rng := rfl
@[simp] theorem State.count_quiet (k : Counter) : (s.count k).quiet = s.quiet := rfl
@[simp] theorem State.count_cau (k : Counter) : (s.count k).cau = s.cau := rfl
@[simp] theorem State.count_seen (k : Counter) : (s.count k).seen = s.seen := rfl
@[simp] theorem State.count_relayQ (k : Counter) : (s.count k).relayQ = s.relayQ := rfl
@[simp] theorem State.count_table (k : Counter) : (s.count k).table = s.table := rfl
@[simp] theorem State.count_lock (k : Counter) : (s.count k).lock = s.lock := rfl
@[simp] theorem State.count_sweepWaiting (k : Counter) : (s.count k).sweepWaiting = s.sweepWaiting := rfl
@[simp] theorem State.count_composer (k : Counter) : (s.count k).composer = s.composer := rfl
@[simp] theorem State.count_rows (k : Counter) : (s.count k).rows = s.rows := rfl
@[simp] theorem State.count_ctl (k : Counter) : (s.count k).ctl = s.ctl := rfl
@[simp] theorem State.count_engine (k : Counter) : (s.count k).engine = s.engine := rfl
@[simp] theorem State.count_monitor (k : Counter) : (s.count k).monitor = s.monitor := rfl
@[simp] theorem State.count_account (k : Counter) : (s.count k).account = s.account := rfl
@[simp] theorem State.count_maint (k : Counter) :
    (s.count k).maint = { s.maint with counters := countOn k s.maint.counters } := rfl
@[simp] theorem State.count_pending (k : Counter) : (s.count k).pending = s.pending := rfl

/-! ### State.setRx -/

@[simp] theorem State.setRx_clock (st : RxState) : (s.setRx st).clock = s.clock := rfl
@[simp] theorem State.setRx_wall (st : RxState) : (s.setRx st).wall = s.wall := rfl
@[simp] theorem State.setRx_pins (st : RxState) : (s.setRx st).pins = s.pins := rfl
@[simp] theorem State.setRx_startup (st : RxState) : (s.setRx st).startup = s.startup := rfl
@[simp] theorem State.setRx_loader (st : RxState) : (s.setRx st).loader = s.loader := rfl
@[simp] theorem State.setRx_cfg (st : RxState) : (s.setRx st).cfg = s.cfg := rfl
@[simp] theorem State.setRx_cfgInForce (st : RxState) : (s.setRx st).cfgInForce = s.cfgInForce := rfl
@[simp] theorem State.setRx_rx (st : RxState) : (s.setRx st).rx = { s.rx with state := st } := rfl
@[simp] theorem State.setRx_rng (st : RxState) : (s.setRx st).rng = s.rng := rfl
@[simp] theorem State.setRx_quiet (st : RxState) : (s.setRx st).quiet = s.quiet := rfl
@[simp] theorem State.setRx_cau (st : RxState) : (s.setRx st).cau = s.cau := rfl
@[simp] theorem State.setRx_seen (st : RxState) : (s.setRx st).seen = s.seen := rfl
@[simp] theorem State.setRx_relayQ (st : RxState) : (s.setRx st).relayQ = s.relayQ := rfl
@[simp] theorem State.setRx_table (st : RxState) : (s.setRx st).table = s.table := rfl
@[simp] theorem State.setRx_lock (st : RxState) : (s.setRx st).lock = s.lock := rfl
@[simp] theorem State.setRx_sweepWaiting (st : RxState) : (s.setRx st).sweepWaiting = s.sweepWaiting := rfl
@[simp] theorem State.setRx_composer (st : RxState) : (s.setRx st).composer = s.composer := rfl
@[simp] theorem State.setRx_rows (st : RxState) : (s.setRx st).rows = s.rows := rfl
@[simp] theorem State.setRx_ctl (st : RxState) : (s.setRx st).ctl = s.ctl := rfl
@[simp] theorem State.setRx_engine (st : RxState) : (s.setRx st).engine = s.engine := rfl
@[simp] theorem State.setRx_monitor (st : RxState) : (s.setRx st).monitor = s.monitor := rfl
@[simp] theorem State.setRx_account (st : RxState) : (s.setRx st).account = s.account := rfl
@[simp] theorem State.setRx_maint (st : RxState) : (s.setRx st).maint = s.maint := rfl
@[simp] theorem State.setRx_pending (st : RxState) : (s.setRx st).pending = s.pending := rfl

/-! ### State.setEnergy -/

@[simp] theorem State.setEnergy_clock (e : Nat) : (s.setEnergy e).clock = s.clock := rfl
@[simp] theorem State.setEnergy_wall (e : Nat) : (s.setEnergy e).wall = s.wall := rfl
@[simp] theorem State.setEnergy_pins (e : Nat) : (s.setEnergy e).pins = s.pins := rfl
@[simp] theorem State.setEnergy_startup (e : Nat) : (s.setEnergy e).startup = s.startup := rfl
@[simp] theorem State.setEnergy_loader (e : Nat) : (s.setEnergy e).loader = s.loader := rfl
@[simp] theorem State.setEnergy_cfg (e : Nat) : (s.setEnergy e).cfg = s.cfg := rfl
@[simp] theorem State.setEnergy_cfgInForce (e : Nat) : (s.setEnergy e).cfgInForce = s.cfgInForce := rfl
@[simp] theorem State.setEnergy_rx (e : Nat) : (s.setEnergy e).rx = s.rx := rfl
@[simp] theorem State.setEnergy_rng (e : Nat) : (s.setEnergy e).rng = s.rng := rfl
@[simp] theorem State.setEnergy_quiet (e : Nat) : (s.setEnergy e).quiet = s.quiet := rfl
@[simp] theorem State.setEnergy_cau (e : Nat) : (s.setEnergy e).cau = s.cau := rfl
@[simp] theorem State.setEnergy_seen (e : Nat) : (s.setEnergy e).seen = s.seen := rfl
@[simp] theorem State.setEnergy_relayQ (e : Nat) : (s.setEnergy e).relayQ = s.relayQ := rfl
@[simp] theorem State.setEnergy_table (e : Nat) : (s.setEnergy e).table = s.table := rfl
@[simp] theorem State.setEnergy_lock (e : Nat) : (s.setEnergy e).lock = s.lock := rfl
@[simp] theorem State.setEnergy_sweepWaiting (e : Nat) : (s.setEnergy e).sweepWaiting = s.sweepWaiting := rfl
@[simp] theorem State.setEnergy_composer (e : Nat) : (s.setEnergy e).composer = s.composer := rfl
@[simp] theorem State.setEnergy_rows (e : Nat) : (s.setEnergy e).rows = s.rows := rfl
@[simp] theorem State.setEnergy_ctl (e : Nat) : (s.setEnergy e).ctl = s.ctl := rfl
@[simp] theorem State.setEnergy_engine (e : Nat) : (s.setEnergy e).engine = s.engine := rfl
@[simp] theorem State.setEnergy_monitor (e : Nat) : (s.setEnergy e).monitor = s.monitor := rfl
@[simp] theorem State.setEnergy_account (e : Nat) : (s.setEnergy e).account = { s.account with e := e } := rfl
@[simp] theorem State.setEnergy_maint (e : Nat) : (s.setEnergy e).maint = s.maint := rfl
@[simp] theorem State.setEnergy_pending (e : Nat) : (s.setEnergy e).pending = s.pending := rfl

/-! ### State.setReservation -/

@[simp] theorem State.setReservation_clock (r : Option Nat) : (s.setReservation r).clock = s.clock := rfl
@[simp] theorem State.setReservation_wall (r : Option Nat) : (s.setReservation r).wall = s.wall := rfl
@[simp] theorem State.setReservation_pins (r : Option Nat) : (s.setReservation r).pins = s.pins := rfl
@[simp] theorem State.setReservation_startup (r : Option Nat) : (s.setReservation r).startup = s.startup := rfl
@[simp] theorem State.setReservation_loader (r : Option Nat) : (s.setReservation r).loader = s.loader := rfl
@[simp] theorem State.setReservation_cfg (r : Option Nat) : (s.setReservation r).cfg = s.cfg := rfl
@[simp] theorem State.setReservation_cfgInForce (r : Option Nat) : (s.setReservation r).cfgInForce = s.cfgInForce := rfl
@[simp] theorem State.setReservation_rx (r : Option Nat) : (s.setReservation r).rx = s.rx := rfl
@[simp] theorem State.setReservation_rng (r : Option Nat) : (s.setReservation r).rng = s.rng := rfl
@[simp] theorem State.setReservation_quiet (r : Option Nat) : (s.setReservation r).quiet = s.quiet := rfl
@[simp] theorem State.setReservation_cau (r : Option Nat) : (s.setReservation r).cau = s.cau := rfl
@[simp] theorem State.setReservation_seen (r : Option Nat) : (s.setReservation r).seen = s.seen := rfl
@[simp] theorem State.setReservation_relayQ (r : Option Nat) : (s.setReservation r).relayQ = s.relayQ := rfl
@[simp] theorem State.setReservation_table (r : Option Nat) : (s.setReservation r).table = s.table := rfl
@[simp] theorem State.setReservation_lock (r : Option Nat) : (s.setReservation r).lock = s.lock := rfl
@[simp] theorem State.setReservation_sweepWaiting (r : Option Nat) : (s.setReservation r).sweepWaiting = s.sweepWaiting := rfl
@[simp] theorem State.setReservation_composer (r : Option Nat) : (s.setReservation r).composer = s.composer := rfl
@[simp] theorem State.setReservation_rows (r : Option Nat) : (s.setReservation r).rows = s.rows := rfl
@[simp] theorem State.setReservation_ctl (r : Option Nat) : (s.setReservation r).ctl = s.ctl := rfl
@[simp] theorem State.setReservation_engine (r : Option Nat) : (s.setReservation r).engine = s.engine := rfl
@[simp] theorem State.setReservation_monitor (r : Option Nat) : (s.setReservation r).monitor = s.monitor := rfl
@[simp] theorem State.setReservation_account (r : Option Nat) :
    (s.setReservation r).account = { s.account with reservation := r } := rfl
@[simp] theorem State.setReservation_maint (r : Option Nat) : (s.setReservation r).maint = s.maint := rfl
@[simp] theorem State.setReservation_pending (r : Option Nat) : (s.setReservation r).pending = s.pending := rfl

/-! ### State.setCau -/

@[simp] theorem State.setCau_clock (c : CauState) : (s.setCau c).clock = s.clock := rfl
@[simp] theorem State.setCau_wall (c : CauState) : (s.setCau c).wall = s.wall := rfl
@[simp] theorem State.setCau_pins (c : CauState) : (s.setCau c).pins = s.pins := rfl
@[simp] theorem State.setCau_startup (c : CauState) : (s.setCau c).startup = s.startup := rfl
@[simp] theorem State.setCau_loader (c : CauState) : (s.setCau c).loader = s.loader := rfl
@[simp] theorem State.setCau_cfg (c : CauState) : (s.setCau c).cfg = s.cfg := rfl
@[simp] theorem State.setCau_cfgInForce (c : CauState) : (s.setCau c).cfgInForce = s.cfgInForce := rfl
@[simp] theorem State.setCau_rx (c : CauState) : (s.setCau c).rx = s.rx := rfl
@[simp] theorem State.setCau_rng (c : CauState) : (s.setCau c).rng = s.rng := rfl
@[simp] theorem State.setCau_quiet (c : CauState) : (s.setCau c).quiet = s.quiet := rfl
@[simp] theorem State.setCau_cau (c : CauState) : (s.setCau c).cau = c := rfl
@[simp] theorem State.setCau_seen (c : CauState) : (s.setCau c).seen = s.seen := rfl
@[simp] theorem State.setCau_relayQ (c : CauState) : (s.setCau c).relayQ = s.relayQ := rfl
@[simp] theorem State.setCau_table (c : CauState) : (s.setCau c).table = s.table := rfl
@[simp] theorem State.setCau_lock (c : CauState) : (s.setCau c).lock = s.lock := rfl
@[simp] theorem State.setCau_sweepWaiting (c : CauState) : (s.setCau c).sweepWaiting = s.sweepWaiting := rfl
@[simp] theorem State.setCau_composer (c : CauState) : (s.setCau c).composer = s.composer := rfl
@[simp] theorem State.setCau_rows (c : CauState) : (s.setCau c).rows = s.rows := rfl
@[simp] theorem State.setCau_ctl (c : CauState) : (s.setCau c).ctl = s.ctl := rfl
@[simp] theorem State.setCau_engine (c : CauState) : (s.setCau c).engine = s.engine := rfl
@[simp] theorem State.setCau_monitor (c : CauState) : (s.setCau c).monitor = s.monitor := rfl
@[simp] theorem State.setCau_account (c : CauState) : (s.setCau c).account = s.account := rfl
@[simp] theorem State.setCau_maint (c : CauState) : (s.setCau c).maint = s.maint := rfl
@[simp] theorem State.setCau_pending (c : CauState) : (s.setCau c).pending = s.pending := rfl

/-! ### State.setClearItem -/

@[simp] theorem State.setClearItem_clock (k : Option ClearKind) : (s.setClearItem k).clock = s.clock := rfl
@[simp] theorem State.setClearItem_wall (k : Option ClearKind) : (s.setClearItem k).wall = s.wall := rfl
@[simp] theorem State.setClearItem_pins (k : Option ClearKind) : (s.setClearItem k).pins = s.pins := rfl
@[simp] theorem State.setClearItem_startup (k : Option ClearKind) : (s.setClearItem k).startup = s.startup := rfl
@[simp] theorem State.setClearItem_loader (k : Option ClearKind) : (s.setClearItem k).loader = s.loader := rfl
@[simp] theorem State.setClearItem_cfg (k : Option ClearKind) : (s.setClearItem k).cfg = s.cfg := rfl
@[simp] theorem State.setClearItem_cfgInForce (k : Option ClearKind) : (s.setClearItem k).cfgInForce = s.cfgInForce := rfl
@[simp] theorem State.setClearItem_rx (k : Option ClearKind) : (s.setClearItem k).rx = s.rx := rfl
@[simp] theorem State.setClearItem_rng (k : Option ClearKind) : (s.setClearItem k).rng = s.rng := rfl
@[simp] theorem State.setClearItem_quiet (k : Option ClearKind) : (s.setClearItem k).quiet = s.quiet := rfl
@[simp] theorem State.setClearItem_cau (k : Option ClearKind) : (s.setClearItem k).cau = s.cau := rfl
@[simp] theorem State.setClearItem_seen (k : Option ClearKind) : (s.setClearItem k).seen = s.seen := rfl
@[simp] theorem State.setClearItem_relayQ (k : Option ClearKind) : (s.setClearItem k).relayQ = s.relayQ := rfl
@[simp] theorem State.setClearItem_table (k : Option ClearKind) : (s.setClearItem k).table = s.table := rfl
@[simp] theorem State.setClearItem_lock (k : Option ClearKind) : (s.setClearItem k).lock = s.lock := rfl
@[simp] theorem State.setClearItem_sweepWaiting (k : Option ClearKind) : (s.setClearItem k).sweepWaiting = s.sweepWaiting := rfl
@[simp] theorem State.setClearItem_composer (k : Option ClearKind) : (s.setClearItem k).composer = s.composer := rfl
@[simp] theorem State.setClearItem_rows (k : Option ClearKind) : (s.setClearItem k).rows = s.rows := rfl
@[simp] theorem State.setClearItem_ctl (k : Option ClearKind) : (s.setClearItem k).ctl = { s.ctl with clearItem := k } := rfl
@[simp] theorem State.setClearItem_engine (k : Option ClearKind) : (s.setClearItem k).engine = s.engine := rfl
@[simp] theorem State.setClearItem_monitor (k : Option ClearKind) : (s.setClearItem k).monitor = s.monitor := rfl
@[simp] theorem State.setClearItem_account (k : Option ClearKind) : (s.setClearItem k).account = s.account := rfl
@[simp] theorem State.setClearItem_maint (k : Option ClearKind) : (s.setClearItem k).maint = s.maint := rfl
@[simp] theorem State.setClearItem_pending (k : Option ClearKind) : (s.setClearItem k).pending = s.pending := rfl

/-! ### State.mapRows -/

@[simp] theorem State.mapRows_clock (f : Row → Row) : (s.mapRows f).clock = s.clock := rfl
@[simp] theorem State.mapRows_wall (f : Row → Row) : (s.mapRows f).wall = s.wall := rfl
@[simp] theorem State.mapRows_pins (f : Row → Row) : (s.mapRows f).pins = s.pins := rfl
@[simp] theorem State.mapRows_startup (f : Row → Row) : (s.mapRows f).startup = s.startup := rfl
@[simp] theorem State.mapRows_loader (f : Row → Row) : (s.mapRows f).loader = s.loader := rfl
@[simp] theorem State.mapRows_cfg (f : Row → Row) : (s.mapRows f).cfg = s.cfg := rfl
@[simp] theorem State.mapRows_cfgInForce (f : Row → Row) : (s.mapRows f).cfgInForce = s.cfgInForce := rfl
@[simp] theorem State.mapRows_rx (f : Row → Row) : (s.mapRows f).rx = s.rx := rfl
@[simp] theorem State.mapRows_rng (f : Row → Row) : (s.mapRows f).rng = s.rng := rfl
@[simp] theorem State.mapRows_quiet (f : Row → Row) : (s.mapRows f).quiet = s.quiet := rfl
@[simp] theorem State.mapRows_cau (f : Row → Row) : (s.mapRows f).cau = s.cau := rfl
@[simp] theorem State.mapRows_seen (f : Row → Row) : (s.mapRows f).seen = s.seen := rfl
@[simp] theorem State.mapRows_relayQ (f : Row → Row) : (s.mapRows f).relayQ = s.relayQ := rfl
@[simp] theorem State.mapRows_table (f : Row → Row) : (s.mapRows f).table = s.table := rfl
@[simp] theorem State.mapRows_lock (f : Row → Row) : (s.mapRows f).lock = s.lock := rfl
@[simp] theorem State.mapRows_sweepWaiting (f : Row → Row) : (s.mapRows f).sweepWaiting = s.sweepWaiting := rfl
@[simp] theorem State.mapRows_composer (f : Row → Row) : (s.mapRows f).composer = s.composer := rfl
@[simp] theorem State.mapRows_rows (f : Row → Row) : (s.mapRows f).rows = s.rows.map f := rfl
@[simp] theorem State.mapRows_ctl (f : Row → Row) : (s.mapRows f).ctl = s.ctl := rfl
@[simp] theorem State.mapRows_engine (f : Row → Row) : (s.mapRows f).engine = s.engine := rfl
@[simp] theorem State.mapRows_monitor (f : Row → Row) : (s.mapRows f).monitor = s.monitor := rfl
@[simp] theorem State.mapRows_account (f : Row → Row) : (s.mapRows f).account = s.account := rfl
@[simp] theorem State.mapRows_maint (f : Row → Row) : (s.mapRows f).maint = s.maint := rfl
@[simp] theorem State.mapRows_pending (f : Row → Row) : (s.mapRows f).pending = s.pending := rfl

/-! ### State.updateRow -/

@[simp] theorem State.updateRow_clock (r : Nat) (f : Row → Row) : (s.updateRow r f).clock = s.clock := rfl
@[simp] theorem State.updateRow_wall (r : Nat) (f : Row → Row) : (s.updateRow r f).wall = s.wall := rfl
@[simp] theorem State.updateRow_pins (r : Nat) (f : Row → Row) : (s.updateRow r f).pins = s.pins := rfl
@[simp] theorem State.updateRow_startup (r : Nat) (f : Row → Row) : (s.updateRow r f).startup = s.startup := rfl
@[simp] theorem State.updateRow_loader (r : Nat) (f : Row → Row) : (s.updateRow r f).loader = s.loader := rfl
@[simp] theorem State.updateRow_cfg (r : Nat) (f : Row → Row) : (s.updateRow r f).cfg = s.cfg := rfl
@[simp] theorem State.updateRow_cfgInForce (r : Nat) (f : Row → Row) : (s.updateRow r f).cfgInForce = s.cfgInForce := rfl
@[simp] theorem State.updateRow_rx (r : Nat) (f : Row → Row) : (s.updateRow r f).rx = s.rx := rfl
@[simp] theorem State.updateRow_rng (r : Nat) (f : Row → Row) : (s.updateRow r f).rng = s.rng := rfl
@[simp] theorem State.updateRow_quiet (r : Nat) (f : Row → Row) : (s.updateRow r f).quiet = s.quiet := rfl
@[simp] theorem State.updateRow_cau (r : Nat) (f : Row → Row) : (s.updateRow r f).cau = s.cau := rfl
@[simp] theorem State.updateRow_seen (r : Nat) (f : Row → Row) : (s.updateRow r f).seen = s.seen := rfl
@[simp] theorem State.updateRow_relayQ (r : Nat) (f : Row → Row) : (s.updateRow r f).relayQ = s.relayQ := rfl
@[simp] theorem State.updateRow_table (r : Nat) (f : Row → Row) : (s.updateRow r f).table = s.table := rfl
@[simp] theorem State.updateRow_lock (r : Nat) (f : Row → Row) : (s.updateRow r f).lock = s.lock := rfl
@[simp] theorem State.updateRow_sweepWaiting (r : Nat) (f : Row → Row) : (s.updateRow r f).sweepWaiting = s.sweepWaiting := rfl
@[simp] theorem State.updateRow_composer (r : Nat) (f : Row → Row) : (s.updateRow r f).composer = s.composer := rfl
@[simp] theorem State.updateRow_rows (r : Nat) (f : Row → Row) : (s.updateRow r f).rows = s.rows.modify r f := rfl
@[simp] theorem State.updateRow_ctl (r : Nat) (f : Row → Row) : (s.updateRow r f).ctl = s.ctl := rfl
@[simp] theorem State.updateRow_engine (r : Nat) (f : Row → Row) : (s.updateRow r f).engine = s.engine := rfl
@[simp] theorem State.updateRow_monitor (r : Nat) (f : Row → Row) : (s.updateRow r f).monitor = s.monitor := rfl
@[simp] theorem State.updateRow_account (r : Nat) (f : Row → Row) : (s.updateRow r f).account = s.account := rfl
@[simp] theorem State.updateRow_maint (r : Nat) (f : Row → Row) : (s.updateRow r f).maint = s.maint := rfl
@[simp] theorem State.updateRow_pending (r : Nat) (f : Row → Row) : (s.updateRow r f).pending = s.pending := rfl

/-! ### State.setMasks -/

@[simp] theorem State.setMasks_clock (m : Bool) : (s.setMasks m).clock = s.clock := rfl
@[simp] theorem State.setMasks_wall (m : Bool) : (s.setMasks m).wall = s.wall := rfl
@[simp] theorem State.setMasks_pins (m : Bool) : (s.setMasks m).pins = s.pins := rfl
@[simp] theorem State.setMasks_startup (m : Bool) : (s.setMasks m).startup = s.startup := rfl
@[simp] theorem State.setMasks_loader (m : Bool) : (s.setMasks m).loader = s.loader := rfl
@[simp] theorem State.setMasks_cfg (m : Bool) : (s.setMasks m).cfg = s.cfg := rfl
@[simp] theorem State.setMasks_cfgInForce (m : Bool) : (s.setMasks m).cfgInForce = s.cfgInForce := rfl
@[simp] theorem State.setMasks_rx (m : Bool) : (s.setMasks m).rx = s.rx := rfl
@[simp] theorem State.setMasks_rng (m : Bool) : (s.setMasks m).rng = s.rng := rfl
@[simp] theorem State.setMasks_quiet (m : Bool) : (s.setMasks m).quiet = s.quiet := rfl
@[simp] theorem State.setMasks_cau (m : Bool) : (s.setMasks m).cau = s.cau := rfl
@[simp] theorem State.setMasks_seen (m : Bool) : (s.setMasks m).seen = s.seen := rfl
@[simp] theorem State.setMasks_relayQ (m : Bool) : (s.setMasks m).relayQ = s.relayQ := rfl
@[simp] theorem State.setMasks_table (m : Bool) : (s.setMasks m).table = s.table := rfl
@[simp] theorem State.setMasks_lock (m : Bool) : (s.setMasks m).lock = s.lock := rfl
@[simp] theorem State.setMasks_sweepWaiting (m : Bool) : (s.setMasks m).sweepWaiting = s.sweepWaiting := rfl
@[simp] theorem State.setMasks_composer (m : Bool) : (s.setMasks m).composer = s.composer := rfl
@[simp] theorem State.setMasks_rows (m : Bool) :
    (s.setMasks m).rows = s.rows.mapIdx (fun r row => if r < s.cfg.n then { row with mask := m } else row) := rfl
@[simp] theorem State.setMasks_ctl (m : Bool) : (s.setMasks m).ctl = s.ctl := rfl
@[simp] theorem State.setMasks_engine (m : Bool) : (s.setMasks m).engine = s.engine := rfl
@[simp] theorem State.setMasks_monitor (m : Bool) : (s.setMasks m).monitor = s.monitor := rfl
@[simp] theorem State.setMasks_account (m : Bool) : (s.setMasks m).account = s.account := rfl
@[simp] theorem State.setMasks_maint (m : Bool) : (s.setMasks m).maint = s.maint := rfl
@[simp] theorem State.setMasks_pending (m : Bool) : (s.setMasks m).pending = s.pending := rfl

/-! ### State.setSeenState -/

@[simp] theorem State.setSeenState_clock (o q : Word16) (st : SeenState) : (s.setSeenState o q st).clock = s.clock := rfl
@[simp] theorem State.setSeenState_wall (o q : Word16) (st : SeenState) : (s.setSeenState o q st).wall = s.wall := rfl
@[simp] theorem State.setSeenState_pins (o q : Word16) (st : SeenState) : (s.setSeenState o q st).pins = s.pins := rfl
@[simp] theorem State.setSeenState_startup (o q : Word16) (st : SeenState) : (s.setSeenState o q st).startup = s.startup := rfl
@[simp] theorem State.setSeenState_loader (o q : Word16) (st : SeenState) : (s.setSeenState o q st).loader = s.loader := rfl
@[simp] theorem State.setSeenState_cfg (o q : Word16) (st : SeenState) : (s.setSeenState o q st).cfg = s.cfg := rfl
@[simp] theorem State.setSeenState_cfgInForce (o q : Word16) (st : SeenState) :
    (s.setSeenState o q st).cfgInForce = s.cfgInForce := rfl
@[simp] theorem State.setSeenState_rx (o q : Word16) (st : SeenState) : (s.setSeenState o q st).rx = s.rx := rfl
@[simp] theorem State.setSeenState_rng (o q : Word16) (st : SeenState) : (s.setSeenState o q st).rng = s.rng := rfl
@[simp] theorem State.setSeenState_quiet (o q : Word16) (st : SeenState) : (s.setSeenState o q st).quiet = s.quiet := rfl
@[simp] theorem State.setSeenState_cau (o q : Word16) (st : SeenState) : (s.setSeenState o q st).cau = s.cau := rfl
@[simp] theorem State.setSeenState_seen (o q : Word16) (st : SeenState) :
    (s.setSeenState o q st).seen = updateSeen o q (fun e => { e with state := st }) s.seen := rfl
@[simp] theorem State.setSeenState_relayQ (o q : Word16) (st : SeenState) : (s.setSeenState o q st).relayQ = s.relayQ := rfl
@[simp] theorem State.setSeenState_table (o q : Word16) (st : SeenState) : (s.setSeenState o q st).table = s.table := rfl
@[simp] theorem State.setSeenState_lock (o q : Word16) (st : SeenState) : (s.setSeenState o q st).lock = s.lock := rfl
@[simp] theorem State.setSeenState_sweepWaiting (o q : Word16) (st : SeenState) :
    (s.setSeenState o q st).sweepWaiting = s.sweepWaiting := rfl
@[simp] theorem State.setSeenState_composer (o q : Word16) (st : SeenState) : (s.setSeenState o q st).composer = s.composer := rfl
@[simp] theorem State.setSeenState_rows (o q : Word16) (st : SeenState) : (s.setSeenState o q st).rows = s.rows := rfl
@[simp] theorem State.setSeenState_ctl (o q : Word16) (st : SeenState) : (s.setSeenState o q st).ctl = s.ctl := rfl
@[simp] theorem State.setSeenState_engine (o q : Word16) (st : SeenState) : (s.setSeenState o q st).engine = s.engine := rfl
@[simp] theorem State.setSeenState_monitor (o q : Word16) (st : SeenState) : (s.setSeenState o q st).monitor = s.monitor := rfl
@[simp] theorem State.setSeenState_account (o q : Word16) (st : SeenState) : (s.setSeenState o q st).account = s.account := rfl
@[simp] theorem State.setSeenState_maint (o q : Word16) (st : SeenState) : (s.setSeenState o q st).maint = s.maint := rfl
@[simp] theorem State.setSeenState_pending (o q : Word16) (st : SeenState) : (s.setSeenState o q st).pending = s.pending := rfl

/-! ### State.removeRelay -/

@[simp] theorem State.removeRelay_clock (o q : Word16) (st : SeenState) : (s.removeRelay o q st).clock = s.clock := rfl
@[simp] theorem State.removeRelay_wall (o q : Word16) (st : SeenState) : (s.removeRelay o q st).wall = s.wall := rfl
@[simp] theorem State.removeRelay_pins (o q : Word16) (st : SeenState) : (s.removeRelay o q st).pins = s.pins := rfl
@[simp] theorem State.removeRelay_startup (o q : Word16) (st : SeenState) : (s.removeRelay o q st).startup = s.startup := rfl
@[simp] theorem State.removeRelay_loader (o q : Word16) (st : SeenState) : (s.removeRelay o q st).loader = s.loader := rfl
@[simp] theorem State.removeRelay_cfg (o q : Word16) (st : SeenState) : (s.removeRelay o q st).cfg = s.cfg := rfl
@[simp] theorem State.removeRelay_cfgInForce (o q : Word16) (st : SeenState) :
    (s.removeRelay o q st).cfgInForce = s.cfgInForce := rfl
@[simp] theorem State.removeRelay_rx (o q : Word16) (st : SeenState) : (s.removeRelay o q st).rx = s.rx := rfl
@[simp] theorem State.removeRelay_rng (o q : Word16) (st : SeenState) : (s.removeRelay o q st).rng = s.rng := rfl
@[simp] theorem State.removeRelay_quiet (o q : Word16) (st : SeenState) : (s.removeRelay o q st).quiet = s.quiet := rfl
@[simp] theorem State.removeRelay_cau (o q : Word16) (st : SeenState) : (s.removeRelay o q st).cau = s.cau := rfl
@[simp] theorem State.removeRelay_seen (o q : Word16) (st : SeenState) :
    (s.removeRelay o q st).seen = updateSeen o q (fun e => { e with state := st }) s.seen := rfl
@[simp] theorem State.removeRelay_relayQ (o q : Word16) (st : SeenState) :
    (s.removeRelay o q st).relayQ = s.relayQ.filter (fun e => !e.hasKey o q) := rfl
@[simp] theorem State.removeRelay_table (o q : Word16) (st : SeenState) : (s.removeRelay o q st).table = s.table := rfl
@[simp] theorem State.removeRelay_lock (o q : Word16) (st : SeenState) : (s.removeRelay o q st).lock = s.lock := rfl
@[simp] theorem State.removeRelay_sweepWaiting (o q : Word16) (st : SeenState) :
    (s.removeRelay o q st).sweepWaiting = s.sweepWaiting := rfl
@[simp] theorem State.removeRelay_composer (o q : Word16) (st : SeenState) : (s.removeRelay o q st).composer = s.composer := rfl
@[simp] theorem State.removeRelay_rows (o q : Word16) (st : SeenState) : (s.removeRelay o q st).rows = s.rows := rfl
@[simp] theorem State.removeRelay_ctl (o q : Word16) (st : SeenState) : (s.removeRelay o q st).ctl = s.ctl := rfl
@[simp] theorem State.removeRelay_engine (o q : Word16) (st : SeenState) : (s.removeRelay o q st).engine = s.engine := rfl
@[simp] theorem State.removeRelay_monitor (o q : Word16) (st : SeenState) : (s.removeRelay o q st).monitor = s.monitor := rfl
@[simp] theorem State.removeRelay_account (o q : Word16) (st : SeenState) : (s.removeRelay o q st).account = s.account := rfl
@[simp] theorem State.removeRelay_maint (o q : Word16) (st : SeenState) : (s.removeRelay o q st).maint = s.maint := rfl
@[simp] theorem State.removeRelay_pending (o q : Word16) (st : SeenState) : (s.removeRelay o q st).pending = s.pending := rfl

/-! ### State.setReception -/

@[simp] theorem State.setReception_clock (r : Reception) : (s.setReception r).clock = s.clock := rfl
@[simp] theorem State.setReception_wall (r : Reception) : (s.setReception r).wall = s.wall := rfl
@[simp] theorem State.setReception_pins (r : Reception) : (s.setReception r).pins = s.pins := rfl
@[simp] theorem State.setReception_startup (r : Reception) : (s.setReception r).startup = s.startup := rfl
@[simp] theorem State.setReception_loader (r : Reception) : (s.setReception r).loader = s.loader := rfl
@[simp] theorem State.setReception_cfg (r : Reception) : (s.setReception r).cfg = s.cfg := rfl
@[simp] theorem State.setReception_cfgInForce (r : Reception) : (s.setReception r).cfgInForce = s.cfgInForce := rfl
@[simp] theorem State.setReception_rx (r : Reception) : (s.setReception r).rx = { s.rx with reception := r } := rfl
@[simp] theorem State.setReception_rng (r : Reception) : (s.setReception r).rng = s.rng := rfl
@[simp] theorem State.setReception_quiet (r : Reception) : (s.setReception r).quiet = s.quiet := rfl
@[simp] theorem State.setReception_cau (r : Reception) : (s.setReception r).cau = s.cau := rfl
@[simp] theorem State.setReception_seen (r : Reception) : (s.setReception r).seen = s.seen := rfl
@[simp] theorem State.setReception_relayQ (r : Reception) : (s.setReception r).relayQ = s.relayQ := rfl
@[simp] theorem State.setReception_table (r : Reception) : (s.setReception r).table = s.table := rfl
@[simp] theorem State.setReception_lock (r : Reception) : (s.setReception r).lock = s.lock := rfl
@[simp] theorem State.setReception_sweepWaiting (r : Reception) : (s.setReception r).sweepWaiting = s.sweepWaiting := rfl
@[simp] theorem State.setReception_composer (r : Reception) : (s.setReception r).composer = s.composer := rfl
@[simp] theorem State.setReception_rows (r : Reception) : (s.setReception r).rows = s.rows := rfl
@[simp] theorem State.setReception_ctl (r : Reception) : (s.setReception r).ctl = s.ctl := rfl
@[simp] theorem State.setReception_engine (r : Reception) : (s.setReception r).engine = s.engine := rfl
@[simp] theorem State.setReception_monitor (r : Reception) : (s.setReception r).monitor = s.monitor := rfl
@[simp] theorem State.setReception_account (r : Reception) : (s.setReception r).account = s.account := rfl
@[simp] theorem State.setReception_maint (r : Reception) : (s.setReception r).maint = s.maint := rfl
@[simp] theorem State.setReception_pending (r : Reception) : (s.setReception r).pending = s.pending := rfl

/-! ### State.clearReception -/

@[simp] theorem State.clearReception_clock : (s.clearReception).clock = s.clock := rfl
@[simp] theorem State.clearReception_wall : (s.clearReception).wall = s.wall := rfl
@[simp] theorem State.clearReception_pins : (s.clearReception).pins = s.pins := rfl
@[simp] theorem State.clearReception_startup : (s.clearReception).startup = s.startup := rfl
@[simp] theorem State.clearReception_loader : (s.clearReception).loader = s.loader := rfl
@[simp] theorem State.clearReception_cfg : (s.clearReception).cfg = s.cfg := rfl
@[simp] theorem State.clearReception_cfgInForce : (s.clearReception).cfgInForce = s.cfgInForce := rfl
@[simp] theorem State.clearReception_rx :
    (s.clearReception).rx = { s.rx with reception := .none, firstSync := false, charError := false } := rfl
@[simp] theorem State.clearReception_rng : (s.clearReception).rng = s.rng := rfl
@[simp] theorem State.clearReception_quiet : (s.clearReception).quiet = s.quiet := rfl
@[simp] theorem State.clearReception_cau : (s.clearReception).cau = s.cau := rfl
@[simp] theorem State.clearReception_seen : (s.clearReception).seen = s.seen := rfl
@[simp] theorem State.clearReception_relayQ : (s.clearReception).relayQ = s.relayQ := rfl
@[simp] theorem State.clearReception_table : (s.clearReception).table = s.table := rfl
@[simp] theorem State.clearReception_lock : (s.clearReception).lock = s.lock := rfl
@[simp] theorem State.clearReception_sweepWaiting : (s.clearReception).sweepWaiting = s.sweepWaiting := rfl
@[simp] theorem State.clearReception_composer : (s.clearReception).composer = s.composer := rfl
@[simp] theorem State.clearReception_rows : (s.clearReception).rows = s.rows := rfl
@[simp] theorem State.clearReception_ctl : (s.clearReception).ctl = s.ctl := rfl
@[simp] theorem State.clearReception_engine : (s.clearReception).engine = s.engine := rfl
@[simp] theorem State.clearReception_monitor : (s.clearReception).monitor = s.monitor := rfl
@[simp] theorem State.clearReception_account : (s.clearReception).account = s.account := rfl
@[simp] theorem State.clearReception_maint : (s.clearReception).maint = s.maint := rfl
@[simp] theorem State.clearReception_pending : (s.clearReception).pending = s.pending := rfl

/-! ### State.setTable -/

@[simp] theorem State.setTable_clock (l : List DepEntry) : (s.setTable l).clock = s.clock := rfl
@[simp] theorem State.setTable_wall (l : List DepEntry) : (s.setTable l).wall = s.wall := rfl
@[simp] theorem State.setTable_pins (l : List DepEntry) : (s.setTable l).pins = s.pins := rfl
@[simp] theorem State.setTable_startup (l : List DepEntry) : (s.setTable l).startup = s.startup := rfl
@[simp] theorem State.setTable_loader (l : List DepEntry) : (s.setTable l).loader = s.loader := rfl
@[simp] theorem State.setTable_cfg (l : List DepEntry) : (s.setTable l).cfg = s.cfg := rfl
@[simp] theorem State.setTable_cfgInForce (l : List DepEntry) : (s.setTable l).cfgInForce = s.cfgInForce := rfl
@[simp] theorem State.setTable_rx (l : List DepEntry) : (s.setTable l).rx = s.rx := rfl
@[simp] theorem State.setTable_rng (l : List DepEntry) : (s.setTable l).rng = s.rng := rfl
@[simp] theorem State.setTable_quiet (l : List DepEntry) : (s.setTable l).quiet = s.quiet := rfl
@[simp] theorem State.setTable_cau (l : List DepEntry) : (s.setTable l).cau = s.cau := rfl
@[simp] theorem State.setTable_seen (l : List DepEntry) : (s.setTable l).seen = s.seen := rfl
@[simp] theorem State.setTable_relayQ (l : List DepEntry) : (s.setTable l).relayQ = s.relayQ := rfl
@[simp] theorem State.setTable_table (l : List DepEntry) : (s.setTable l).table = l := rfl
@[simp] theorem State.setTable_lock (l : List DepEntry) : (s.setTable l).lock = s.lock := rfl
@[simp] theorem State.setTable_sweepWaiting (l : List DepEntry) : (s.setTable l).sweepWaiting = s.sweepWaiting := rfl
@[simp] theorem State.setTable_composer (l : List DepEntry) :
    (s.setTable l).composer = { s.composer with recompose := s.composer.recompose || decide (noticeView s.cfg.n l ≠ noticeView s.cfg.n s.table) } := rfl
@[simp] theorem State.setTable_rows (l : List DepEntry) : (s.setTable l).rows = s.rows := rfl
@[simp] theorem State.setTable_ctl (l : List DepEntry) : (s.setTable l).ctl = s.ctl := rfl
@[simp] theorem State.setTable_engine (l : List DepEntry) : (s.setTable l).engine = s.engine := rfl
@[simp] theorem State.setTable_monitor (l : List DepEntry) : (s.setTable l).monitor = s.monitor := rfl
@[simp] theorem State.setTable_account (l : List DepEntry) : (s.setTable l).account = s.account := rfl
@[simp] theorem State.setTable_maint (l : List DepEntry) : (s.setTable l).maint = s.maint := rfl
@[simp] theorem State.setTable_pending (l : List DepEntry) : (s.setTable l).pending = s.pending := rfl

/-! ### advanceClock -/

@[simp] theorem advanceClock_clock : (advanceClock s).clock = s.clock + 1 := rfl
@[simp] theorem advanceClock_wall : (advanceClock s).wall = s.wall := rfl
@[simp] theorem advanceClock_pins : (advanceClock s).pins = s.pins := rfl
@[simp] theorem advanceClock_startup : (advanceClock s).startup = s.startup := rfl
@[simp] theorem advanceClock_loader : (advanceClock s).loader = s.loader := rfl
@[simp] theorem advanceClock_cfg : (advanceClock s).cfg = s.cfg := rfl
@[simp] theorem advanceClock_cfgInForce : (advanceClock s).cfgInForce = s.cfgInForce := rfl
@[simp] theorem advanceClock_rx : (advanceClock s).rx = s.rx := rfl
@[simp] theorem advanceClock_rng : (advanceClock s).rng = s.rng := rfl
@[simp] theorem advanceClock_quiet : (advanceClock s).quiet = s.quiet := rfl
@[simp] theorem advanceClock_cau : (advanceClock s).cau = s.cau := rfl
@[simp] theorem advanceClock_seen : (advanceClock s).seen = s.seen := rfl
@[simp] theorem advanceClock_relayQ : (advanceClock s).relayQ = s.relayQ := rfl
@[simp] theorem advanceClock_table : (advanceClock s).table = s.table := rfl
@[simp] theorem advanceClock_lock : (advanceClock s).lock = s.lock := rfl
@[simp] theorem advanceClock_sweepWaiting : (advanceClock s).sweepWaiting = s.sweepWaiting := rfl
@[simp] theorem advanceClock_composer : (advanceClock s).composer = s.composer := rfl
@[simp] theorem advanceClock_rows : (advanceClock s).rows = s.rows := rfl
@[simp] theorem advanceClock_ctl : (advanceClock s).ctl = s.ctl := rfl
@[simp] theorem advanceClock_engine : (advanceClock s).engine = s.engine := rfl
@[simp] theorem advanceClock_monitor : (advanceClock s).monitor = s.monitor := rfl
@[simp] theorem advanceClock_account : (advanceClock s).account = s.account := rfl
@[simp] theorem advanceClock_maint : (advanceClock s).maint = s.maint := rfl
@[simp] theorem advanceClock_pending : (advanceClock s).pending = s.pending := rfl

/-! ### startInterval -/

@[simp] theorem startInterval_clock : (startInterval s).clock = s.clock := rfl
@[simp] theorem startInterval_wall : (startInterval s).wall = s.wall := rfl
@[simp] theorem startInterval_pins : (startInterval s).pins = s.pins := rfl
@[simp] theorem startInterval_startup : (startInterval s).startup = s.startup := rfl
@[simp] theorem startInterval_loader : (startInterval s).loader = s.loader := rfl
@[simp] theorem startInterval_cfg : (startInterval s).cfg = s.cfg := rfl
@[simp] theorem startInterval_cfgInForce : (startInterval s).cfgInForce = s.cfgInForce := rfl
@[simp] theorem startInterval_rx : (startInterval s).rx = s.rx := rfl
@[simp] theorem startInterval_rng : (startInterval s).rng = s.rng := rfl
@[simp] theorem startInterval_quiet : (startInterval s).quiet = s.quiet := rfl
@[simp] theorem startInterval_cau : (startInterval s).cau = s.cau := rfl
@[simp] theorem startInterval_seen : (startInterval s).seen = s.seen := rfl
@[simp] theorem startInterval_relayQ : (startInterval s).relayQ = s.relayQ := rfl
@[simp] theorem startInterval_table : (startInterval s).table = s.table := rfl
@[simp] theorem startInterval_lock : (startInterval s).lock = s.lock := rfl
@[simp] theorem startInterval_sweepWaiting : (startInterval s).sweepWaiting = s.sweepWaiting := rfl
@[simp] theorem startInterval_composer : (startInterval s).composer = s.composer := rfl
@[simp] theorem startInterval_rows : (startInterval s).rows = s.rows := rfl
@[simp] theorem startInterval_ctl : (startInterval s).ctl = { s.ctl with interval := some (intervalTicks s.cfg) } := rfl
@[simp] theorem startInterval_engine : (startInterval s).engine = s.engine := rfl
@[simp] theorem startInterval_monitor : (startInterval s).monitor = s.monitor := rfl
@[simp] theorem startInterval_account : (startInterval s).account = s.account := rfl
@[simp] theorem startInterval_maint : (startInterval s).maint = s.maint := rfl
@[simp] theorem startInterval_pending : (startInterval s).pending = s.pending := rfl

/-! ### enterHeld -/

@[simp] theorem enterHeld_clock : (enterHeld s).clock = s.clock := rfl
@[simp] theorem enterHeld_wall : (enterHeld s).wall = s.wall := rfl
@[simp] theorem enterHeld_pins : (enterHeld s).pins = s.pins := rfl
@[simp] theorem enterHeld_startup : (enterHeld s).startup = s.startup := rfl
@[simp] theorem enterHeld_loader : (enterHeld s).loader = s.loader := rfl
@[simp] theorem enterHeld_cfg : (enterHeld s).cfg = s.cfg := rfl
@[simp] theorem enterHeld_cfgInForce : (enterHeld s).cfgInForce = s.cfgInForce := rfl
@[simp] theorem enterHeld_rx : (enterHeld s).rx = s.rx := rfl
@[simp] theorem enterHeld_rng : (enterHeld s).rng = s.rng := rfl
@[simp] theorem enterHeld_quiet : (enterHeld s).quiet = s.quiet := rfl
@[simp] theorem enterHeld_cau : (enterHeld s).cau = s.cau := rfl
@[simp] theorem enterHeld_seen : (enterHeld s).seen = s.seen := rfl
@[simp] theorem enterHeld_relayQ : (enterHeld s).relayQ = s.relayQ := rfl
@[simp] theorem enterHeld_table : (enterHeld s).table = s.table := rfl
@[simp] theorem enterHeld_lock : (enterHeld s).lock = s.lock := rfl
@[simp] theorem enterHeld_sweepWaiting : (enterHeld s).sweepWaiting = s.sweepWaiting := rfl
@[simp] theorem enterHeld_composer : (enterHeld s).composer = s.composer := rfl
@[simp] theorem enterHeld_rows : (enterHeld s).rows = s.rows := rfl
@[simp] theorem enterHeld_ctl : (enterHeld s).ctl = { s.ctl with state := .held, retry := some 480 } := rfl
@[simp] theorem enterHeld_engine : (enterHeld s).engine = s.engine := rfl
@[simp] theorem enterHeld_monitor : (enterHeld s).monitor = s.monitor := rfl
@[simp] theorem enterHeld_account : (enterHeld s).account = s.account := rfl
@[simp] theorem enterHeld_maint : (enterHeld s).maint = s.maint := rfl
@[simp] theorem enterHeld_pending : (enterHeld s).pending = s.pending := rfl

/-! ### beginPeriod -/

@[simp] theorem beginPeriod_clock : (beginPeriod s).clock = s.clock := rfl
@[simp] theorem beginPeriod_wall : (beginPeriod s).wall = s.wall := rfl
@[simp] theorem beginPeriod_pins : (beginPeriod s).pins = s.pins := rfl
@[simp] theorem beginPeriod_startup : (beginPeriod s).startup = s.startup := rfl
@[simp] theorem beginPeriod_loader : (beginPeriod s).loader = s.loader := rfl
@[simp] theorem beginPeriod_cfg : (beginPeriod s).cfg = s.cfg := rfl
@[simp] theorem beginPeriod_cfgInForce : (beginPeriod s).cfgInForce = s.cfgInForce := rfl
@[simp] theorem beginPeriod_rx : (beginPeriod s).rx = { s.rx with window := ⟨true, s.clock, s.account.stage, true⟩ } := rfl
@[simp] theorem beginPeriod_rng : (beginPeriod s).rng = s.rng := rfl
@[simp] theorem beginPeriod_quiet : (beginPeriod s).quiet = s.quiet := rfl
@[simp] theorem beginPeriod_cau : (beginPeriod s).cau = s.cau := rfl
@[simp] theorem beginPeriod_seen : (beginPeriod s).seen = s.seen := rfl
@[simp] theorem beginPeriod_relayQ : (beginPeriod s).relayQ = s.relayQ := rfl
@[simp] theorem beginPeriod_table : (beginPeriod s).table = s.table := rfl
@[simp] theorem beginPeriod_lock : (beginPeriod s).lock = s.lock := rfl
@[simp] theorem beginPeriod_sweepWaiting : (beginPeriod s).sweepWaiting = s.sweepWaiting := rfl
@[simp] theorem beginPeriod_composer : (beginPeriod s).composer = s.composer := rfl
@[simp] theorem beginPeriod_rows : (beginPeriod s).rows = s.rows := rfl
@[simp] theorem beginPeriod_ctl : (beginPeriod s).ctl = s.ctl := rfl
@[simp] theorem beginPeriod_engine : (beginPeriod s).engine = s.engine := rfl
@[simp] theorem beginPeriod_monitor : (beginPeriod s).monitor = s.monitor := rfl
@[simp] theorem beginPeriod_account : (beginPeriod s).account = s.account := rfl
@[simp] theorem beginPeriod_maint : (beginPeriod s).maint = s.maint := rfl
@[simp] theorem beginPeriod_pending : (beginPeriod s).pending = s.pending := rfl

/-! ### closeWindow -/

@[simp] theorem closeWindow_clock : (closeWindow s).clock = s.clock := rfl
@[simp] theorem closeWindow_wall : (closeWindow s).wall = s.wall := rfl
@[simp] theorem closeWindow_pins : (closeWindow s).pins = s.pins := rfl
@[simp] theorem closeWindow_startup : (closeWindow s).startup = s.startup := rfl
@[simp] theorem closeWindow_loader : (closeWindow s).loader = s.loader := rfl
@[simp] theorem closeWindow_cfg : (closeWindow s).cfg = s.cfg := rfl
@[simp] theorem closeWindow_cfgInForce : (closeWindow s).cfgInForce = s.cfgInForce := rfl
@[simp] theorem closeWindow_rx : (closeWindow s).rx = { s.rx with window := { s.rx.window with on := false } } := rfl
@[simp] theorem closeWindow_rng : (closeWindow s).rng = s.rng := rfl
@[simp] theorem closeWindow_quiet : (closeWindow s).quiet = s.quiet := rfl
@[simp] theorem closeWindow_cau : (closeWindow s).cau = s.cau := rfl
@[simp] theorem closeWindow_seen : (closeWindow s).seen = s.seen := rfl
@[simp] theorem closeWindow_relayQ : (closeWindow s).relayQ = s.relayQ := rfl
@[simp] theorem closeWindow_table : (closeWindow s).table = s.table := rfl
@[simp] theorem closeWindow_lock : (closeWindow s).lock = s.lock := rfl
@[simp] theorem closeWindow_sweepWaiting : (closeWindow s).sweepWaiting = s.sweepWaiting := rfl
@[simp] theorem closeWindow_composer : (closeWindow s).composer = s.composer := rfl
@[simp] theorem closeWindow_rows : (closeWindow s).rows = s.rows := rfl
@[simp] theorem closeWindow_ctl : (closeWindow s).ctl = s.ctl := rfl
@[simp] theorem closeWindow_engine : (closeWindow s).engine = s.engine := rfl
@[simp] theorem closeWindow_monitor : (closeWindow s).monitor = s.monitor := rfl
@[simp] theorem closeWindow_account : (closeWindow s).account = s.account := rfl
@[simp] theorem closeWindow_maint : (closeWindow s).maint = s.maint := rfl
@[simp] theorem closeWindow_pending : (closeWindow s).pending = s.pending := rfl

/-! ### withE -/

@[simp] theorem withE_clock (e : Nat) : (withE s e).clock = s.clock := rfl
@[simp] theorem withE_wall (e : Nat) : (withE s e).wall = s.wall := rfl
@[simp] theorem withE_pins (e : Nat) : (withE s e).pins = s.pins := rfl
@[simp] theorem withE_startup (e : Nat) : (withE s e).startup = s.startup := rfl
@[simp] theorem withE_loader (e : Nat) : (withE s e).loader = s.loader := rfl
@[simp] theorem withE_cfg (e : Nat) : (withE s e).cfg = s.cfg := rfl
@[simp] theorem withE_cfgInForce (e : Nat) : (withE s e).cfgInForce = s.cfgInForce := rfl
@[simp] theorem withE_rx (e : Nat) : (withE s e).rx = s.rx := rfl
@[simp] theorem withE_rng (e : Nat) : (withE s e).rng = s.rng := rfl
@[simp] theorem withE_quiet (e : Nat) : (withE s e).quiet = s.quiet := rfl
@[simp] theorem withE_cau (e : Nat) : (withE s e).cau = s.cau := rfl
@[simp] theorem withE_seen (e : Nat) : (withE s e).seen = s.seen := rfl
@[simp] theorem withE_relayQ (e : Nat) : (withE s e).relayQ = s.relayQ := rfl
@[simp] theorem withE_table (e : Nat) : (withE s e).table = s.table := rfl
@[simp] theorem withE_lock (e : Nat) : (withE s e).lock = s.lock := rfl
@[simp] theorem withE_sweepWaiting (e : Nat) : (withE s e).sweepWaiting = s.sweepWaiting := rfl
@[simp] theorem withE_composer (e : Nat) : (withE s e).composer = s.composer := rfl
@[simp] theorem withE_rows (e : Nat) : (withE s e).rows = s.rows := rfl
@[simp] theorem withE_ctl (e : Nat) : (withE s e).ctl = s.ctl := rfl
@[simp] theorem withE_engine (e : Nat) : (withE s e).engine = s.engine := rfl
@[simp] theorem withE_monitor (e : Nat) : (withE s e).monitor = s.monitor := rfl
@[simp] theorem withE_account (e : Nat) : (withE s e).account = { s.account with e := e } := rfl
@[simp] theorem withE_maint (e : Nat) : (withE s e).maint = s.maint := rfl
@[simp] theorem withE_pending (e : Nat) : (withE s e).pending = s.pending := rfl

/-! ### State.onRefresh and State.freeBuffer -/

@[simp] theorem State.onRefresh_clock (x : Refresh) (f : Row → Row) : (s.onRefresh x f).clock = s.clock := by
  cases x <;> rfl
@[simp] theorem State.onRefresh_wall (x : Refresh) (f : Row → Row) : (s.onRefresh x f).wall = s.wall := by
  cases x <;> rfl
@[simp] theorem State.onRefresh_pins (x : Refresh) (f : Row → Row) : (s.onRefresh x f).pins = s.pins := by
  cases x <;> rfl
@[simp] theorem State.onRefresh_startup (x : Refresh) (f : Row → Row) : (s.onRefresh x f).startup = s.startup := by
  cases x <;> rfl
@[simp] theorem State.onRefresh_loader (x : Refresh) (f : Row → Row) : (s.onRefresh x f).loader = s.loader := by
  cases x <;> rfl
@[simp] theorem State.onRefresh_cfg (x : Refresh) (f : Row → Row) : (s.onRefresh x f).cfg = s.cfg := by
  cases x <;> rfl
@[simp] theorem State.onRefresh_cfgInForce (x : Refresh) (f : Row → Row) : (s.onRefresh x f).cfgInForce = s.cfgInForce := by
  cases x <;> rfl
@[simp] theorem State.onRefresh_rx (x : Refresh) (f : Row → Row) : (s.onRefresh x f).rx = s.rx := by
  cases x <;> rfl
@[simp] theorem State.onRefresh_rng (x : Refresh) (f : Row → Row) : (s.onRefresh x f).rng = s.rng := by
  cases x <;> rfl
@[simp] theorem State.onRefresh_quiet (x : Refresh) (f : Row → Row) : (s.onRefresh x f).quiet = s.quiet := by
  cases x <;> rfl
@[simp] theorem State.onRefresh_cau (x : Refresh) (f : Row → Row) : (s.onRefresh x f).cau = s.cau := by
  cases x <;> rfl
@[simp] theorem State.onRefresh_seen (x : Refresh) (f : Row → Row) : (s.onRefresh x f).seen = s.seen := by
  cases x <;> rfl
@[simp] theorem State.onRefresh_relayQ (x : Refresh) (f : Row → Row) : (s.onRefresh x f).relayQ = s.relayQ := by
  cases x <;> rfl
@[simp] theorem State.onRefresh_table (x : Refresh) (f : Row → Row) : (s.onRefresh x f).table = s.table := by
  cases x <;> rfl
@[simp] theorem State.onRefresh_lock (x : Refresh) (f : Row → Row) : (s.onRefresh x f).lock = s.lock := by
  cases x <;> rfl
@[simp] theorem State.onRefresh_sweepWaiting (x : Refresh) (f : Row → Row) : (s.onRefresh x f).sweepWaiting = s.sweepWaiting := by
  cases x <;> rfl
@[simp] theorem State.onRefresh_composer (x : Refresh) (f : Row → Row) : (s.onRefresh x f).composer = s.composer := by
  cases x <;> rfl
@[simp] theorem State.onRefresh_ctl (x : Refresh) (f : Row → Row) : (s.onRefresh x f).ctl = s.ctl := by
  cases x <;> rfl
@[simp] theorem State.onRefresh_engine (x : Refresh) (f : Row → Row) : (s.onRefresh x f).engine = s.engine := by
  cases x <;> rfl
@[simp] theorem State.onRefresh_monitor (x : Refresh) (f : Row → Row) : (s.onRefresh x f).monitor = s.monitor := by
  cases x <;> rfl
@[simp] theorem State.onRefresh_account (x : Refresh) (f : Row → Row) : (s.onRefresh x f).account = s.account := by
  cases x <;> rfl
@[simp] theorem State.onRefresh_maint (x : Refresh) (f : Row → Row) : (s.onRefresh x f).maint = s.maint := by
  cases x <;> rfl
@[simp] theorem State.onRefresh_pending (x : Refresh) (f : Row → Row) : (s.onRefresh x f).pending = s.pending := by
  cases x <;> rfl
@[simp] theorem State.freeBuffer_clock (id : BufId) : (s.freeBuffer id).clock = s.clock := by
  cases id <;> rfl
@[simp] theorem State.freeBuffer_wall (id : BufId) : (s.freeBuffer id).wall = s.wall := by
  cases id <;> rfl
@[simp] theorem State.freeBuffer_pins (id : BufId) : (s.freeBuffer id).pins = s.pins := by
  cases id <;> rfl
@[simp] theorem State.freeBuffer_startup (id : BufId) : (s.freeBuffer id).startup = s.startup := by
  cases id <;> rfl
@[simp] theorem State.freeBuffer_loader (id : BufId) : (s.freeBuffer id).loader = s.loader := by
  cases id <;> rfl
@[simp] theorem State.freeBuffer_cfg (id : BufId) : (s.freeBuffer id).cfg = s.cfg := by
  cases id <;> rfl
@[simp] theorem State.freeBuffer_cfgInForce (id : BufId) : (s.freeBuffer id).cfgInForce = s.cfgInForce := by
  cases id <;> rfl
@[simp] theorem State.freeBuffer_rng (id : BufId) : (s.freeBuffer id).rng = s.rng := by
  cases id <;> rfl
@[simp] theorem State.freeBuffer_quiet (id : BufId) : (s.freeBuffer id).quiet = s.quiet := by
  cases id <;> rfl
@[simp] theorem State.freeBuffer_cau (id : BufId) : (s.freeBuffer id).cau = s.cau := by
  cases id <;> rfl
@[simp] theorem State.freeBuffer_seen (id : BufId) : (s.freeBuffer id).seen = s.seen := by
  cases id <;> rfl
@[simp] theorem State.freeBuffer_relayQ (id : BufId) : (s.freeBuffer id).relayQ = s.relayQ := by
  cases id <;> rfl
@[simp] theorem State.freeBuffer_table (id : BufId) : (s.freeBuffer id).table = s.table := by
  cases id <;> rfl
@[simp] theorem State.freeBuffer_lock (id : BufId) : (s.freeBuffer id).lock = s.lock := by
  cases id <;> rfl
@[simp] theorem State.freeBuffer_sweepWaiting (id : BufId) : (s.freeBuffer id).sweepWaiting = s.sweepWaiting := by
  cases id <;> rfl
@[simp] theorem State.freeBuffer_composer (id : BufId) : (s.freeBuffer id).composer = s.composer := by
  cases id <;> rfl
@[simp] theorem State.freeBuffer_rows (id : BufId) : (s.freeBuffer id).rows = s.rows := by
  cases id <;> rfl
@[simp] theorem State.freeBuffer_ctl (id : BufId) : (s.freeBuffer id).ctl = s.ctl := by
  cases id <;> rfl
@[simp] theorem State.freeBuffer_engine (id : BufId) : (s.freeBuffer id).engine = s.engine := by
  cases id <;> rfl
@[simp] theorem State.freeBuffer_monitor (id : BufId) : (s.freeBuffer id).monitor = s.monitor := by
  cases id <;> rfl
@[simp] theorem State.freeBuffer_account (id : BufId) : (s.freeBuffer id).account = s.account := by
  cases id <;> rfl
@[simp] theorem State.freeBuffer_maint (id : BufId) : (s.freeBuffer id).maint = s.maint := by
  cases id <;> rfl
@[simp] theorem State.freeBuffer_pending (id : BufId) : (s.freeBuffer id).pending = s.pending := by
  cases id <;> rfl

/-! ### The loader and the two-wire bus -/

@[simp] theorem Loader.ending_phase (a : MemoryAnswer) (l : Loader) : (l.ending a).phase = l.phase := by
  unfold Loader.ending; split <;> simp_all
@[simp] theorem Loader.ending_pulses (a : MemoryAnswer) (l : Loader) : (l.ending a).pulses = l.pulses := by
  unfold Loader.ending; split <;> rfl
@[simp] theorem Loader.ending_outcome (a : MemoryAnswer) (l : Loader) : (l.ending a).outcome = l.outcome := by
  unfold Loader.ending; split <;> rfl
@[simp] theorem Loader.ending_nacks (a : MemoryAnswer) (l : Loader) : (l.ending a).nacks = l.nacks := by
  unfold Loader.ending; split <;> rfl
@[simp] theorem Loader.begun_nacks (sdaLow nacks : Nat) : (Loader.begun sdaLow nacks).nacks = nacks := by
  unfold Loader.begun; split <;> (try split) <;> rfl
@[simp] theorem Loader.begun_outcome (sdaLow nacks : Nat) : (Loader.begun sdaLow nacks).outcome = none := by
  unfold Loader.begun; split <;> (try split) <;> rfl
@[simp] theorem Loader.retried_pulses (l : Loader) : l.retried.pulses = l.pulses := by
  unfold Loader.retried; split <;> (try split) <;> rfl
@[simp] theorem Loader.retried_outcome (l : Loader) : l.retried.outcome = l.outcome := by
  unfold Loader.retried; split <;> (try split) <;> rfl
@[simp] theorem dataRead_length (r : List Byte) : (dataRead r).length = r.length := by
  induction r with
  | nil => rfl
  | cons b rest ih => cases rest with
    | nil => rfl
    | cons => simpa [dataRead] using ih

/-! ### A character within a frame -/

/-- The last character of a frame changes the receiver alone. -/
theorem State.joinCharacter_eq (target : RxTarget) (ch : Byte) (err : Bool) :
    s.joinCharacter target ch err = { s with rx := (s.joinCharacter target ch err).rx } := by
  rcases target with id | _
  · cases id <;> rfl
  · rfl

end Sys2Proof.Machine
end

