-- ==== Sys2Proof/Laws/Frames.lean ====
section
/-! SUPPORT. The bookkeeping of frames as lists: what the updates of the seen table do to its agreement with the keys of the
relay queue and of the accepted frames, and what the updates of the receive buffers do to those keys. -/

namespace Sys2Proof.Machine

/-- The key of a frame: its origin and its sequence. -/
abbrev FrameKey : Type := Word16 × Word16

theorem SeenEntry.hasKey_iff {o q : Word16} {e : SeenEntry} : e.hasKey o q = true ↔ e.key = (o, q) := by
  simp [SeenEntry.hasKey, SeenEntry.key]

theorem RelayEntry.hasKey_iff {o q : Word16} {e : RelayEntry} : e.hasKey o q = true ↔ e.key = (o, q) := by
  simp [RelayEntry.hasKey, RelayEntry.key]

theorem findSeen_none {o q : Word16} {l : List SeenEntry} (h : findSeen o q l = none) : (o, q) ∉ l.map (·.key) := by
  simp only [findSeen, List.find?_eq_none, SeenEntry.hasKey_iff] at h
  simpa using h

theorem findSeen_some {o q : Word16} {l : List SeenEntry} {e : SeenEntry} (h : findSeen o q l = some e) :
    e ∈ l ∧ e.key = (o, q) :=
  ⟨List.mem_of_find?_eq_some h, SeenEntry.hasKey_iff.1 (List.find?_some h)⟩

/-! ### The seen table against the keys of the relay queue and of the accepted frames -/

/-- The seen table agrees with the keys `rk` of the relays that wait and the keys `hk` of the frames whose dispatch waits. -/
structure SeenAgrees (seen : List SeenEntry) (rk hk : List FrameKey) : Prop where
  size : seen.length ≤ 64
  keys : (seen.map (·.key)).Nodup
  copies : ∀ e ∈ seen, e.copies ≤ 15
  relays : rk.Nodup
  waiting : ∀ e ∈ seen, (e.state = .waiting ↔ e.key ∈ rk)
  relayed : ∀ k ∈ rk, k ∈ seen.map (·.key)
  held : hk.Nodup
  pending : ∀ e ∈ seen, (e.dispatchPending = true ↔ e.key ∈ hk)
  accepted : ∀ k ∈ hk, k ∈ seen.map (·.key)
  heard : ∀ e ∈ seen, e.dispatchPending = true → e.state ≠ .waiting ∧ e.state ≠ .damaged

@[simp] theorem updateSeen_keys (o q : Word16) (f : SeenEntry → SeenEntry) (hf : ∀ e, (f e).key = e.key)
    (l : List SeenEntry) : (updateSeen o q f l).map (·.key) = l.map (·.key) := by
  simp only [updateSeen, List.map_map]
  refine List.map_congr_left fun e _ => ?_
  simp only [Function.comp]
  split
  · exact hf e
  · rfl

theorem updateSeen_length (o q : Word16) (f : SeenEntry → SeenEntry) (l : List SeenEntry) :
    (updateSeen o q f l).length = l.length := by simp [updateSeen]

/-- An entry of the updated table is the entry of the key updated, or an entry of another key as it was. -/
theorem mem_updateSeen {o q : Word16} {f : SeenEntry → SeenEntry} {l : List SeenEntry} {e : SeenEntry}
    (h : e ∈ updateSeen o q f l) :
    (∃ x ∈ l, x.key = (o, q) ∧ e = f x) ∨ (e ∈ l ∧ e.key ≠ (o, q)) := by
  obtain ⟨x, hx, rfl⟩ := List.mem_map.1 h
  by_cases hk : x.hasKey o q = true
  · rw [if_pos hk]
    exact .inl ⟨x, hx, SeenEntry.hasKey_iff.1 hk, rfl⟩
  · rw [if_neg hk]
    exact .inr ⟨hx, fun he => hk (SeenEntry.hasKey_iff.2 he)⟩

/-- One lemma for every update of the entry of a key: the keys that wait may change at that key only, and the updated entry
agrees with them. -/
theorem SeenAgrees.update {seen : List SeenEntry} {rk hk rk' hk' : List FrameKey} (h : SeenAgrees seen rk hk) {o q : Word16}
    {f : SeenEntry → SeenEntry} (hf : ∀ e, (f e).key = e.key) (hr : rk'.Nodup) (hh : hk'.Nodup)
    (hrk : ∀ k, k ≠ (o, q) → (k ∈ rk' ↔ k ∈ rk)) (hhk : ∀ k, k ≠ (o, q) → (k ∈ hk' ↔ k ∈ hk))
    (hro : (o, q) ∈ rk' → (o, q) ∈ seen.map (·.key)) (hho : (o, q) ∈ hk' → (o, q) ∈ seen.map (·.key))
    (he : ∀ x ∈ seen, x.key = (o, q) → (f x).copies ≤ 15 ∧ ((f x).state = .waiting ↔ (o, q) ∈ rk') ∧
      ((f x).dispatchPending = true ↔ (o, q) ∈ hk') ∧
      ((f x).dispatchPending = true → (f x).state ≠ .waiting ∧ (f x).state ≠ .damaged)) :
    SeenAgrees (updateSeen o q f seen) rk' hk' where
  size := by rw [updateSeen_length]; exact h.size
  keys := by rw [updateSeen_keys o q f hf]; exact h.keys
  copies := fun e hm => by
    rcases mem_updateSeen hm with ⟨x, hx, hk, rfl⟩ | ⟨hx, _⟩
    · exact (he x hx hk).1
    · exact h.copies e hx
  relays := hr
  waiting := fun e hm => by
    rcases mem_updateSeen hm with ⟨x, hx, hk, rfl⟩ | ⟨hx, hk⟩
    · rw [hf, hk]; exact (he x hx hk).2.1
    · rw [hrk _ hk]; exact h.waiting e hx
  relayed := fun k hk => by
    rw [updateSeen_keys o q f hf]
    by_cases hko : k = (o, q)
    · rw [hko] at hk ⊢; exact hro hk
    · exact h.relayed k ((hrk k hko).1 hk)
  held := hh
  pending := fun e hm => by
    rcases mem_updateSeen hm with ⟨x, hx, hk, rfl⟩ | ⟨hx, hk⟩
    · rw [hf, hk]; exact (he x hx hk).2.2.1
    · rw [hhk _ hk]; exact h.pending e hx
  accepted := fun k hk => by
    rw [updateSeen_keys o q f hf]
    by_cases hko : k = (o, q)
    · rw [hko] at hk ⊢; exact hho hk
    · exact h.accepted k ((hhk k hko).1 hk)
  heard := fun e hm => by
    rcases mem_updateSeen hm with ⟨x, hx, hk, rfl⟩ | ⟨hx, _⟩
    · exact (he x hx hk).2.2.2
    · exact h.heard e hx

theorem SeenAgrees.of_relay {seen : List SeenEntry} {rk hk : List FrameKey} (h : SeenAgrees seen rk hk) {e : SeenEntry}
    (he : e ∈ seen) : e.state = .waiting → e.dispatchPending = false := by
  intro hw
  by_contra hp
  exact (h.heard e he (by simpa using hp)).1 hw

/-- A key leaves the relay queue, its entry in a state that neither waits nor is DAMAGED (R41). -/
theorem SeenAgrees.leave {seen : List SeenEntry} {rk hk : List FrameKey} (h : SeenAgrees seen rk hk) (o q : Word16)
    {st : SeenState} (hw : st ≠ .waiting) (hd : st ≠ .damaged) :
    SeenAgrees (updateSeen o q (fun e => { e with state := st }) seen) (rk.filter (· ≠ (o, q))) hk :=
  h.update (fun _ => rfl) (h.relays.filter _) h.held (fun k hk => by simp [hk]) (fun _ _ => .rfl) (by simp)
    (fun hm => h.accepted _ hm)
    (fun x hx hk => ⟨h.copies x hx, by simp [hw], hk ▸ h.pending x hx, fun _ => ⟨hw, hd⟩⟩)

/-- An entry of a key that is not queued changes to a state that neither waits nor is DAMAGED. -/
theorem SeenAgrees.mark {seen : List SeenEntry} {rk hk : List FrameKey} (h : SeenAgrees seen rk hk) (o q : Word16)
    {st : SeenState} (hw : st ≠ .waiting) (hd : st ≠ .damaged) (hn : (o, q) ∉ rk) :
    SeenAgrees (updateSeen o q (fun e => { e with state := st }) seen) rk hk := by
  have := h.leave o q hw hd
  have hne : ∀ k ∈ rk, k ≠ (o, q) := fun k hm he => hn (he ▸ hm)
  rwa [List.filter_eq_self.2 (by simpa using hne)] at this

/-- A key joins the relay queue (R42). -/
theorem SeenAgrees.join {seen : List SeenEntry} {rk hk rk' : List FrameKey} (h : SeenAgrees seen rk hk) (o q : Word16)
    (hs : (o, q) ∈ seen.map (·.key)) (hn : (o, q) ∉ rk) (hh : (o, q) ∉ hk) (hp : rk'.Perm ((o, q) :: rk)) :
    SeenAgrees (updateSeen o q (fun e => { e with state := .waiting }) seen) rk' hk :=
  h.update (fun _ => rfl) (hp.nodup_iff.2 (List.nodup_cons.2 ⟨hn, h.relays⟩)) h.held
    (fun k hk => by rw [hp.mem_iff]; simp [hk]) (fun _ _ => .rfl) (fun _ => hs) (fun hm => h.accepted _ hm)
    (fun x hx hk => ⟨h.copies x hx, by simp [hp.mem_iff], hk ▸ h.pending x hx,
      fun hpd => absurd ((h.pending x hx).1 hpd) (hk ▸ hh)⟩)

/-- The copies count of a key (R38). -/
theorem SeenAgrees.copied {seen : List SeenEntry} {rk hk : List FrameKey} (h : SeenAgrees seen rk hk) (o q : Word16)
    {n : Nat} (hn : n ≤ 15) : SeenAgrees (updateSeen o q (fun e => { e with copies := n }) seen) rk hk :=
  h.update (fun _ => rfl) h.relays h.held (fun _ _ => .rfl) (fun _ _ => .rfl) (fun hm => h.relayed _ hm)
    (fun hm => h.accepted _ hm)
    (fun x hx hk => ⟨hn, hk ▸ h.waiting x hx, hk ▸ h.pending x hx, h.heard x hx⟩)

/-- A key's dispatch is no longer pending (R42). -/
theorem SeenAgrees.dispatched {seen : List SeenEntry} {rk hk hk' : List FrameKey} (h : SeenAgrees seen rk hk) (o q : Word16)
    (hh : hk'.Nodup) (hn : (o, q) ∉ hk') (hhk : ∀ k, k ≠ (o, q) → (k ∈ hk' ↔ k ∈ hk)) :
    SeenAgrees (updateSeen o q (fun e => { e with dispatchPending := false }) seen) rk hk' :=
  h.update (fun _ => rfl) h.relays hh (fun _ _ => .rfl) hhk (fun hm => h.relayed _ hm) (fun hm => absurd hm hn)
    (fun x hx hk => ⟨h.copies x hx, hk ▸ h.waiting x hx, by simp [hn], by simp⟩)

/-- The entries that may not be evicted are no more than the keys that wait. -/
theorem SeenAgrees.pinned {seen : List SeenEntry} {rk hk : List FrameKey} (h : SeenAgrees seen rk hk) :
    (seen.filter (fun e => !e.evictable)).length ≤ rk.length + hk.length := by
  have hsub : ∀ k ∈ (seen.filter (fun e => !e.evictable)).map (·.key), k ∈ rk ++ hk := by
    intro k hk'
    obtain ⟨e, he, rfl⟩ := List.mem_map.1 hk'
    obtain ⟨hm, hp⟩ := List.mem_filter.1 he
    simp only [SeenEntry.evictable, ne_eq, Bool.not_and, decide_not, Bool.not_not, Bool.or_eq_true, decide_eq_true_eq] at hp
    rw [List.mem_append]
    exact hp.imp (h.waiting e hm).1 (h.pending e hm).1
  have hn : ((seen.filter (fun e => !e.evictable)).map (·.key)).Nodup := (List.filter_sublist.map _).nodup h.keys
  have := (List.subperm_of_subset hn hsub).length_le
  simpa using this

/-- Entries leave the table that neither wait nor are pending. -/
theorem SeenAgrees.sublist {seen l : List SeenEntry} {rk hk : List FrameKey} (h : SeenAgrees seen rk hk)
    (hs : l.Sublist seen) (hr : ∀ k ∈ rk, k ∈ l.map (·.key)) (hh : ∀ k ∈ hk, k ∈ l.map (·.key)) : SeenAgrees l rk hk where
  size := hs.length_le.trans h.size
  keys := (hs.map _).nodup h.keys
  copies := fun e he => h.copies e (hs.subset he)
  relays := h.relays
  waiting := fun e he => h.waiting e (hs.subset he)
  relayed := hr
  held := h.held
  pending := fun e he => h.pending e (hs.subset he)
  accepted := hh
  heard := fun e he => h.heard e (hs.subset he)

theorem SeenAgrees.keepsWaiting {seen l : List SeenEntry} {rk hk : List FrameKey} (h : SeenAgrees seen rk hk)
    (hl : ∀ e ∈ seen, e.state = .waiting ∨ e.dispatchPending = true → e ∈ l) :
    (∀ k ∈ rk, k ∈ l.map (·.key)) ∧ ∀ k ∈ hk, k ∈ l.map (·.key) := by
  constructor
  · intro k hk'
    obtain ⟨e, he, rfl⟩ := List.mem_map.1 (h.relayed k hk')
    exact List.mem_map.2 ⟨e, hl e he (.inl ((h.waiting e he).2 hk')), rfl⟩
  · intro k hk'
    obtain ⟨e, he, rfl⟩ := List.mem_map.1 (h.accepted k hk')
    exact List.mem_map.2 ⟨e, hl e he (.inr ((h.pending e he).2 hk')), rfl⟩

/-- Eviction makes room and takes no entry that waits or is pending (R39). -/
theorem SeenAgrees.evict {seen : List SeenEntry} {rk hk : List FrameKey} (h : SeenAgrees seen rk hk)
    (hw : rk.length + hk.length < 64) :
    let l := if 64 ≤ seen.length then seen.eraseP SeenEntry.evictable else seen
    SeenAgrees l rk hk ∧ l.length < 64 ∧ l.Sublist seen := by
  dsimp only
  split
  · rename_i hf
    have hex : ∃ e ∈ seen, e.evictable = true := by
      by_contra hno
      push Not at hno
      have hp := h.pinned
      rw [List.filter_eq_self.2 (fun e he => by simpa using hno e he)] at hp
      omega
    obtain ⟨e, he, hev⟩ := hex
    have hlen := List.length_eraseP_of_mem he hev
    have hkeep := h.keepsWaiting (l := seen.eraseP SeenEntry.evictable) (fun x hx hxw =>
      (List.mem_eraseP_of_neg (by
        simp only [SeenEntry.evictable, ne_eq, decide_not, Bool.and_eq_true, Bool.not_eq_eq_eq_not, Bool.not_true,
          decide_eq_false_iff_not, not_and, Bool.not_eq_false]
        intro hn; exact hxw.resolve_left hn)).2 hx)
    exact ⟨h.sublist List.eraseP_sublist hkeep.1 hkeep.2, by have := h.size; omega, List.eraseP_sublist⟩
  · exact ⟨h, by omega, .refl _⟩

/-- A new entry of a key the table does not hold, its dispatch pending or not (R37). -/
theorem SeenAgrees.create {seen : List SeenEntry} {rk hk hk' : List FrameKey} (h : SeenAgrees seen rk hk)
    (hw : rk.length + hk.length < 64) {e : SeenEntry} (hn : e.key ∉ seen.map (·.key)) (hc : e.copies ≤ 15)
    (hst : e.state ≠ .waiting) (hpd : e.dispatchPending = true → e.state ≠ .damaged)
    (heq : hk' = if e.dispatchPending then hk ++ [e.key] else hk) : SeenAgrees (createSeen e seen) rk hk' := by
  obtain ⟨ha, hl, hs⟩ := h.evict hw
  unfold createSeen
  set l := if 64 ≤ seen.length then seen.eraseP SeenEntry.evictable else seen
  have hnl : e.key ∉ l.map (·.key) := fun hm => hn ((hs.map _).subset hm)
  have hnh : e.key ∉ hk := fun hm => hn (h.accepted _ hm)
  have hnr : e.key ∉ rk := fun hm => hn (h.relayed _ hm)
  have hmem : ∀ k, k ≠ e.key → (k ∈ hk' ↔ k ∈ hk) := by
    intro k hke
    subst hk'
    split
    · simp [hke]
    · rfl
  have hself : e.dispatchPending = true ↔ e.key ∈ hk' := by
    subst hk'
    split
    · simp_all
    · simp_all
  have hne : ∀ x ∈ l, x.key ≠ e.key := fun x hx he => hnl (List.mem_map.2 ⟨x, hx, he⟩)
  refine ⟨by simp; omega, ?_, ?_, h.relays, ?_, ?_, ?_, ?_, ?_, ?_⟩
  · rw [List.map_append, List.nodup_append]
    exact ⟨ha.keys, by simp, fun a ha' b hb => by simp at hb; subst hb; exact fun he => hnl (he ▸ ha')⟩
  · intro x hx
    rcases List.mem_append.1 hx with hx | hx
    · exact ha.copies x hx
    · rw [List.mem_singleton] at hx; exact hx ▸ hc
  · intro x hx
    rcases List.mem_append.1 hx with hx | hx
    · exact ha.waiting x hx
    · rw [List.mem_singleton] at hx; subst hx; simp [hst, hnr]
  · intro k hk
    rw [List.map_append]
    exact List.mem_append_left _ (ha.relayed k hk)
  · subst hk'
    split
    · rw [List.nodup_append]
      exact ⟨h.held, by simp, fun a ha' b hb => by simp at hb; subst hb; exact fun he => hnh (he ▸ ha')⟩
    · exact h.held
  · intro x hx
    rcases List.mem_append.1 hx with hx | hx
    · rw [hmem _ (hne x hx)]; exact ha.pending x hx
    · rw [List.mem_singleton] at hx; subst hx; exact hself
  · intro k hk
    rw [List.map_append, List.mem_append]
    by_cases hke : k = e.key
    · exact .inr (by simp [hke])
    · exact .inl (ha.accepted k ((hmem k hke).1 hk))
  · intro x hx hp
    rcases List.mem_append.1 hx with hx | hx
    · exact ha.heard x hx hp
    · rw [List.mem_singleton] at hx; subst hx; exact ⟨hst, hpd hp⟩

/-- The entry of a first copy (R37): a new one, or the DAMAGED one of the key made HEARD. -/
theorem SeenAgrees.make {seen : List SeenEntry} {rk hk : List FrameKey} (h : SeenAgrees seen rk hk)
    (hw : rk.length + hk.length < 64) {o q : Word16} (hd : ∀ e, findSeen o q seen = some e → e.state = .damaged)
    (t : Tick) (pend : Bool) :
    SeenAgrees (makeSeen o q .heard t pend seen) rk (if pend then hk ++ [(o, q)] else hk) := by
  unfold makeSeen
  split
  · rename_i hf
    exact h.create (e := ⟨o, q, .heard, 0, t, pend⟩) hw (findSeen_none hf) (Nat.zero_le _) (by simp) (by simp) rfl
  · rename_i e hf
    obtain ⟨hm, hke⟩ := findSeen_some hf
    have hst := hd e hf
    have hnr : (o, q) ∉ rk := fun hr => by
      have := (h.waiting e hm).2 (hke ▸ hr)
      rw [hst] at this; cases this
    have hnh : (o, q) ∉ hk := fun hr => (h.heard e hm ((h.pending e hm).2 (hke ▸ hr))).2 hst
    have hs : (o, q) ∈ seen.map (·.key) := List.mem_map.2 ⟨e, hm, hke⟩
    refine h.update (fun _ => rfl) h.relays ?_ (fun _ _ => .rfl) ?_ (fun _ => hs) (fun _ => hs) ?_
    · split
      · rw [List.nodup_append]
        exact ⟨h.held, by simp, fun a ha' b hb => by simp at hb; subst hb; exact fun he => hnh (he ▸ ha')⟩
      · exact h.held
    · intro k hke
      split
      · simp [hke]
      · rfl
    · intro x hx _
      refine ⟨h.copies x hx, by simp [hnr], ?_, by simp⟩
      cases pend <;> simp [hnh]

/-! ### The receive buffers -/

/-- The buffer of a name (R17). -/
def Receiver.buffer (rx : Receiver) : BufId → Option RxBuffer
  | .a => rx.bufA
  | .b => rx.bufB

theorem bufferOf_eq (s : State) (id : BufId) : bufferOf s id = s.rx.buffer id := by cases id <;> rfl

/-- The keys of the accepted departure frames of a receiver. -/
def Receiver.heldKeys (rx : Receiver) : List FrameKey := rx.accepted.filterMap (fun id => departureKey (rx.buffer id))

theorem heldKeys_eq (s : State) : Machine.heldKeys s = s.rx.heldKeys := by
  unfold Machine.heldKeys Receiver.heldKeys
  exact List.filterMap_congr fun id _ => by rw [bufferOf_eq]

/-- The accepted frames stand in their buffers, each once, and no reception fills one of them. -/
structure RxAgrees (rx : Receiver) : Prop where
  once : rx.accepted.Nodup
  stands : ∀ id ∈ rx.accepted, rx.buffer id ≠ none
  apart : ∀ id ∈ rx.accepted, receivingInto rx.reception ≠ some id

/-- What an operation keeps of the receiver: the accepted frames, and every buffer but the one that a frame in reception fills;
and it receives into no other buffer. -/
structure RxKept (rx ry : Receiver) : Prop where
  accepted : ry.accepted = rx.accepted
  into : ∀ id, receivingInto ry.reception = some id → receivingInto rx.reception = some id
  kept : ∀ id, receivingInto rx.reception ≠ some id → ry.buffer id = rx.buffer id

namespace RxKept

theorem refl (rx : Receiver) : RxKept rx rx := ⟨rfl, fun _ h => h, fun _ _ => rfl⟩

theorem trans {rx ry rz : Receiver} (a : RxKept rx ry) (b : RxKept ry rz) : RxKept rx rz where
  accepted := b.accepted.trans a.accepted
  into := fun id h => a.into id (b.into id h)
  kept := fun id h => (b.kept id fun hy => h (a.into id hy)).trans (a.kept id h)

theorem held {rx ry : Receiver} (a : RxKept rx ry) (h : RxAgrees rx) {id : BufId} (hi : id ∈ rx.accepted) :
    ry.buffer id = rx.buffer id := a.kept id (h.apart id hi)

theorem agrees {rx ry : Receiver} (a : RxKept rx ry) (h : RxAgrees rx) : RxAgrees ry where
  once := a.accepted ▸ h.once
  stands := fun id hi => by
    rw [a.accepted] at hi
    rw [a.held h hi]
    exact h.stands id hi
  apart := fun id hi he => h.apart id (a.accepted ▸ hi) (a.into id he)

theorem heldKeys {rx ry : Receiver} (a : RxKept rx ry) (h : RxAgrees rx) : ry.heldKeys = rx.heldKeys := by
  unfold Receiver.heldKeys
  rw [a.accepted]
  exact List.filterMap_congr fun id hi => by rw [a.held h hi]

/-- An operation that leaves the buffers and the accepted frames, and receives into no other buffer. -/
theorem of_buffers {rx ry : Receiver} (ha : ry.accepted = rx.accepted) (hA : ry.bufA = rx.bufA) (hB : ry.bufB = rx.bufB)
    (hr : ∀ id, receivingInto ry.reception = some id → receivingInto rx.reception = some id) : RxKept rx ry :=
  ⟨ha, hr, fun id _ => by cases id <;> assumption⟩

end RxKept

theorem Receiver.heldKeys_length (rx : Receiver) (h : rx.accepted.Nodup) : rx.heldKeys.length ≤ 2 := by
  have h2 : rx.accepted.length ≤ 2 := by
    have := (List.subperm_of_subset h (l₂ := [.a, .b]) (fun id _ => by cases id <;> simp)).length_le
    simpa using this
  exact (List.length_filterMap_le _ _).trans h2

theorem buffersInRange_iff (s : State) : BuffersInRange s ↔ RxAgrees s.rx := by
  constructor
  · exact fun h => ⟨h.1, fun id hi => bufferOf_eq s id ▸ h.2.1 id hi, h.2.2⟩
  · exact fun h => ⟨h.once, fun id hi => (bufferOf_eq s id).symm ▸ h.stands id hi, h.apart⟩

/-- The bookkeeping of frames, item by item. -/
theorem framesMatch_iff (s : State) : FramesMatch s ↔
    SeenAgrees s.seen (s.relayQ.map (·.key)) s.rx.heldKeys ∧ DeferralsInRange s := by
  constructor
  · rintro ⟨⟨h1, h2, h3⟩, ⟨r1, r2, r3⟩, ⟨b2, b3, b4, b5⟩, hd⟩
    rw [heldKeys_eq] at b2 b3 b4
    exact ⟨⟨h1, h2, h3, r1, r2, r3, b2, b3, b4, b5⟩, hd⟩
  · rintro ⟨⟨h1, h2, h3, r1, r2, r3, b2, b3, b4, b5⟩, hd⟩
    rw [← heldKeys_eq] at b2 b3 b4
    exact ⟨⟨h1, h2, h3⟩, ⟨r1, r2, r3⟩, ⟨b2, b3, b4, b5⟩, hd⟩

/-- What an operation keeps of the bookkeeping of frames: the accepted frames in their buffers, and its agreement. -/
structure FramesKept (s t : State) : Prop where
  rx : RxKept s.rx t.rx
  keeps : RxAgrees s.rx → FramesMatch s → FramesMatch t

namespace FramesKept

theorem refl (s : State) : FramesKept s s := ⟨.refl _, fun _ h => h⟩

theorem trans {s t u : State} (a : FramesKept s t) (b : FramesKept t u) : FramesKept s u :=
  ⟨a.rx.trans b.rx, fun hr h => b.keeps (a.rx.agrees hr) (a.keeps hr h)⟩

/-- An operation on the receiver alone. -/
theorem of_rx {s t : State} (hx : RxKept s.rx t.rx) (hs : t.seen = s.seen) (hq : t.relayQ = s.relayQ)
    (hm : t.maint.replies = s.maint.replies) : FramesKept s t := by
  refine ⟨hx, fun hr h => ?_⟩
  rw [framesMatch_iff] at h ⊢
  rw [hs, hq, hx.heldKeys hr]
  exact ⟨h.1, by unfold DeferralsInRange; rw [hq, hm]; exact h.2⟩

/-- An operation that touches neither the queues, nor the seen table, nor the receive buffers. -/
theorem of_eq {s t : State} (hs : t.seen = s.seen) (hq : t.relayQ = s.relayQ) (hm : t.maint.replies = s.maint.replies)
    (ha : t.rx.accepted = s.rx.accepted) (hA : t.rx.bufA = s.rx.bufA) (hB : t.rx.bufB = s.rx.bufB)
    (hr : t.rx.reception = s.rx.reception) : FramesKept s t :=
  of_rx (.of_buffers ha hA hB (by simp [hr])) hs hq hm

/-- An operation on the relay queue, the replies and the seen table. -/
theorem of_queues {s t : State} (hx : t.rx = s.rx)
    (h : SeenAgrees s.seen (s.relayQ.map (·.key)) s.rx.heldKeys →
      SeenAgrees t.seen (t.relayQ.map (·.key)) s.rx.heldKeys)
    (hd : DeferralsInRange s → DeferralsInRange t) : FramesKept s t := by
  refine ⟨hx ▸ .refl _, fun _ hf => ?_⟩
  rw [framesMatch_iff] at hf ⊢
  rw [hx]
  exact ⟨h hf.1, hd hf.2⟩

end FramesKept

end Sys2Proof.Machine
end

