-- ==== Sys2Proof/Laws/Channel.lean ====
section
/-! SUPPORT. What the channel access unit, the receiver's power and the relay queue can do to the state, said once:
`ChannelStep` names the fields that stay, and that no queue grows, no counter leaves its range and the
bookkeeping of frames still agrees. -/

namespace Sys2Proof.Machine

/-! ### Counters -/

theorem bump_le (n : Nat) : bump n ≤ 65535 := by
  unfold bump; split <;> omega

theorem countOn_mem (k : Counter) (c : Counters) (n : Nat) (h : n ∈ countersList (countOn k c)) :
    n ∈ countersList c ∨ n ≤ 65535 := by
  cases k <;> simp only [countOn, countersList, List.mem_cons, List.not_mem_nil, or_false] at h ⊢ <;>
    (rcases h with h | h | h | h | h | h | h | h | h | h | h | h | h | h | h | h | h | h | h | h) <;>
    first
      | (subst h; exact Or.inr (bump_le _))
      | (subst h; simp)

theorem count_counters (k : Counter) (s : State) (h : CountersInRange s) : CountersInRange (s.count k) := by
  intro n hn
  rcases countOn_mem k _ n hn with h' | h'
  · exact h n h'
  · exact h'

/-! ### The relation -/

/-- What a channel operation leaves of the state. -/
structure ChannelStep (s t : State) : Prop where
  clock : t.clock = s.clock
  wall : t.wall = s.wall
  pins : t.pins = s.pins
  startup : t.startup = s.startup
  loader : t.loader = s.loader
  cfg : t.cfg = s.cfg
  cfgInForce : t.cfgInForce = s.cfgInForce
  table : t.table = s.table
  lock : t.lock = s.lock
  sweepWaiting : t.sweepWaiting = s.sweepWaiting
  composer : t.composer = s.composer
  rows : t.rows = s.rows
  ctl : t.ctl = s.ctl
  engine : t.engine = s.engine
  monitor : t.monitor = s.monitor
  account : t.account = s.account
  pending : t.pending = s.pending
  seq : t.maint.seq = s.maint.seq
  window : t.rx.window = s.rx.window
  replies : t.maint.replies.length ≤ s.maint.replies.length
  relays : t.relayQ.length ≤ s.relayQ.length
  counters : CountersInRange s → CountersInRange t
  frames : FramesKept s t

namespace ChannelStep

theorem refl (s : State) : ChannelStep s s :=
  ⟨rfl, rfl, rfl, rfl, rfl, rfl, rfl, rfl, rfl, rfl, rfl, rfl, rfl, rfl, rfl, rfl, rfl, rfl, rfl, le_refl _, le_refl _, id, .refl s⟩

theorem trans {s t u : State} (a : ChannelStep s t) (b : ChannelStep t u) : ChannelStep s u where
  clock := b.clock.trans a.clock
  wall := b.wall.trans a.wall
  pins := b.pins.trans a.pins
  startup := b.startup.trans a.startup
  loader := b.loader.trans a.loader
  cfg := b.cfg.trans a.cfg
  cfgInForce := b.cfgInForce.trans a.cfgInForce
  table := b.table.trans a.table
  lock := b.lock.trans a.lock
  sweepWaiting := b.sweepWaiting.trans a.sweepWaiting
  composer := b.composer.trans a.composer
  rows := b.rows.trans a.rows
  ctl := b.ctl.trans a.ctl
  engine := b.engine.trans a.engine
  monitor := b.monitor.trans a.monitor
  account := b.account.trans a.account
  pending := b.pending.trans a.pending
  seq := b.seq.trans a.seq
  window := b.window.trans a.window
  replies := b.replies.trans a.replies
  relays := b.relays.trans a.relays
  counters := fun h => b.counters (a.counters h)
  frames := a.frames.trans b.frames

/-- A step by the fields it changes: what is not named here is equal by definition. -/
theorem of {s t : State} (frames : FramesKept s t) (clock : t.clock = s.clock := by rfl) (wall : t.wall = s.wall := by rfl)
    (pins : t.pins = s.pins := by rfl) (startup : t.startup = s.startup := by rfl) (loader : t.loader = s.loader := by rfl)
    (cfg : t.cfg = s.cfg := by rfl) (cfgInForce : t.cfgInForce = s.cfgInForce := by rfl)
    (table : t.table = s.table := by rfl) (lock : t.lock = s.lock := by rfl)
    (sweepWaiting : t.sweepWaiting = s.sweepWaiting := by rfl) (composer : t.composer = s.composer := by rfl)
    (rows : t.rows = s.rows := by rfl) (ctl : t.ctl = s.ctl := by rfl) (engine : t.engine = s.engine := by rfl)
    (monitor : t.monitor = s.monitor := by rfl) (account : t.account = s.account := by rfl)
    (pending : t.pending = s.pending := by rfl) (seq : t.maint.seq = s.maint.seq := by rfl)
    (window : t.rx.window = s.rx.window := by rfl)
    (replies : t.maint.replies.length ≤ s.maint.replies.length := by exact le_refl _)
    (relays : t.relayQ.length ≤ s.relayQ.length := by exact le_refl _)
    (counters : CountersInRange s → CountersInRange t := by exact id) : ChannelStep s t :=
  { clock, wall, pins, startup, loader, cfg, cfgInForce, table, lock, sweepWaiting, composer, rows, ctl, engine, monitor,
    account, pending, seq, window, replies, relays, counters, frames }

theorem active {s t : State} (a : ChannelStep s t) : Machine.active t = Machine.active s := by
  simp only [Machine.active, a.startup]

theorem spendable {s t : State} (a : ChannelStep s t) : Machine.spendable t = Machine.spendable s := by
  simp only [Machine.spendable, reserved, a.account, a.cfg]

theorem gateOpen {s t : State} (a : ChannelStep s t) : Machine.gateOpen t = Machine.gateOpen s := by
  simp only [Machine.gateOpen, a.spendable]

end ChannelStep

/-! ### Each operation -/

theorem count_step (k : Counter) (s : State) : ChannelStep s (s.count k) :=
  .of (.of_eq rfl rfl rfl rfl rfl rfl rfl) (counters := count_counters k s)

theorem setCau_step (c : CauState) (s : State) : ChannelStep s (s.setCau c) := .of (.of_eq rfl rfl rfl rfl rfl rfl rfl)

theorem setRx_step (st : RxState) (s : State) : ChannelStep s (s.setRx st) := .of (.of_eq rfl rfl rfl rfl rfl rfl rfl)

theorem setQuiet_step (q : QuietTimer) (s : State) : ChannelStep s { s with quiet := q } :=
  .of (.of_eq rfl rfl rfl rfl rfl rfl rfl)

theorem clearReception_step (s : State) : ChannelStep s s.clearReception :=
  .of (.of_rx (.of_buffers rfl rfl rfl nofun) rfl rfl rfl)

theorem filter_keys (o q : Word16) (l : List RelayEntry) :
    (l.filter (fun e => !e.hasKey o q)).map (·.key) = (l.map (·.key)).filter (· ≠ (o, q)) := by
  rw [List.filter_map]
  congr 1
  refine List.filter_congr fun e _ => ?_
  simp only [Function.comp, ne_eq, decide_not, Bool.not_inj_iff]
  rw [Bool.eq_iff_iff, RelayEntry.hasKey_iff, decide_eq_true_iff]

/-- A relay leaves the queue for a state other than WAITING and DAMAGED. -/
theorem removeRelay_step (o q : Word16) (st : SeenState) (s : State) (hw : st ≠ .waiting) (hd : st ≠ .damaged) :
    ChannelStep s (s.removeRelay o q st) :=
  .of (relays := List.length_filter_le _ _)
    (.of_queues rfl (fun h => by rw [State.removeRelay_relayQ, filter_keys]; exact h.leave o q hw hd)
      fun h => ⟨fun e he => h.1 e (List.mem_of_mem_filter he), h.2⟩)

/-- The buffer is freed that a frame in reception fills. -/
theorem freeBuffer_step (id : BufId) (s : State) (h : receivingInto s.rx.reception = some id) :
    ChannelStep s (s.freeBuffer id) := by
  cases id <;>
    exact .of (.of_rx ⟨rfl, fun _ hr => hr, fun i hi => by cases i <;> first | rfl | exact absurd h hi⟩ rfl rfl rfl)

theorem receiverFollow_step (s : State) : ChannelStep s (receiverFollow s) := by
  unfold receiverFollow
  split
  · split
    · exact .of (.of_eq rfl rfl rfl rfl rfl rfl rfl)
    · exact .refl s
  · split
    · exact .refl s
    · exact setRx_step _ s
  · exact .refl s
  · exact .refl s

theorem abandonRelay_step (o q : Word16) (s : State) : ChannelStep s (s.abandonRelay o q) :=
  (removeRelay_step o q _ s (by decide) (by decide)).trans (count_step _ _)

theorem abandonRelays_step (l : List RelayEntry) (s : State) : ChannelStep s (State.abandonRelays l s) := by
  induction l generalizing s with
  | nil => exact .refl s
  | cons e rest ih => exact (abandonRelay_step e.origin e.seq s).trans (ih _)

/-- The oldest reply leaves its queue. -/
theorem dropReply_step (s : State) :
    ChannelStep s { s with maint := { s.maint with replies := s.maint.replies.drop 1 } } :=
  .of (replies := by simp) (.of_queues rfl id fun h => ⟨h.1, fun r hr => h.2 r (List.mem_of_mem_drop hr)⟩)

theorem abandon_step (c : Candidate) (s : State) : ChannelStep s (s.abandon c) := by
  cases c with
  | reply => exact dropReply_step s
  | relay o q => exact abandonRelay_step o q s

/-- A candidate that is deferred and at once abandoned. -/
theorem deferAbandon_step (c : Candidate) (s : State) : ChannelStep s ((s.deferCandidate c).abandon c) := by
  cases c with
  | reply =>
    have he : (s.deferCandidate .reply).abandon .reply =
        { s with maint := { s.maint with replies := s.maint.replies.drop 1 } } := by
      cases h : s.maint.replies <;> simp [State.deferCandidate, State.abandon, h]
    rw [he]
    exact dropReply_step s
  | relay o q =>
    have he : (s.deferCandidate (.relay o q)).abandon (.relay o q) = s.abandonRelay o q := by
      have hf : (s.relayQ.map (fun e => if e.hasKey o q then { e with deferrals := e.deferrals + 1 } else e)).filter
          (fun e => !e.hasKey o q) = s.relayQ.filter (fun e => !e.hasKey o q) := by
        induction s.relayQ with
        | nil => rfl
        | cons x l ih =>
          by_cases hk : x.hasKey o q = true
          · have : ({ x with deferrals := x.deferrals + 1 } : RelayEntry).hasKey o q = true := hk
            simp [hk, this, ih]
          · simp [hk, ih]
      simp only [State.deferCandidate, State.abandon, State.abandonRelay, State.removeRelay, State.setSeenState, State.count,
        hf]
    rw [he]
    exact abandonRelay_step o q s

/-- A candidate that is deferred and not for the eighth time. -/
theorem deferCandidate_step (c : Candidate) (s : State) (h8 : deferralsOf (s.deferCandidate c) c < 8) :
    ChannelStep s (s.deferCandidate c) := by
  cases c with
  | reply =>
    refine .of (replies := by simp [State.deferCandidate]) (.of_queues rfl id fun h => ⟨h.1, ?_⟩)
    cases hr : s.maint.replies with
    | nil => simp [State.deferCandidate, hr]
    | cons x l =>
      simp only [State.deferCandidate, deferralsOf, hr, List.modify_zero_cons, List.head?_cons, Option.map_some,
        Option.getD_some] at h8 ⊢
      intro r hm
      rcases List.mem_cons.1 hm with rfl | hm
      · exact h8
      · exact h.2 r (by rw [hr]; exact List.mem_cons_of_mem _ hm)
  | relay o q =>
    have hkeys : (s.relayQ.map (fun e => if e.hasKey o q then { e with deferrals := e.deferrals + 1 } else e)).map (·.key) =
        s.relayQ.map (·.key) := by
      rw [List.map_map]
      refine List.map_congr_left fun e _ => ?_
      simp only [Function.comp]
      split <;> rfl
    refine .of (relays := by simp [State.deferCandidate]) ⟨.refl _, fun _ hf => ?_⟩
    rw [framesMatch_iff] at hf ⊢
    refine ⟨?_, ?_, hf.2.2⟩
    · show SeenAgrees s.seen (List.map RelayEntry.key (List.map _ s.relayQ)) s.rx.heldKeys
      rw [hkeys]
      exact hf.1
    · intro e he
      obtain ⟨x, hx, rfl⟩ := List.mem_map.1 he
      by_cases hk : x.hasKey o q = true
      · rw [if_pos hk]
        have hfind : findRelay o q (s.deferCandidate (.relay o q)).relayQ = some { x with deferrals := x.deferrals + 1 } := by
          have hn := hf.1.relays
          revert hn hx
          simp only [findRelay, State.deferCandidate]
          induction s.relayQ with
          | nil => intro hx; cases hx
          | cons y l ih =>
            intro hx hn
            rw [List.map_cons, List.nodup_cons] at hn
            by_cases hy : y.hasKey o q = true
            · have hyk : ({ y with deferrals := y.deferrals + 1 } : RelayEntry).hasKey o q = true := hy
              rcases List.mem_cons.1 hx with rfl | hx
              · simp [hyk, hk]
              · have : y.key = x.key := (RelayEntry.hasKey_iff.1 hy).trans (RelayEntry.hasKey_iff.1 hk).symm
                exact absurd (List.mem_map.2 ⟨x, hx, rfl⟩) (this ▸ hn.1)
            · rcases List.mem_cons.1 hx with rfl | hx
              · exact absurd hk hy
              · simpa [hy] using ih hx hn.2
        simpa [deferralsOf, hfind] using h8
      · rw [if_neg hk]
        exact hf.2.1 x hx

/-- A frame cut short gives up the buffer it was received into. -/
theorem discardCut_step (target : RxTarget) (s : State)
    (h : ∀ id, target = .buffer id → receivingInto s.rx.reception = some id) : ChannelStep s (s.discardCut target) := by
  cases target with
  | buffer id => exact (freeBuffer_step id s (h id rfl)).trans (count_step _ _)
  | overrun => exact .refl s

theorem cutReception_step (s : State) : ChannelStep s (cutReception s) := by
  unfold cutReception
  split
  · exact clearReception_step s
  · exact clearReception_step s
  · rename_i target hr
    exact (discardCut_step _ s fun id he => by rw [hr, he]; rfl).trans (clearReception_step _)
  · rename_i target left hr
    exact (discardCut_step _ s fun id he => by rw [hr, he]; rfl).trans (clearReception_step _)

theorem send_step (c : Candidate) (s : State) : ChannelStep s (s.send c) := by
  have h := (cutReception_step s).trans (setRx_step .transmitting _)
  cases c with
  | reply => exact (h.trans (setCau_step (.sending (candidateFrame s .reply) false) _)).trans (dropReply_step _)
  | relay o q =>
    exact (h.trans (removeRelay_step o q .relayed _ (by decide) (by decide))).trans
      (setCau_step (.sending (candidateFrame s (.relay o q)) true) _)

theorem energyCheck_step (c : Candidate) (s : State) : ChannelStep s (energyCheck c s) := by
  unfold energyCheck
  split
  · exact send_step c s
  · exact (abandon_step c s).trans (setCau_step _ _)

theorem contentionDraw_step (c : Candidate) (s : State) : ChannelStep s (contentionDraw c s) := by
  have h : ChannelStep s { s with rng := lfsrDraw s.rng, cau := .contending c ((lfsrDraw s.rng).toNat % 64 * 2) } :=
    .of (.of_eq rfl rfl rfl rfl rfl rfl rfl)
  unfold contentionDraw
  dsimp only
  split
  · exact h.trans (energyCheck_step c _)
  · exact h

theorem startAttempts_step (fuel : Nat) (s : State) : ChannelStep s (startAttempts fuel s) := by
  induction fuel generalizing s with
  | zero => exact .refl s
  | succ k ih =>
    unfold startAttempts
    split
    · split
      · exact .refl s
      · rename_i c _
        split
        · dsimp only
          have h := (setCau_step .sensing s).trans (receiverFollow_step _)
          split
          · exact (h.trans (contentionDraw_step c _)).trans (ih _)
          · exact h
        · exact (abandon_step c s).trans (ih _)
    · exact .refl s

theorem startAttempt_step (s : State) : ChannelStep s (startAttempt s) := by
  unfold startAttempt
  split
  · exact startAttempts_step _ s
  · exact .refl s

theorem endAttempt_step (s : State) : ChannelStep s (endAttempt s) :=
  ((setCau_step _ s).trans (startAttempt_step _)).trans (receiverFollow_step _)

theorem abandonAttempt_step (s : State) : ChannelStep s (abandonAttempt s) := by
  unfold abandonAttempt
  split
  · exact (abandon_step _ s).trans (endAttempt_step _)
  · split
    · exact (abandon_step _ s).trans (endAttempt_step _)
    · exact endAttempt_step s
  · exact .refl s
  · exact .refl s

theorem receiverUpdate_step (s : State) : ChannelStep s (receiverUpdate s) := by
  unfold receiverUpdate
  dsimp only
  split
  · exact (receiverFollow_step s).trans (abandonAttempt_step _)
  · exact receiverFollow_step s

/-- The return to LISTEN from the state in which nothing is received. -/
theorem leaveToListen_cleared (s : State) : ChannelStep s.clearReception (leaveToListen s) := by
  unfold leaveToListen
  dsimp only
  split
  · exact setRx_step _ _
  · exact (setRx_step _ _).trans (abandonAttempt_step _)

theorem leaveToListen_step (s : State) : ChannelStep s (leaveToListen s) :=
  (clearReception_step s).trans (leaveToListen_cleared s)

theorem recheckAttempt_step (s : State) : ChannelStep s (recheckAttempt s) := by
  unfold recheckAttempt
  split
  · split
    · exact .refl s
    · exact endAttempt_step s
  · split
    · exact .refl s
    · exact endAttempt_step s
  · exact .refl s
  · exact .refl s

theorem settleAttempt_step (s : State) : ChannelStep s (settleAttempt s) := by
  unfold settleAttempt
  split
  · exact endAttempt_step s
  · exact .refl s

theorem senseQuiet_step (s : State) : ChannelStep s (senseQuiet s) := by
  unfold senseQuiet
  split
  · split
    · exact (contentionDraw_step _ s).trans (settleAttempt_step _)
    · exact endAttempt_step s
  · exact .refl s

theorem deferral_step (c : Candidate) (s : State) : ChannelStep s (deferral c s) := by
  unfold deferral
  dsimp only
  split
  · exact (deferAbandon_step c s).trans (endAttempt_step _)
  · rename_i h
    exact (deferCandidate_step c s (by omega)).trans (setCau_step _ _)

theorem offerCandidate_step (s : State) : ChannelStep s (offerCandidate s) :=
  (startAttempt_step s).trans (receiverFollow_step _)

/-- An update of the seen table that keeps its agreement with the queues. -/
theorem seen_step (l : List SeenEntry) (s : State)
    (h : ∀ rk hk, SeenAgrees s.seen rk hk → SeenAgrees l rk hk) : ChannelStep s { s with seen := l } :=
  .of (.of_queues rfl (h _ _) id)

theorem duplicate_step (e : SeenEntry) (s : State) : ChannelStep s (s.duplicate e) := by
  have h := seen_step (updateSeen e.origin e.seq (fun x => { x with copies := min 15 (e.copies + 1) }) s.seen) s
    fun _ _ ha => ha.copied _ _ (Nat.min_le_left _ _)
  unfold State.duplicate
  dsimp only
  split
  · exact h.trans ((removeRelay_step e.origin e.seq .suppressed _ (by decide) (by decide)).trans
      (count_step .relaySuppressed _))
  · exact h

/-- What ages out neither waits nor is pending (R40). -/
theorem ageOut_step (s : State) : ChannelStep s { s with seen := s.seen.filter (keepsSeen s.clock) } :=
  seen_step _ s fun _ _ h => by
    have hk := h.keepsWaiting (l := s.seen.filter (keepsSeen s.clock)) fun e he hw => List.mem_filter.2 ⟨he, by
      rcases hw with hw | hw <;> simp [keepsSeen, hw]⟩
    exact h.sublist List.filter_sublist hk.1 hk.2

end Sys2Proof.Machine
end

