-- ==== Sys2Proof/Laws/Work.lean ====
section
/-! SUPPORT. What the energy account with its stage changes, the redraw request controller, the panel drive engine and the
drive fault monitor can do to the state, said once: `WorkStep` names the fields that stay, that E does not rise, that no
queue grows, that no row's partial counter changes, and which bounds are kept. -/

namespace Sys2Proof.Machine

/-- How the table lock and the composer's state move together: not at all, to a pass that has started, or to SUSPENDED. A
pass in progress is never ended here. -/
def LockMove (s t : State) : Prop :=
  (t.lock = s.lock ∧ t.composer.state = s.composer.state) ∨
  (s.composer.state ≠ .passing ∧ t.lock = .held ∧ t.composer.state = .passing) ∨
  (s.composer.state ≠ .passing ∧ t.lock = s.lock ∧ t.composer.state = .suspended)

theorem LockMove.refl (s : State) : LockMove s s := .inl ⟨rfl, rfl⟩

theorem LockMove.of_eq {s t : State} (hl : t.lock = s.lock) (hc : t.composer.state = s.composer.state) :
    LockMove s t := .inl ⟨hl, hc⟩

theorem LockMove.trans {s t u : State} (a : LockMove s t) (b : LockMove t u) : LockMove s u := by
  rcases a with ⟨a1, a2⟩ | ⟨a1, a2, a3⟩ | ⟨a1, a2, a3⟩ <;>
    rcases b with ⟨b1, b2⟩ | ⟨b1, b2, b3⟩ | ⟨b1, b2, b3⟩ <;> simp_all [LockMove]

theorem LockMove.follows {s t : State} (m : LockMove s t) (h : LockFollowsPass s) : LockFollowsPass t := by
  rcases m with ⟨a1, a2⟩ | ⟨a1, a2, a3⟩ | ⟨a1, a2, a3⟩ <;> simp_all [LockFollowsPass]

/-- The latch reads the configuration, the engine's waveform, refresh and state, and the partial counters. -/
theorem LatchInRange.congr {s t : State} (h : LatchInRange s) (hc : t.cfg = s.cfg) (he : t.engine = s.engine)
    (hr : rowCounters t = rowCounters s) : LatchInRange t := by
  unfold LatchInRange at *
  rw [hc, he, hr]
  exact h

/-- Without a waveform nothing is latched. -/
theorem LatchInRange.of_none {s : State} (h : s.cfg.partialLimit ≤ 32) (hw : s.engine.waveform = none) : LatchInRange s :=
  ⟨h, fun hn => absurd hw hn, fun hn => by rw [hw] at hn; cases hn⟩

/-- What a working operation leaves of the state. -/
structure WorkStep (s t : State) : Prop where
  clock : t.clock = s.clock
  wall : t.wall = s.wall
  pins : t.pins = s.pins
  startup : t.startup = s.startup
  loader : t.loader = s.loader
  cfg : t.cfg = s.cfg
  cfgInForce : t.cfgInForce = s.cfgInForce
  pending : t.pending = s.pending
  running : t.account.running = s.account.running
  seq : t.maint.seq = s.maint.seq
  keys : (t.table.map (·.key)).Sublist (s.table.map (·.key))
  energy : t.account.e ≤ s.account.e
  replies : t.maint.replies.length ≤ s.maint.replies.length
  relays : t.relayQ.length ≤ s.relayQ.length
  counters : CountersInRange s → CountersInRange t
  lock : LockMove s t
  grounded : GroundedOutsideDrive s → GroundedOutsideDrive t
  aborts : AbortsInRange s → AbortsInRange t
  counts : rowCounters t = rowCounters s
  pointers : PointersInRange s → PointersInRange t
  latch : LatchInRange s → LatchInRange t
  frames : FramesKept s t

namespace WorkStep

/-- A step by the fields it changes: what is not named here is equal by definition. -/
theorem of {s t : State} (clock : t.clock = s.clock := by rfl) (wall : t.wall = s.wall := by rfl)
    (pins : t.pins = s.pins := by rfl) (startup : t.startup = s.startup := by rfl) (loader : t.loader = s.loader := by rfl)
    (cfg : t.cfg = s.cfg := by rfl) (cfgInForce : t.cfgInForce = s.cfgInForce := by rfl)
    (pending : t.pending = s.pending := by rfl) (running : t.account.running = s.account.running := by rfl)
    (seq : t.maint.seq = s.maint.seq := by rfl)
    (keys : (t.table.map (·.key)).Sublist (s.table.map (·.key)) := by exact .refl _)
    (energy : t.account.e ≤ s.account.e := by exact le_refl _)
    (replies : t.maint.replies.length ≤ s.maint.replies.length := by exact le_refl _)
    (relays : t.relayQ.length ≤ s.relayQ.length := by exact le_refl _)
    (counters : CountersInRange s → CountersInRange t := by exact id) (lock : LockMove s t := by exact .of_eq rfl rfl)
    (grounded : GroundedOutsideDrive s → GroundedOutsideDrive t := by exact id)
    (aborts : AbortsInRange s → AbortsInRange t := by exact id) (counts : rowCounters t = rowCounters s := by rfl)
    (pointers : PointersInRange s → PointersInRange t := by exact id)
    (latch : LatchInRange s → LatchInRange t := by exact id)
    (frames : FramesKept s t := by exact .of_eq rfl rfl rfl rfl rfl rfl rfl) : WorkStep s t :=
  { clock, wall, pins, startup, loader, cfg, cfgInForce, pending, running, seq, keys, energy, replies, relays, counters, lock,
    grounded, aborts, counts, pointers, latch, frames }

theorem refl (s : State) : WorkStep s s := .of

theorem trans {s t u : State} (a : WorkStep s t) (b : WorkStep t u) : WorkStep s u where
  clock := b.clock.trans a.clock
  wall := b.wall.trans a.wall
  pins := b.pins.trans a.pins
  startup := b.startup.trans a.startup
  loader := b.loader.trans a.loader
  cfg := b.cfg.trans a.cfg
  cfgInForce := b.cfgInForce.trans a.cfgInForce
  pending := b.pending.trans a.pending
  running := b.running.trans a.running
  seq := b.seq.trans a.seq
  keys := b.keys.trans a.keys
  energy := b.energy.trans a.energy
  replies := b.replies.trans a.replies
  relays := b.relays.trans a.relays
  counters := fun h => b.counters (a.counters h)
  lock := a.lock.trans b.lock
  grounded := fun h => b.grounded (a.grounded h)
  aborts := fun h => b.aborts (a.aborts h)
  counts := b.counts.trans a.counts
  pointers := fun h => b.pointers (a.pointers h)
  latch := fun h => b.latch (a.latch h)
  frames := a.frames.trans b.frames

end WorkStep

theorem ChannelStep.work {s t : State} (a : ChannelStep s t) : WorkStep s t where
  clock := a.clock
  wall := a.wall
  pins := a.pins
  startup := a.startup
  loader := a.loader
  cfg := a.cfg
  cfgInForce := a.cfgInForce
  pending := a.pending
  running := by rw [a.account]
  seq := a.seq
  keys := by rw [a.table]
  energy := by rw [a.account]
  replies := a.replies
  relays := a.relays
  counters := a.counters
  lock := .of_eq a.lock (by rw [a.composer])
  grounded := fun h => by unfold GroundedOutsideDrive; rw [a.engine]; exact h
  aborts := fun h => by unfold AbortsInRange; rw [a.engine, a.monitor]; exact h
  counts := by unfold rowCounters; rw [a.rows]
  pointers := fun h => by unfold PointersInRange; rw [a.ctl, a.cfg]; exact h
  latch := fun h => h.congr a.cfg a.engine (by unfold rowCounters; rw [a.rows])
  frames := a.frames

/-! ### Rows, records and the controller's items -/

theorem rows_step (l : List Row) (s : State) (h : l.map (·.partialCount) = s.rows.map (·.partialCount)) :
    WorkStep s { s with rows := l } :=
  .of (counts := h) (latch := fun hl => hl.congr rfl rfl h)

/-- The partial counters after an update of every row that keeps them. -/
theorem mapRows_counts (f : Row → Row) (hf : ∀ row, (f row).partialCount = row.partialCount) (l : List Row) :
    (l.map f).map (·.partialCount) = l.map (·.partialCount) := by
  rw [List.map_map]
  exact List.map_congr_left fun row _ => hf row

theorem mapIdxRows_counts (f : Nat → Row → Row) (hf : ∀ r row, (f r row).partialCount = row.partialCount) (l : List Row) :
    (l.mapIdx f).map (·.partialCount) = l.map (·.partialCount) := by
  exact List.ext_getElem (by simp) fun i h1 h2 => by simp [hf]

theorem modifyRow_counts (r : Nat) (f : Row → Row) (hf : ∀ row, (f row).partialCount = row.partialCount) (l : List Row) :
    (l.modify r f).map (·.partialCount) = l.map (·.partialCount) := by
  refine List.ext_getElem (by simp) fun i h1 h2 => ?_
  simp only [List.getElem_map, List.getElem_modify]
  split
  · exact hf _
  · rfl

theorem mapRows_step (f : Row → Row) (s : State) (hf : ∀ row, (f row).partialCount = row.partialCount) :
    WorkStep s (s.mapRows f) := rows_step _ s (mapRows_counts f hf s.rows)

theorem setMasks_step (m : Bool) (s : State) : WorkStep s (s.setMasks m) :=
  rows_step _ s (mapIdxRows_counts _ (by intros; split <;> rfl) s.rows)

theorem writeFreezeContent_step (s : State) : WorkStep s (writeFreezeContent s) :=
  rows_step _ s (mapIdxRows_counts _ (by intros; rfl) s.rows)

/-- A change of the controller that keeps its pointers. -/
theorem ctl_step (c : Controller) (s : State) (hp : c.pointer = s.ctl.pointer := by rfl)
    (hg : c.grantPointer = s.ctl.grantPointer := by rfl) : WorkStep s { s with ctl := c } :=
  .of (pointers := fun h => ⟨hp ▸ h.1, hg ▸ h.2⟩)

/-- A change of the listening window. -/
theorem window_step (w : Window) (s : State) : WorkStep s { s with rx := { s.rx with window := w } } := .of

theorem onRefresh_step (x : Refresh) (f : Row → Row) (s : State) (hf : ∀ row, (f row).partialCount = row.partialCount) :
    WorkStep s (s.onRefresh x f) := by
  cases x with
  | row r => exact rows_step _ s (modifyRow_counts r f hf s.rows)
  | clear k => exact mapRows_step f s hf

theorem updateShownRows_step (s : State) : WorkStep s (updateShownRows s) :=
  .of (keys := by simp [updateShownRows, Function.comp_def])

theorem requestClear_step (k : ClearKind) (s : State) : WorkStep s (requestClear k s) := by
  unfold requestClear
  split
  · exact ctl_step _ s
  · split
    · exact .refl s
    · split
      · exact ctl_step _ s
      · exact .refl s

theorem discardFreeze_step (s : State) : WorkStep s (discardFreeze s) := by
  unfold discardFreeze
  split
  · exact ctl_step _ s
  · exact .refl s

theorem sweptTable_keys (now : Tick) (l : List DepEntry) :
    ((sweptTable now l).map (·.key)).Sublist (l.map (·.key)) := by
  have : (sweptTable now l).map (·.key) = (l.filter (fun e => !sweptAway now e)).map (·.key) := by
    rw [sweptTable, List.map_map]
    refine List.map_congr_left fun x _ => ?_
    simp only [Function.comp]
    split <;> rfl
  rw [this]
  exact List.filter_sublist.map _

theorem sweep_step (s : State) : WorkStep s s.sweep := .of (keys := sweptTable_keys s.clock s.table)

theorem sweepDue_step (s : State) : WorkStep s s.sweepDue := by
  unfold State.sweepDue
  split
  · exact sweep_step s
  · exact .refl s

@[simp] theorem sweepDue_composer_state (s : State) : s.sweepDue.composer.state = s.composer.state := by
  unfold State.sweepDue; split <;> rfl

@[simp] theorem sweepDue_lock (s : State) : s.sweepDue.lock = s.lock := by unfold State.sweepDue; split <;> rfl

@[simp] theorem sweepDue_engine (s : State) : s.sweepDue.engine = s.engine := by unfold State.sweepDue; split <;> rfl

theorem startPass_step (s : State) (h : s.composer.state ≠ .passing) : WorkStep s (startPass s) :=
  (sweepDue_step s).trans (.of (lock := .inr (.inl ⟨by simpa using h, rfl, rfl⟩)))

theorem composer_step (c : Composer) (s : State) (h : c.state = s.composer.state) :
    WorkStep s { s with composer := c } := .of (lock := .of_eq rfl h)

theorem composerStage_step (old new : Stage) (s : State) : WorkStep s (composerStage old new s) := by
  have go : WorkStep s
      (let s := if old = .frozen then { s with composer := { s.composer with clearArmed := true } } else s
       match s.composer.state with
        | .passing => { s with composer := { s.composer with passDue := true } }
        | .idle => startPass s
        | .suspended => if old = .frozen ∧ filling s = false then startPass s else s) := by
    dsimp only
    have h : WorkStep s (if old = .frozen then { s with composer := { s.composer with clearArmed := true } } else s) := by
      split
      · exact composer_step _ s rfl
      · exact .refl s
    refine h.trans ?_
    generalize (if old = .frozen then { s with composer := { s.composer with clearArmed := true } } else s) = u
    split
    · exact composer_step _ u rfl
    · rename_i hi
      exact startPass_step u (by rw [hi]; decide)
    · rename_i hi
      split
      · exact startPass_step u (by rw [hi]; decide)
      · exact .refl u
  cases new with
  | frozen =>
    unfold composerStage
    dsimp only
    split
    · exact .refl s
    · rename_i hi
      exact (writeFreezeContent_step s).trans (.of (lock := .inr (.inr ⟨by show s.composer.state ≠ _; rw [hi]; decide, rfl, rfl⟩)))
    · exact writeFreezeContent_step s
  | full => exact go
  | thrift => exact go
  | scant => exact go

/-! ### The energy account -/

theorem windowStage_step (new : Stage) (s : State) : WorkStep s (windowStage new s) := by
  cases new <;> unfold windowStage <;> dsimp only
  · split
    · exact window_step _ s
    · exact .refl s
  all_goals exact .refl s

theorem relayStage_step (old new : Stage) (s : State) : WorkStep s (relayStage old new s) := by
  unfold relayStage
  split
  · exact ((abandonRelays_step _ s).trans (recheckAttempt_step _)).work
  · exact .refl s

theorem freezeStage_step (old new : Stage) (s : State) : WorkStep s (freezeStage old new s) := by
  unfold freezeStage
  split
  · exact requestClear_step _ s
  · split
    · exact (setMasks_step _ s).trans (discardFreeze_step _)
    · exact .refl s

/-- A change of the stage and the freeze state alone. -/
theorem account_step (a : Account) (s : State) (hr : a.running = s.account.running) (he : a.e ≤ s.account.e) :
    WorkStep s { s with account := a } := .of (running := hr) (energy := he)

theorem stageChange_step (ctl : State → State) (hctl : ∀ u, WorkStep u (ctl u)) (new : Stage) (s : State) :
    WorkStep s (stageChange ctl new s) := by
  unfold stageChange
  dsimp only
  have h : WorkStep s { s with account :=
      { s.account with stage := new, freeze := freezeAfter s.account.stage new s.account.freeze } } :=
    account_step _ s rfl (le_refl _)
  split
  · refine h.trans (WorkStep.trans ?_ (hctl _))
    exact (((windowStage_step new _).trans (relayStage_step s.account.stage new _)).trans
      (composerStage_step s.account.stage new _)).trans (freezeStage_step s.account.stage new _)
  · exact h

theorem stageRises_step (ctl : State → State) (hctl : ∀ u, WorkStep u (ctl u)) (k : Nat) (s : State) :
    WorkStep s (stageRises ctl k s) := by
  induction k generalizing s with
  | zero => exact .refl s
  | succ k ih =>
    unfold stageRises
    split
    · exact (stageChange_step ctl hctl _ s).trans (ih _)
    · exact .refl s

theorem stageRules_step (ctl : State → State) (hctl : ∀ u, WorkStep u (ctl u)) (s : State) :
    WorkStep s (stageRules ctl s) := by
  unfold stageRules
  split
  · exact stageChange_step ctl hctl _ s
  · exact stageRises_step ctl hctl 3 s

/-- A change of E while RUNNING is the new E with what the stage rules and the gate make of it. -/
theorem changeEnergy_step (ctl : State → State) (hctl : ∀ u, WorkStep u (ctl u)) (e : Nat) (s : State)
    (hr : s.account.running = true) : WorkStep (s.setEnergy e) (changeEnergy ctl e s) := by
  unfold changeEnergy
  rw [if_pos hr]
  exact (stageRules_step ctl hctl _).trans (receiverUpdate_step _).work

theorem changeEnergy_notStarted (ctl : State → State) (e : Nat) (s : State) (hr : s.account.running = false) :
    changeEnergy ctl e s = s := by
  unfold changeEnergy
  rw [if_neg (by simp [hr])]

theorem setEnergy_step (e : Nat) (s : State) (he : e ≤ s.account.e) : WorkStep s (s.setEnergy e) :=
  account_step _ s rfl he

theorem changeEnergy_lower (ctl : State → State) (hctl : ∀ u, WorkStep u (ctl u)) (e : Nat) (s : State)
    (he : e ≤ s.account.e) : WorkStep s (changeEnergy ctl e s) := by
  cases hr : s.account.running with
  | true => exact (setEnergy_step e s he).trans (changeEnergy_step ctl hctl e s hr)
  | false => rw [changeEnergy_notStarted ctl e s hr]; exact .refl s

theorem debit_step (ctl : State → State) (hctl : ∀ u, WorkStep u (ctl u)) (q : Nat) (s : State) :
    WorkStep s (debit ctl q s) := changeEnergy_lower ctl hctl _ s (Nat.sub_le _ _)

theorem setReservation_step (r : Option Nat) (s : State) : WorkStep s (s.setReservation r) :=
  account_step _ s rfl (le_refl _)

theorem releaseAndDebit_step (ctl : State → State) (hctl : ∀ u, WorkStep u (ctl u)) (q : Nat) (s : State) :
    WorkStep s (releaseAndDebit ctl q s) := (setReservation_step none s).trans (debit_step ctl hctl q _)

theorem takeLow_step (ctl : State → State) (hctl : ∀ u, WorkStep u (ctl u)) (s : State) :
    WorkStep s (takeLow ctl s) := by
  unfold takeLow
  split
  · exact (count_step _ s).work.trans (changeEnergy_lower ctl hctl _ _ (by simp))
  · exact .refl s

/-! ### The controller and the engine -/

theorem enterHeld_step (s : State) : WorkStep s (enterHeld s) := ctl_step _ s

theorem leaveHeld_step (s : State) : WorkStep s (leaveHeld s) := by
  unfold leaveHeld
  split
  · exact ctl_step _ s
  · exact .refl s

/-- A step of the engine that keeps the bounds of its bus, of the abort count and of its latch. -/
theorem engine_step (e : Engine) (s : State)
    (hg : GroundedOutsideDrive s → e.state ≠ .drive → e.bus = .grounded)
    (ha : AbortsInRange s → e.state ≠ .lockout → s.monitor.aborts ≤ 2)
    (hl : LatchInRange s → LatchInRange { s with engine := e }) : WorkStep s { s with engine := e } :=
  .of (grounded := fun h => hg h) (aborts := fun h => ⟨h.1, ha h⟩) (latch := hl)

theorem grantRows_step (x : Refresh) (s : State) : WorkStep s (grantRows x s) := by
  unfold grantRows
  split
  · exact rows_step _ s (modifyRow_counts _ _ (by intros; rfl) s.rows)
  · exact mapRows_step _ s (by intros; rfl)
  · exact rows_step _ s (mapIdxRows_counts _ (by intros; rfl) s.rows)

@[simp] theorem grantRows_engine (x : Refresh) (s : State) : (grantRows x s).engine = s.engine := by
  unfold grantRows
  split <;> rfl

theorem pointerAfter_lt (n p : Nat) (x : Refresh) (h : p < n) : pointerAfter n p x < n := by
  unfold pointerAfter
  split
  · split
    · assumption
    · exact h
  · exact h

theorem grant_step (x : Refresh) (s : State) (hi : s.engine.state = .idle) : WorkStep s (grant x s) := by
  unfold grant
  dsimp only
  refine (grantRows_step x s).trans ?_
  have he : (grantRows x s).engine = s.engine := grantRows_engine x s
  generalize grantRows x s = u at he
  have hi : u.engine.state = .idle := by rw [he]; exact hi
  refine .of (grounded := fun h _ => ?_) (aborts := fun h => ⟨h.1, fun _ => h.2 (by simp [hi])⟩)
    (pointers := fun h => ⟨pointerAfter_lt _ _ x h.1, h.1⟩) (latch := fun h => .of_none h.1 ?_)
  · simpa using h (by simp [hi])
  · by_contra hn
    have := h.2.1 hn
    simp [hi] at this

theorem withdraw_step (x : Refresh) (s : State) (hl : s.engine.state ≠ .lockout) : WorkStep s (withdraw x s) := by
  unfold withdraw
  dsimp only
  refine (onRefresh_step x Row.withdrawn s (fun _ => rfl)).trans ?_
  generalize hu : s.onRefresh x Row.withdrawn = u
  have he : u.engine = s.engine := by rw [← hu]; simp
  exact .of (grounded := fun _ _ => rfl) (aborts := fun h => ⟨h.1, fun _ => h.2 (by rw [he]; exact hl)⟩)
    (pointers := fun h => ⟨h.2, h.2⟩) (latch := fun h => .of_none h.1 rfl)

theorem skipFreeze_step (s : State) : WorkStep s (skipFreeze s) :=
  ((ctl_step _ s).trans (setMasks_step true _)).trans (account_step _ _ rfl (le_refl _))

theorem refuse_step (cause : RefusalCause) (x : Refresh) (s : State) (hl : s.engine.state ≠ .lockout) :
    WorkStep s (refuse cause x s) := by
  unfold refuse
  dsimp only
  have h := withdraw_step x s hl
  split
  · exact h.trans (enterHeld_step _)
  · exact h.trans ((requestClear_step _ _).trans (enterHeld_step _))
  · split
    · split
      · exact h.trans ((skipFreeze_step _).trans (enterHeld_step _))
      · exact h.trans ((requestClear_step _ _).trans (enterHeld_step _))
    · exact h.trans (enterHeld_step _)

theorem abortRows_step (driven : Bool) (x : Refresh) (s : State) : WorkStep s (abortRows driven x s) := by
  unfold abortRows
  dsimp only
  have h : WorkStep s { s with engine := { s.engine with frameClock := .stopped, bus := .grounded } } :=
    engine_step _ s (fun _ _ => rfl) (fun h => h.2) (fun h => h)
  split
  · refine h.trans (WorkStep.trans ?_ (releaseAndDebit_step id .refl _ _))
    exact ((mapRows_step _ _ (by intro row; unfold Row.cut; split <;> rfl)).trans (updateShownRows_step _)).trans
      (onRefresh_step x Row.released _ (fun _ => rfl))
  · exact h.trans (onRefresh_step x Row.released _ (fun _ => rfl))

theorem abortClears_step (driven : Bool) (x : Refresh) (s : State) : WorkStep s (abortClears driven x s) := by
  unfold abortClears
  dsimp only
  have h : ∀ (b : Prop) [Decidable b] (k : ClearKind) (u : State), WorkStep u (if b then requestClear k u else u) := by
    intro b _ k u
    split
    · exact requestClear_step k u
    · exact .refl u
  exact (h _ .ordinary s).trans (h _ .freeze _)

theorem composerStage_engine (old new : Stage) (s : State) : (composerStage old new s).engine = s.engine := by
  cases old <;> cases new <;> cases hc : s.composer.state <;> simp [composerStage, hc, writeFreezeContent, startPass, takeLock] <;>
    split <;> rfl

/-- A debit whose stage change does not reach the controller leaves the engine as it is. -/
theorem releaseAndDebit_id_engine (q : Nat) (s : State) : (releaseAndDebit id q s).engine = s.engine := by
  have hr : ∀ u : State, (receiverUpdate u).engine = u.engine := fun u => (receiverUpdate_step u).engine
  have hreq : ∀ (k : ClearKind) (u : State), (requestClear k u).engine = u.engine := by
    intro k u
    unfold requestClear
    split
    · rfl
    · split
      · rfl
      · split <;> rfl
  have hs : ∀ (new : Stage) (u : State), (stageChange id new u).engine = u.engine := by
    intro new u
    unfold stageChange
    dsimp only [id]
    split
    · have h1 : ∀ (a b : Stage) (v : State), (freezeStage a b v).engine = v.engine := by
        intro a b v
        unfold freezeStage
        split
        · exact hreq _ v
        · split
          · unfold discardFreeze; split <;> rfl
          · rfl
      have h3 : ∀ (a b : Stage) (v : State), (relayStage a b v).engine = v.engine := by
        intro a b v
        unfold relayStage
        split
        · exact ((abandonRelays_step _ v).trans (recheckAttempt_step _)).engine
        · rfl
      have h4 : ∀ (b : Stage) (v : State), (windowStage b v).engine = v.engine := by
        intro b v
        cases b <;> unfold windowStage <;> dsimp only
        split <;> rfl
      rw [h1, composerStage_engine, h3, h4]
    · rfl
  have hri : ∀ (k : Nat) (u : State), (stageRises id k u).engine = u.engine := by
    intro k
    induction k with
    | zero => intro u; rfl
    | succ k ih =>
      intro u
      unfold stageRises
      split
      · rw [ih, hs]
      · rfl
  unfold releaseAndDebit debit changeEnergy
  split
  · rw [hr]
    unfold stageRules
    split
    · rw [hs]; rfl
    · rw [hri]; rfl
  · rfl

theorem abortRows_engine_state (driven : Bool) (x : Refresh) (s : State) :
    (abortRows driven x s).engine.state = s.engine.state := by
  unfold abortRows
  dsimp only
  split
  · rw [releaseAndDebit_id_engine]; simp [updateShownRows]
  · simp

@[simp] theorem requestClear_monitor (k : ClearKind) (s : State) : (requestClear k s).monitor = s.monitor := by
  unfold requestClear
  split
  · rfl
  · split
    · rfl
    · split <;> rfl

@[simp] theorem abortClears_monitor (driven : Bool) (x : Refresh) (s : State) :
    (abortClears driven x s).monitor = s.monitor := by
  have h : ∀ (b : Prop) [Decidable b] (k : ClearKind) (u : State),
      (if b then requestClear k u else u).monitor = u.monitor := by
    intro b _ k u
    split <;> simp
  exact (h _ .freeze _).trans (h _ .ordinary s)

/-- The monitor and the engine at an abort: the count rises by one, and at three the engine is in LOCKOUT. -/
theorem abortEnd_step (x : Refresh) (record : FaultRecord) (driven : Bool) (s : State) (hl : s.engine.state ≠ .lockout) :
    WorkStep s
      (let u := s.count .drawAborted
       let u := { u with monitor :=
          { record := record
            aborts := u.monitor.aborts + 1
            lockout := if 3 ≤ u.monitor.aborts + 1 then some 2400 else u.monitor.lockout } }
       let v := abortClears driven x (u.onRefresh x (fun row => { row with pending := row.pending || row.differs }))
       { v with engine := v.engine.ended (if 3 ≤ s.monitor.aborts + 1 then .lockout else .idle) }) := by
  dsimp only
  set u : State := { s.count .drawAborted with monitor :=
      { record := record
        aborts := (s.count .drawAborted).monitor.aborts + 1
        lockout := if 3 ≤ (s.count .drawAborted).monitor.aborts + 1 then some 2400 else (s.count .drawAborted).monitor.lockout } }
    with hu
  set v := abortClears driven x (u.onRefresh x (fun row => { row with pending := row.pending || row.differs })) with hv
  have huv : WorkStep u v := (onRefresh_step x (fun row => { row with pending := row.pending || row.differs }) u
    (fun _ => rfl)).trans (abortClears_step driven x _)
  have hm : v.monitor.aborts = s.monitor.aborts + 1 := by simp [hv, hu]
  exact {
    clock := huv.clock
    wall := huv.wall
    pins := huv.pins
    startup := huv.startup
    loader := huv.loader
    cfg := huv.cfg
    cfgInForce := huv.cfgInForce
    pending := huv.pending
    running := huv.running
    seq := huv.seq
    keys := huv.keys
    energy := huv.energy
    replies := huv.replies
    relays := huv.relays
    counters := fun h => huv.counters (count_counters .drawAborted s h)
    lock := huv.lock
    grounded := fun _ _ => rfl
    counts := huv.counts
    pointers := huv.pointers
    latch := fun h => .of_none (huv.latch h).1 rfl
    frames := (FramesKept.of_eq (s := s) (t := u) rfl rfl rfl rfl rfl rfl rfl).trans
      (huv.frames.trans (.of_eq rfl rfl rfl rfl rfl rfl rfl))
    aborts := fun h => by
      have h2 := h.2 hl
      refine ⟨by show v.monitor.aborts ≤ 3; omega, fun hn => ?_⟩
      show v.monitor.aborts ≤ 2
      by_cases h3 : 3 ≤ s.monitor.aborts + 1
      · exact absurd (show (v.engine.ended (if 3 ≤ s.monitor.aborts + 1 then .lockout else .idle)).state = .lockout by
          rw [if_pos h3]; rfl) hn
      · omega }

theorem abortWith_step (sel : State → State) (hsel : ∀ u, WorkStep u (sel u)) (cause : FaultCause) (x : Refresh)
    (s : State) (hl : s.engine.state ≠ .lockout) : WorkStep s (abortWith sel cause x s) := by
  unfold abortWith
  dsimp only
  set a := abortRows (decide (cause ≠ .noAnswer)) x s with ha
  have h1 : WorkStep s a := abortRows_step _ x s
  have h2 := abortEnd_step x (recordOf cause x s.engine) (decide (cause ≠ .noAnswer)) a
    (by rw [ha, abortRows_engine_state]; exact hl)
  dsimp only [State.count_monitor] at h2 ⊢
  have h := h1.trans h2
  have tail : ∀ (b c : Prop) [Decidable b] [Decidable c] (w : State), WorkStep w
      (let y := if b then enterHeld w else sel { w with ctl := { w.ctl with state := .opened } }
       if c then sel (leaveHeld y) else y) := by
    intro b c _ _ w
    dsimp only
    have hy : WorkStep w (if b then enterHeld w else sel { w with ctl := { w.ctl with state := .opened } }) := by
      split
      · exact enterHeld_step w
      · exact (ctl_step _ w).trans (hsel _)
    split
    · exact hy.trans ((leaveHeld_step _).trans (hsel _))
    · exact hy
  exact h.trans (tail _ _ _)

/-- The waveform chosen is PARTIAL only for a row whose partial counter is below the limit (R134). -/
theorem waveformOf_partial {s : State} {x : Refresh} {b : Band} (h : waveformOf s x b = .partialWave) :
    ∃ r : Nat, x = .row r ∧ ∀ k : Nat, (rowCounters s)[r]? = some k → k < s.cfg.partialLimit := by
  unfold waveformOf at h
  split at h
  · cases h
  · rename_i r
    split at h
    · rename_i row hr
      split at h
      · cases h
      · rename_i hc
        simp only [Bool.or_eq_true, decide_eq_true_eq, not_or, not_le] at hc
        refine ⟨r, rfl, fun k hk => ?_⟩
        simp only [rowCounters, List.getElem?_map, hr, Option.map_some, Option.some.injEq] at hk
        omega
    · cases h

theorem enterDrive_step (x : Refresh) (b : Band) (s u : State) (hu : WorkStep u s) (he : s.engine = u.engine)
    (hl : u.engine.state ≠ .lockout) (hx : u.engine.refresh = some x) :
    WorkStep s (enterDrive x (waveformOf u x b) b s) := by
  refine engine_step _ s (fun _ hn => absurd rfl hn) (fun h _ => h.2 (by rw [he]; exact hl)) fun h => ?_
  refine ⟨h.1, fun _ => .inl rfl, fun hw => ?_⟩
  obtain ⟨r, hr, hk⟩ := waveformOf_partial (Option.some.inj hw)
  refine ⟨r, (congrArg Engine.refresh he).trans (hx.trans (by rw [hr])), fun k hc => ?_⟩
  have h1 : k < u.cfg.partialLimit := hk k (hu.counts ▸ hc)
  exact lt_of_lt_of_le h1 (hu.cfg ▸ h.1)

theorem reserveWith_step (sel : State → State) (hsel : ∀ u, WorkStep u (sel u)) (x : Refresh) (b : Band) (s : State)
    (hl : s.engine.state ≠ .lockout) (hx : s.engine.refresh = some x) : WorkStep s (reserveWith sel x b s) := by
  unfold reserveWith
  dsimp only
  set c := refreshCost s.cfg.n x (waveformOf s x b) b with hc
  have h0 : WorkStep s { s with engine := { s.engine with cost := some c } } :=
    engine_step _ s (fun h => h) (fun h => h.2) (fun h => h)
  have hw : waveformOf s x b = waveformOf { s with engine := { s.engine with cost := some c } } x b := rfl
  rw [hw]
  refine h0.trans ?_
  set u : State := { s with engine := { s.engine with cost := some c } } with hu
  have hul : u.engine.state ≠ .lockout := hl
  split
  · exact WorkStep.trans (t := seeDroop u) .of (refuse_step _ x _ hul)
  · split
    · have h1 : WorkStep u (receiverUpdate (u.setReservation (some c))) :=
        (setReservation_step _ u).trans (receiverUpdate_step _).work
      have he : (receiverUpdate (u.setReservation (some c))).engine = u.engine := (receiverUpdate_step _).engine
      have h3 := h1.trans (enterDrive_step x b _ u h1 he hul hx)
      dsimp only
      split
      · exact h3.trans (abortWith_step sel hsel _ x _ (by simp [enterDrive]))
      · exact h3
    · exact refuse_step _ x u hul

theorem prepareWith_step (sel : State → State) (hsel : ∀ u, WorkStep u (sel u)) (x : Refresh) (d : Int) (s : State)
    (hl : s.engine.state ≠ .lockout) (hx : s.engine.refresh = some x) : WorkStep s (prepareWith sel x d s) := by
  unfold prepareWith
  dsimp only
  have h0 : WorkStep s { s with engine := { s.engine with lastBand := some (bandOfTemp d) } } :=
    engine_step _ s (fun h => h) (fun h => h.2) (fun h => h)
  refine h0.trans ?_
  split
  · exact refuse_step _ x _ hl
  · exact reserveWith_step sel hsel x _ _ hl hx

theorem beginPrepareWith_step (sel : State → State) (hsel : ∀ u, WorkStep u (sel u)) (x : Refresh) (s : State)
    (hl : s.engine.state ≠ .lockout) (hx : s.engine.refresh = some x) : WorkStep s (beginPrepareWith sel x s) := by
  unfold beginPrepareWith
  split
  · split
    · exact prepareWith_step sel hsel x _ s hl hx
    · exact .refl s
  · exact .refl s

theorem selectWith_step (sel : State → State) (hsel : ∀ u, WorkStep u (sel u)) (s : State) :
    WorkStep s (selectWith sel s) := by
  unfold selectWith
  split
  · rename_i h
    split
    · exact (grant_step _ s h.2.2).trans (beginPrepareWith_step sel hsel _ _ (by simp [grant]) (by simp [grant]))
    · exact .refl s
  · exact .refl s

theorem selectDepth_step (k : Nat) (s : State) : WorkStep s (selectDepth k s) := by
  induction k generalizing s with
  | zero => exact .refl s
  | succ k ih => exact selectWith_step _ ih s

theorem select_step (s : State) : WorkStep s (select s) := selectDepth_step 4 s

theorem ctlStage_step (s : State) : WorkStep s (ctlStage s) := (leaveHeld_step s).trans (select_step _)

theorem releaseHeld_step (s : State) : WorkStep s (releaseHeld s) := by
  unfold releaseHeld
  split
  · exact (leaveHeld_step s).trans (select_step _)
  · exact .refl s

end Sys2Proof.Machine
end

