-- ==== Sys2Proof/Laws/Table.lean ====
section
/-! SUPPORT. What an application or a sweep can do to the state, said once: `TableStep` names the fields that stay, and that
the departure table keeps its capacity and its distinct keys. -/

namespace Sys2Proof.Machine

/-! ### Lists of entries -/

theorem insertEntry_perm (now : Tick) (e : DepEntry) (l : List DepEntry) : (insertEntry now e l).Perm (e :: l) := by
  induction l with
  | nil => exact .refl _
  | cons x xs ih =>
    unfold insertEntry
    split
    · exact .refl _
    · exact (ih.cons x).trans (.swap e x xs)

@[simp] theorem insertEntry_length (now : Tick) (e : DepEntry) (l : List DepEntry) :
    (insertEntry now e l).length = l.length + 1 := (insertEntry_perm now e l).length_eq

theorem findEntry_none {k : Key} {l : List DepEntry} (h : findEntry k l = none) : k ∉ l.map (·.key) := by
  simp only [findEntry, List.find?_eq_none, decide_eq_true_eq] at h
  simp only [List.mem_map, not_exists, not_and]
  exact fun e he => h e he

theorem findEntry_some {k : Key} {l : List DepEntry} {e : DepEntry} (h : findEntry k l = some e) :
    e ∈ l ∧ e.key = k :=
  ⟨List.mem_of_find?_eq_some h, by simpa [findEntry] using List.find?_some h⟩

/-- A table of at most 48 entries with distinct keys. -/
def WellKeyed (l : List DepEntry) : Prop := l.length ≤ 48 ∧ (l.map (·.key)).Nodup

theorem WellKeyed.insert {now : Tick} {e : DepEntry} {l : List DepEntry} (h : WellKeyed l) (hl : l.length < 48)
    (hk : e.key ∉ l.map (·.key)) : WellKeyed (insertEntry now e l) := by
  refine ⟨by simp; omega, ?_⟩
  have hp := (insertEntry_perm now e l).map (·.key)
  rw [hp.nodup_iff, List.map_cons, List.nodup_cons]
  exact ⟨hk, h.2⟩

theorem WellKeyed.sublist {l l' : List DepEntry} (h : WellKeyed l) (hs : l'.Sublist l) : WellKeyed l' :=
  ⟨hs.length_le.trans h.1, (hs.map _).nodup h.2⟩

theorem WellKeyed.of_keys {l l' : List DepEntry} (h : WellKeyed l) (hs : (l'.map (·.key)).Sublist (l.map (·.key))) :
    WellKeyed l' :=
  ⟨by simpa using hs.length_le.trans (by simpa using h.1), hs.nodup h.2⟩

theorem WellKeyed.same_keys {l l' : List DepEntry} (h : WellKeyed l) (hs : l'.map (·.key) = l.map (·.key)) :
    WellKeyed l' := h.of_keys (hs ▸ .refl _)

theorem removeEntry_length {k : Key} {l : List DepEntry} (hk : k ∈ l.map (·.key)) :
    (removeEntry k l).length < l.length := by
  obtain ⟨e, he, hek⟩ := List.mem_map.1 hk
  unfold removeEntry
  exact List.length_filter_lt_length_iff_exists.2 ⟨e, he, by simp [hek]⟩

theorem WellKeyed.replace {now oldD : Tick} {e : DepEntry} {l : List DepEntry} (h : WellKeyed l)
    (hk : e.key ∈ l.map (·.key)) : WellKeyed (replaceEntry now oldD e l) := by
  unfold replaceEntry
  split
  · refine h.same_keys ?_
    rw [List.map_map]
    refine List.map_congr_left fun x _ => ?_
    simp only [Function.comp]
    split
    · rename_i hx; exact hx.symm
    · rfl
  · have hr : WellKeyed (removeEntry e.key l) := h.sublist List.filter_sublist
    refine hr.insert (lt_of_lt_of_le (removeEntry_length hk) h.1) ?_
    simp [removeEntry]

/-! ### The relation -/

/-- What an application or a sweep leaves of the state. -/
structure TableStep (s t : State) : Prop where
  clock : t.clock = s.clock
  pins : t.pins = s.pins
  startup : t.startup = s.startup
  loader : t.loader = s.loader
  cfg : t.cfg = s.cfg
  cfgInForce : t.cfgInForce = s.cfgInForce
  rx : t.rx = s.rx
  rng : t.rng = s.rng
  quiet : t.quiet = s.quiet
  cau : t.cau = s.cau
  seen : t.seen = s.seen
  relayQ : t.relayQ = s.relayQ
  lock : t.lock = s.lock
  composer : t.composer.state = s.composer.state
  rows : t.rows = s.rows
  ctl : t.ctl = s.ctl
  engine : t.engine = s.engine
  monitor : t.monitor = s.monitor
  account : t.account = s.account
  pending : t.pending = s.pending
  replies : t.maint.replies = s.maint.replies
  seq : t.maint.seq = s.maint.seq
  counters : CountersInRange s → CountersInRange t
  table : TableInRange s → TableInRange t

namespace TableStep

theorem refl (s : State) : TableStep s s :=
  ⟨rfl, rfl, rfl, rfl, rfl, rfl, rfl, rfl, rfl, rfl, rfl, rfl, rfl, rfl, rfl, rfl, rfl, rfl, rfl, rfl, rfl, rfl, id, id⟩

theorem trans {s t u : State} (a : TableStep s t) (b : TableStep t u) : TableStep s u where
  clock := b.clock.trans a.clock
  pins := b.pins.trans a.pins
  startup := b.startup.trans a.startup
  loader := b.loader.trans a.loader
  cfg := b.cfg.trans a.cfg
  cfgInForce := b.cfgInForce.trans a.cfgInForce
  rx := b.rx.trans a.rx
  rng := b.rng.trans a.rng
  quiet := b.quiet.trans a.quiet
  cau := b.cau.trans a.cau
  seen := b.seen.trans a.seen
  relayQ := b.relayQ.trans a.relayQ
  lock := b.lock.trans a.lock
  composer := b.composer.trans a.composer
  rows := b.rows.trans a.rows
  ctl := b.ctl.trans a.ctl
  engine := b.engine.trans a.engine
  monitor := b.monitor.trans a.monitor
  account := b.account.trans a.account
  pending := b.pending.trans a.pending
  replies := b.replies.trans a.replies
  seq := b.seq.trans a.seq
  counters := fun h => b.counters (a.counters h)
  table := fun h => b.table (a.table h)

end TableStep

theorem count_tableStep (k : Counter) (s : State) : TableStep s (s.count k) :=
  ⟨rfl, rfl, rfl, rfl, rfl, rfl, rfl, rfl, rfl, rfl, rfl, rfl, rfl, rfl, rfl, rfl, rfl, rfl, rfl, rfl, rfl, rfl,
    count_counters k s, id⟩

theorem setTable_tableStep (l : List DepEntry) (s : State) (h : WellKeyed s.table → WellKeyed l) :
    TableStep s (s.setTable l) :=
  ⟨rfl, rfl, rfl, rfl, rfl, rfl, rfl, rfl, rfl, rfl, rfl, rfl, rfl, rfl, rfl, rfl, rfl, rfl, rfl, rfl, rfl, rfl, id, h⟩

theorem countMany_tableStep (k : Counter) (m : Nat) (s : State) : TableStep s (s.countMany k m) := by
  unfold State.countMany
  induction m generalizing s with
  | zero => exact .refl s
  | succ m ih => exact (count_tableStep k s).trans (ih _)

theorem setWall_tableStep (tod : Nat) (f : Frame) (t : Tick) (s : State) : TableStep s (s.setWall tod f t) :=
  ⟨rfl, rfl, rfl, rfl, rfl, rfl, rfl, rfl, rfl, rfl, rfl, rfl, rfl, rfl, rfl, rfl, rfl, rfl, rfl, rfl, rfl, rfl, id, id⟩

theorem insertNew_tableStep (e : DepEntry) (s : State) (hk : findEntry e.key s.table = none) :
    TableStep s (s.insertNew e) := by
  have hn := findEntry_none hk
  unfold State.insertNew
  split
  · rename_i hl
    exact (setTable_tableStep _ s fun h => h.insert hl hn).trans (count_tableStep _ _)
  · split
    · split
      · refine ((setTable_tableStep _ s fun h => ?_).trans (count_tableStep _ _)).trans (count_tableStep _ _)
        have hs : WellKeyed s.table.dropLast := h.sublist (List.dropLast_sublist _)
        refine hs.insert ?_ ?_
        · rename_i last hlast _
          have : s.table ≠ [] := by intro h0; simp [h0] at hlast
          have := List.length_pos_of_ne_nil this
          have := h.1
          simp only [List.length_dropLast]; omega
        · exact fun hm => hn (List.mem_map.2 (by
            obtain ⟨x, hx, hxe⟩ := List.mem_map.1 hm
            exact ⟨x, List.dropLast_subset _ hx, hxe⟩))
      · exact count_tableStep _ s
    · exact count_tableStep _ s

theorem applyTo_tableStep (old e : DepEntry) (s : State) (hk : e.key ∈ s.table.map (·.key)) :
    TableStep s (s.applyTo old e) :=
  (setTable_tableStep _ s fun h => h.replace hk).trans (count_tableStep _ _)

theorem findEntry_mem_keys {k : Key} {l : List DepEntry} {e : DepEntry} (h : findEntry k l = some e) :
    k ∈ l.map (·.key) :=
  List.mem_map.2 ⟨e, (findEntry_some h).1, (findEntry_some h).2⟩

theorem applyReport_tableStep (f : Frame) (t : Tick) (trip : Nat) (r : Int) (c : Bool) (bay : Option Nat)
    (notes : Option Notes) (s : State) : TableStep s (s.applyReport f t trip r c bay notes) := by
  unfold State.applyReport
  dsimp only
  split
  · exact .refl s
  · split
    · exact count_tableStep _ s
    · split
      · rename_i h; exact insertNew_tableStep _ s h
      · rename_i h
        split
        · exact applyTo_tableStep _ _ s (findEntry_mem_keys h)
        · exact count_tableStep _ s

theorem applyAmendment_tableStep (f : Frame) (t : Tick) (trip : Nat) (r : Option Int) (bay : Option Nat)
    (notes : Option Notes) (c : Option Bool) (s : State) :
    TableStep s (s.applyAmendment f t trip r bay notes c) := by
  unfold State.applyAmendment
  split
  · exact .refl s
  · split
    · exact count_tableStep _ s
    · split
      · exact count_tableStep _ s
      · rename_i h
        split
        · exact count_tableStep _ s
        · split
          · exact count_tableStep _ s
          · split
            · exact count_tableStep _ s
            · refine applyTo_tableStep _ _ s ?_
              have := findEntry_some h
              exact List.mem_map.2 ⟨_, this.1, rfl⟩

theorem applyItem_tableStep (f : Frame) (t : Tick) (i : Nat × Int) (s : State) : TableStep s (s.applyItem f t i) := by
  unfold State.applyItem
  dsimp only
  split
  · exact count_tableStep _ s
  · split
    · rename_i h; exact insertNew_tableStep _ s h
    · rename_i h
      split
      · exact count_tableStep _ s
      · split
        · exact count_tableStep _ s
        · exact applyTo_tableStep _ _ s (findEntry_mem_keys h)

theorem applyItems_tableStep (f : Frame) (t : Tick) (l : List (Nat × Int)) (s : State) :
    TableStep s (s.applyItems f t l) := by
  induction l generalizing s with
  | nil => exact .refl s
  | cons i rest ih => exact (applyItem_tableStep f t i s).trans (ih _)

theorem applyBundle_tableStep (f : Frame) (t : Tick) (tod : Nat) (l : List (Nat × Int)) (s : State) :
    TableStep s (s.applyBundle f t tod l) := by
  unfold State.applyBundle
  dsimp only
  split
  · split
    · exact countMany_tableStep _ _ s
    · exact .refl s
  · split
    · exact (setWall_tableStep tod f t s).trans (applyItems_tableStep f t l _)
    · exact setWall_tableStep tod f t s

/-- An application does no more than this. -/
theorem applyFrame_tableStep (f : Frame) (t : Tick) (s : State) : TableStep s (s.applyFrame f t) := by
  unfold State.applyFrame
  split
  · exact applyReport_tableStep ..
  · exact applyAmendment_tableStep ..
  · exact applyBundle_tableStep ..
  all_goals exact .refl s

theorem sweptTable_wellKeyed (now : Tick) (l : List DepEntry) (h : WellKeyed l) : WellKeyed (sweptTable now l) :=
  h.of_keys (sweptTable_keys now l)

/-- A sweep does no more than this. -/
theorem sweep_tableStep (s : State) : TableStep s s.sweep :=
  (setTable_tableStep _ s (sweptTable_wellKeyed s.clock s.table)).trans
    ⟨rfl, rfl, rfl, rfl, rfl, rfl, rfl, rfl, rfl, rfl, rfl, rfl, rfl, rfl, rfl, rfl, rfl, rfl, rfl, rfl, rfl, rfl, id, id⟩

end Sys2Proof.Machine
end

