-- ==== Sys2Proof/Laws/Blocks.lean ====
section
/-! SUPPORT. What the receiver, the dispatches, the responder, the composer's completion and the drive's completion can do
to the state, said once: `BlockStep` names the fields that stay, and that a safe state stays safe. -/

namespace Sys2Proof.Machine

/-- The bounds of a safe state but for the agreement of the lock with the composer, which the completion of a pass changes
one after the other. -/
structure Bounded (s : State) : Prop where
  energy : EnergyInRange s
  counters : CountersInRange s
  table : TableInRange s
  queues : QueuesInRange s
  grounded : GroundedOutsideDrive s
  aborts : AbortsInRange s
  pointers : PointersInRange s
  latch : LatchInRange s
  rows : RowsInRange s
  buffers : BuffersInRange s
  frames : FramesInStep s

theorem Safe.bounded {s : State} (h : Safe s) : Bounded s :=
  ⟨h.energy, h.counters, h.table, h.queues, h.grounded, h.aborts, h.pointers, h.latch, h.rows, h.buffers, h.frames⟩

theorem Bounded.safe {s : State} (h : Bounded s) (hl : LockFollowsPass s) : Safe s :=
  ⟨h.energy, h.counters, h.table, h.queues, h.grounded, hl, h.aborts, h.pointers, h.latch, h.rows, h.buffers, h.frames⟩

theorem Bounded.rx {s : State} (h : Bounded s) : RxAgrees s.rx := (buffersInRange_iff s).1 h.buffers

/-- The fields that the bounds read. -/
theorem Bounded.congr {s t : State} (h : Bounded s) (account : t.account.e = s.account.e := by rfl)
    (cfg : t.cfg = s.cfg := by rfl) (maint : t.maint = s.maint := by rfl)
    (table : (t.table.map (·.key)).Sublist (s.table.map (·.key)) := by exact .refl _)
    (relayQ : t.relayQ = s.relayQ := by rfl) (seen : t.seen = s.seen := by rfl)
    (engine : t.engine.state = s.engine.state := by rfl) (bus : t.engine.bus = s.engine.bus := by rfl)
    (waveform : t.engine.waveform = s.engine.waveform := by rfl) (refresh : t.engine.refresh = s.engine.refresh := by rfl)
    (aborts : t.monitor.aborts = s.monitor.aborts := by rfl) (counts : rowCounters t = rowCounters s := by rfl)
    (pointer : t.ctl.pointer = s.ctl.pointer := by rfl) (grant : t.ctl.grantPointer = s.ctl.grantPointer := by rfl)
    (accepted : t.rx.accepted = s.rx.accepted := by rfl) (bufA : t.rx.bufA = s.rx.bufA := by rfl)
    (bufB : t.rx.bufB = s.rx.bufB := by rfl) (reception : t.rx.reception = s.rx.reception := by rfl)
    (startup : t.startup.state = s.startup.state := by rfl) : Bounded t := by
  have hf : FramesKept s t := .of_eq seen relayQ (by rw [maint]) accepted bufA bufB reception
  refine ⟨?_, ?_, WellKeyed.of_keys h.table table, ?_, ?_, ?_, ?_, ?_, ?_, ?_, fun hn => ?_⟩
  · unfold EnergyInRange; rw [account, cfg]; exact h.energy
  · unfold CountersInRange; rw [maint]; exact h.counters
  · unfold QueuesInRange; rw [maint, relayQ]; exact h.queues
  · unfold GroundedOutsideDrive; rw [engine, bus]; exact h.grounded
  · unfold AbortsInRange; rw [engine, aborts]; exact h.aborts
  · unfold PointersInRange; rw [pointer, grant, cfg]; exact h.pointers
  · unfold LatchInRange; rw [cfg, waveform, engine, refresh, counts]; exact h.latch
  · unfold RowsInRange; rw [cfg, counts]; exact h.rows
  · exact (buffersInRange_iff t).2 (hf.rx.agrees h.rx)
  · exact hf.keeps h.rx (h.frames (startup ▸ hn))

/-- The fields that neither a block's operation nor a pass touches. -/
structure KeepsBase (s t : State) : Prop where
  clock : t.clock = s.clock
  pins : t.pins = s.pins
  startup : t.startup = s.startup
  loader : t.loader = s.loader
  cfg : t.cfg = s.cfg
  cfgInForce : t.cfgInForce = s.cfgInForce
  pending : t.pending = s.pending

theorem KeepsBase.refl (s : State) : KeepsBase s s := ⟨rfl, rfl, rfl, rfl, rfl, rfl, rfl⟩

theorem KeepsBase.trans {s t u : State} (a : KeepsBase s t) (b : KeepsBase t u) : KeepsBase s u where
  clock := b.clock.trans a.clock
  pins := b.pins.trans a.pins
  startup := b.startup.trans a.startup
  loader := b.loader.trans a.loader
  cfg := b.cfg.trans a.cfg
  cfgInForce := b.cfgInForce.trans a.cfgInForce
  pending := b.pending.trans a.pending

/-- The fields that a block's operation does not touch, the lock and the composer moving together. -/
structure BaseStep (s t : State) : Prop extends KeepsBase s t where
  lock : LockMove s t

namespace BaseStep

theorem refl (s : State) : BaseStep s s := ⟨.refl s, .refl s⟩

theorem trans {s t u : State} (a : BaseStep s t) (b : BaseStep t u) : BaseStep s u :=
  ⟨a.toKeepsBase.trans b.toKeepsBase, a.lock.trans b.lock⟩

end BaseStep

/-- What a block's operation leaves of the state. -/
structure BlockStep (s t : State) : Prop extends BaseStep s t where
  bounds : Bounded s → Bounded t

namespace BlockStep

theorem refl (s : State) : BlockStep s s := ⟨.refl s, id⟩

theorem trans {s t u : State} (a : BlockStep s t) (b : BlockStep t u) : BlockStep s u :=
  ⟨a.toBaseStep.trans b.toBaseStep, fun h => b.bounds (a.bounds h)⟩

theorem safe {s t : State} (a : BlockStep s t) (h : Safe s) : Safe t :=
  (a.bounds h.bounded).safe (a.lock.follows h.lock)

theorem base {s t : State} (a : BlockStep s t) : KeepsBase s t := a.toKeepsBase

end BlockStep

theorem WorkStep.block {s t : State} (a : WorkStep s t) : BlockStep s t where
  clock := a.clock
  pins := a.pins
  startup := a.startup
  loader := a.loader
  cfg := a.cfg
  cfgInForce := a.cfgInForce
  pending := a.pending
  lock := a.lock
  bounds := fun h =>
    { energy := by unfold EnergyInRange; rw [a.cfg]; exact a.energy.trans h.energy
      counters := a.counters h.counters
      table := WellKeyed.of_keys h.table a.keys
      queues := ⟨a.replies.trans h.queues.1, a.relays.trans h.queues.2⟩
      grounded := a.grounded h.grounded
      aborts := a.aborts h.aborts
      pointers := a.pointers h.pointers
      latch := a.latch h.latch
      rows := by unfold RowsInRange; rw [a.cfg, a.counts]; exact h.rows
      buffers := (buffersInRange_iff t).2 (a.frames.rx.agrees h.rx)
      frames := fun hn => a.frames.keeps h.rx (h.frames (a.startup ▸ hn)) }

theorem ChannelStep.block {s t : State} (a : ChannelStep s t) : BlockStep s t := a.work.block

theorem TableStep.block {s t : State} (a : TableStep s t) : BlockStep s t where
  clock := a.clock
  pins := a.pins
  startup := a.startup
  loader := a.loader
  cfg := a.cfg
  cfgInForce := a.cfgInForce
  pending := a.pending
  lock := .of_eq a.lock a.composer
  bounds := fun h =>
    have hf : FramesKept s t :=
      .of_eq a.seen a.relayQ a.replies (by rw [a.rx]) (by rw [a.rx]) (by rw [a.rx]) (by rw [a.rx])
    have hc : rowCounters t = rowCounters s := by unfold rowCounters; rw [a.rows]
    { energy := by unfold EnergyInRange; rw [a.cfg, a.account]; exact h.energy
      counters := a.counters h.counters
      table := a.table h.table
      queues := by unfold QueuesInRange; rw [a.replies, a.relayQ]; exact h.queues
      grounded := by unfold GroundedOutsideDrive; rw [a.engine]; exact h.grounded
      aborts := by unfold AbortsInRange; rw [a.engine, a.monitor]; exact h.aborts
      pointers := by unfold PointersInRange; rw [a.ctl, a.cfg]; exact h.pointers
      latch := h.latch.congr a.cfg a.engine hc
      rows := by unfold RowsInRange; rw [a.cfg, hc]; exact h.rows
      buffers := (buffersInRange_iff t).2 (hf.rx.agrees h.rx)
      frames := fun hn => hf.keeps h.rx (h.frames (a.startup ▸ hn)) }

/-- The bounds after an operation on the receive buffers, the queues and the seen table. -/
theorem Bounded.of_frames {s t : State} (h : Bounded s) (hq : QueuesInRange t) (hr : RxAgrees t.rx)
    (hf : FramesMatch s → FramesMatch t) (hc : CountersInRange s → CountersInRange t)
    (account : t.account = s.account := by rfl) (cfg : t.cfg = s.cfg := by rfl) (table : t.table = s.table := by rfl)
    (engine : t.engine = s.engine := by rfl) (monitor : t.monitor = s.monitor := by rfl) (rows : t.rows = s.rows := by rfl)
    (ctl : t.ctl = s.ctl := by rfl) (startup : t.startup = s.startup := by rfl) : Bounded t := by
  have hcount : rowCounters t = rowCounters s := by unfold rowCounters; rw [rows]
  refine ⟨?_, hc h.counters, ?_, hq, ?_, ?_, ?_, h.latch.congr cfg engine hcount, ?_, (buffersInRange_iff t).2 hr,
    fun hn => hf (h.frames (startup ▸ hn))⟩
  · unfold EnergyInRange; rw [account, cfg]; exact h.energy
  · unfold TableInRange; rw [table]; exact h.table
  · unfold GroundedOutsideDrive; rw [engine]; exact h.grounded
  · unfold AbortsInRange; rw [engine, monitor]; exact h.aborts
  · unfold PointersInRange; rw [ctl, cfg]; exact h.pointers
  · unfold RowsInRange; rw [cfg, hcount]; exact h.rows

/-- The keys of the frames whose dispatch waits, those of the relays that wait, and room for one more entry beside them. -/
theorem Bounded.room {s : State} (h : Bounded s) : (s.relayQ.map (·.key)).length + s.rx.heldKeys.length < 64 := by
  have h1 := h.queues.2
  have h2 := s.rx.heldKeys_length h.rx.once
  simp only [List.length_map]
  omega

/-! ### The receiver's and the queues' fields -/

/-- A change of the receiver that keeps its accepted frames and its window. -/
theorem rx_channelStep (r : Receiver) (s : State) (hk : RxKept s.rx r) (h : r.window = s.rx.window) :
    ChannelStep s { s with rx := r } := .of (.of_rx hk rfl rfl rfl) (window := h)

theorem setReception_channelStep (r : Reception) (s : State)
    (h : ∀ id, receivingInto r = some id → receivingInto s.rx.reception = some id) : ChannelStep s (s.setReception r) :=
  rx_channelStep _ s (.of_buffers rfl rfl rfl h) rfl

theorem drop_channelStep (id : BufId) (k : Counter) (s : State) (h : receivingInto s.rx.reception = some id) :
    ChannelStep s (s.drop id k) := (freeBuffer_step id s h).trans (count_step k _)

theorem storeChar_channelStep (target : RxTarget) (ch : Byte) (s : State)
    (h : ∀ id, target = .buffer id → receivingInto s.rx.reception = some id) : ChannelStep s (s.storeChar target ch) := by
  cases target with
  | buffer id =>
    have h := h id rfl
    cases id <;>
      exact rx_channelStep _ s ⟨rfl, fun _ hr => hr, fun i hi => by cases i <;> first | rfl | exact absurd h hi⟩ rfl
  | overrun => exact .refl s

/-! ### Operations on a buffer that neither an accepted frame nor a reception has -/

theorem freeBuffer_base (id : BufId) (s : State) : BaseStep s (s.freeBuffer id) := by
  cases id <;> exact ⟨⟨rfl, rfl, rfl, rfl, rfl, rfl, rfl⟩, .of_eq rfl rfl⟩

theorem drop_base (id : BufId) (k : Counter) (s : State) : BaseStep s (s.drop id k) :=
  (freeBuffer_base id s).trans (count_step k _).block.toBaseStep

@[simp] theorem freeBuffer_accepted (id : BufId) (s : State) : (s.freeBuffer id).rx.accepted = s.rx.accepted := by
  cases id <;> rfl

@[simp] theorem freeBuffer_reception (id : BufId) (s : State) : (s.freeBuffer id).rx.reception = s.rx.reception := by
  cases id <;> rfl

theorem freeBuffer_other {id i : BufId} (s : State) (h : i ≠ id) : (s.freeBuffer id).rx.buffer i = s.rx.buffer i := by
  cases id <;> cases i <;> first | rfl | exact absurd rfl h

theorem freeBuffer_bounds (id : BufId) (s : State) (hn : id ∉ s.rx.accepted) (h : Bounded s) :
    Bounded (s.freeBuffer id) := by
  have hb : ∀ i ∈ s.rx.accepted, (s.freeBuffer id).rx.buffer i = s.rx.buffer i := fun i hi =>
    freeBuffer_other s fun he => hn (he ▸ hi)
  have hk : (s.freeBuffer id).rx.heldKeys = s.rx.heldKeys := by
    unfold Receiver.heldKeys
    rw [freeBuffer_accepted]
    exact List.filterMap_congr fun i hi => by rw [hb i hi]
  have hr : RxAgrees (s.freeBuffer id).rx := by
    refine ⟨by rw [freeBuffer_accepted]; exact h.rx.once, fun i hi => ?_, fun i hi => ?_⟩ <;>
      rw [freeBuffer_accepted] at hi
    · rw [hb i hi]; exact h.rx.stands i hi
    · rw [freeBuffer_reception]; exact h.rx.apart i hi
  have hf : FramesMatch s → FramesMatch (s.freeBuffer id) := by
    intro hf
    rw [framesMatch_iff] at hf ⊢
    rw [hk]
    cases id <;> exact hf
  cases id <;> exact h.of_frames h.queues hr hf fun hc => hc

theorem drop_bounds (id : BufId) (k : Counter) (s : State) (hn : id ∉ s.rx.accepted) (h : Bounded s) :
    Bounded (s.drop id k) := (count_step k _).block.bounds (freeBuffer_bounds id s hn h)

/-- A new DAMAGED entry (R21). -/
theorem markDamaged_block (f : Frame) (s : State) : BlockStep s (s.markDamaged f) := by
  unfold State.markDamaged
  split
  · rename_i hs
    refine ⟨⟨⟨rfl, rfl, rfl, rfl, rfl, rfl, rfl⟩, .of_eq rfl rfl⟩, fun h => h.of_frames h.queues h.rx (fun hf => ?_) id⟩
    rw [framesMatch_iff] at hf ⊢
    exact ⟨hf.1.create (e := ⟨f.origin, f.seq, .damaged, 0, s.clock, false⟩) h.room (findSeen_none hs) (Nat.zero_le _)
      (by simp) (by simp) rfl, hf.2⟩
  · exact .refl s

theorem markHeard_base (f : Frame) (p : Bool) (s : State) : BaseStep s (s.markHeard f p) :=
  ⟨⟨rfl, rfl, rfl, rfl, rfl, rfl, rfl⟩, .of_eq rfl rfl⟩

/-- The key of a first copy is not held, or held as DAMAGED (R19). -/
def FirstCopy (f : Frame) (s : State) : Prop := ∀ e, findSeen f.origin f.seq s.seen = some e → e.state = .damaged

theorem markHeard_bounds (f : Frame) (s : State) (hd : FirstCopy f s) (h : Bounded s) : Bounded (s.markHeard f false) := by
  refine h.of_frames h.queues h.rx (fun hf => ?_) id
  rw [framesMatch_iff] at hf ⊢
  exact ⟨by simpa [State.markHeard] using hf.1.make h.room hd s.clock false, hf.2⟩

/-- The fields of the receiver after a dispatch is complete. -/
theorem takeBuffer_rx (id : BufId) (s : State) :
    (s.takeBuffer id).rx.accepted = s.rx.accepted.filter (· ≠ id) ∧
    (s.takeBuffer id).rx.reception = s.rx.reception ∧ ∀ i, i ≠ id → (s.takeBuffer id).rx.buffer i = s.rx.buffer i := by
  refine ⟨by cases id <;> rfl, by cases id <;> rfl, fun i hi => ?_⟩
  cases id <;> cases i <;> first | rfl | exact absurd rfl hi

theorem takeBuffer_agrees (id : BufId) (s : State) (h : RxAgrees s.rx) : RxAgrees (s.takeBuffer id).rx := by
  obtain ⟨hacc, hrec, hoth⟩ := takeBuffer_rx id s
  refine ⟨by rw [hacc]; exact h.once.filter _, fun i hi => ?_, fun i hi => ?_⟩ <;>
    rw [hacc, List.mem_filter, decide_eq_true_iff] at hi
  · rw [hoth i hi.2]; exact h.stands i hi.1
  · rw [hrec]; exact h.apart i hi.1

theorem takeBuffer_base (id : BufId) (s : State) : BaseStep s (s.takeBuffer id) := by
  cases id <;> exact ⟨⟨rfl, rfl, rfl, rfl, rfl, rfl, rfl⟩, .of_eq rfl rfl⟩

/-- The dispatch of an accepted request is complete (R17, R23): its buffer held no departure frame. -/
theorem takeBuffer_block (id : BufId) (s : State) (hk : departureKey (bufferOf s id) = none) : BlockStep s (s.takeBuffer id) := by
  refine ⟨takeBuffer_base id s, fun h => ?_⟩
  obtain ⟨hacc, _, hoth⟩ := takeBuffer_rx id s
  have hkeys : (s.takeBuffer id).rx.heldKeys = s.rx.heldKeys := by
    unfold Receiver.heldKeys
    rw [hacc, List.filterMap_filter]
    refine List.filterMap_congr fun i _ => ?_
    by_cases hi : i = id
    · rw [← hi, bufferOf_eq] at hk
      simp [hi ▸ hk, hi]
    · simp [hi, hoth i hi]
  have hf : FramesMatch s → FramesMatch (s.takeBuffer id) := by
    intro hf
    rw [framesMatch_iff] at hf ⊢
    rw [hkeys]
    cases id <;> exact hf
  have hr := takeBuffer_agrees id s h.rx
  cases id <;> exact h.of_frames h.queues hr hf fun hc => hc

/-! ### Replies -/

/-- A reply joins a queue that has room. -/
theorem joinReply_block (o q : Word16) (echo : Nat) (r : Result) (p : List Byte) (s : State)
    (hr : replyQueueFull s = false) : BlockStep s (s.joinReply o q echo r p) := by
  refine ⟨⟨⟨rfl, rfl, rfl, rfl, rfl, rfl, rfl⟩, .of_eq rfl rfl⟩, fun h => ?_⟩
  simp only [replyQueueFull, decide_eq_false_iff_not, not_le] at hr
  refine h.of_frames ⟨by simp [State.joinReply]; omega, h.queues.2⟩ h.rx (fun hf => ?_) id
  rw [framesMatch_iff] at hf ⊢
  refine ⟨hf.1, hf.2.1, fun x hx => ?_⟩
  rcases List.mem_append.1 hx with hx | hx
  · exact hf.2.2 x hx
  · rw [List.mem_singleton.1 hx]; exact Nat.zero_lt_succ 7

theorem refuseRequest_block (o q : Word16) (r : Result) (s : State) : BlockStep s (refuseRequest o q r s) := by
  unfold refuseRequest
  split
  · exact .refl s
  · rename_i h
    exact (joinReply_block o q 0 r [] s (by simpa using h)).trans (offerCandidate_step _).block

/-- What serving a request may do: no more than a block's operation, and the reply queue does not grow. -/
def ServesWell (serve : Request → State → Served) : Prop :=
  ∀ q s, BlockStep s (serve q s).state ∧
    ((serve q s).state.maint.replies.length ≤ s.maint.replies.length)

theorem answer_block (serve : Request → State → Served) (hs : ServesWell serve) (q : Request) (s : State) :
    BlockStep s (answer serve q s) := by
  unfold answer
  split
  · exact .refl s
  · rename_i h
    have hq : replyQueueFull s = false := by simpa using h
    split
    · exact (joinReply_block _ _ _ _ _ s hq).trans (offerCandidate_step _).block
    · dsimp only
      refine (hs q s).1.trans (BlockStep.trans (joinReply_block _ _ _ _ _ _ ?_) (offerCandidate_step _).block)
      have := (hs q s).2
      simp only [replyQueueFull, decide_eq_false_iff_not, not_le] at hq ⊢
      omega

/-- A request is no departure frame. -/
theorem requestOf_departureKey {b : Option RxBuffer} {q : Request} (h : b.bind (fun b => requestOf b.bytes) = some q) :
    departureKey b = none := by
  cases b with
  | none => rfl
  | some b =>
    simp only [Option.bind_some, requestOf] at h
    split at h
    · rename_i hk
      simp [departureKey, Frame.isDeparture, hk]
    · cases h

/-- The buffer of a request that is found holds no departure frame. -/
theorem findRequest_departureKey {p : Nat → Bool} {s : State} {id : BufId} {q : Request}
    (h : findRequest p s = some (id, q)) : departureKey (bufferOf s id) = none := by
  obtain ⟨i, _, hi⟩ := List.exists_of_findSome?_eq_some h
  split at hi
  · rename_i hq
    split at hi
    · obtain ⟨rfl, rfl⟩ := Prod.mk.inj (Option.some.inj hi)
      exact requestOf_departureKey hq
    · cases hi
  · cases hi

theorem takeRequest_block (p : Nat → Bool) (serve : Request → State → Served) (hs : ServesWell serve) (s : State) :
    BlockStep s (takeRequest p serve s) := by
  unfold takeRequest
  split
  · rename_i hf
    exact (takeBuffer_block _ s (findRequest_departureKey hf)).trans (answer_block serve hs _ _)
  · exact .refl s

theorem serveStatus_well : ServesWell serveStatus := fun _ s => ⟨.refl s, le_refl _⟩

theorem serveTable_well : ServesWell serveTable := by
  intro q s
  unfold serveTable
  split <;> exact ⟨.refl s, le_refl _⟩

theorem countersZero : ∀ n ∈ countersList Counters.zero, n ≤ 65535 := by
  intro n hn
  simp [countersList, Counters.zero] at hn
  omega

theorem serveClear_well : ServesWell serveClear := fun _ _ =>
  ⟨⟨⟨⟨rfl, rfl, rfl, rfl, rfl, rfl, rfl⟩, .of_eq rfl rfl⟩,
    fun h => h.of_frames h.queues h.rx (fun hf => ⟨hf.seen, hf.relays, hf.dispatches, hf.deferrals⟩) fun _ => countersZero⟩,
    le_refl _⟩

theorem serveRefresh_well : ServesWell serveRefresh := by
  intro q s
  unfold serveRefresh
  split
  · exact ⟨.refl s, le_refl _⟩
  · have h := (requestClear_step .ordinary s).trans (select_step _)
    exact ⟨h.block, h.replies⟩

theorem serveUnknown_well : ServesWell serveUnknown := fun _ s => ⟨.refl s, le_refl _⟩

/-! ### The validation chain and the characters of a frame -/

theorem refuseIfRequest_block (f : Frame) (r : Result) (s : State) : BlockStep s (refuseIfRequest f r s) := by
  unfold refuseIfRequest
  split
  · exact refuseRequest_block _ _ r s
  · exact .refl s

/-- A frame that stands in a buffer of its own: one that no accepted frame has and no reception fills. -/
structure StandsIn (id : BufId) (l : List Byte) (s : State) : Prop where
  free : id ∉ s.rx.accepted
  apart : receivingInto s.rx.reception ≠ some id
  stands : ∃ t, s.rx.buffer id = some ⟨l, t⟩

theorem acceptFrame_base (id : BufId) (f : Frame) (s : State) : BaseStep s (acceptFrame id f s) := by
  have h := (count_step .rxOk s).block.toBaseStep.trans (markHeard_base f f.isDeparture _)
  unfold acceptFrame
  dsimp only
  split
  · exact h.trans (freeBuffer_base id _)
  · exact h.trans (by cases id <;> exact ⟨⟨rfl, rfl, rfl, rfl, rfl, rfl, rfl⟩, .of_eq rfl rfl⟩)

theorem acceptFrame_bounds (id : BufId) (f : Frame) (l : List Byte) (s : State) (hd : FirstCopy f s) (hs : StandsIn id l s)
    (hl : readFrame l = f) (h : Bounded s) : Bounded (acceptFrame id f s) := by
  have hc : Bounded (s.count .rxOk) := (count_step .rxOk s).block.bounds h
  unfold acceptFrame
  dsimp only
  split
  · rename_i h5
    have hdep : f.isDeparture = false := by simp [Frame.isDeparture, h5]
    rw [hdep]
    exact freeBuffer_bounds id _ hs.free (markHeard_bounds f _ hd hc)
  · generalize hu : s.count .rxOk = u at hc
    have hrx : u.rx = s.rx := by rw [← hu]; rfl
    have hdu : FirstCopy f u := by rw [← hu]; exact hd
    obtain ⟨t, ht⟩ := hs.stands
    have hfree : id ∉ u.rx.accepted := hrx ▸ hs.free
    set v := (u.markHeard f f.isDeparture).holdAccepted id with hv
    have hacc : v.rx.accepted = u.rx.accepted ++ [id] := by cases id <;> rfl
    have hrec : v.rx.reception = u.rx.reception := by cases id <;> rfl
    have hoth : ∀ i ∈ u.rx.accepted, v.rx.buffer i = u.rx.buffer i := by
      intro i hi
      have : i ≠ id := fun he => hfree (he ▸ hi)
      cases id <;> cases i <;> first | rfl | exact absurd rfl this
    have hself : v.rx.buffer id = some ⟨l, some u.clock⟩ := by
      rw [← hrx] at ht
      cases id
      · change u.rx.bufA = _ at ht
        simp [hv, State.holdAccepted, State.updateBuffer, State.markHeard, Receiver.buffer, ht]
      · change u.rx.bufB = _ at ht
        simp [hv, State.holdAccepted, State.updateBuffer, State.markHeard, Receiver.buffer, ht]
    have hr : RxAgrees v.rx := by
      refine ⟨?_, fun i hi => ?_, fun i hi => ?_⟩
      · rw [hacc, List.nodup_append]
        exact ⟨hc.rx.once, by simp, fun i hi j hj => by simp at hj; subst hj; exact fun he => hfree (he ▸ hi)⟩
      · rw [hacc] at hi
        rcases List.mem_append.1 hi with hi | hi
        · rw [hoth i hi]; exact hc.rx.stands i hi
        · rw [List.mem_singleton.1 hi, hself]; simp
      · rw [hacc] at hi
        rw [hrec]
        rcases List.mem_append.1 hi with hi | hi
        · exact hc.rx.apart i hi
        · rw [List.mem_singleton.1 hi, hrx]; exact hs.apart
    have hkeys : v.rx.heldKeys = if f.isDeparture then u.rx.heldKeys ++ [(f.origin, f.seq)] else u.rx.heldKeys := by
      unfold Receiver.heldKeys
      rw [hacc, List.filterMap_append]
      have h1 : u.rx.accepted.filterMap (fun i => departureKey (v.rx.buffer i)) =
          u.rx.accepted.filterMap (fun i => departureKey (u.rx.buffer i)) :=
        List.filterMap_congr fun i hi => by rw [hoth i hi]
      rw [h1]
      cases hdep : f.isDeparture <;> simp [hself, departureKey, hl, hdep]
    have hf : FramesMatch u → FramesMatch v := by
      intro hf
      rw [framesMatch_iff] at hf ⊢
      rw [hkeys]
      have := hf.1.make hc.room hdu u.clock f.isDeparture
      cases id <;> exact ⟨this, hf.2⟩
    cases id <;> exact hc.of_frames hc.queues hr hf fun hc => hc

theorem firstCopy_base (id : BufId) (f : Frame) (s : State) : BaseStep s (firstCopy id f s) := by
  unfold firstCopy
  split
  · exact drop_base id _ s
  · split
    · exact ((drop_base id _ s).trans (markDamaged_block f _).toBaseStep).trans (refuseIfRequest_block f _ _).toBaseStep
    · split
      · exact ((drop_base id _ s).trans (markHeard_base f _ _)).trans (refuseIfRequest_block f _ _).toBaseStep
      · exact acceptFrame_base id f s

theorem firstCopy_bounds (id : BufId) (f : Frame) (l : List Byte) (s : State) (hd : FirstCopy f s) (hs : StandsIn id l s)
    (hl : readFrame l = f) (h : Bounded s) : Bounded (firstCopy id f s) := by
  have hdrop : ∀ k, FirstCopy f (s.drop id k) := fun k => by cases id <;> exact hd
  unfold firstCopy
  split
  · exact drop_bounds id _ s hs.free h
  · split
    · exact (refuseIfRequest_block f _ _).bounds ((markDamaged_block f _).bounds (drop_bounds id _ s hs.free h))
    · split
      · exact (refuseIfRequest_block f _ _).bounds (markHeard_bounds f _ (hdrop _) (drop_bounds id _ s hs.free h))
      · exact acceptFrame_bounds id f l s hd hs hl h

theorem lookupSeen_base (id : BufId) (f : Frame) (s : State) : BaseStep s (lookupSeen id f s) := by
  unfold lookupSeen
  split
  · split
    · exact firstCopy_base id f s
    · exact (drop_base id _ s).trans ((duplicate_step _ _).trans (recheckAttempt_step _)).block.toBaseStep
  · exact firstCopy_base id f s

theorem lookupSeen_bounds (id : BufId) (f : Frame) (l : List Byte) (s : State) (hs : StandsIn id l s)
    (hl : readFrame l = f) (h : Bounded s) : Bounded (lookupSeen id f s) := by
  unfold lookupSeen
  split
  · rename_i e he
    split
    · rename_i hst
      exact firstCopy_bounds id f l s (fun x hx => by rw [he] at hx; exact Option.some.inj hx ▸ hst) hs hl h
    · exact ((duplicate_step _ _).trans (recheckAttempt_step _)).block.bounds (drop_bounds id _ s hs.free h)
  · rename_i he
    exact firstCopy_bounds id f l s (fun x hx => by rw [he] at hx; cases hx) hs hl h

theorem validate_base (id : BufId) (l : List Byte) (s : State) : BaseStep s (validate id l s) := by
  unfold validate
  dsimp only
  split
  · exact drop_base id _ s
  · split
    · exact drop_base id _ s
    · split
      · exact drop_base id _ s
      · split
        · exact drop_base id _ s
        · exact lookupSeen_base id _ s

theorem validate_bounds (id : BufId) (l : List Byte) (s : State) (hs : StandsIn id l s) (h : Bounded s) :
    Bounded (validate id l s) := by
  unfold validate
  dsimp only
  split
  · exact drop_bounds id _ s hs.free h
  · split
    · exact drop_bounds id _ s hs.free h
    · split
      · exact drop_bounds id _ s hs.free h
      · split
        · exact drop_bounds id _ s hs.free h
        · exact lookupSeen_bounds id _ l s hs rfl h

/-- The end of the frame in reception, with a way of leaving RECEIVING that begins with the end of the reception. -/
theorem frameEndBy_block (leave : State → State) (hl : ∀ u, ChannelStep u.clearReception (leave u)) (target : RxTarget)
    (s : State) (ht : ∀ id, target = .buffer id → receivingInto s.rx.reception = some id) :
    BlockStep s (frameEndBy leave target s) := by
  have hs : ∀ u, ChannelStep u (leave u) := fun u => (clearReception_step u).trans (hl u)
  unfold frameEndBy
  split
  · exact (hs s).block
  · rename_i id
    have hi := ht id rfl
    split
    · exact ((drop_channelStep _ _ s hi).trans (hs _)).block
    · split
      · rename_i b hb
        have h1 := (hs s).block
        refine ⟨h1.toBaseStep.trans (validate_base _ _ _), fun h => validate_bounds _ _ _ ⟨?_, ?_, b.endTick, ?_⟩ (h1.bounds h)⟩
        · rw [(hl s).frames.rx.accepted]
          exact fun hm => h.rx.apart id hm hi
        · exact fun hr => by cases (hl s).frames.rx.into id hr
        · rw [(hl s).frames.rx.kept id nofun]
          rw [bufferOf_eq] at hb
          exact hb
      · exact (hs s).block

theorem frameEnd_block (target : RxTarget) (s : State)
    (ht : ∀ id, target = .buffer id → receivingInto s.rx.reception = some id) : BlockStep s (frameEnd target s) :=
  frameEndBy_block leaveToListen leaveToListen_cleared target s ht

theorem lengthFailure_channelStep (target : RxTarget) (n : Nat) (s : State)
    (ht : ∀ id, target = .buffer id → receivingInto s.rx.reception = some id) :
    ChannelStep s (lengthFailure target n s) := by
  have h : ∀ u : State, ChannelStep u (if n = 0 then leaveToListen u else u.setReception (.skip n)) := by
    intro u
    split
    · exact leaveToListen_step u
    · exact setReception_channelStep _ u nofun
  cases target with
  | buffer id => exact (drop_channelStep id _ s (ht id rfl)).trans (h _)
  | overrun => exact h s

/-- The characters of a frame go on into the buffer they go into. -/
theorem intoSame {target : RxTarget} {s : State} {ch : Byte} {left : Nat}
    (ht : ∀ id, target = .buffer id → receivingInto s.rx.reception = some id) :
    ∀ id, receivingInto (.body target left) = some id → receivingInto (s.storeChar target ch).rx.reception = some id := by
  cases target with
  | buffer id =>
    intro i hi
    obtain rfl : id = i := Option.some.inj hi
    have := ht id rfl
    cases id <;> exact this
  | overrun => nofun

theorem takeLength_channelStep (target : RxTarget) (ch : Byte) (err : Bool) (s : State)
    (ht : ∀ id, target = .buffer id → receivingInto s.rx.reception = some id) :
    ChannelStep s (takeLength target ch err s) := by
  unfold takeLength
  dsimp only
  split
  · exact ((storeChar_channelStep target ch s ht).trans (setReception_channelStep _ _ (intoSame ht))).trans
      (rx_channelStep _ _ (.of_buffers rfl rfl rfl fun _ h => h) rfl)
  · exact lengthFailure_channelStep target _ s ht

theorem joinCharacter_channelStep (target : RxTarget) (ch : Byte) (err : Bool) (s : State)
    (ht : ∀ id, target = .buffer id → receivingInto s.rx.reception = some id) :
    ChannelStep s (s.joinCharacter target ch err) :=
  (storeChar_channelStep target ch s ht).trans (rx_channelStep
    { (s.storeChar target ch).rx with charError := (s.storeChar target ch).rx.charError || err } _
    (.of_buffers rfl rfl rfl fun _ h => h) rfl)

theorem joinCharacter_into (target : RxTarget) (ch : Byte) (err : Bool) (s : State)
    (ht : ∀ id, target = .buffer id → receivingInto s.rx.reception = some id) :
    ∀ id, target = .buffer id → receivingInto (s.joinCharacter target ch err).rx.reception = some id :=
  fun id he => intoSame (left := 0) (ch := ch) ht id (by rw [he]; rfl)

theorem takeBody_block (target : RxTarget) (left : Nat) (ch : Byte) (err : Bool) (s : State)
    (ht : ∀ id, target = .buffer id → receivingInto s.rx.reception = some id) :
    BlockStep s (takeBody target left ch err s) := by
  unfold takeBody
  dsimp only
  have h := joinCharacter_channelStep target ch err s ht
  split
  · exact h.block.trans (frameEnd_block target _ (joinCharacter_into target ch err s ht))
  · exact (h.trans (setReception_channelStep _ _ (intoSame ht))).block

/-- The second sync byte: the frame that begins has a buffer that was free, or none. -/
theorem beginFrame_block (s : State) : BlockStep s (beginFrame s) := by
  have hcount : BlockStep s (s.count .rxOverrun) := (count_step _ s).block
  unfold beginFrame assignBuffer
  dsimp only
  have fresh : ∀ (id : BufId) (r : Receiver), s.rx.buffer id = none → r.accepted = s.rx.accepted →
      (∀ i, i ≠ id → r.buffer i = s.rx.buffer i) → r.reception = .length (.buffer id) →
      BlockStep s { s with rx := r } := by
    intro id r hb ha ho hr
    refine ⟨⟨⟨rfl, rfl, rfl, rfl, rfl, rfl, rfl⟩, .of_eq rfl rfl⟩, fun h => ?_⟩
    have hn : ∀ i ∈ s.rx.accepted, i ≠ id := fun i hi he => h.rx.stands i hi (he ▸ hb)
    have hrx : RxAgrees r := by
      refine ⟨ha ▸ h.rx.once, fun i hi => ?_, fun i hi => ?_⟩ <;> rw [ha] at hi
      · rw [ho i (hn i hi)]; exact h.rx.stands i hi
      · rw [hr]; exact fun he => hn i hi (Option.some.inj he).symm
    have hk : r.heldKeys = s.rx.heldKeys := by
      unfold Receiver.heldKeys
      rw [ha]
      exact List.filterMap_congr fun i hi => by rw [ho i (hn i hi)]
    refine h.of_frames h.queues hrx (fun hf => ?_) fun hc => hc
    rw [framesMatch_iff] at hf ⊢
    exact ⟨hk.symm ▸ hf.1, hf.2⟩
  cases hA : s.rx.bufA with
  | none => exact fresh .a _ hA rfl (by intro i hi; cases i <;> first | rfl | exact absurd rfl hi) rfl
  | some x =>
    cases hB : s.rx.bufB with
    | none => exact fresh .b _ hB rfl (by intro i hi; cases i <;> first | exact hA.symm | exact absurd rfl hi) rfl
    | some y =>
      exact ((count_step .rxOverrun s).trans (rx_channelStep
        { s.rx with state := .receiving, firstSync := false, reception := .length .overrun, charError := false } _
        (.of_buffers rfl rfl rfl nofun) rfl)).block

theorem hunt_block (ch : Byte) (err : Bool) (s : State) : BlockStep s (hunt ch err s) := by
  have h : ∀ b : Bool, BlockStep s { s with rx := { s.rx with firstSync := b } } := fun b =>
    (rx_channelStep { s.rx with firstSync := b } s (.of_buffers rfl rfl rfl fun _ h => h) rfl).block
  unfold hunt
  split
  · exact h true
  · split
    · exact beginFrame_block s
    · exact h false

theorem receive_block (ch : Byte) (err : Bool) (s : State) : BlockStep s (receive ch err s) := by
  unfold receive
  split
  · exact .refl s
  · rename_i target hr
    exact (takeLength_channelStep _ ch err s fun id he => by rw [hr, he]; rfl).block
  · rename_i target left hr
    exact takeBody_block _ _ ch err s fun id he => by rw [hr, he]; rfl
  · rename_i left _
    split
    · exact (leaveToListen_step s).block
    · exact (setReception_channelStep (.skip (left - 1)) s nofun).block

theorem takeCharacter_block (ch : Byte) (err : Bool) (s : State) : BlockStep s (takeCharacter ch err s) := by
  unfold takeCharacter
  split
  · exact hunt_block ch err s
  · exact receive_block ch err s
  · exact .refl s
  · exact .refl s

/-- A channel operation with a character that ends at its instant. -/
theorem withCharacter_block (ch : Byte) (err : Bool) (act : State → State) (ha : ∀ u, ChannelStep u (act u)) (s : State) :
    BlockStep s (withCharacter ch err act s) := by
  unfold withCharacter
  split
  · rename_i target hl _
    have ht : ∀ id, target = .buffer id → receivingInto s.rx.reception = some id := by
      unfold lacksLast at hl
      split at hl
      · rename_i t _ hr
        obtain rfl := Option.some.inj hl
        exact fun id he => by rw [hr, he]; rfl
      · cases hl
    exact (joinCharacter_channelStep target ch err s ht).block.trans
      (frameEndBy_block _ (fun u => ha u.clearReception) target _ (joinCharacter_into target ch err s ht))
  · exact (ha s).block.trans (takeCharacter_block _ _ _)

theorem endEarly_channelStep (s : State) : ChannelStep s (endEarly s) := by
  unfold endEarly
  split
  · split
    · exact .refl s
    · rename_i target hr
      exact (discardCut_step _ s fun id he => by rw [hr, he]; rfl).trans (leaveToListen_step _)
    · rename_i target left hr
      exact (discardCut_step _ s fun id he => by rw [hr, he]; rfl).trans (leaveToListen_step _)
    · exact leaveToListen_step s
  · exact .refl s

/-! ### Dispatches -/

theorem insertRelay_perm (now : Tick) (e : RelayEntry) (l : List RelayEntry) : (insertRelay now e l).Perm (e :: l) := by
  induction l with
  | nil => exact .refl _
  | cons x xs ih =>
    unfold insertRelay
    split
    · exact .refl _
    · exact (ih.cons x).trans (.swap e x xs)

/-- The keys of the accepted frames when one of them, a departure frame, has been dispatched. -/
theorem Receiver.dispatched_keys {rx ry : Receiver} {id : BufId} {k : FrameKey} (hr : RxAgrees rx) (hi : id ∈ rx.accepted)
    (ha : ry.accepted = rx.accepted.filter (· ≠ id)) (ho : ∀ i, i ≠ id → ry.buffer i = rx.buffer i)
    (hk : departureKey (rx.buffer id) = some k) : rx.heldKeys.Perm (k :: ry.heldKeys) := by
  have hp : rx.accepted.Perm (id :: ry.accepted) := by
    rw [ha]
    refine (List.perm_ext_iff_of_nodup hr.once (List.nodup_cons.2 ⟨by simp, hr.once.filter _⟩)).2 fun i => ?_
    by_cases hii : i = id <;> simp [hii, hi]
  have h1 := hp.filterMap (fun i => departureKey (rx.buffer i))
  rw [List.filterMap_cons_some (f := fun i => departureKey (rx.buffer i)) hk] at h1
  refine h1.trans (.of_eq (congrArg _ (List.filterMap_congr fun i hi => ?_)))
  rw [ho i]
  rw [ha, List.mem_filter, decide_eq_true_iff] at hi
  exact hi.2

/-- What the relay decision does to the seen table and the relay queue of a key whose dispatch was pending (R42). -/
theorem relayDecision_agrees (f : Frame) (b : List Byte) (t : Tick) (s : State) {hk hk' : List FrameKey}
    (h : SeenAgrees s.seen (s.relayQ.map (·.key)) hk) (hp : hk.Perm ((f.origin, f.seq) :: hk')) :
    SeenAgrees (s.relayDecision f b t).seen ((s.relayDecision f b t).relayQ.map (·.key)) hk' := by
  have hn := List.nodup_cons.1 (hp.nodup_iff.1 h.held)
  have hin : (f.origin, f.seq) ∈ hk := hp.mem_iff.2 (by simp)
  have hs : (f.origin, f.seq) ∈ s.seen.map (·.key) := h.accepted _ hin
  have hq : (f.origin, f.seq) ∉ s.relayQ.map (·.key) := by
    obtain ⟨e, he, hek⟩ := List.mem_map.1 hs
    intro hm
    exact (h.heard e he ((h.pending e he).2 (hek ▸ hin))).1 ((h.waiting e he).2 (hek ▸ hm))
  have h1 := h.dispatched f.origin f.seq (hk' := hk') hn.2 hn.1 fun k hke => by rw [hp.mem_iff]; simp [hke]
  unfold State.relayDecision
  dsimp only
  split
  · split
    · exact h1.mark f.origin f.seq (by decide) (by decide) hq
    · split
      · refine h1.join f.origin f.seq ?_ hq hn.1 ?_
        · exact (updateSeen_keys f.origin f.seq (fun e => { e with dispatchPending := false }) (fun _ => rfl) s.seen).symm ▸ hs
        · exact (insertRelay_perm _ _ _).map (·.key)
      · exact h1.mark f.origin f.seq (by decide) (by decide) hq
  · exact h1

/-- The fields that the relay decision leaves, the counters, the deferrals and the size of the relay queue. -/
theorem relayDecision_effect (f : Frame) (b : List Byte) (t : Tick) (s : State) :
    BaseStep s (s.relayDecision f b t) ∧ (s.relayDecision f b t).rx = s.rx ∧
    (s.relayDecision f b t).lock = s.lock ∧ (s.relayDecision f b t).composer = s.composer ∧
    (s.relayDecision f b t).table = s.table ∧ (s.relayDecision f b t).rows = s.rows ∧
    (s.relayDecision f b t).ctl = s.ctl ∧ (s.relayDecision f b t).engine = s.engine ∧
    (s.relayDecision f b t).monitor = s.monitor ∧ (s.relayDecision f b t).account = s.account ∧
    (CountersInRange s → CountersInRange (s.relayDecision f b t)) ∧
    (DeferralsInRange s → DeferralsInRange (s.relayDecision f b t)) ∧
    (QueuesInRange s → QueuesInRange (s.relayDecision f b t)) := by
  unfold State.relayDecision
  dsimp only
  split
  · split
    · exact ⟨⟨⟨rfl, rfl, rfl, rfl, rfl, rfl, rfl⟩, .of_eq rfl rfl⟩, rfl, rfl, rfl, rfl, rfl, rfl, rfl, rfl, rfl,
        fun h => count_counters _ _ h, id, id⟩
    · split
      · rename_i h8
        refine ⟨⟨⟨rfl, rfl, rfl, rfl, rfl, rfl, rfl⟩, .of_eq rfl rfl⟩, rfl, rfl, rfl, rfl, rfl, rfl, rfl, rfl, rfl, id, ?_, ?_⟩
        · rintro ⟨h1, h2⟩
          refine ⟨fun e he => ?_, h2⟩
          rcases List.mem_cons.1 ((insertRelay_perm _ _ _).mem_iff.1 he) with rfl | he
          · exact Nat.zero_lt_succ 7
          · exact h1 e he
        · rintro ⟨h1, _⟩
          refine ⟨h1, ?_⟩
          show (insertRelay _ _ _).length ≤ 8
          rw [(insertRelay_perm _ _ _).length_eq]
          simpa using h8
      · exact ⟨⟨⟨rfl, rfl, rfl, rfl, rfl, rfl, rfl⟩, .of_eq rfl rfl⟩, rfl, rfl, rfl, rfl, rfl, rfl, rfl, rfl, rfl,
          fun h => count_counters _ _ h, id, id⟩
  · exact ⟨⟨⟨rfl, rfl, rfl, rfl, rfl, rfl, rfl⟩, .of_eq rfl rfl⟩, rfl, rfl, rfl, rfl, rfl, rfl, rfl, rfl, rfl, id, id, id⟩

theorem dispatchBuffer_base (id : BufId) (s : State) : BaseStep s (dispatchBuffer id s) := by
  unfold dispatchBuffer
  split
  · dsimp only
    exact (((applyFrame_tableStep _ _ s).block.toBaseStep.trans (relayDecision_effect _ _ _ _).1).trans
      (takeBuffer_base id _)).trans (offerCandidate_step _).block.toBaseStep
  · exact takeBuffer_base id s

theorem dispatchBuffers_base (l : List BufId) (s : State) : BaseStep s (dispatchBuffers l s) := by
  induction l generalizing s with
  | nil => exact .refl s
  | cons id rest ih => exact (dispatchBuffer_base id s).trans (ih _)

/-- The dispatch of an accepted departure frame keeps the bounds, and leaves the other accepted frames in their buffers. -/
theorem dispatchBuffer_bounds (id : BufId) (s : State) (hi : id ∈ s.rx.accepted) (hd : holdsDeparture s id = true)
    (h : Bounded s) : Bounded (dispatchBuffer id s) ∧ ∀ i ∈ s.rx.accepted, i ≠ id →
      i ∈ (dispatchBuffer id s).rx.accepted ∧ bufferOf (dispatchBuffer id s) i = bufferOf s i := by
  unfold dispatchBuffer
  split
  · rename_i b hb
    dsimp only
    generalize ht : b.endTick.getD s.clock = t
    have h1 := applyFrame_tableStep (readFrame b.bytes) t s
    generalize s.applyFrame (readFrame b.bytes) t = u at h1
    have hu : Bounded u := h1.block.bounds h
    obtain ⟨hbase, hrx, hlock, hcomp, htab, hrows, hctl, heng, hmon, hacct, hcnt, hdef, hque⟩ :=
      relayDecision_effect (readFrame b.bytes) b.bytes t u
    have hag := @relayDecision_agrees (readFrame b.bytes) b.bytes t u
    generalize u.relayDecision (readFrame b.bytes) b.bytes t = v at hbase hrx hlock hcomp htab hrows hctl heng hmon hacct hcnt hdef hque hag
    have hvr : RxAgrees v.rx := hrx ▸ hu.rx
    obtain ⟨hacc, hrec, hoth⟩ := takeBuffer_rx id v
    have hdep : (readFrame b.bytes).isDeparture = true := by simpa [holdsDeparture, hb] using hd
    have hkey : departureKey (v.rx.buffer id) = some ((readFrame b.bytes).origin, (readFrame b.bytes).seq) := by
      rw [hrx, h1.rx, ← bufferOf_eq, hb]
      simp [departureKey, hdep]
    have hperm := Receiver.dispatched_keys hvr (id := id) (by rw [hrx, h1.rx]; exact hi) hacc hoth hkey
    have hw : Bounded (v.takeBuffer id) := by
      have hf : FramesMatch u → FramesMatch (v.takeBuffer id) := by
        intro hf
        rw [framesMatch_iff] at hf ⊢
        have := hag (hrx ▸ hf.1) hperm
        have hd' := hdef hf.2
        cases id <;> exact ⟨this, hd'⟩
      have hq := hque hu.queues
      have hr := takeBuffer_agrees id v hvr
      cases id <;> exact hu.of_frames hq hr hf (fun hc => hcnt hc) hacct hbase.cfg htab heng hmon hrows hctl hbase.startup
    have hoff := offerCandidate_step (v.takeBuffer id)
    refine ⟨hoff.block.bounds hw, fun i hia hne => ?_⟩
    have him : i ∈ (v.takeBuffer id).rx.accepted := by
      rw [hacc, List.mem_filter, decide_eq_true_iff, hrx, h1.rx]; exact ⟨hia, hne⟩
    refine ⟨by rw [hoff.frames.rx.accepted]; exact him, ?_⟩
    rw [bufferOf_eq, bufferOf_eq, hoff.frames.rx.held hw.rx him, hoth i hne, hrx, h1.rx]
  · rename_i hb
    exact absurd hb (h.buffers.2.1 id hi)

theorem dispatchBuffers_bounds (l : List BufId) (s : State) (hl : l.Nodup)
    (hi : ∀ id ∈ l, id ∈ s.rx.accepted ∧ holdsDeparture s id = true) (h : Bounded s) : Bounded (dispatchBuffers l s) := by
  induction l generalizing s with
  | nil => exact h
  | cons id rest ih =>
    obtain ⟨hn, hrest⟩ := List.nodup_cons.1 hl
    obtain ⟨hb, ho⟩ := dispatchBuffer_bounds id s (hi id (by simp)).1 (hi id (by simp)).2 h
    refine ih _ hrest (fun i hir => ?_) hb
    obtain ⟨h1, h2⟩ := hi i (by simp [hir])
    obtain ⟨h3, h4⟩ := ho i h1 fun he => hn (he ▸ hir)
    exact ⟨h3, by unfold holdsDeparture at h2 ⊢; rw [h4]; exact h2⟩

/-- The dispatches that wait at the release of the lock. -/
theorem dispatchWaiting_block (s : State) : BlockStep s (dispatchBuffers (s.rx.accepted.filter (holdsDeparture s)) s) :=
  ⟨dispatchBuffers_base _ s, fun h => dispatchBuffers_bounds _ s (h.rx.once.filter _) (fun _ hi => List.mem_filter.1 hi) h⟩

theorem startIfIdle_step (s : State) : WorkStep s (startIfIdle s) := by
  unfold startIfIdle
  split
  · rename_i h
    exact startPass_step s (by rw [h]; decide)
  · exact .refl s

theorem takeWallSignal_step (s : State) : WorkStep s (takeWallSignal s) := by
  unfold takeWallSignal
  split
  · exact (composer_step { s.composer with wallSignal := false } s rfl).trans (startIfIdle_step _)
  · exact .refl s

theorem dispatchFirst_block (s : State) : BlockStep s (dispatchFirst s) := by
  unfold dispatchFirst
  split
  · split
    · rename_i id hf
      refine BlockStep.trans ⟨dispatchBuffer_base id s, fun h => ?_⟩ (takeWallSignal_step _).block
      exact (dispatchBuffer_bounds id s (List.mem_of_find?_eq_some hf) (List.find?_some hf) h).1
    · exact .refl s
  · exact .refl s

/-! ### The completion of a pass -/

/-- An operation under which a pass in progress stays in progress keeps the lock as it was. -/
theorem LockMove.passing {s t : State} (m : LockMove s t) (h : s.composer.state = .passing) :
    t.lock = s.lock ∧ t.composer.state = .passing := by
  rcases m with ⟨a, b⟩ | ⟨a, _, _⟩ | ⟨a, _, _⟩
  · exact ⟨a, b.trans h⟩
  · exact absurd h a
  · exact absurd h a

theorem writeDesired_step (p : Pass) (s : State) : WorkStep s (writeDesired p s) :=
  rows_step _ s (mapIdxRows_counts _ (by intros; rfl) s.rows)

theorem raiseDiffering_step (s : State) : WorkStep s (raiseDiffering s) := mapRows_step _ s fun _ => rfl

theorem handClear_step (p : Pass) (s : State) : WorkStep s (handClear p s) := by
  unfold handClear
  split
  · exact requestClear_step _ s
  · exact .refl s

/-- The release of the lock: the lock is FREE, the composer still PASSING, and every bound is kept. -/
theorem releaseLock_block (s : State) (h : s.composer.state = .passing) :
    BlockStep { s with lock := .free } (releaseLock s) ∧ (releaseLock s).lock = .free ∧
      (releaseLock s).composer.state = .passing := by
  unfold releaseLock
  dsimp only
  have h1 := dispatchWaiting_block { s with lock := .free }
  have h2 := h1.lock.passing h
  have h3 := sweepDue_step (dispatchBuffers (({ s with lock := .free } : State).rx.accepted.filter
    (holdsDeparture { s with lock := .free })) { s with lock := .free })
  exact ⟨h1.trans h3.block, by rw [sweepDue_lock]; exact h2.1, by rw [sweepDue_composer_state]; exact h2.2⟩

/-- What follows a pass ends with the lock and the composer in agreement. -/
theorem settleComposer_lock (s : State) (hl : s.lock = .free) :
    LockFollowsPass (settleComposer s) := by
  unfold settleComposer LockFollowsPass
  split
  · simp [writeFreezeContent, hl]
  · split
    · simp [startPass, takeLock]
    · simp [hl]

theorem settleComposer_bounds (s : State) (h : Bounded s) : Bounded (settleComposer s) := by
  unfold settleComposer
  split
  · exact ((writeFreezeContent_step s).block.bounds h).congr
  · split
    · exact ((sweepDue_step s).block.bounds h).congr
    · exact h.congr

theorem settleComposer_base (s : State) : KeepsBase s (settleComposer s) := by
  unfold settleComposer
  split
  · exact ⟨rfl, rfl, rfl, rfl, rfl, rfl, rfl⟩
  · split
    · exact (sweepDue_step s).block.base.trans ⟨rfl, rfl, rfl, rfl, rfl, rfl, rfl⟩
    · exact ⟨rfl, rfl, rfl, rfl, rfl, rfl, rfl⟩

/-- The completion of a pass: the base fields stay and a safe state stays safe. -/
theorem completePass_safe (p : Pass) (s : State) (hp : s.composer.state = .passing) :
    KeepsBase s (completePass p s) ∧ (Safe s → Safe (completePass p s)) := by
  unfold completePass
  dsimp only
  have h1 := (((writeDesired_step p s).trans (raiseDiffering_step _)).trans (handClear_step p _)).trans
    (updateShownRows_step _)
  set a := updateShownRows (handClear p (raiseDiffering (writeDesired p s))) with ha
  have hpa := h1.lock.passing hp
  obtain ⟨h2, hfree, hpass⟩ := releaseLock_block a hpa.2
  set b := releaseLock a with hb
  have h3 := (debit_step ctlStage ctlStage_step 2 b)
  have h4 := h3.lock.passing hpass
  set c := debit ctlStage 2 b with hc
  have h5 := select_step (settleComposer c)
  constructor
  · have hbase : KeepsBase a { a with lock := .free } := ⟨rfl, rfl, rfl, rfl, rfl, rfl, rfl⟩
    exact ((((h1.block.base.trans hbase).trans h2.base).trans h3.block.base).trans (settleComposer_base c)).trans
      h5.block.base
  · intro h
    have hba : Bounded { a with lock := .free } :=
      (h1.block.bounds h.bounded).congr
    have hbc : Bounded c := h3.block.bounds (h2.bounds hba)
    exact h5.block.safe ((settleComposer_bounds c hbc).safe
      (settleComposer_lock c (h4.1.trans hfree)))

end Sys2Proof.Machine
end

