-- ==== Sys2Proof/Laws/Quiet.lean ====
section
/-! SUPPORT. The operations that ripple through the blocks, in the cases where nothing ripples: a change of E that crosses
no threshold, a receiver that agrees with what is wanted of it, an arbiter with nothing to do, and a controller with
nothing to select. -/

namespace Sys2Proof.Machine

theorem receiverFollow_agrees (s : State) (h : receiverAgrees s = true) : receiverFollow s = s := by
  unfold receiverAgrees at h
  unfold receiverFollow
  split <;> rename_i hx <;> simp_all

theorem receiverUpdate_agrees (s : State) (h : receiverAgrees s = true) : receiverUpdate s = s := by
  simp [receiverUpdate, receiverFollow_agrees s h]

theorem stageRules_holds (ctl : State → State) (s : State)
    (h : stageHolds s.cfg s.account.stage s.account.e = true) : stageRules ctl s = s := by
  simp only [stageHolds, Bool.and_eq_true, decide_eq_true_eq, Option.isNone_iff_eq_none] at h
  simp [stageRules, stageRises, h.2, Nat.not_lt.mpr h.1]

/-- A change of E that crosses nothing sets E and does nothing else. -/
theorem changeEnergy_quiet (ctl : State → State) (e : Nat) (s : State) (hr : s.account.running = true)
    (h : crossesNothing s e = true) : changeEnergy ctl e s = withE s e := by
  simp only [crossesNothing, Bool.and_eq_true] at h
  have h1 : stageRules ctl (s.setEnergy e) = s.setEnergy e := stageRules_holds _ _ h.1
  simp only [changeEnergy, hr, if_true, h1]
  exact receiverUpdate_agrees _ h.2

theorem changeEnergy_stopped (ctl : State → State) (e : Nat) (s : State) (hr : s.account.running = false) :
    changeEnergy ctl e s = s := by simp [changeEnergy, hr]

theorem debit_quiet (ctl : State → State) (q : Nat) (s : State) (hr : s.account.running = true)
    (h : crossesNothing s (s.account.e - q) = true) : debit ctl q s = withE s (s.account.e - q) :=
  changeEnergy_quiet ctl _ s hr h

theorem credit_quiet (ctl : State → State) (q : Nat) (s : State) (hr : s.account.running = true)
    (h : crossesNothing s (min s.cfg.capacity (s.account.e + q)) = true) :
    credit ctl q s = withE s (min s.cfg.capacity (s.account.e + q)) :=
  changeEnergy_quiet ctl _ s hr h

/-- A controller that is not OPEN makes no selection. -/
theorem select_notOpen (s : State) (h : s.ctl.state ≠ .opened) : select s = s := by
  simp [select, selectDepth, selectWith, h]

theorem select_nothing (s : State) (h : nothingToSelect s = true) : select s = s := by
  simp only [nothingToSelect, Bool.or_eq_true, decide_eq_true_eq, Option.isNone_iff_eq_none] at h
  obtain h | h := h
  · simp [select, selectDepth, selectWith, h]
  · simp [select, selectDepth, selectWith, h]

/-- The arbiter starts no attempt while one is in progress. -/
theorem startAttempt_busy (s : State) (h : s.cau ≠ .idle) : startAttempt s = s := by
  unfold startAttempt attemptFuel
  split
  · simp [startAttempts, h]
  · rfl

/-- The arbiter starts no attempt without a candidate. -/
theorem startAttempt_none (s : State) (h : candidate? s = none) : startAttempt s = s := by
  unfold startAttempt attemptFuel
  split
  · simp [startAttempts, h]
  · rfl

theorem offerCandidate_busy (s : State) (h : s.cau ≠ .idle) (ha : receiverAgrees s = true) : offerCandidate s = s := by
  rw [offerCandidate, startAttempt_busy s h, receiverFollow_agrees s ha]

theorem offerCandidate_none (s : State) (h : candidate? s = none) (ha : receiverAgrees s = true) :
    offerCandidate s = s := by
  rw [offerCandidate, startAttempt_none s h, receiverFollow_agrees s ha]

/-- A frame or skip that ends with the receiver wanted on leaves it in LISTEN. -/
theorem leaveToListen_wanted (s : State) (h : wantedOn s = true) : leaveToListen s = s.clearReception.setRx .listen := by
  have : wantedOn s.clearReception = true := h
  simp [leaveToListen, this]

end Sys2Proof.Machine
end

