-- ==== Sys2Proof/Laws/Commands.lean ====
section
/-! SUPPORT. What each command can do, said once: `Mild` names what stays across every command but those of the clock and the
start-up, and that a safe state stays safe; one lemma for each such command, and the safety of the others. -/

namespace Sys2Proof.Machine

/-- What a command that is neither a tick nor one of the start-up leaves of the state. -/
structure Mild (s t : State) : Prop where
  clock : t.clock = s.clock
  cfg : t.cfg = s.cfg
  cfgInForce : t.cfgInForce = s.cfgInForce
  pending : t.pending = s.pending
  startup : t.startup = s.startup
  loader : t.loader = s.loader
  reset : t.pins.reset = s.pins.reset
  safe : Safe s → Safe t

namespace Mild

theorem refl (s : State) : Mild s s := ⟨rfl, rfl, rfl, rfl, rfl, rfl, rfl, id⟩

theorem trans {s t u : State} (a : Mild s t) (b : Mild t u) : Mild s u where
  clock := b.clock.trans a.clock
  cfg := b.cfg.trans a.cfg
  cfgInForce := b.cfgInForce.trans a.cfgInForce
  pending := b.pending.trans a.pending
  startup := b.startup.trans a.startup
  loader := b.loader.trans a.loader
  reset := b.reset.trans a.reset
  safe := fun h => b.safe (a.safe h)

end Mild

theorem BlockStep.mild {s t : State} (a : BlockStep s t) : Mild s t :=
  ⟨a.clock, a.cfg, a.cfgInForce, a.pending, a.startup, a.loader, by rw [a.pins], a.safe⟩

theorem WorkStep.mild {s t : State} (a : WorkStep s t) : Mild s t := a.block.mild

theorem ChannelStep.mild {s t : State} (a : ChannelStep s t) : Mild s t := a.work.mild

/-- A change of a field that safety does not read. -/
theorem Safe.of_bounded {s t : State} (h : Safe s) (hb : Bounded t) (hl : t.lock = s.lock := by rfl)
    (hc : t.composer.state = s.composer.state := by rfl) : Safe t :=
  hb.safe (by unfold LockFollowsPass; rw [hl, hc]; exact h.lock)

theorem pins_mild (p : Pins) (s : State) (h : p.reset = s.pins.reset) : Mild s { s with pins := p } :=
  ⟨rfl, rfl, rfl, rfl, rfl, rfl, h, fun hs => hs.of_bounded hs.bounded.congr⟩

/-! ### Changes of E that can raise it -/

/-- A safe state with another estimate within the capacity. -/
theorem Safe.withEnergy {s : State} {e : Nat} (h : Safe s) (he : e ≤ s.cfg.capacity) : Safe (s.setEnergy e) :=
  ⟨he, h.counters, h.table, h.queues, h.grounded, h.lock, h.aborts, h.pointers, h.latch, h.rows, h.buffers,
    fun hn => ⟨(h.frames hn).seen, (h.frames hn).relays, (h.frames hn).dispatches, (h.frames hn).deferrals⟩⟩

/-- A change of E to a value within the capacity keeps a safe state safe. -/
theorem changeEnergy_mild (ctl : State → State) (hctl : ∀ u, WorkStep u (ctl u)) (e : Nat) (s : State)
    (he : e ≤ s.cfg.capacity) : Mild s (changeEnergy ctl e s) := by
  unfold changeEnergy
  split
  · have h1 : Mild s (s.setEnergy e) :=
      ⟨rfl, rfl, rfl, rfl, rfl, rfl, rfl, fun h => h.withEnergy he⟩
    exact h1.trans (((stageRules_step ctl hctl _).trans (receiverUpdate_step _).work).mild)
  · exact .refl s

theorem releaseHeld_mild (s : State) : Mild s (releaseHeld s) := (releaseHeld_step s).mild

theorem harvest_mild (s : State) : Mild s (harvest s) := by
  unfold harvest credit
  dsimp only
  have h := changeEnergy_mild ctlStage ctlStage_step (min s.cfg.capacity (s.account.e + 64)) s (Nat.min_le_left _ _)
  split
  · exact h.trans (releaseHeld_mild _)
  · exact h

/-! ### The engine -/

theorem frameInHand_drive {s : State} {v : Refresh × Waveform × Band × Position × (Nat × Nat)}
    (h : frameInHand s = some v) : s.engine.state = .drive := by
  unfold frameInHand at h
  split at h
  · rename_i h'; exact h'.2
  · cases h

/-- A step of the engine in DRIVE that goes on in DRIVE, or into SETTLE with its bus grounded, with the same latch. -/
theorem driving_step (e : Engine) (s : State) (hd : s.engine.state = .drive)
    (he : e.state = .drive ∨ e.state = .settle ∧ e.bus = .grounded) (hw : e.waveform = s.engine.waveform)
    (hr : e.refresh = s.engine.refresh) : WorkStep s { s with engine := e } := by
  refine engine_step e s (fun _ hn => ?_) (fun h _ => h.2 (by rw [hd]; decide)) fun h => ?_
  · rcases he with he | he
    · exact absurd he hn
    · exact he.2
  · refine ⟨h.1, fun _ => ?_, fun hp => ?_⟩
    · rcases he with he | he
      · exact .inl he
      · exact .inr he.1
    · obtain ⟨r, h1, h2⟩ := h.2.2 (hw ▸ hp)
      exact ⟨r, hr.trans h1, h2⟩

/-- What the end of a frame clock period leaves of the engine. -/
theorem endPeriod_effect (n : Nat) (x : Refresh) (w : Waveform) (b : Band) (p : Position) (c : Nat × Nat) (e : Engine)
    (hd : e.state = .drive) :
    ((e.endPeriod n x w b p c).state = .drive ∨
      (e.endPeriod n x w b p c).state = .settle ∧ (e.endPeriod n x w b p c).bus = .grounded) ∧
    (e.endPeriod n x w b p c).waveform = e.waveform ∧ (e.endPeriod n x w b p c).refresh = e.refresh := by
  unfold Engine.endPeriod Engine.endFrame Engine.afterFrame
  split
  · split
    · exact ⟨.inl hd, rfl, rfl⟩
    · split
      · exact ⟨.inr ⟨rfl, rfl⟩, rfl, rfl⟩
      · split <;> exact ⟨.inl hd, rfl, rfl⟩
  · exact ⟨.inl hd, rfl, rfl⟩

theorem endPeriod_step (n : Nat) (x : Refresh) (w : Waveform) (b : Band) (p : Position) (c : Nat × Nat) (s : State)
    (hd : s.engine.state = .drive) : WorkStep s { s with engine := s.engine.endPeriod n x w b p c } :=
  have h := endPeriod_effect n x w b p c s.engine hd
  driving_step _ s hd h.1 h.2.1 h.2.2

theorem monitorZero_step (s : State) : WorkStep s { s with monitor := { s.monitor with aborts := 0 } } :=
  .of (aborts := fun _ => ⟨Nat.zero_le _, fun _ => Nat.zero_le _⟩)

/-- Updates of the monitor that keep the abort count. -/
theorem monitor_step (m : Monitor) (s : State) (h : m.aborts = s.monitor.aborts) : WorkStep s { s with monitor := m } :=
  .of (aborts := fun ha => by unfold AbortsInRange at *; simpa [h] using ha)

theorem freezeDrawn_step (s : State) : WorkStep s (freezeDrawn s) := by
  unfold freezeDrawn
  split
  · exact (setMasks_step true s).trans (account_step { s.account with freeze := .drawn } (s.setMasks true) rfl (le_refl _))
  · exact .refl s

theorem clearCompleted_step (k : ClearKind) (s : State) : WorkStep s (clearCompleted k s) := by
  unfold clearCompleted
  dsimp only
  have h1 : WorkStep s (if s.startup.state = .service then startInterval s else s) := by
    split
    · exact ctl_step _ s
    · exact .refl s
  cases k
  · exact h1
  · exact h1.trans (freezeDrawn_step _)

/-- The completion of a refresh once its rows are drawn, up to item 8 of R147. -/
def settledCore (x : Refresh) (cost : Nat) (s : State) : State :=
  let s := (releaseAndDebit ctlStage cost (s.onRefresh x Row.released)).count .drawDone
  let s := { s with monitor := { s.monitor with aborts := 0 } }
  let s := s.onRefresh x (fun row => { row with pending := row.pending || row.differs })
  { s with engine := s.engine.ended .idle }

theorem settledCore_step (x : Refresh) (cost : Nat) (s : State) : WorkStep s (settledCore x cost s) := by
  unfold settledCore
  dsimp only
  set b := (releaseAndDebit ctlStage cost (s.onRefresh x Row.released)).count .drawDone with hb
  have h2 : WorkStep s b := ((onRefresh_step x Row.released s fun _ => rfl).trans
    (releaseAndDebit_step ctlStage ctlStage_step cost _)).trans (count_step _ _).work
  set c : State := { b with monitor := { b.monitor with aborts := 0 } } with hc
  have h3 : WorkStep b c := monitorZero_step b
  have h4 := onRefresh_step x (fun row => { row with pending := row.pending || row.differs }) c fun _ => rfl
  have hz : (c.onRefresh x (fun row => { row with pending := row.pending || row.differs })).monitor.aborts = 0 := by
    have : c.monitor.aborts = 0 := rfl
    cases x <;> exact this
  exact ((h2.trans h3).trans h4).trans (engine_step _ _ (fun _ _ => rfl) (fun _ _ => by omega) fun h => .of_none h.1 rfl)

/-- A completed refresh, its waveform no longer latched. -/
theorem completeRefresh_unlatched (x : Refresh) (w : Waveform) (cost : Nat) (s : State) :
    ∃ g : State → State, (∀ u, WorkStep u (g u)) ∧ completeRefresh x w cost s =
      g (settledCore x cost (updateShownRows (s.onRefresh x (Row.drawn w)))) := by
  cases x with
  | row r => exact ⟨fun u => select { u with ctl := { u.ctl with state := .opened } },
      fun u => (ctl_step { u.ctl with state := .opened } u).trans (select_step _), rfl⟩
  | clear k => exact ⟨fun u => select { clearCompleted k u with ctl := { (clearCompleted k u).ctl with state := .opened } },
      fun u => ((clearCompleted_step k u).trans (ctl_step { (clearCompleted k u).ctl with state := .opened } _)).trans
        (select_step _), rfl⟩

theorem settledCore_waveform (x : Refresh) (cost : Nat) (s : State) : (settledCore x cost s).engine.waveform = none := rfl

/-- The partial counters of the rows drawn stay in their range (R148). -/
theorem drawn_counts (x : Refresh) (w : Waveform) (s : State) (hr : RowsInRange s)
    (hw : w = .partialWave → ∃ r : Nat, x = .row r ∧ ∀ k : Nat, (rowCounters s)[r]? = some k → k < 32) :
    RowsInRange (s.onRefresh x (Row.drawn w)) := by
  obtain ⟨h1, h2, h3, h4⟩ := hr
  have hfull : ∀ row, (Row.drawn .full row).partialCount = 0 := fun _ => rfl
  have hcfg : (s.onRefresh x (Row.drawn w)).cfg = s.cfg := by cases x <;> rfl
  refine ⟨hcfg ▸ h1, hcfg ▸ h2, ?_, ?_⟩
  · rw [hcfg]
    cases x <;> simpa [rowCounters, State.onRefresh, State.updateRow, State.mapRows] using h3
  · intro k hk
    obtain ⟨row, hm, rfl⟩ := List.mem_map.1 hk
    cases w with
    | full =>
      cases x with
      | clear c =>
        obtain ⟨y, _, rfl⟩ := List.mem_map.1 hm
        exact Nat.zero_le _
      | row r =>
        obtain ⟨i, hi, rfl⟩ := List.mem_iff_getElem.1 hm
        simp only [State.onRefresh, State.updateRow, List.getElem_modify]
        split
        · exact Nat.zero_le _
        · exact h4 _ (List.mem_map.2 ⟨_, List.getElem_mem _, rfl⟩)
    | partialWave =>
      obtain ⟨r, rfl, hlt⟩ := hw rfl
      obtain ⟨i, hi, rfl⟩ := List.mem_iff_getElem.1 hm
      simp only [State.onRefresh, State.updateRow, List.length_modify] at hi
      simp only [State.onRefresh, State.updateRow, List.getElem_modify]
      split
      · rename_i hri
        subst hri
        have := hlt (s.rows[r].partialCount) (by simp [rowCounters, hi])
        show s.rows[r].partialCount + 1 ≤ 32
        omega
      · exact h4 _ (List.mem_map.2 ⟨_, List.getElem_mem _, rfl⟩)

/-- The completion of the refresh in SETTLE. -/
theorem completeRefresh_mild (x : Refresh) (w : Waveform) (cost : Nat) (s : State) (hx : s.engine.refresh = some x)
    (hw : s.engine.waveform = some w) : Mild s (completeRefresh x w cost s) := by
  obtain ⟨g, hg, he⟩ := completeRefresh_unlatched x w cost s
  rw [he]
  have h1 : KeepsBase s (s.onRefresh x (Row.drawn w)) := by cases x <;> exact ⟨rfl, rfl, rfl, rfl, rfl, rfl, rfl⟩
  have h2 := (updateShownRows_step (s.onRefresh x (Row.drawn w))).trans (settledCore_step x cost _)
  have h3 := hg (settledCore x cost (updateShownRows (s.onRefresh x (Row.drawn w))))
  have hb := (h1.trans h2.block.base).trans h3.block.base
  refine ⟨hb.clock, hb.cfg, hb.cfgInForce, hb.pending, hb.startup, hb.loader, by rw [hb.pins], fun h => h3.mild.safe ?_⟩
  have hrows : RowsInRange (s.onRefresh x (Row.drawn w)) := by
    refine drawn_counts x w s h.rows fun hp => ?_
    obtain ⟨r, hr, hk⟩ := h.latch.2.2 (by rw [hw, hp])
    exact ⟨r, Option.some.inj (hx.symm.trans hr), hk⟩
  have hlock : LockFollowsPass (s.onRefresh x (Row.drawn w)) := by cases x <;> exact h.lock
  have hlim : (settledCore x cost (updateShownRows (s.onRefresh x (Row.drawn w)))).cfg.partialLimit ≤ 32 := by
    rw [h2.cfg, h1.cfg]; exact h.latch.1
  have hbd := h.bounded
  refine Bounded.safe ⟨?_, ?_, ?_, ?_, ?_, ?_, ?_, .of_none hlim rfl, ?_, ?_, fun hn => ?_⟩ (h2.lock.follows hlock)
  · unfold EnergyInRange
    rw [h2.cfg, h1.cfg]
    refine h2.energy.trans ?_
    cases x <;> exact h.energy
  · exact h2.counters (by cases x <;> exact h.counters)
  · exact WellKeyed.of_keys (by cases x <;> exact h.table) h2.keys
  · have hq : QueuesInRange (s.onRefresh x (Row.drawn w)) := by cases x <;> exact h.queues
    exact ⟨h2.replies.trans hq.1, h2.relays.trans hq.2⟩
  · exact fun _ => rfl
  · exact h2.aborts (by cases x <;> exact h.aborts)
  · exact h2.pointers (by cases x <;> exact h.pointers)
  · unfold RowsInRange
    rw [h2.counts, h2.cfg]
    exact hrows
  · exact (buffersInRange_iff _).2 (h2.frames.rx.agrees (by cases x <;> exact hbd.rx))
  · rw [h2.startup, h1.startup] at hn
    refine h2.frames.keeps (by cases x <;> exact hbd.rx) ?_
    have hf := h.frames hn
    cases x <;> exact ⟨hf.seen, hf.relays, hf.dispatches, hf.deferrals⟩

theorem endLockout_step (s : State) (hl : s.engine.state = .lockout) : WorkStep s (endLockout s) := by
  unfold endLockout
  dsimp only
  have h1 := engine_step { s.engine with state := .idle } { s with monitor := { s.monitor with aborts := 0 } }
    (fun h _ => h (by rw [hl]; decide)) (fun _ _ => Nat.zero_le _) fun h => .of_none h.1 (by
      by_contra hn
      have := h.2.1 hn
      simp [hl] at this)
  have h2 := monitor_step { s.monitor with lockout := none, aborts := 0 }
    { s with monitor := { s.monitor with aborts := 0 }, engine := { s.engine with state := .idle } } rfl
  exact (((monitorZero_step s).trans h1).trans h2).trans ((leaveHeld_step _).trans (select_step _))

/-! ### The commands other than the tick and those of the start-up -/

theorem seenAgeOut_mild (s : State) : ∃ t, execSeenEntryAgeOut s = .next t ∧ Mild s t := by
  unfold execSeenEntryAgeOut
  split
  · exact ⟨_, rfl, (ageOut_step s).mild⟩
  · exact ⟨_, rfl, .refl s⟩

theorem relayLifetime_mild (s : State) : ∃ t, execRelayLifetimeExpiry s = .next t ∧ Mild s t := by
  unfold execRelayLifetimeExpiry
  split
  · exact ⟨_, rfl, ((abandonRelays_step _ s).trans (recheckAttempt_step _)).mild⟩
  · exact ⟨_, rfl, .refl s⟩

theorem tableSweep_mild (s : State) : ∃ t, execTableSweep s = .next t ∧ Mild s t := by
  unfold execTableSweep
  split
  · exact ⟨_, rfl, (sweep_tableStep s).block.mild⟩
  · exact ⟨_, rfl, .refl s⟩

theorem wallExpiry_mild (s : State) : ∃ t, execWallReferenceExpiry s = .next t ∧ Mild s t := by
  unfold execWallReferenceExpiry
  split
  · exact ⟨_, rfl, rfl, rfl, rfl, rfl, rfl, rfl, rfl, fun h => h.of_bounded h.bounded.congr⟩
  · exact ⟨_, rfl, .refl s⟩

theorem listenPeriodEnd_mild (s : State) : ∃ t, execListenPeriodEnd s = .next t ∧ Mild s t := by
  unfold execListenPeriodEnd
  split
  · exact ⟨_, rfl, ((window_step _ s).trans (receiverUpdate_step _).work).mild⟩
  · exact ⟨_, rfl, .refl s⟩

theorem listenWindowOff_mild (s : State) : ∃ t, execListenWindowOff s = .next t ∧ Mild s t := by
  unfold execListenWindowOff
  split
  · exact ⟨_, rfl, ((window_step _ s).trans (receiverUpdate_step _).work).mild⟩
  · exact ⟨_, rfl, .refl s⟩

theorem syncGap_mild (s : State) : ∃ t, execSyncGapTimeout s = .next t ∧ Mild s t := by
  unfold execSyncGapTimeout
  split
  · exact ⟨_, rfl, (rx_channelStep { s.rx with firstSync := false } s (.of_buffers rfl rfl rfl fun _ h => h) rfl).mild⟩
  · exact ⟨_, rfl, .refl s⟩

theorem characterGap_mild (s : State) : ∃ t, execInterCharacterGapTimeout s = .next t ∧ Mild s t :=
  ⟨_, rfl, (endEarly_channelStep s).mild⟩

theorem takeCarrier_step (s : State) : ChannelStep s (takeCarrier s) := by
  unfold takeCarrier
  split
  · dsimp only
    have h : ChannelStep s { s with quiet := loadedQuiet } := setQuiet_step _ s
    split
    · exact h.trans (deferral_step _ _)
    · exact h
    · exact h
    · exact h
  · exact .refl s

theorem cdAssert_mild (s : State) : ∃ t, execCdAssert s = .next t ∧ Mild s t := by
  unfold execCdAssert
  split
  · exact ⟨_, rfl, .refl s⟩
  · exact ⟨_, rfl, (pins_mild { s.pins with cd := true } s rfl).trans (takeCarrier_step _).mild⟩

theorem cdDeassert_mild (s : State) : ∃ t, execCdDeassert s = .next t ∧ Mild s t := by
  unfold execCdDeassert
  split
  · exact ⟨_, rfl, (pins_mild { s.pins with cd := false } s rfl).trans
      ((endEarly_channelStep _).trans (senseQuiet_step _)).mild⟩
  · exact ⟨_, rfl, .refl s⟩

theorem frameDispatch_mild (s : State) : ∃ t, execFrameDispatch s = .next t ∧ Mild s t :=
  ⟨_, rfl, (dispatchFirst_block s).mild⟩

theorem statusRequest_mild (s : State) : ∃ t, execStatusRequest s = .next t ∧ Mild s t :=
  ⟨_, rfl, (takeRequest_block _ _ serveStatus_well s).mild⟩

theorem tableRequest_mild (s : State) : ∃ t, execTableRequest s = .next t ∧ Mild s t :=
  ⟨_, rfl, (takeRequest_block _ _ serveTable_well s).mild⟩

theorem clearRequest_mild (s : State) : ∃ t, execClearRequest s = .next t ∧ Mild s t :=
  ⟨_, rfl, (takeRequest_block _ _ serveClear_well s).mild⟩

theorem refreshRequest_mild (s : State) : ∃ t, execRefreshRequest s = .next t ∧ Mild s t :=
  ⟨_, rfl, (takeRequest_block _ _ serveRefresh_well s).mild⟩

theorem unknownRequest_mild (s : State) : ∃ t, execUnknownRequestCode s = .next t ∧ Mild s t :=
  ⟨_, rfl, (takeRequest_block _ _ serveUnknown_well s).mild⟩

theorem relayDue_mild (s : State) : ∃ t, execRelayDue s = .next t ∧ Mild s t := by
  unfold execRelayDue
  split
  · exact ⟨_, rfl, (offerCandidate_step s).mild⟩
  · exact ⟨_, rfl, .refl s⟩

theorem quietExpired_step (s : State) : ChannelStep s (quietExpired s) := by
  unfold quietExpired
  split
  · split
    · exact .refl s
    · have h : ChannelStep s { s with quiet := .expired } := setQuiet_step _ s
      exact h.trans (senseQuiet_step _)
  · exact .refl s

theorem quietTimerExpiry_mild (s : State) : ∃ t, execQuietTimerExpiry s = .next t ∧ Mild s t :=
  ⟨_, rfl, (quietExpired_step s).block.mild⟩

theorem contentionEnded_step (s : State) : ChannelStep s (contentionEnded s) := by
  unfold contentionEnded
  split
  · split
    · exact deferral_step _ s
    · exact (energyCheck_step _ s).trans (settleAttempt_step _)
  · exact .refl s
  · exact .refl s
  · exact .refl s

theorem contentionDelayEnd_mild (s : State) : ∃ t, execContentionDelayEnd s = .next t ∧ Mild s t :=
  ⟨_, rfl, (contentionEnded_step s).block.mild⟩

theorem timerEnded_step (e : TimerEnd) (s : State) : ChannelStep s (timerEnded e s) := by
  cases e
  · exact quietExpired_step s
  · exact contentionEnded_step s

theorem characterReceived_mild (ch : Byte) (how : CharacterEnd) (s : State) :
    ∃ t, execCharacterReceived ch how s = .next t ∧ Mild s t := by
  unfold execCharacterReceived
  split
  · exact ⟨_, rfl, (takeCharacter_block _ _ s).mild⟩
  · exact ⟨_, rfl, (withCharacter_block _ _ _ (timerEnded_step _) s).mild⟩

theorem finishSending_step (frame : List Byte) (relay : Bool) (s : State) : WorkStep s (finishSending frame relay s) := by
  unfold finishSending
  dsimp only
  have h1 := debit_step ctlStage ctlStage_step frame.length s
  set a := debit ctlStage frame.length s
  have h2 : ChannelStep a { a with quiet := loadedQuiet } := setQuiet_step _ a
  have h3 : ChannelStep { a with quiet := loadedQuiet } (countSent relay { a with quiet := loadedQuiet }) := by
    unfold countSent
    split
    · exact count_step _ _
    · exact .refl _
  exact h1.trans (((h2.trans h3).trans (leaveToListen_step _)).trans (endAttempt_step _)).work

theorem transmissionEnd_mild (s : State) : ∃ t, execTransmissionEnd s = .next t ∧ Mild s t := by
  unfold execTransmissionEnd
  split
  · exact ⟨_, rfl, (finishSending_step _ _ s).mild⟩
  · exact ⟨_, rfl, .refl s⟩
  · exact ⟨_, rfl, .refl s⟩
  · exact ⟨_, rfl, .refl s⟩

theorem harvestPulse_mild (s : State) : ∃ t, execHarvestPulse s = .next t ∧ Mild s t := by
  unfold execHarvestPulse
  split
  · exact ⟨_, rfl, harvest_mild s⟩
  · exact ⟨_, rfl, .refl s⟩

theorem lowAssert_mild (b : Bool) (s : State) : ∃ t, execLowAssert b s = .next t ∧ Mild s t := by
  have level := pins_mild { s.pins with low := b } s rfl
  unfold execLowAssert
  split
  · exact ⟨_, rfl, level⟩
  · exact ⟨_, rfl, level.trans (takeLow_step ctlStage ctlStage_step _).mild⟩

theorem compositionPeriodEnd_mild (s : State) : ∃ t, execCompositionPeriodEnd s = .next t ∧ Mild s t := by
  unfold execCompositionPeriodEnd
  split
  · rename_i h
    have hi : s.composer.state = .idle := by simpa [composerIdle] using h.2.1
    exact ⟨_, rfl, (startPass_step s (by rw [hi]; decide)).mild⟩
  · exact ⟨_, rfl, .refl s⟩

theorem KeepsBase.mild {s t : State} (a : KeepsBase s t) (h : Safe s → Safe t) : Mild s t :=
  ⟨a.clock, a.cfg, a.cfgInForce, a.pending, a.startup, a.loader, by rw [a.pins], h⟩

theorem passCompletion_mild (s : State) : ∃ t, execPassCompletion s = .next t ∧ Mild s t := by
  unfold execPassCompletion
  split
  · rename_i h
    split
    · exact ⟨_, rfl, (completePass_safe _ s h.2).1.mild (completePass_safe _ s h.2).2⟩
    · exact ⟨_, rfl, .refl s⟩
  · exact ⟨_, rfl, .refl s⟩

theorem reading_step (r : Option Reading) (s : State) : WorkStep s { s with engine := { s.engine with reading := r } } :=
  engine_step _ s (fun h => h) (fun h => h.2) (fun h => h)

theorem preparing_state {s : State} {x : Refresh} (h : preparing s = some x) :
    s.engine.state = .prepare ∧ s.engine.refresh = some x := by
  unfold preparing at h
  split at h
  · rename_i h'; exact ⟨h'.2, h⟩
  · cases h

theorem driving_state {s : State} {x : Refresh} (h : driving s = some x) : s.engine.state = .drive := by
  unfold driving at h
  split at h
  · rename_i h'; exact h'.2
  · cases h

theorem temperatureAnswer_mild (d : Int) (s : State) : ∃ t, execTemperatureAnswer d s = .next t ∧ Mild s t := by
  unfold execTemperatureAnswer
  split
  · rename_i x h
    refine ⟨_, rfl, ((reading_step (some (readingOf d s.clock)) s).trans
      (prepareWith_step select select_step x (readingOf d s.clock).degrees _ ?_ (preparing_state h).2)).mild⟩
    show s.engine.state ≠ .lockout
    rw [(preparing_state h).1]; decide
  · exact ⟨_, rfl, .refl s⟩

theorem temperatureNoAnswer_mild (s : State) : ∃ t, execTemperatureNoAnswer s = .next t ∧ Mild s t := by
  unfold execTemperatureNoAnswer
  split
  · rename_i x h
    exact ⟨_, rfl, (abortWith_step select select_step _ x s (by rw [(preparing_state h).1]; decide)).mild⟩
  · exact ⟨_, rfl, .refl s⟩

theorem driveFrameEnd_mild (s : State) : ∃ t, execDriveFrameEnd s = .next t ∧ Mild s t := by
  unfold execDriveFrameEnd
  split
  · rename_i h
    split
    · exact ⟨_, rfl, .refl s⟩
    · exact ⟨_, rfl, (endPeriod_step _ _ _ _ _ _ s (frameInHand_drive h)).mild⟩
  · exact ⟨_, rfl, .refl s⟩

theorem deadGapEnd_mild (s : State) : ∃ t, execDeadGapEnd s = .next t ∧ Mild s t := by
  unfold execDeadGapEnd
  split
  · rename_i x _ _ p _ h
    split
    · exact ⟨_, rfl, (driving_step (s.engine.driveFrame x p.phase p.frame) s (frameInHand_drive h)
        (.inl (frameInHand_drive h)) rfl rfl).mild⟩
    · exact ⟨_, rfl, .refl s⟩
  · exact ⟨_, rfl, .refl s⟩

theorem refreshCompletion_mild (s : State) : ∃ t, execRefreshCompletion s = .next t ∧ Mild s t := by
  unfold execRefreshCompletion
  split
  · split
    · rename_i x w hx hw
      exact ⟨_, rfl, completeRefresh_mild x w _ s hx hw⟩
    · exact ⟨_, rfl, .refl s⟩
  · exact ⟨_, rfl, .refl s⟩

theorem pfaultAssert_mild (b : Bool) (s : State) : ∃ t, execPfaultAssert b s = .next t ∧ Mild s t := by
  have hp := pins_mild { s.pins with pfault := b } s rfl
  unfold execPfaultAssert
  split
  · rename_i x h
    refine ⟨_, rfl, hp.trans (abortWith_step select select_step _ x _ ?_).mild⟩
    show s.engine.state ≠ .lockout
    rw [driving_state h]; decide
  · exact ⟨_, rfl, hp⟩

theorem takeDroop_step (s : State) : WorkStep s (takeDroop s) := by
  unfold takeDroop
  split
  · rename_i x h
    exact abortWith_step select select_step _ x s (by rw [driving_state h]; decide)
  · split
    · exact .refl s
    · exact monitor_step { s.monitor with record := { s.monitor.record with droopSeen := true } } s rfl

theorem droopAssert_mild (s : State) : ∃ t, execDroopAssert s = .next t ∧ Mild s t := by
  unfold execDroopAssert
  split
  · exact ⟨_, rfl, .refl s⟩
  · exact ⟨_, rfl, (pins_mild { s.pins with droop := true } s rfl).trans (takeDroop_step _).mild⟩

theorem droopRelease_mild (s : State) : ∃ t, execDroopRelease s = .next t ∧ Mild s t := by
  have hp := pins_mild { s.pins with droop := false } s rfl
  unfold execDroopRelease
  dsimp only
  split
  · split
    · exact ⟨_, rfl, hp.trans (releaseHeld_mild _)⟩
    · exact ⟨_, rfl, hp⟩
  · exact ⟨_, rfl, .refl s⟩

theorem lockoutEnd_mild (s : State) : ∃ t, execLockoutEnd s = .next t ∧ Mild s t := by
  unfold execLockoutEnd
  split
  · rename_i h; exact ⟨_, rfl, (endLockout_step s h.2.1).mild⟩
  · exact ⟨_, rfl, .refl s⟩

theorem retryTimerExpiry_mild (s : State) : ∃ t, execRetryTimerExpiry s = .next t ∧ Mild s t := by
  unfold execRetryTimerExpiry
  split
  · exact ⟨_, rfl, releaseHeld_mild s⟩
  · exact ⟨_, rfl, .refl s⟩

theorem fullClearInterval_mild (s : State) : ∃ t, execFullClearIntervalExpiry s = .next t ∧ Mild s t := by
  unfold execFullClearIntervalExpiry
  split
  · exact ⟨_, rfl, (((ctl_step _ s).trans (requestClear_step .ordinary _)).trans (select_step _)).mild⟩
  · exact ⟨_, rfl, .refl s⟩

/-! ### The tick and the start-up -/

theorem tickTimers_step (s : State) : ∃ u : State, WorkStep s u ∧
    tickTimers s = { u with startup := { s.startup with fillTimer := countDown s.startup.fillTimer } } := by
  refine ⟨{ s with
    ctl := { s.ctl with retry := countDown s.ctl.retry, interval := countDown s.ctl.interval }
    monitor := { s.monitor with lockout := countDown s.monitor.lockout }
    engine := { s.engine with reading := s.engine.reading.map (Reading.aged s.clock) } }, ?_, rfl⟩
  exact ((ctl_step _ s).trans (monitor_step { s.monitor with lockout := countDown s.monitor.lockout } { s with
      ctl := { s.ctl with retry := countDown s.ctl.retry, interval := countDown s.ctl.interval } } rfl)).trans
    (reading_step (s.engine.reading.map (Reading.aged s.clock)) { s with
      ctl := { s.ctl with retry := countDown s.ctl.retry, interval := countDown s.ctl.interval }
      monitor := { s.monitor with lockout := countDown s.monitor.lockout } })

theorem receiverDebit_step (s : State) : WorkStep s (receiverDebit s) := by
  unfold receiverDebit
  split
  · exact debit_step ctlStage ctlStage_step 1 s
  · exact .refl s

theorem noticePass_step (s : State) : WorkStep s (noticePass s) := by
  unfold noticePass
  split
  · rename_i h; exact startPass_step s (by rw [h.1]; decide)
  · exact .refl s

theorem fallDue_mild (s : State) : Mild s (fallDue s) := by
  unfold fallDue
  split
  · exact ⟨rfl, rfl, rfl, rfl, rfl, rfl, rfl, fun h => h.of_bounded h.bounded.congr⟩
  · exact .refl s

theorem boundaryWork_step (s : State) : WorkStep s (boundaryWork s) := by
  unfold boundaryWork
  dsimp only
  split
  · exact (debit_step ctlStage ctlStage_step 1 s).trans (noticePass_step _)
  · exact debit_step ctlStage ctlStage_step 1 s

/-- What a tick leaves of the state beside the clock and the fill period timer. -/
structure TickStep (s t : State) : Prop where
  cfg : t.cfg = s.cfg
  cfgInForce : t.cfgInForce = s.cfgInForce
  pending : t.pending = s.pending
  startup : t.startup.state = s.startup.state
  kind : t.startup.kind = s.startup.kind
  loader : t.loader = s.loader
  reset : t.pins.reset = s.pins.reset
  safe : Safe s → Safe t

theorem TickStep.trans {s t u : State} (a : TickStep s t) (b : TickStep t u) : TickStep s u :=
  ⟨b.cfg.trans a.cfg, b.cfgInForce.trans a.cfgInForce, b.pending.trans a.pending, b.startup.trans a.startup,
    b.kind.trans a.kind, b.loader.trans a.loader, b.reset.trans a.reset, fun h => b.safe (a.safe h)⟩

theorem Mild.tick {s t : State} (a : Mild s t) : TickStep s t :=
  ⟨a.cfg, a.cfgInForce, a.pending, by rw [a.startup], by rw [a.startup], a.loader, a.reset, a.safe⟩

theorem tickTimers_tick (s : State) : (tickTimers s).clock = s.clock ∧ TickStep s (tickTimers s) := by
  obtain ⟨u, hu, ht⟩ := tickTimers_step s
  have hm := hu.mild
  rw [ht]
  refine ⟨hm.clock, hm.cfg, hm.cfgInForce, hm.pending, rfl, rfl, hm.loader, hm.reset, fun hs => ?_⟩
  have hsu := hm.safe hs
  exact hsu.of_bounded (hsu.bounded.congr (startup := by rw [hm.startup]))

theorem tickEvent_effect (s : State) : (tickEvent s).clock = s.clock + 1 ∧ TickStep s (tickEvent s) := by
  have h0 : TickStep s (advanceClock s) :=
    ⟨rfl, rfl, rfl, rfl, rfl, rfl, rfl, fun h => h.of_bounded h.bounded.congr⟩
  have main : ∀ v : State, v.clock = s.clock + 1 → TickStep s v →
      (receiverDebit v).clock = s.clock + 1 ∧ TickStep s (receiverDebit v) := fun v hc hv =>
    ⟨(receiverDebit_step v).clock.trans hc, hv.trans (receiverDebit_step v).mild.tick⟩
  have hend : ∀ v : State, v.clock = s.clock + 1 → TickStep s v →
      (if isBoundary v.clock then boundaryWork v else v).clock = s.clock + 1 ∧
        TickStep s (if isBoundary v.clock then boundaryWork v else v) := by
    intro v hc hv
    split
    · exact ⟨(boundaryWork_step v).clock.trans hc, hv.trans (boundaryWork_step v).mild.tick⟩
    · exact ⟨hc, hv⟩
  unfold tickEvent
  dsimp only
  split
  · obtain ⟨hc, ht⟩ := tickTimers_tick (advanceClock s)
    have hf := fallDue_mild (tickTimers (advanceClock s))
    obtain ⟨h1, h2⟩ := main _ (hf.clock.trans hc) (h0.trans (ht.trans hf.tick))
    exact hend _ h1 h2
  · obtain ⟨h1, h2⟩ := main _ rfl h0
    exact hend _ h1 h2

/-- The rows after a power-on. -/
theorem initialRows_counts (n : Nat) : (Row.initialRows n).length = n + 1 ∧
    ∀ row ∈ Row.initialRows n, row.partialCount = 0 := by
  refine ⟨by simp [Row.initialRows], fun row h => ?_⟩
  rcases List.mem_append.1 h with h | h
  · rw [(List.mem_replicate.1 h).2]; rfl
  · rw [List.mem_singleton.1 h]; rfl

/-- The controller's pointers after a reset or a load (R120). -/
theorem initial_pointers (n : Nat) (h : 4 ≤ n) :
    (Controller.initial n).pointer < n ∧ (Controller.initial n).grantPointer < n := by
  constructor <;> simp only [Controller.initial] <;> omega

/-- Empty receive buffers. -/
theorem RxAgrees.initial : RxAgrees .initial :=
  ⟨List.nodup_nil, fun _ h => absurd h List.not_mem_nil, fun _ h => absurd h List.not_mem_nil⟩

/-- The frames of a part that has heard none. -/
theorem FramesMatch.none {s : State} (hx : s.rx = .initial) (hs : s.seen = []) (hq : s.relayQ = [])
    (hm : s.maint.replies = []) : FramesMatch s := by
  have hk : s.rx.heldKeys = [] := by rw [hx]; rfl
  rw [framesMatch_iff, DeferralsInRange, hk, hs, hq, hm]
  refine ⟨⟨Nat.zero_le _, List.nodup_nil, ?_, List.nodup_nil, ?_, ?_, List.nodup_nil, ?_, ?_, ?_⟩, ?_, ?_⟩ <;>
    (intro x h; cases h)

theorem poweredOn_safe (l : Pins) (loader : Loader) (q : List Instr) : Safe (State.poweredOn l loader q) where
  energy := Nat.zero_le _
  counters := countersZero
  table := ⟨Nat.zero_le _, List.nodup_nil⟩
  queues := ⟨Nat.zero_le _, Nat.zero_le _⟩
  grounded := fun _ => rfl
  lock := by simp [LockFollowsPass, State.poweredOn, Composer.initial]
  aborts := ⟨Nat.zero_le _, fun _ => Nat.zero_le _⟩
  pointers := initial_pointers _ (by decide)
  latch := .of_none (show Cfg.defaults.partialLimit ≤ 32 by decide) rfl
  rows := ⟨show 4 ≤ Cfg.defaults.n by decide, show Cfg.defaults.n ≤ 10 by decide,
    by rw [rowCounters, List.length_map]; exact (initialRows_counts _).1, fun k hk => by
    obtain ⟨row, h, rfl⟩ := List.mem_map.1 hk
    rw [(initialRows_counts _).2 row h]
    exact Nat.zero_le _⟩
  buffers := (buffersInRange_iff _).2 .initial
  frames := fun _ => .none rfl rfl rfl rfl

/-- The rows cut by a reset keep their partial counters until the release. -/
theorem cutRows_counts (s : State) : rowCounters (holdInReset s) = rowCounters s :=
  mapRows_counts Row.cut (fun row => by unfold Row.cut; split <;> rfl) s.rows

theorem holdInReset_safe (s : State) (h : Safe s) : Safe (holdInReset s) where
  energy := h.energy
  counters := h.counters
  table := h.table
  queues := h.queues
  grounded := fun _ => rfl
  lock := by simp [LockFollowsPass, holdInReset]
  aborts := h.aborts
  pointers := h.pointers
  latch := by
    obtain ⟨h1, h2, h3⟩ := h.latch
    refine ⟨h1, h2, fun hp => ?_⟩
    obtain ⟨r, hr, hk⟩ := h3 hp
    exact ⟨r, hr, by rw [cutRows_counts]; exact hk⟩
  rows := by
    have := h.rows
    unfold RowsInRange at this ⊢
    rw [cutRows_counts]
    exact this
  buffers := (buffersInRange_iff _).2 .initial
  frames := fun hn => absurd rfl hn

theorem releaseReset_safe (k : Nat) (s : State) (h : Safe s) : Safe (releaseReset k s) where
  energy := h.energy
  counters := countersZero
  table := ⟨Nat.zero_le _, List.nodup_nil⟩
  queues := ⟨Nat.zero_le _, Nat.zero_le _⟩
  grounded := fun _ => rfl
  lock := by simp [LockFollowsPass, releaseReset, Composer.initial]
  aborts := ⟨Nat.zero_le _, fun _ => Nat.zero_le _⟩
  pointers := initial_pointers _ h.rows.1
  latch := .of_none h.latch.1 rfl
  rows := by
    obtain ⟨h1, h2, h3, _⟩ := h.rows
    refine ⟨h1, h2, by simpa [rowCounters, releaseReset] using h3, fun k hk => ?_⟩
    obtain ⟨row, hm, rfl⟩ := List.mem_map.1 hk
    obtain ⟨i, hi, rfl⟩ := List.mem_iff_getElem.1 hm
    simp [releaseReset, Row.afterReset]
  buffers := (buffersInRange_iff _).2 .initial
  frames := fun _ => .none rfl rfl rfl rfl

/-- A running account's change of E to a value within the capacity: the outcome is safe when all but E was. -/
theorem changeEnergy_makesSafe (ctl : State → State) (hctl : ∀ u, WorkStep u (ctl u)) (e : Nat) (s : State)
    (hr : s.account.running = true) (h : Safe (s.setEnergy e)) : Safe (changeEnergy ctl e s) := by
  simp only [changeEnergy, hr, if_true]
  exact ((stageRules_step ctl hctl _).trans (receiverUpdate_step _).work).mild.safe h

theorem changeEnergy_base (ctl : State → State) (hctl : ∀ u, WorkStep u (ctl u)) (e : Nat) (s : State) :
    KeepsBase s (changeEnergy ctl e s) := by
  unfold changeEnergy
  split
  · exact (KeepsBase.mk rfl rfl rfl rfl rfl rfl rfl : KeepsBase s (s.setEnergy e)).trans
      ((stageRules_step ctl hctl _).trans (receiverUpdate_step _).work).block.base
  · exact .refl s

/-- The state is safe but for E. -/
def SafeButEnergy (s : State) : Prop := ∀ e, e ≤ s.cfg.capacity → Safe (s.setEnergy e)

theorem reenter_step (s : State) : WorkStep s (select (writeFreezeContent (requestClear .freeze s))) :=
  ((requestClear_step .freeze s).trans (writeFreezeContent_step _)).trans (select_step _)

theorem standingLow_step (s : State) : WorkStep s (standingLow s) := by
  unfold standingLow
  split
  · exact takeLow_step ctlStage ctlStage_step s
  · exact .refl s

theorem startAccount_effect (s : State) :
    KeepsBase s (startAccount s) ∧ (SafeButEnergy s → Safe (startAccount s)) := by
  unfold startAccount
  dsimp only
  set r : State := { s with account := { s.account with running := true } } with hr
  have h2 := changeEnergy_base ctlStage ctlStage_step (min s.cfg.capacity (s.cfg.t3 + s.cfg.h)) r
  have h3 := standingLow_step (changeEnergy ctlStage (min s.cfg.capacity (s.cfg.t3 + s.cfg.h)) r)
  refine ⟨((KeepsBase.mk rfl rfl rfl rfl rfl rfl rfl : KeepsBase s r).trans h2).trans h3.block.base, fun h => h3.mild.safe ?_⟩
  have hs := h _ (Nat.min_le_left s.cfg.capacity (s.cfg.t3 + s.cfg.h))
  exact changeEnergy_makesSafe _ ctlStage_step _ _ rfl (hs.of_bounded hs.bounded.congr)

theorem resumeAccount_effect (s : State) (hr : s.account.running = true) :
    KeepsBase s (resumeAccount s) ∧ (SafeButEnergy s → Safe (resumeAccount s)) := by
  unfold resumeAccount
  dsimp only
  set c := changeEnergy ctlStage (min s.cfg.capacity s.account.e) s with hc
  have h2 := changeEnergy_base ctlStage ctlStage_step (min s.cfg.capacity s.account.e) s
  have h1 (h : SafeButEnergy s) : Safe c := changeEnergy_makesSafe _ ctlStage_step _ _ hr (h _ (Nat.min_le_left _ _))
  have h3 := standingLow_step c
  split
  · have h4 := h3.trans (reenter_step _)
    exact ⟨h2.trans h4.block.base, fun h => h4.mild.safe (h1 h)⟩
  · exact ⟨h2.trans h3.block.base, fun h => h3.mild.safe (h1 h)⟩

theorem accountAfterLoad_effect (s : State) :
    KeepsBase s (accountAfterLoad s) ∧ (SafeButEnergy s → Safe (accountAfterLoad s)) := by
  unfold accountAfterLoad
  split
  · rename_i hr; exact resumeAccount_effect s hr
  · exact startAccount_effect s

/-- The ranges of a configuration that the rows and the drive go by (R94, R148). -/
def CfgInRange (c : Cfg) : Prop := 4 ≤ c.n ∧ c.n ≤ 10 ∧ c.partialLimit ≤ 32

theorem clampTo_le (lo hi v : Nat) (h : lo ≤ hi) : clampTo lo hi v ≤ hi := by
  unfold clampTo
  split
  · exact h
  · split <;> omega

/-- What a load puts in force is in range (R200 to R202). -/
theorem loadResult_inRange {p : LoadPhase} {answer : MemoryAnswer} {o : LoadOutcome} {c : Cfg}
    (h : loadResult p answer = some (o, c)) : CfgInRange c := by
  have hd : CfgInRange .defaults := ⟨by decide, by decide, by decide⟩
  have hr : ∀ r : List Byte, CfgInRange (recordResult r).2 := fun r => by
    unfold recordResult
    split
    · rename_i hv
      simp only [recordValid, recordFieldsOk, Bool.and_eq_true, decide_eq_true_eq] at hv
      exact ⟨hv.1.1.1.1.1.1.1.2, hv.1.1.1.1.1.1.2, clampTo_le 8 32 _ (by decide)⟩
    · exact hd
  cases p <;> simp only [loadResult] at h <;> try (split at h) <;> try (split at h)
  all_goals first
    | (obtain ⟨_, rfl⟩ := Prod.mk.inj (Option.some.inj h); exact hd)
    | (have := Option.some.inj h; rw [← show (recordResult _).2 = c by rw [this]]; exact hr _)
    | cases h

/-- The partial counters of the rows a load leaves (R98). -/
theorem loadedRows_counts (n : Nat) (s : State) : (loadedRows n s).map (·.partialCount) =
    (if n = s.cfg.n then s.rows else Row.initialRows n).map (·.partialCount) := by
  exact mapIdxRows_counts (fun r row => { row with mask := decide (r < n) && masksKept s.account }) (fun _ _ => rfl) _

theorem applyLoad_safe (o : LoadOutcome) (c : Cfg) (s : State) (hc : CfgInRange c) (hn : s.startup.state ≠ .inReset)
    (h : Safe s) : SafeButEnergy (applyLoad o c s) := by
  have hrows : ∀ e, rowCounters ((applyLoad o c s).setEnergy e) =
      (if c.n = s.cfg.n then s.rows else Row.initialRows c.n).map (·.partialCount) := fun e => loadedRows_counts c.n s
  obtain ⟨_, _, hlen, hmax⟩ := h.rows
  refine fun e he => ⟨he, h.counters, h.table, h.queues, h.grounded, h.lock, h.aborts, initial_pointers _ hc.1,
    ⟨hc.2.2, h.latch.2.1, fun hp => ?_⟩, ⟨hc.1, hc.2.1, ?_, ?_⟩, h.buffers, fun _ => ?_⟩
  · obtain ⟨r, hr, hk⟩ := h.latch.2.2 hp
    refine ⟨r, hr, fun k hk' => ?_⟩
    rw [hrows] at hk'
    split at hk'
    · exact hk k hk'
    · rw [List.getElem?_map] at hk'
      obtain ⟨row, hg, rfl⟩ := Option.map_eq_some_iff.1 hk'
      rw [(initialRows_counts _).2 row (List.mem_of_getElem? hg)]
      decide
  · rw [hrows, List.length_map]
    split
    · rename_i hcn
      rw [rowCounters, List.length_map] at hlen
      rw [hlen, ← hcn]
      rfl
    · exact (initialRows_counts _).1
  · rw [hrows]
    split
    · exact hmax
    · intro k hk
      obtain ⟨row, hm, rfl⟩ := List.mem_map.1 hk
      rw [(initialRows_counts _).2 row hm]
      exact Nat.zero_le _
  · have hf := h.frames hn
    exact ⟨hf.seen, hf.relays, hf.dispatches, hf.deferrals⟩

/-- What the end of a load leaves: the fill period in progress, and a safe state when it was safe. -/
theorem endLoad_effect (o : LoadOutcome) (c : Cfg) (s : State) :
    (endLoad o c s).clock = s.clock ∧ (endLoad o c s).pending = s.pending ∧ (endLoad o c s).pins = s.pins ∧
    (endLoad o c s).startup.state = .fill ∧ (endLoad o c s).cfg = c ∧
    (CfgInRange c → s.startup.state ≠ .inReset → Safe s → Safe (endLoad o c s)) := by
  unfold endLoad
  have tail : ∀ u : State, Mild u (receiverUpdate (beginPeriod u)) ∧ (receiverUpdate (beginPeriod u)).pins = u.pins :=
    fun u => ⟨((window_step _ u).trans (receiverUpdate_step _).work).mild,
      ((window_step _ u).trans (receiverUpdate_step _).work).pins⟩
  obtain ⟨ht, hp⟩ := tail (accountAfterLoad (applyLoad o c s))
  obtain ⟨hb, hsafe⟩ := accountAfterLoad_effect (applyLoad o c s)
  refine ⟨ht.clock.trans hb.clock, ht.pending.trans hb.pending, hp.trans hb.pins, ?_, ht.cfg.trans hb.cfg,
    fun hc hn hs => ?_⟩
  · rw [ht.startup, hb.startup]; rfl
  · exact ht.safe (hsafe (applyLoad_safe o c s hc hn hs))

/-- What the end of the fill period leaves. -/
theorem endFill_effect (s : State) :
    (endFill s).clock = s.clock ∧ (endFill s).pending = s.pending ∧ (endFill s).pins = s.pins ∧
    (endFill s).startup.state = .service ∧ (endFill s).startup.kind = s.startup.kind ∧ (endFill s).cfg = s.cfg ∧
    (endFill s).cfgInForce = s.cfgInForce ∧ (endFill s).loader = s.loader ∧
    (s.startup.state = .fill → Safe s → Safe (endFill s)) := by
  unfold endFill
  dsimp only
  set u := startInterval { s with startup := { s.startup with state := .service, fillTimer := none } } with hu
  have hsafe : s.startup.state = .fill → Safe s → Safe u := fun hf h => by
    refine h.of_bounded ⟨h.energy, h.counters, h.table, h.queues, h.grounded, h.aborts, h.pointers, h.latch, h.rows,
      h.buffers, fun _ => ?_⟩
    have := h.frames (by rw [hf]; decide)
    exact ⟨this.seen, this.relays, this.dispatches, this.deferrals⟩
  split
  · exact ⟨rfl, rfl, rfl, rfl, rfl, rfl, rfl, rfl, hsafe⟩
  · set v : State := { u with composer := { u.composer with
      clearArmed := u.composer.clearArmed || decide (u.startup.kind = .powerOn) } } with hv
    have hd := sweepDue_step v
    refine ⟨hd.clock, hd.pending, hd.pins, ?_, ?_, hd.cfg, hd.cfgInForce, hd.loader, fun hf h => ?_⟩
    · show v.sweepDue.startup.state = _
      rw [hd.startup]; rfl
    · show v.sweepDue.startup.kind = _
      rw [hd.startup]; rfl
    · have hb : Bounded v := (hsafe hf h).bounded.congr
      exact Bounded.safe ((hd.block.bounds hb).congr) (by simp [LockFollowsPass, startPass, takeLock])

end Sys2Proof.Machine
end

