-- ==== Sys2Proof/WellFormed.lean ====
section
/-! DEFINITION. The operands a command can carry. The bus free check samples SDA once and then after each of at most nine
clock pulses (R196), so at most ten samples find it low; a load that reads, reads 512 bytes (R198). -/

namespace Sys2Proof

/-- A command whose operands the part can meet. -/
def Instr.wellFormed : Instr → Bool
  | .powerOn _ sdaLow => sdaLow ≤ 10
  | .resetRelease sdaLow => sdaLow ≤ 10
  | .loadEnd (.read record) => record.length = 512
  | .loadEnd (.nack _) | .resetAssert | .loadRetryWaitEnd | .fillPeriodEnd | .tick | .seenEntryAgeOut | .relayLifetimeExpiry
  | .tableSweep | .wallReferenceExpiry | .listenPeriodEnd | .listenWindowOff | .characterReceived _ _
  | .syncGapTimeout | .interCharacterGapTimeout | .cdAssert | .cdDeassert | .frameDispatch | .statusRequest
  | .tableRequest | .clearRequest | .refreshRequest | .unknownRequestCode | .relayDue | .quietTimerExpiry
  | .contentionDelayEnd | .transmissionEnd | .harvestPulse | .lowAssert _ | .compositionPeriodEnd
  | .passCompletion | .temperatureAnswer _ | .temperatureNoAnswer | .driveFrameEnd | .deadGapEnd
  | .refreshCompletion | .pfaultAssert _ | .droopAssert | .droopRelease | .lockoutEnd | .retryTimerExpiry
  | .fullClearIntervalExpiry => true

end Sys2Proof
end

