-- ==== Sys2Proof/Tests/Slice0.lean ====
section
/-! SUPPORT. Tests: the refusals of WellFormed, the manual's worked figures, small steps, and for each statement with
hypotheses a state and operands that meet them (`witness_…`). Expected figures are the manual's, or worked by hand from it. -/

set_option Elab.async false

namespace Sys2Proof.Tests

open Sys2Proof.Machine

/-! ### Well-formed commands -/

/-- Every input deasserted. -/
def noPins : Pins := ⟨false, false, false, false, false⟩

theorem test_wf_powerOn_refuses_eleven_low_samples : (Instr.powerOn noPins 11).wellFormed = false := by decide
theorem test_wf_powerOn_takes_ten_low_samples : (Instr.powerOn noPins 10).wellFormed = true := by decide
theorem test_wf_resetRelease_refuses_eleven_low_samples : (Instr.resetRelease 11).wellFormed = false := by decide
theorem test_wf_loadEnd_refuses_short_record : (Instr.loadEnd (.read (List.replicate 511 0))).wellFormed = false :=
  by decide +kernel
theorem test_wf_loadEnd_takes_512_bytes : (Instr.loadEnd (.read (List.replicate 512 0))).wellFormed = true :=
  by decide +kernel

/-! ### Words and figures -/

/-- No word spells a command: the table gives no row bits. -/
theorem test_decode_spells_nothing : decodeTableWord 16 0xC33C = none := by decide

/-- The seed of an unconfigured part (R25). -/
theorem test_seed_of_the_default_id : lfsrSeed 0xFFFE = 0x531F := by decide

/-- Successive draws worked in section 2.8. -/
theorem test_draws : lfsrDraw 0xAEF4 = 0xF4BC ∧ lfsrDraw 0xF4BC = 0xBC14 ∧ lfsrDraw 0xBC14 = 0x142E ∧
    lfsrDraw 0x142E = 0x2E60 := by decide

/-- The body check of no bytes (R8). -/
theorem test_bodyCheck_of_nothing : bodyCheck [] = 0xFFFF := by decide

/-- The relay delays at the edges of Table 2-4. -/
theorem test_relayDelay_table : (relayDelayTicks 0, relayDelayTicks 12, relayDelayTicks 13, relayDelayTicks 106,
    relayDelayTicks 107, relayDelayTicks 255) = (2, 2, 3, 5, 6, 10) := by decide

/-- Table 4-2: R0 of −300 s with age 2399 lies 4799 ticks before T; 7200 s with age 0 lies 57,600 after it. -/
theorem test_anchor_limits : anchor (-300) 2399 4799 = 0 ∧ anchor 7200 0 0 = 57600 := by decide

/-- The remaining seconds round toward minus infinity (R81). -/
theorem test_remSeconds_rounds_down : remSeconds 7 0 = 0 ∧ remSeconds (-1) 0 = -1 ∧ remSeconds (-8) 0 = -1 ∧
    remSeconds (-2408) 0 = -300 := by decide

/-- Table 3-2: the sequence test. -/
theorem test_sequence_test : newerSeq 601 600 = true ∧ newerSeq 600 600 = false ∧ newerSeq 598 600 = false ∧
    newerSeq 4 65530 = true ∧ newerSeq 32867 100 = true ∧ newerSeq 32868 100 = false := by decide

/-- Row refresh and panel clear costs of chapter 7. -/
theorem test_costs : refreshCost 8 (.row 0) .full .b3 = 94 ∧ refreshCost 8 (.row 0) .partialWave .b3 = 66 ∧
    refreshCost 8 (.clear .ordinary) .full .b3 = 706 ∧ refreshCost 8 (.clear .ordinary) .full .b0 = 1930 := by decide

/-- Table 9-3: the banner reserve. -/
theorem test_bannerReserve : bannerReserve 4 = 1090 ∧ bannerReserve 6 = 1510 ∧ bannerReserve 10 = 2350 := by decide

/-- Table 7-3: the edges of the bands. -/
theorem test_bands : bandOfTemp (-21) = .noDriveCold ∧ bandOfTemp (-20) = .b0 ∧ bandOfTemp (-11) = .b0 ∧
    bandOfTemp (-10) = .b1 ∧ bandOfTemp 24 = .b3 ∧ bandOfTemp 25 = .b4 ∧ bandOfTemp 54 = .b5 ∧
    bandOfTemp 55 = .noDriveHot := by decide

/-- Table 8-3: the prorated cost of a FULL row cut in WHITE, frame 3, in B3, and of a cold panel clear cut in WRITE. -/
theorem test_prorated : frameCost 8 (.row 0) 10 0 = 60 ∧ frameCost 8 (.clear .ordinary) 40 0 = 1480 := by decide

/-! ### States -/

/-- A configuration of 4 departure rows that serves direction 0 of route 7. -/
def cfg0 : Cfg := { Cfg.defaults with
  configured := true
  ownId := 0x1234
  maintenanceKey := 0xBEEF
  n := 4
  routes := [⟨7, true, false, [0x37, 0x20, 0x20, 0x20], List.replicate 10 0x41, []⟩] }

/-- A part in SERVICE and FULL, listening, with nothing to do. -/
def s0 : State := { State.reset with
  clock := 1000
  startup := ⟨.service, .powerOn, .loading, none⟩
  loader := ⟨.ended, 0, some .valid, [], 0⟩
  cfg := cfg0
  cfgInForce := true
  rx := { Receiver.initial with state := .listen, window := ⟨true, 996, .full, true⟩ }
  rng := 0xAEF4
  composer := { Composer.initial with state := .idle, nextPass := some 1120 }
  rows := Row.initialRows 4
  ctl := { Controller.initial 4 with interval := some 172000 }
  account := ⟨true, 2000000, none, .full, .none⟩ }

/-- The same part with its receiver OFF and its window closed, in SCANT. -/
def sOff : State := { s0 with
  rx := { s0.rx with state := .off, window := ⟨true, 900, .scant, false⟩ }
  account := ⟨true, 300000, none, .scant, .none⟩ }

/-- The same part in FROZEN with its freeze drawn and the receiver OFF. -/
def sFrozen : State := { sOff with
  account := ⟨true, 50000, none, .frozen, .drawn⟩
  composer := Composer.initial }

/-- The part in IN_RESET. -/
def sHeld : State := holdInReset s0

/-- The load of a power-on whose first attempt is in progress. -/
def sLoad : State := State.reset

/-- The load that follows a line reset of the part. -/
def sReload : State := releaseReset 0 sHeld

/-- The part in its fill period, the timer run out. -/
def sFill : State := { s0 with startup := ⟨.fill, .powerOn, .loading, some 0⟩, composer := Composer.initial }

/-- The bytes of a frame from its length byte on. -/
def bytes (kind hop : Nat) (origin seq : Word16) (age : Nat) (subject : Word16) (trail : List Word16) (body : List Byte) :
    List Byte :=
  (buildFrame 0x5A kind hop origin seq age subject trail (withBodyCheck body)).drop 2

/-- The report of trip 9 of route 7, direction 0, in 420 s. -/
def report (hop : Nat) (age : Nat) : List Byte := bytes 1 hop 0x0B01 5 age 14 [] [0, 9, 0x01, 0xA4, 0, 0]

/-- The same trip's report, its hop limit 0. -/
def report0 : List Byte := report 0 19

/-- A bundle for route 8, direction 0, at 86,399 s with one item. -/
def bundle : List Byte := bytes 3 0 0x0D01 7 2399 16 [] [0x01, 0x51, 0x7F, 1, 0, 9, 0, 60]

/-- A request of a code. -/
def request (code arg : Byte) : List Byte := bytes 4 1 0x0C01 3 0 0x1234 [] [0xBE, 0xEF, code, arg]

/-- A request with another key. -/
def wrongKey (code : Byte) : List Byte := bytes 4 1 0x0C01 3 0 0x1234 [] [0xBE, 0xEE, code, 0]

/-- The request those bytes hold. -/
def requested (key : Word16) (code arg : Nat) : Request := ⟨0x0C01, 3, key, code, arg⟩

/-- The part with an accepted frame in buffer A. -/
def accepting (s : State) (l : List Byte) : State :=
  { s with rx := { s.rx with bufA := some ⟨l, some 1000⟩, accepted := [.a] } }

/-- A seen entry of the report's key. -/
def seenAs (st : SeenState) (pend : Bool) : SeenEntry := ⟨0x0B01, 5, st, 0, 990, pend⟩

/-- A relay entry of the report's key. -/
def relayOf (defer : Nat) : RelayEntry := ⟨0x0B01, 5, syncBytes ++ report 3 19, 990, 995, defer⟩

/-- The part with that relay waiting. -/
def relaying (s : State) (defer : Nat) : State :=
  { s with seen := [seenAs .waiting false], relayQ := [relayOf defer] }

/-- A departure entry of route 7, direction 0. -/
def entry (trip : Nat) (d : Tick) : DepEntry :=
  ⟨⟨7, false, trip⟩, .live, .active, d, 900, 0x0B01, 4, none, none, false, none⟩

/-- A full table, in order. -/
def fullTable : List DepEntry := (List.range 48).map (fun i => entry i (BitVec.ofNat 32 (2000 + i)))

/-- The entry of trip 9 that the report's origin last set with sequence `seq`. -/
def entry9 (seq : Word16) : DepEntry := { entry 9 5000 with repSeq := seq }

/-- The SCHEDULED entry of trip 9 that an origin set with sequence `seq`. -/
def timed9 (origin seq : Word16) : DepEntry := { entry9 seq with source := .scheduled, repOrigin := origin }

/-- A waiting reply that has been deferred. -/
def reply1 : Reply := ⟨[1, 2, 3], 6⟩

/-- The part with that reply in contention. -/
def sReply : State := { s0 with cau := .contending .reply 6, maint := { s0.maint with replies := [reply1] } }

/-- The part with the relay in contention. -/
def sContend (defer : Nat) : State := { relaying s0 defer with cau := .contending (.relay 0x0B01 5) 6 }

/-- The part with the relay waiting for quiet. -/
def sSense (quiet : QuietTimer) (cd : Bool) : State := { relaying s0 0 with
  cau := .sensing, quiet := quiet, pins := { noPins with cd := cd } }

/-- The part with the fault record of a PARTIAL refresh cut in REST. -/
def sCut (w : Waveform) : State := { s0 with monitor := ⟨⟨.pfault, false, some 1, some (w, .rest), 1⟩, 1, none⟩ }

/-- The part with a refresh in PREPARE, nothing read yet. -/
def sPrepare (s : State) (x : Refresh) : State :=
  { s with
    rows := s.rows.modify 0 (fun row => { row with inService := true, drawing := some row.desired })
    ctl := { s.ctl with state := .granted, pointer := 0, grantPointer := 3 }
    engine := { Engine.initial with state := .prepare, refresh := some x, counts := some (0, 0) } }

/-- Four of five rows shown, so that a cut leaves at most two indeterminate. -/
def shownRows : List Row := (Row.initialRows 4).map (fun row => { row with shown := some row.desired })

/-- The part with row 0 in DRIVE at the third frame of WHITE, FULL, in B3. -/
def sDriving : State := { s0 with
  rows := shownRows.modify 0 (fun row => { row with inService := true, drawing := some row.desired })
  ctl := { s0.ctl with state := .granted, pointer := 0, grantPointer := 3 }
  account := { s0.account with reservation := some 94 }
  engine := { Engine.initial with
    state := .drive, refresh := some (.row 0), reading := some ⟨20, 990, false⟩, lastBand := some .b3,
    band := some .b3, waveform := some .full, cost := some 94, position := some ⟨.white, 3, 0, false⟩,
    counts := some (10, 0), frameClock := .running, bus := .driving 0 .white } }

/-- The part with row 0 in SETTLE. -/
def sSettle : State := { sDriving with engine := { sDriving.engine with
  state := .settle, position := some ⟨.rest, 2, 0, false⟩, counts := some (18, 2), frameClock := .stopped,
  bus := .grounded } }

/-! ### One step of a command, with the manual's figures -/

/-- What `f` reads from the state a command answers with. -/
def after {α : Type} (o : Host.Outcome State Fault Refusal) (f : State → α) : Option α :=
  match o with
  | .next t => some (f t)
  | .fault _ => none
  | .refused _ => none

/-- The stop 0x0215 of sections 2.8, 3.13 and 11.6: N = 6, routes 14 in both directions and 7 in direction 0. -/
def cfgA : Cfg := { cfg0 with
  ownId := 0x0215, n := 6,
  routes := [⟨14, true, true, [], [], []⟩, ⟨7, true, false, [], [], []⟩] }

/-- That stop in a stage with an estimate. -/
def sA (stage : Stage) (e : Nat) : State := { s0 with
  cfg := cfgA, account := ⟨true, e, none, stage, .none⟩, rows := Row.initialRows 6,
  ctl := { Controller.initial 6 with interval := some 172000 } }

/-- 10.7: the load of the first attempt ends; E = 100,000, SCANT, fill timer 960. -/
theorem test_loadEnd_table_10_6 :
    after (exec (.loadEnd (.read [])) sLoad) (fun t => (t.account.e, t.account.stage, t.startup.fillTimer, t.cfg.n)) =
      some (100000, .scant, some 960, 6) :=
  by decide +kernel

/-- 10.7: the first tick that is a whole second boundary debits the baseline. -/
theorem test_tick_table_10_6 :
    after (exec .tick { sOff with clock := 7, account := ⟨true, 100000, none, .scant, .none⟩ })
      (fun t => (t.clock, t.account.e, t.sweepWaiting)) = some (8, 99999, true) :=
  by decide +kernel

/-- 10.7: row 5 in DRIVE at the assertion of RESET becomes absent, and its reservation is released without debit. -/
theorem test_resetAssert_in_drive :
    after (exec .resetAssert sDriving) (fun t => (t.rows.map (fun r => r.shown.isNone), t.account)) =
      some ([true, false, false, false, false], ⟨true, 2000000, none, .full, .none⟩) :=
  by decide +kernel

/-- 2.8: the relay decision on sequence 501 draws 0xF4BC, and the relay is due 8 ticks after its end. -/
theorem test_frameDispatch_queues_relay_501 :
    after (exec .frameDispatch { sA .full 2000000 with
        clock := 100000
        seen := [⟨0x1207, 501, .heard, 0, 100000, true⟩]
        rx := { s0.rx with accepted := [.a]
                           bufA := some ⟨bytes 1 3 0x1207 501 0 28 [] [0, 9, 1, 44, 0, 1, 3], some 100000⟩ } })
      (fun t => (t.rng, t.relayQ.map (·.due), t.seen.map (·.state), t.maint.counters.tableApplied)) =
      some (0xF4BC, [100008], [.waiting], 1) :=
  by decide +kernel

/-- 2.8: sequence 502 at its due tick: the draw 0x142E gives a contention delay of 92 ms. -/
theorem test_relayDue_draws_92_ms :
    after (exec .relayDue { sA .full 2000000 with clock := 100043, rng := 0xBC14
                                                  relayQ := [⟨0x1207, 502, [], 100040, 100043, 0⟩] })
      (fun t => (t.rng, t.cau)) = some (0x142E, .contending (.relay 0x1207 502) 92) :=
  by decide +kernel

/-- A frame of 2.8 as the bus sends it. -/
def l502 : List Byte := bytes 1 3 0x1207 502 0 28 [] [0, 9, 1, 44, 0, 1, 3]

/-- 2.8: the frame that goes out for sequence 502 and what it costs. -/
theorem test_contentionDelayEnd_sends_502 :
    after (exec .contentionDelayEnd { sA .full 2000000 with
        clock := 100043, cau := .contending (.relay 0x1207 502) 64
        seen := [⟨0x1207, 502, .waiting, 1, 100040, false⟩]
        relayQ := [⟨0x1207, 502, syncBytes ++ l502, 100040, 100043, 1⟩] })
      (fun t => match t.cau with
        | .sending frame _ =>
          (frame.length, readFrame (frame.drop 2), headerOk (frame.drop 2))
        | _ => (0, readFrame [], false)) =
      some (25, { readFrame l502 with
        hop := 2, age := 3, trailCount := 1, trail := [0x0215], len := 22, check := headerCheck
          [22, 0x5A, 0x12, 0x12, 0x07, 0x01, 0xF6, 0x00, 0x19, 0x00, 0x1C, 0x02, 0x15] }, true) :=
  by decide +kernel

/-- 2.8: 25 q are debited at the end and RELAY_SENT counts. -/
theorem test_transmissionEnd_debits_25 :
    after (exec .transmissionEnd { sA .full 2000000 with cau := .sending (List.replicate 25 0) true
                                                         rx := { s0.rx with state := .transmitting } })
      (fun t => (t.account.e, t.maint.counters.relaySent, t.quiet, t.cau)) =
      some (1999975, 1, .running 30, .idle) :=
  by decide +kernel

/-- The entry 14/0/310 of section 3.13 after E2. -/
def e310 : DepEntry :=
  ⟨⟨14, false, 310⟩, .live, .active, 202439, 200050, 0x1207, 600, some 3, none, false, some 0⟩

/-- 3.13, E3: an older report by a longer path changes no entry. -/
theorem test_frameDispatch_ignores_E3 :
    after (exec .frameDispatch { sA .full 2000000 with
        clock := 200060, table := [e310]
        rx := { s0.rx with accepted := [.a]
                           bufA := some ⟨bytes 1 0 0x1207 598 40 28 [] [1, 54, 1, 74, 0, 0], some 200060⟩ } })
      (fun t => (t.table, t.maint.counters.tableIgnored)) = some ([e310], 1) :=
  by decide +kernel

/-- 3.13, E7: an amendment of another origin anchors the entry at 201,152 and keeps its bay. -/
theorem test_amendment_E7 :
    (State.applyAmendment (readFrame (bytes 2 0 0x0041 3 8 28 [] [])) 200200 310 (some 120) none none none
      { sA .full 2000000 with clock := 200200, table := [e310] }).table =
      [{ e310 with d := 201152, lastReport := 200200, repOrigin := 0x0041, repSeq := 3 }] :=
  by decide +kernel

/-- 3.13: 14/0/310 stands at −952 and is removed at −960; 7/0/88 turns stale past 4800 ticks. -/
theorem test_tableSweep_table_3_4 :
    let e88 : DepEntry := { e310 with key := ⟨7, false, 88⟩, d := 204920, lastReport := 200120 }
    after (exec .tableSweep { s0 with clock := 201832, sweepWaiting := true, table := [{ e310 with d := 200880 }] })
      (fun t => t.table.length) = some 1 ∧
    after (exec .tableSweep { s0 with clock := 201840, sweepWaiting := true, table := [{ e310 with d := 200880 }] })
      (fun t => t.table.length) = some 0 ∧
    after (exec .tableSweep { s0 with clock := 204920, sweepWaiting := true, table := [e88] })
      (fun t => t.table.map (·.stale)) = some [false] ∧
    after (exec .tableSweep { s0 with clock := 204928, sweepWaiting := true, table := [e88] })
      (fun t => t.table.map (·.stale)) = some [true] :=
  by decide +kernel

/-- 4.7: the display value of D = 540,000 under the two references, at the band's edge, and past midnight. -/
theorem test_display_table_4_6 :
    let e : DepEntry := { e310 with d := 540000 }
    displayValue e 505000 (some (wallOf 60000 40 500000)) = .clock 18 3 ∧
    displayValue e 511200 (some (wallOf 61150 0 510000)) = .clock 18 1 ∧
    displayValue e 511201 (some (wallOf 61150 0 510000)) = .minutes 59 ∧
    displayValue { e with d := 50000 } 12000 (some (wallOf 86000 0 10000)) = .clock 1 16 :=
  by decide +kernel

/-- 4.7: the reference of tick 510,000 expires at tick 1,201,200. -/
theorem test_wallReferenceExpiry_at_1201200 :
    after (exec .wallReferenceExpiry { s0 with clock := 1201199, wall := some ⟨489200, 510000⟩ }) (·.wall) =
      some (some ⟨489200, 510000⟩) ∧
    after (exec .wallReferenceExpiry { s0 with clock := 1201200, wall := some ⟨489200, 510000⟩ }) (·.wall) =
      some none :=
  by decide +kernel

/-- 5.9: passes 2 to 5 and 7 of row 1. -/
theorem test_hysteresis_table_5_5 :
    let r (m bay : Nat) : RowContent := ⟨some ⟨14, false, 310⟩, none, none, some bay, .minutes m, true, false⟩
    let d (st : Stage) (cand shown : RowContent) := desiredOf cfgA st cand (some (.departure shown))
    d .thrift (r 7 3) (r 6 3) = .departure (r 6 3) ∧ d .thrift (r 8 3) (r 6 3) = .departure (r 8 3) ∧
    d .scant (r 7 3) (r 8 3) = .departure (r 8 3) ∧ d .scant (r 6 3) (r 8 3) = .departure (r 6 3) ∧
    d .scant (r 4 4) (r 6 3) = .departure (r 4 4) :=
  by decide +kernel

/-- The stop of section 7.9 with row 2 in PREPARE at a tick. -/
def sCold (clock : Tick) : State := { sA .thrift 700064 with
  clock := clock
  rows := (Row.initialRows 6).map (fun row => { row with shown := some row.desired, inService := false, partialCount := 3 })
  ctl := { Controller.initial 6 with state := .granted, pointer := 2, grantPointer := 5 }
  engine := { Engine.initial with state := .prepare, refresh := some (.row 2) } }

/-- 7.9: −21 °C refuses row 2, with the retry timer at 480 ticks. -/
theorem test_temperatureAnswer_refuses_at_minus_21 :
    after (exec (.temperatureAnswer (-21)) (sCold 800630))
      (fun t => (t.engine.state, t.ctl.state, t.ctl.retry, t.account.reservation, t.engine.lastBand)) =
      some (.idle, .held, some 480, none, some .noDriveCold) :=
  by decide +kernel

/-- 7.9: −19 °C is B0, FULL, 230 q. -/
theorem test_temperatureAnswer_drives_at_minus_19 :
    after (exec (.temperatureAnswer (-19)) (sCold 801110))
      (fun t => (t.engine.state, t.engine.waveform, t.account.reservation, spendable t)) =
      some (.drive, some .full, some 230, 698324) :=
  by decide +kernel

/-- Section 8.9's stop with row 4 in the sixth WRITE frame of PARTIAL. -/
def sFault : State := { sA .thrift 900000 with
  clock := 900001
  rows := ((Row.initialRows 6).map (fun row => { row with shown := some row.desired, partialCount := 5 })).modify 4
    (fun row => { row with
      desired := .departure { emptyContent with value := .due }
      drawing := some (.departure { emptyContent with value := .due }), inService := true })
  ctl := { Controller.initial 6 with state := .granted, pointer := 4, grantPointer := 2 }
  account := ⟨true, 900000, some 66, .thrift, .none⟩
  engine := { Engine.initial with
    state := .drive, refresh := some (.row 4), reading := some ⟨14, 900000, false⟩, lastBand := some .b3,
    band := some .b3, waveform := some .partialWave, cost := some 66, position := some ⟨.write, 6, 4, false⟩,
    counts := some (5, 0), frameClock := .running, bus := .driving 4 .write } }

/-- 8.9: PFAULT held through the abort and two more grants: LOCKOUT, 40 + 20 + 20 q, the record of the third. -/
theorem test_pfaultAssert_table_8_5 :
    after (exec (.pfaultAssert true) sFault)
      (fun t => (t.monitor, t.engine.state, t.ctl.state, t.ctl.retry, t.account.e, t.maint.counters.drawAborted)) =
      some (⟨⟨.pfault, false, some 4, some (.full, .invert), 1⟩, 3, some 2400⟩, .lockout, .held, some 480, 899920, 3) :=
  by decide +kernel

/-- 8.9, note: with DROOP held the second grant is refused instead; the count stays 1 and droop-seen is set. -/
theorem test_droopAssert_note_8_9 :
    after (exec .droopAssert sFault)
      (fun t => (t.monitor.record.cause, t.monitor.record.droopSeen, t.monitor.aborts, t.engine.state, t.ctl.state)) =
      some (.droop, true, 1, .idle, .held) :=
  by decide +kernel

/-- Section 9.4's stop with a FULL row refresh in SETTLE. -/
def sNine (e : Nat) (stage : Stage) : State := { sSettle with account := ⟨true, e, some 94, stage, .none⟩ }

/-- 9.4: 94 q take E to 1,199,916 and the stage to THRIFT. -/
theorem test_refreshCompletion_table_9_6 :
    after (exec .refreshCompletion (sNine 1200010 .full))
      (fun t => (t.account, t.maint.counters.drawDone, t.ctl.state)) =
      some (⟨true, 1199916, none, .thrift, .none⟩, 1, .opened) :=
  by decide +kernel

/-- 9.4: the 626th pulse leaves THRIFT, the 627th brings FULL. -/
theorem test_harvestPulse_table_9_6 :
    after (exec .harvestPulse (sA .thrift 1239916)) (·.account) = some ⟨true, 1239980, none, .thrift, .none⟩ ∧
    after (exec .harvestPulse (sA .thrift 1239980)) (·.account) = some ⟨true, 1240044, none, .full, .none⟩ :=
  by decide +kernel

/-- 9.6: LOW from SCANT: E to 59,999, FROZEN; the reading serves, and the freeze picture is reserved at 558 q and driven. -/
theorem test_lowAssert_table_9_8 :
    after (exec (.lowAssert false) { sA .scant 399964 with
        clock := 700100
        rx := sOff.rx
        engine := { Engine.initial with reading := some ⟨14, 700040, false⟩ } })
      (fun t => (t.account, t.engine.state, spendable t, t.maint.counters.lowEvents, t.composer.state)) =
      some (⟨true, 59999, some 558, .frozen, .pending⟩, .drive, 57931, 1, .suspended) :=
  by decide +kernel

/-- 9.6: the 633rd pulse leaves FROZEN as it is; the 634th rises to SCANT and clears the masks. -/
theorem test_harvestPulse_rise_9_6 :
    let frozen (e : Nat) : State := State.setMasks true { sA .scant e with
      rx := sOff.rx, composer := Composer.initial, account := ⟨true, e, none, .frozen, .drawn⟩ }
    after (exec .harvestPulse (frozen 99889)) (fun t => (t.account, t.rows.map (·.mask))) =
      some (⟨true, 99953, none, .frozen, .drawn⟩, [true, true, true, true, true, true, false]) ∧
    after (exec .harvestPulse (frozen 99953)) (fun t => (t.account, t.rows.map (·.mask), t.composer.state)) =
      some (⟨true, 100017, none, .scant, .none⟩, List.replicate 7 false, .passing) :=
  by decide +kernel

/-- 6.8: after the banner, the order from pointer 5 takes row 1; after row 1, row 3. -/
theorem test_selection_table_6_4 :
    let raised (pointer : Nat) (l : List Nat) : State := { sA .thrift 700000 with
      rows := (Row.initialRows 6).mapIdx (fun r row => { row with pending := l.contains r })
      ctl := { Controller.initial 6 with pointer := pointer } }
    selection (raised 5 [1, 3, 4, 6]) = some (.row 6) ∧ selection (raised 5 [1, 3, 4]) = some (.row 1) ∧
    selection (raised 1 [0, 3, 4]) = some (.row 3) ∧ selection (raised 3 [0, 4]) = some (.row 4) :=
  by decide +kernel

/-- 11.6: the three entries the TABLE reply latches. -/
theorem test_tablePayload_table_11_5 :
    tablePayload { sA .thrift 700000 with clock := 300000, table := [
        ⟨⟨14, false, 310⟩, .live, .active, 300900, 299000, 1, 1, some 3, none, false, some 0⟩,
        ⟨⟨7, false, 88⟩, .live, .active, 302000, 295000, 1, 1, none, none, true, some 1⟩,
        ⟨⟨14, true, 412⟩, .scheduled, .cancelled, 303500, 299000, 1, 1, none, some ⟨true, false, false⟩, false, none⟩] } 0 =
      [0, 14, 0x02, 1, 54, 0, 112, 3, 0, 0,
       0, 7, 0x0A, 0, 88, 0, 250, 0, 0, 1,
       0, 14, 0x05, 1, 156, 1, 181, 0, 1, 0xFF] :=
  by decide +kernel

/-- 11.6: index 3 of three entries is BAD_RANGE. -/
theorem test_tableRequest_bad_range :
    after (exec .tableRequest (accepting { s0 with table := [entry 1 5000, entry 2 6000, entry 3 7000] } (request 2 3)))
      (fun t => t.maint.replies.map (fun r => (readFrame (r.frame.drop 2)).body)) =
      some [[2, natByte (resultCode .badRange), 0, 3]] :=
  by decide +kernel

/-! ### Witnesses

Each theorem `witness_<Statement>` gives a state and operands that meet the hypotheses of that statement together, one for
each clause, at a boundary of the clause's range where it has one. -/

theorem witness_EveryStepKeepsSafe : Safe State.reset ∧ step State.reset = .next State.reset := by
  refine ⟨⟨?_, ?_, ?_, ?_, ?_, ?_, ?_, ?_, ?_, ?_, ?_, fun _ => ⟨?_, ?_, ?_, ?_⟩⟩, rfl⟩
  · show _ ≤ _; decide
  · show ∀ n ∈ countersList State.reset.maint.counters, n ≤ 65535; decide
  · show _ ∧ _; decide
  · show _ ∧ _; decide
  · intro _; rfl
  · show _ ↔ _; decide
  · show _ ∧ _; decide
  · show _ ∧ _; decide
  · exact ⟨by decide, fun h => absurd rfl h, nofun⟩
  · show _ ∧ _ ∧ _ ∧ ∀ k ∈ rowCounters State.reset, k ≤ 32; decide
  · exact ⟨by decide, nofun, nofun⟩
  · exact ⟨by decide, by decide, nofun⟩
  · exact ⟨by decide, nofun, nofun⟩
  · exact ⟨by decide, nofun, nofun, nofun⟩
  · exact ⟨nofun, nofun⟩

theorem witness_EveryStepKeepsHeldAtRest : HeldInReset sHeld ∧ step sHeld = .next sHeld := by
  refine ⟨?_, rfl⟩
  show (_ ↔ _) ∧ (_ → _) ∧ (_ → _)
  decide +kernel

theorem witness_HeldPartTakesNothing : HeldInReset sHeld ∧ active sHeld = false ∧ (∀ l n, Instr.tick ≠ .powerOn l n) ∧
    Instr.tick ≠ .resetAssert ∧ (∀ n, Instr.tick ≠ .resetRelease n) ∧ Instr.tick ≠ .loadRetryWaitEnd ∧
    (∀ r, Instr.tick ≠ .loadEnd r) ∧ exec .tick sHeld = .next { sHeld with clock := 1001 } :=
  ⟨witness_EveryStepKeepsHeldAtRest.1, by decide, nofun, nofun, nofun, nofun, nofun, by rfl⟩

theorem witness_ClockAndStartupMoveOnlyAtTheirCommands : (∀ l n, Instr.fillPeriodEnd ≠ .powerOn l n) ∧
    (∀ r, Instr.fillPeriodEnd ≠ .loadEnd r) ∧ Instr.fillPeriodEnd ≠ .resetAssert ∧
    (∀ n, Instr.fillPeriodEnd ≠ .resetRelease n) ∧ exec .fillPeriodEnd s0 = .next s0 :=
  ⟨nofun, nofun, nofun, nofun, by rfl⟩

theorem witness_BuiltFrameReadsBack :
    (15 : Nat) ≤ 15 ∧ (8191 : Nat) ≤ 8191 ∧ ([1, 2, 3, 4, 5, 6, 7] : List Word16).length ≤ 7 ∧
    13 + 2 * 7 + (List.replicate 228 (0xAA : Byte)).length ≤ 255 := by decide +kernel

/-- A relay with four trail entries and an age near the top. -/
def fourTrail : List Byte := bytes 1 1 0x0B01 5 8188 14 [1, 2, 3, 4] [0, 9, 0x01, 0xA4, 0, 0]

theorem witness_RelayRewritesTheHeader_1 :
    let f : Frame := readFrame (report 3 19)
    findRelay 0x0B01 5 (relaying s0 0).relayQ = some (relayOf 0) ∧ ((relayOf 0)).frame = syncBytes ++ (report 3 19) ∧
    ((report 3 19)).length = f.len + 1 ∧ f.wellPlaced = true ∧ f.trailCount ≤ 4 ∧ 1 ≤ f.hop ∧
    f.len ≤ 94 := by decide +kernel

theorem witness_RelayRewritesTheHeader_2 :
    let f : Frame := readFrame fourTrail
    findRelay 0x0B01 5 ({ s0 with relayQ := [{ relayOf 0 with frame := syncBytes ++ fourTrail }] }).relayQ =
      some { relayOf 0 with frame := syncBytes ++ fourTrail } ∧
    ({ relayOf 0 with frame := syncBytes ++ fourTrail }).frame = syncBytes ++ fourTrail ∧
    (fourTrail).length = f.len + 1 ∧ f.wellPlaced = true ∧ f.trailCount ≤ 4 ∧ 1 ≤ f.hop ∧
    f.trailCount = 4 := by decide +kernel

theorem witness_RepliesCarryTheirFields :
    (List.replicate 60 (0 : Byte)).length ≤ 60 ∧
    { s0 with table := fullTable }.table[42 + 5]? = some (entry 47 2047) ∧ (5 : Nat) < 6 ∧
    (countersList s0.maint.counters)[19]? = some 0 ∧
    (sCut .partialWave).monitor.record.place = some (.partialWave, .rest) ∧
    (sCut .full).monitor.record.place = some (.full, .rest) ∧ s0.monitor.record.place = none := by
  decide +kernel

theorem witness_BodiesAreConsistentByTheirRules_1 :
    (byteAt [0, 9, 1, 44, 0, 1, 26] 5).getLsbD 0 = true ∧
    readBody 1 [0, 9, 1, 44, 0, 3, 26, 7] = some (.report 9 300 false (some 26) (some ⟨true, true, true⟩)) ∧
    readBody 1 [0, 9, 0xFE, 0xD4, 1, 0] = some (.report 9 (-300) true none none) := by decide +kernel

theorem witness_BodiesAreConsistentByTheirRules_2 :
    (byteAt [0, 9, 0x0F, 1, 44, 26, 0, 1] 2).getLsbD 1 = true ∧
    (byteAt [0, 9, 0x0F, 1, 44, 26, 0, 1] 2).getLsbD 3 = true ∧
    readBody 2 [0, 9, 0x0F, 1, 44, 26, 2, 1] = some (.amendment 9 (some 300) (some 26) (some ⟨false, true, false⟩) (some true)) ∧
    readBody 2 [0, 9, 0x08, 0] = some (.amendment 9 none none none (some false)) := by decide +kernel

theorem witness_BodiesAreConsistentByTheirRules_3 :
    readBody 3 [0x01, 0x51, 0x7F, 2, 0, 9, 0, 60, 1, 0, 0xFF, 0xFF] = some (.bundle 86399 [(9, 60), (256, -1)]) ∧
    readBody 4 [0xBE, 0xEF, 1, 255] = some (.request 0xBEEF 1 255) ∧ readBody 5 (List.replicate 64 0) = some .reply := by
  decide +kernel

theorem witness_CountdownFigures_1 :
    8 * (-301 : Int) ≤ ((-2401 : Tick) - 0).toInt ∧ ((-2401 : Tick) - 0).toInt < 8 * (-301) + 8 ∧
    (-301 : Int) < -300 := by decide +kernel

theorem witness_CountdownFigures_2 :
    8 * (7201 : Int) ≤ ((57608 : Tick) - 0).toInt ∧ ((57608 : Tick) - 0).toInt < 8 * 7201 + 8 ∧
    (7200 : Int) < 7201 := by decide +kernel

theorem witness_CountdownFigures_3 :
    8 * (-300 : Int) ≤ ((-2400 : Tick) - 0).toInt ∧ ((-2400 : Tick) - 0).toInt < 8 * (-300) + 8 ∧ (-300 : Int) ≤ -300 ∧
    (-300 : Int) ≤ 7200 := by decide +kernel

theorem witness_CountdownFigures_4 :
    { entry 1 1480 with state := .cancelled }.state = EntryState.cancelled := by decide +kernel

theorem witness_CountdownFigures_5 :
    (entry 1 1479).state = .active ∧ ((entry 1 1479).d - 1000).toInt < 480 := by decide +kernel

theorem witness_CountdownFigures_6 :
    (entry 1 1480).state = .active ∧ 480 ≤ ((entry 1 1480).d - 1000).toInt ∧
    ((entry 1 1480).d - 1000).toInt < 28800 := by decide +kernel

theorem witness_CountdownFigures_7 :
    (entry 1 29800).state = .active ∧ 28800 ≤ ((entry 1 29800).d - 1000).toInt := by decide +kernel

theorem witness_PowerOnLeavesResetValues :
    noPins.reset = false ∧ (9 : Nat) ≤ 9 := by decide +kernel

theorem witness_ResetAssertCutsWorkInFlight :
    sDriving.pins.reset = false := by decide +kernel

theorem witness_ResetReleaseLosesAndKeeps :
    sHeld.pins.reset = true ∧ sHeld.startup.before = .service ∧
    sHeld.rows[3]? = some (Row.initial emptyRecord) := by decide +kernel

theorem witness_LoadRetriesThenDecides_1 :
    sLoad.startup.state = .loading ∧ sLoad.loader.phase = .addressing 1 := by decide +kernel

theorem witness_LoadRetriesThenDecides_2 :
    let s : State := { sLoad with loader := ⟨.addressing 4, 0, none, [.start], 0⟩ }
    s.startup.state = .loading ∧ s.loader.phase = .addressing 4 ∧ (4 : Nat) ≤ 4 := by decide +kernel

/-- R196, R197: SDA found high after two pulses, an attempt that meets a NACK, and the next one. -/
theorem test_loadRetry_on_the_bus :
    (after (exec (.powerOn noPins 2) s0) (fun t => after (exec .loadRetryWaitEnd t) (fun u => u.loader))) =
      some (some ⟨.addressing 2, 2, none,
        [.pulse, .pulse, .stop, .start] ++ nackedAttempt (Config.nackedByte 0) ++ [.start], 1⟩) := by rfl

/-- R197: a NACK of the second word address byte. -/
theorem test_nack_on_the_bus :
    nackedAttempt .wordLow = [.address 0x51 false true, .word 0 true, .word 0 false, .stop] := by decide

/-- R198: the last byte of the record is NACKed. -/
theorem test_loadEnd_on_the_bus :
    after (exec (.loadEnd (.read [1, 2])) sLoad) (fun t => t.loader.bus) =
      some [.start, .address 0x51 false true, .word 0 true, .word 0 true, .repeatedStart, .address 0x51 true true, .data 1 true,
        .data 2 false, .stop] := by decide +kernel

theorem witness_LoadRetriesThenDecides_3 :
    (3 : Nat) < 4 ∧ (4 : Nat) ≤ 4 ∧ (List.replicate 512 (0 : Byte)).length = 512 ∧
    (byteAt (List.replicate 512 0) 0).toNat * 256 + (byteAt (List.replicate 512 0) 1).toNat ≠ 0x4A4C := by decide +kernel

/-- The fields of a record: R201's example with N = 4 and route 7, which serves direction 0 with text 23. -/
def recordFields : List Byte :=
  [0x4A, 0x4C, 1, 0x12, 0x34, 0x5A, 0xBE, 0xEF, 4, 5, 2, 2, 40, 6,
    0, 0x3D, 0x09, 0, 0, 0x3B, 0x82, 0x60, 0, 0x06, 0x1A, 0x80, 0, 0, 0, 0, 0, 200, 1,
    0, 7, 1, 0x37, 0x20, 0x20, 0x20, 23, 0xFF]

/-- Text 23 and the zeros behind it. -/
def recordText : List Byte := List.replicate 10 0x41 ++ List.replicate 14 0

/-- A run of zeros of a record. -/
def zeros : List Byte := List.replicate 37 0

/-- Six such runs. -/
def zeros6 : List Byte := zeros ++ (zeros ++ (zeros ++ (zeros ++ (zeros ++ zeros))))

/-- The first 510 bytes of a record. -/
def recordBody : List Byte := recordFields ++ (zeros6 ++ (zeros6 ++ recordText))

/-- A valid record. -/
def validRecord : List Byte := recordBody ++ [0x9E, 0x1A]

/-- The body check goes on from a value. -/
def checkFrom (c : Word16) (l : List Byte) : Word16 := l.foldl (fun c b => repeatTimes 8 crc16Bit (c ^^^ be16 b 0)) c

theorem recordBody_check : bodyCheck recordBody = 0x9E1A := by
  have h0 : checkFrom 0xFFFF recordFields = 0xAC28 := by decide +kernel
  have h1 : checkFrom 0xAC28 zeros = 0x919E := by decide +kernel
  have h2 : checkFrom 0x919E zeros = 0x5081 := by decide +kernel
  have h3 : checkFrom 0x5081 zeros = 0x9B15 := by decide +kernel
  have h4 : checkFrom 0x9B15 zeros = 0xA956 := by decide +kernel
  have h5 : checkFrom 0xA956 zeros = 0x14E8 := by decide +kernel
  have h6 : checkFrom 0x14E8 zeros = 0x7583 := by decide +kernel
  have h7 : checkFrom 0x7583 zeros = 0xA60C := by decide +kernel
  have h8 : checkFrom 0xA60C zeros = 0x6617 := by decide +kernel
  have h9 : checkFrom 0x6617 zeros = 0xFCCC := by decide +kernel
  have h10 : checkFrom 0xFCCC zeros = 0x0F41 := by decide +kernel
  have h11 : checkFrom 0x0F41 zeros = 0xE747 := by decide +kernel
  have h12 : checkFrom 0xE747 zeros = 0xB782 := by decide +kernel
  have h13 : checkFrom 0xB782 recordText = 0x9E1A := by decide +kernel
  unfold checkFrom at *
  unfold bodyCheck recordBody zeros6
  simp only [List.foldl_append, h0, h1, h2, h3, h4, h5, h6, h7, h8, h9, h10, h11, h12, h13]

/-- The record meets every test of R200. -/
theorem witness_LoadRetriesThenDecides_4 :
    let b (i : Nat) : Nat := (byteAt validRecord i).toNat
    let two (i : Nat) : Nat := b i * 256 + b (i + 1)
    let four (i : Nat) : Nat := b i * 16777216 + b (i + 1) * 65536 + b (i + 2) * 256 + b (i + 3)
    validRecord.length = 512 ∧ two 0 = 0x4A4C ∧ b 2 = 1 ∧ (bodyCheck (validRecord.take 510)).toNat = two 510 ∧
    1 ≤ two 3 ∧ two 3 ≤ 0xFFFD ∧ 4 ≤ b 8 ∧ b 8 ≤ 10 ∧ max 1 (four 26) < four 22 ∧ four 22 < four 18 ∧ four 18 ≤ four 14 ∧
    b 32 ≤ 12 ∧ ∀ i : Nat, i < b 32 → 1 ≤ two (33 + 18 * i) ∧ two (33 + 18 * i) ≤ 32767 ∧
      (b (35 + 18 * i) % 2 = 1 → b (40 + 18 * i) ≤ 23) ∧ (b (35 + 18 * i) / 2 % 2 = 1 → b (41 + 18 * i) ≤ 23) := by
  have h : validRecord.take 510 = recordBody := List.take_left' (by decide +kernel)
  rw [h, recordBody_check]
  decide +kernel

/-- R201's example: in force P = 10 s, partial limit 32 and H = 100,000 q; route 7 has the text of index 23. -/
theorem test_loadEnd_example_of_R201 :
    let c : Cfg := recordCfg validRecord
    recordFieldsOk validRecord = true ∧ (c.period, c.partialLimit, c.h, c.t3) = (10, 32, 100000, 1) ∧
    c.routes = [⟨7, true, false, [0x37, 0x20, 0x20, 0x20], List.replicate 10 0x41, []⟩] := by decide +kernel

/-- R197: a load without a record ends NO_MEMORY at the fourth attempt, and does not end at the third. -/
theorem test_loadEnd_without_a_record :
    after (exec (.loadEnd (.nack .addressWrite)) { sLoad with loader := ⟨.addressing 4, 0, none, [.start], 0⟩ })
      (fun t => t.loader.outcome) =
      some (some .noMemory) ∧
    after (exec (.loadEnd (.nack .addressWrite)) { sLoad with loader := ⟨.addressing 3, 0, none, [.start], 0⟩ })
      (fun t => t.startup.state) =
      some .loading := by decide +kernel

theorem witness_LoadEndStartsTheAccount :
    sLoad.startup.state = .loading ∧
    loadResult sLoad.loader.phase (.read (List.replicate 512 0)) = some (.invalid, Cfg.defaults) ∧
    Cfg.defaults.t3 < Cfg.defaults.t2 ∧ Cfg.defaults.t2 < Cfg.defaults.t1 ∧ Cfg.defaults.t1 ≤ Cfg.defaults.capacity ∧
    sLoad.account = ⟨false, 0, none, .scant, .none⟩ ∧ sLoad.pins.low = false ∧ sLoad.rx = Receiver.initial ∧
    sLoad.cau = .idle := by decide +kernel

theorem witness_LoadEndResumesTheAccount_1 :
    sReload.startup.state = .loading ∧
    loadResult sReload.loader.phase (.read (List.replicate 512 0)) = some (.invalid, Cfg.defaults) ∧
    sReload.account.running = true ∧ sReload.account.reservation = none ∧ sReload.rx = Receiver.initial ∧
    sReload.cau = .idle ∧ sReload.pins.low = false ∧
    stageHolds Cfg.defaults sReload.account.stage (min Cfg.defaults.capacity sReload.account.e) = true ∧
    ¬ (sReload.account.stage = .frozen ∧ sReload.account.freeze = .pending) := by decide +kernel

/-- LOW asserted at the end of a load, after a power-on and after a line reset. -/
theorem witness_LoadEndResumesTheAccount_2 : ∀ s ∈ [sLoad, sReload],
    s.startup.state = .loading ∧
    loadResult s.loader.phase (.read (List.replicate 512 0)) = some (.invalid, Cfg.defaults) ∧
    s.rx = Receiver.initial ∧ s.cau = .idle ∧ { s.pins with low := true }.low = true ∧
    Cfg.defaults.t3 < Cfg.defaults.t2 ∧ Cfg.defaults.t2 < Cfg.defaults.t1 ∧ Cfg.defaults.t1 ≤ Cfg.defaults.capacity ∧
    1 ≤ Cfg.defaults.t3 ∧ s.engine = Engine.initial ∧ s.relayQ = [] ∧ s.composer.state = .suspended ∧
    (s.account = ⟨false, 0, none, .scant, .none⟩ ∨ (s.account.running = true ∧ s.account.reservation = none ∧
      s.account.stage ≠ .frozen ∧ stageHolds Cfg.defaults s.account.stage (min Cfg.defaults.capacity s.account.e) = true)) := by
  decide +kernel

/-- R203 item 2: a LOW that stands through a line reset is acted on at the end of the load. -/
theorem test_loadEnd_acts_on_a_standing_low :
    after (exec (.loadEnd (.read [])) { sReload with pins := { noPins with low := true } })
      (fun t => (t.account, t.maint.counters.lowEvents, t.engine.refresh)) =
      some (⟨true, 59999, none, .frozen, .pending⟩, 1, some (.clear .freeze)) := by decide +kernel

/-- The load that follows a line reset of a part whose freeze is pending. -/
def sRefreeze (low : Bool) : State := { sReload with
  pins := { noPins with low := low }, account := ⟨true, 50000, none, .frozen, .pending⟩ }

theorem witness_LoadEndResumesTheAccount_3 : ∀ low ∈ [false, true],
    let s := sRefreeze low
    s.startup.state = .loading ∧
    loadResult s.loader.phase (.read (List.replicate 512 0)) = some (.invalid, Cfg.defaults) ∧
    s.rx = Receiver.initial ∧ s.cau = .idle ∧ s.account.running = true ∧ s.account.reservation = none ∧
    s.account.stage = .frozen ∧ s.account.freeze = .pending ∧
    stageHolds Cfg.defaults .frozen (min Cfg.defaults.capacity s.account.e) = true ∧ s.engine = Engine.initial ∧
    s.pins.low = low ∧ Cfg.defaults.t3 < Cfg.defaults.t2 ∧ Cfg.defaults.t2 < Cfg.defaults.t1 ∧ 1 ≤ Cfg.defaults.t3 := by
  decide +kernel

/-- R191: the freeze is entered again at the end of the load, and the freeze picture granted. -/
theorem test_loadEnd_enters_the_freeze_again :
    after (exec (.loadEnd (.read [])) (sRefreeze false))
      (fun t => (t.account, t.engine.refresh, t.ctl.state, t.rows.map (·.desired))) =
      some (⟨true, 50000, none, .frozen, .pending⟩, some (.clear .freeze), .granted,
        List.replicate 6 emptyRecord ++ [.banner .outOfDate]) := by decide +kernel

theorem witness_FillPeriodEndStartsService_1 :
    sFill.startup.state = .fill ∧ sFill.startup.fillTimer = some 0 ∧ sFill.account.stage ≠ .frozen := by decide +kernel

theorem witness_FillPeriodEndStartsService_2 :
    let s : State := { sFill with account := sFrozen.account }
    s.startup.state = .fill ∧ s.startup.fillTimer = some 0 ∧ s.account.stage = .frozen := by decide +kernel

/-- The part a tick before a whole second boundary, in its fill period or in SERVICE with the interval timer running. -/
def sEdge (state : StartupState) (wanted : Bool) : State := { s0 with
  clock := 1007
  startup := ⟨state, .powerOn, .loading, if state = .fill then some 500 else none⟩
  composer := { s0.composer with state := if state = .fill then .suspended else .idle, recompose := wanted } }

theorem witness_TickTakesItsTurns_1 :
    active s0 = true ∧ s0.account.running = true ∧ decide ((s0.clock + 1).toNat % 8 = 0) = false ∧ s0.rx.state = .listen ∧
    crossesNothing s0 (s0.account.e - 1) = true := by decide +kernel

theorem witness_TickTakesItsTurns_2 : ∀ st ∈ [StartupState.fill, .service],
    active (sEdge st false) = true ∧ (sEdge st false).account.running = true ∧
    decide (((sEdge st false).clock + 1).toNat % 8 = 0) = true ∧ (sEdge st false).rx.state = .listen ∧
    crossesNothing (sEdge st false) ((sEdge st false).account.e - 1) = true ∧
    crossesNothing (sEdge st false) ((sEdge st false).account.e - 1 - 1) = true ∧
    (sEdge st false).composer.recompose = false := by decide +kernel

theorem witness_TickTakesItsTurns_3 :
    let s := sEdge .service true
    active s = true ∧ s.account.running = true ∧ decide ((s.clock + 1).toNat % 8 = 0) = true ∧
    crossesNothing s (s.account.e - 1) = true ∧ crossesNothing s (s.account.e - 1 - 1) = true ∧
    s.composer.state = .idle ∧ s.composer.recompose = true := by decide +kernel

theorem witness_TickTakesItsTurns_4 :
    let s : State := { sHeld with clock := 1007 }
    active s = false ∧ s.rx.state = .off ∧ (s.clock + 1).toNat % 8 = 0 ∧ s.account.running = true ∧
    crossesNothing s (s.account.e - 1) = true ∧ (sHeld.clock + 1).toNat % 8 ≠ 0 ∧
    sLoad.account.running = false := by decide +kernel

/-- The part with 1 q to spend beyond the banner reserve, its channel access unit as given. -/
def sLast (cau : CauState) (replies : List Reply) : State := { withE (relaying s0 0) 1091 with
  cau := cau
  account := ⟨true, 1091, none, .frozen, .drawn⟩
  relayQ := if replies = [] then [relayOf 0] else []
  maint := { s0.maint with replies := replies } }

/-- The tick's charge closes the energy gate: an idle unit, the relay in SENSING and in contention, and the reply. -/
theorem witness_TickTakesItsTurns_5 :
    (∀ s ∈ [sLast .idle [], sLast .sensing [], sLast (.contending (.relay 0x0B01 5) 6) [], sLast .sensing [reply1],
        sLast (.contending .reply 6) [reply1]],
      active s = true ∧ s.account.running = true ∧ decide ((s.clock + 1).toNat % 8 = 0) = false ∧ s.rx.state = .listen ∧
      stageHolds s.cfg s.account.stage (s.account.e - 1) = true ∧ gateOpen s = true ∧
      gateOpen (withE s (s.account.e - 1)) = false) ∧
    (sLast .sensing []).relayQ = [relayOf 0] ∧ ((relayOf 0).due - (1000 + 1)).toInt ≤ 0 ∧
    (sLast .sensing [reply1]).relayQ = [] := by decide +kernel

/-- R16, R32: at the closing of the gate the receiver is OFF and the relay in contention abandoned. -/
theorem test_tick_closes_the_gate :
    after (exec .tick (sLast (.contending (.relay 0x0B01 5) 6) []))
      (fun t => (t.rx.state, t.cau, t.seen.map (·.state), t.maint.counters.relayAbandoned, t.account.e)) =
      some (.off, .idle, [.abandoned], 1, 1090) := by decide +kernel

/-- R69, R101: the boundary's sweep removes a past entry before the pass of a notice takes the lock. -/
theorem test_tick_sweeps_before_the_pass :
    after (exec .tick { sEdge .service true with table := [entry 1 48, entry 2 49] })
      (fun t => (t.table.map (·.key.trip), t.sweepWaiting, t.lock, t.account.e)) = some ([2], false, .held, 1999998) := by
  decide +kernel

theorem witness_EntriesAndRelaysAgeOut_1 :
    active s0 = true ∧ s0.clock.toNat % 8 = 0 := by decide +kernel

theorem witness_EntriesAndRelaysAgeOut_2 :
    let s : State := { s0 with clock := 1001 }
    active s = true ∧ (s : State).clock.toNat % 8 ≠ 0 := by decide +kernel

theorem witness_EntriesAndRelaysAgeOut_3 :
    let s : State := { relaying s0 0 with clock := 1232 }
    let u : State := relaying s0 0
    active s = true ∧ (s : State).clock.toNat % 8 = 0 ∧ u.cau = .idle ∧
    ∀ n ∈ countersList u.maint.counters, n ≤ 65535 := by decide +kernel

/-- A contention delay whose relay lives to tick 1230, before and after it. -/
theorem witness_EntriesAndRelaysAgeOut_4 :
    (sContend 0).cau = .contending (.relay 0x0B01 5) 6 ∧ (1224 : Tick).toNat % 8 = 0 ∧
    (∃ e ∈ [relayOf 0].filter (fun e => !decide (240 ≤ ((1224 : Tick) - e.holdStart).toInt)), e.origin = 0x0B01 ∧ e.seq = 5) ∧
    [relayOf 0].filter (fun e => !decide (240 ≤ ((1232 : Tick) - e.holdStart).toInt)) = [] ∧
    candidate? { sContend 0 with relayQ := [] } = none ∧ receiverAgrees { sContend 0 with cau := .idle } = true :=
  ⟨rfl, by decide, ⟨_, List.mem_singleton.2 rfl, rfl, rfl⟩, by decide, by decide, by decide +kernel⟩

theorem witness_SweepRemovesAndMarks_1 :
    let s : State := { s0 with sweepWaiting := true }
    active s = true ∧ s.sweepWaiting = true ∧ s.lock = .free := by decide +kernel

theorem witness_SweepRemovesAndMarks_2 :
    { s0 with sweepWaiting := true, lock := Lock.held }.lock = .held := by decide +kernel

theorem witness_SweepRemovesAndMarks_3 :
    [entry 1 2000, entry 2 2001].Pairwise (fun a b => entryBefore 1000 a b = true) ∧
    [entry 1 2000, { entry 2 2001 with stale := true }].Pairwise (fun a b => entryBefore 1000 a b = true) ∧
    ([entry 1 2000, entry 2 2001].map (·.key)).Nodup ∧
    ([entry 1 2000, { entry 2 2001 with stale := true }].map (·.key)).Nodup := by decide +kernel

theorem witness_WallReferenceExpires_1 :
    { s0 with clock := 692200, wall := some ⟨5, 1000⟩ }.wall = some ⟨5, 1000⟩ ∧
    691200 ≤ ((692200 : Tick) - 1000).toInt := by decide +kernel

theorem witness_WallReferenceExpires_2 :
    { s0 with clock := 692199, wall := some ⟨5, 1000⟩ }.wall = some ⟨5, 1000⟩ ∧
    ((692199 : Tick) - 1000).toInt < 691200 := by decide +kernel

theorem witness_ListeningPeriodsAndTheirWindows_1 :
    let s : State := { s0 with clock := 1004 }
    active s = true ∧ s0.rx.window.running = true ∧ s0.cau = .idle ∧ s0.rx.window.pattern = .full ∧
    8 ≤ ((1004 : Tick) - s0.rx.window.start).toInt ∧ s0.rx.state = .listen ∧ gateOpen s = true := by decide +kernel

theorem witness_ListeningPeriodsAndTheirWindows_2 :
    let s : State := { sOff with clock := 1028 }
    active s = true ∧ sOff.rx.window.running = true ∧ sOff.cau = .idle ∧ sOff.rx.window.pattern = .scant ∧
    128 ≤ ((1028 : Tick) - sOff.rx.window.start).toInt ∧ sOff.rx.state = .off ∧ gateOpen s = true := by decide +kernel

/-- The part 16 ticks into a SCANT listening period. -/
def sOn (st : RxState) : State := { s0 with rx := { s0.rx with state := st, window := ⟨true, 984, .scant, true⟩ } }

theorem witness_ListeningPeriodsAndTheirWindows_3 :
    let s : State := sOn .listen
    s.rx.window.running = true ∧ s.rx.window.on = true ∧ s.rx.window.pattern = .scant ∧ s.cau = .idle ∧
    16 ≤ (s.clock - s.rx.window.start).toInt ∧ s.rx.state = .listen ∧
    (sOn .receiving).rx.state ≠ .listen := by decide +kernel

/-- The part in RECEIVING with both buffers taken. -/
def sRx (r : Reception) (err : Bool) : State := { s0 with
  rx := { s0.rx with
    state := .receiving, reception := r, charError := err, bufA := some ⟨[20], none⟩, bufB := some ⟨[21], none⟩ } }

/-- What stands in buffer A and in buffer B. -/
def taken : List (BufId × RxBuffer) := [(.a, ⟨[20], none⟩), (.b, ⟨[21], none⟩)]

theorem witness_HuntingTakesSyncPairs_1 :
    sOff.rx.state = .off := by decide +kernel

theorem witness_HuntingTakesSyncPairs_2 :
    s0.rx.state = .listen ∧ (0xC3 : Byte) = 0xC3 := by decide +kernel

theorem witness_HuntingTakesSyncPairs_3 :
    (0x3C : Byte) ≠ 0xC3 ∧ ¬ ((0x3C : Byte) = 0x3C ∧ s0.rx.firstSync = true) := by decide +kernel

theorem witness_HuntingTakesSyncPairs_4 :
    { s0.rx with firstSync := true }.state = .listen ∧ { s0.rx with firstSync := true }.firstSync = true ∧
    s0.rx.bufA = none := by decide +kernel

theorem witness_FrameCharactersAreStored_1 : ∀ x ∈ taken,
    let s : State := sRx (.length (.buffer x.1)) false
    s.rx.state = .receiving ∧ bufferOf s x.1 = some x.2 ∧ s.rx.reception = .length (.buffer x.1) ∧
    (13 : Byte).toNat = 13 ∧ (96 : Byte).toNat ≤ 96 ∧ 1 ≤ (12 : Byte).toNat ∧ (12 : Byte).toNat < 13 ∧
    96 < (97 : Byte).toNat ∧ (0 : Byte).toNat = 0 ∧ wantedOn s = true := by decide +kernel

theorem witness_FrameCharactersAreStored_2 : ∀ x ∈ taken,
    let s : State := sRx (.body (.buffer x.1) 2) false
    s.rx.state = .receiving ∧ bufferOf s x.1 = some x.2 ∧ s.rx.reception = .body (.buffer x.1) 2 := by decide +kernel

theorem witness_FrameCharactersAreStored_3 : ∀ r ∈ [Reception.skip 2, .length .overrun],
    (sRx r false).rx.state = .receiving ∧ (sRx r false).rx.reception = r := by decide +kernel

theorem witness_FrameCharactersAreStored_4 :
    let s : State := sRx (.body .overrun 2) false
    s.rx.state = .receiving ∧ s.rx.reception = .body .overrun 2 := by decide +kernel

theorem witness_LastCharacterEndsTheFrame_1 : ∀ x ∈ taken, ∀ err ∈ [true, false],
    let s : State := sRx (.body (.buffer x.1) 1) err
    s.rx.state = .receiving ∧ bufferOf s x.1 = some x.2 ∧ s.rx.reception = .body (.buffer x.1) 1 ∧
    wantedOn s = true ∧ s.rx.charError = err := by decide +kernel

/-- A receiver that is not wanted on, at the last character of an overrun frame and of a skip. -/
theorem witness_LastCharacterEndsTheFrame_2 : ∀ r ∈ [Reception.body .overrun 1, .skip 1],
    let s : State := withE (sRx r false) 1090
    s.rx.state = .receiving ∧ s.rx.reception = r ∧ wantedOn s = false ∧ s.cau = .idle := by decide +kernel

/-- R17: a frame that ends in buffer B frees B alone. -/
theorem test_characterReceived_ends_buffer_b :
    after (exec (.characterReceived 7 ⟨true, none⟩) (sRx (.body (.buffer .b) 1) false))
      (fun t => (t.rx.state, t.rx.bufA, t.rx.bufB, t.maint.counters.rxChar)) =
      some (.listen, some ⟨[20], none⟩, none, 1) := by decide +kernel

theorem witness_EarlyEndDropsTheFrame_1 : ∀ x ∈ taken,
    let s : State := sRx (.body (.buffer x.1) 1) true
    let u : State := sRx (.length (.buffer x.1)) false
    s.rx.state = .receiving ∧ s.cau = .idle ∧ s.rx.reception = .body (.buffer x.1) 1 ∧
    u.rx.reception = .length (.buffer x.1) ∧ u.rx.charError = false := by decide +kernel

theorem witness_EarlyEndDropsTheFrame_2 : ∀ r ∈ [Reception.length .overrun, .body .overrun 4, .skip 3],
    let s : State := { sRx r true with pins := { noPins with cd := true } }
    s.rx.state = .receiving ∧ (sRx r true).cau = .idle ∧ s.rx.reception = r ∧ s.pins.cd = true := by decide +kernel

/-- R5: a frame cut before its length byte counts RX_SHORT; an overrun frame so cut counts nothing more. -/
theorem test_gap_before_the_length_byte :
    after (exec .interCharacterGapTimeout (sRx (.length (.buffer .b)) false))
      (fun t => (t.rx.bufB, t.maint.counters.rxShort)) = some (none, 1) ∧
    after (exec .interCharacterGapTimeout (sRx (.length .overrun) false)) (fun t => t.maint.counters) =
      some Counters.zero := by decide +kernel

/-- The part with the bytes of a frame that ended in buffer A. -/
def sHas (l : List Byte) : State := { s0 with rx := { s0.rx with bufA := some ⟨l, none⟩ } }

/-- A frame of another network. -/
def foreign : List Byte := (buildFrame 0x5B 1 0 0x0B01 5 19 14 [] (withBodyCheck [0, 9, 1, 0xA4, 0, 0])).drop 2

theorem witness_ValidationDropsAndSkips_1 :
    headerOk (report0.set 3 0xFF) = false := by decide +kernel

theorem witness_ValidationDropsAndSkips_2 :
    let f : Frame := readFrame foreign
    13 + 2 * f.trailCount ≤ f.len ∧ headerOk foreign = true ∧ f.networkKey ≠ s0.cfg.networkKey := by decide +kernel

theorem witness_ValidationDropsAndSkips_3 :
    let f : Frame := readFrame (bytes 6 1 1 2 3 4 [] [])
    13 + 2 * f.trailCount ≤ f.len ∧ headerOk (bytes 6 1 1 2 3 4 [] []) = true ∧ f.networkKey = s0.cfg.networkKey ∧
    6 ≤ f.kind := by decide +kernel

theorem witness_ValidationDropsAndSkips_4 :
    let f : Frame := readFrame (bytes 5 1 0x1234 2 3 4 [1, 2, 3, 4] [])
    13 + 2 * f.trailCount ≤ f.len ∧ headerOk (bytes 5 1 0x1234 2 3 4 [1, 2, 3, 4] []) = true ∧
    f.networkKey = s0.cfg.networkKey ∧ f.kind ≤ 5 ∧ f.trailCount ≤ 4 ∧ f.origin = s0.cfg.ownId := by decide +kernel

theorem witness_ValidationDropsAndSkips_5 : ∀ l ∈ [[], [seenAs .damaged false]],
    let f : Frame := readFrame bundle
    let s : State := { sOff with seen := l.map (fun e => { e with origin := f.origin, seq := f.seq }) }
    13 + 2 * f.trailCount ≤ f.len ∧ headerOk bundle = true ∧ f.networkKey = s.cfg.networkKey ∧ f.trailCount ≤ 4 ∧
    f.origin ≠ s.cfg.ownId ∧ (findSeen f.origin f.seq s.seen).all (fun e => e.state = .damaged) = true ∧ f.kind = 3 ∧
    inInterest s.cfg f.route f.dir = false ∧ s.account.stage ≠ .full := by decide +kernel

theorem witness_DuplicatesRaiseCopies_1 :
    let f : Frame := readFrame report0
    13 + 2 * f.trailCount ≤ f.len ∧ headerOk report0 = true ∧ f.networkKey = s0.cfg.networkKey ∧ 1 ≤ f.kind ∧
    f.kind ≤ 5 ∧ f.trailCount ≤ 4 ∧ f.origin ≠ s0.cfg.ownId ∧
    findSeen f.origin f.seq [seenAs .heard false] = some (seenAs .heard false) ∧
    (seenAs .heard false).state ≠ .damaged ∧ s0.cau = .idle := by decide +kernel

theorem witness_DuplicatesRaiseCopies_2 :
    let f : Frame := readFrame report0
    13 + 2 * f.trailCount ≤ f.len ∧ headerOk report0 = true ∧ f.networkKey = s0.cfg.networkKey ∧ 1 ≤ f.kind ∧
    f.kind ≤ 5 ∧ f.trailCount ≤ 4 ∧ f.origin ≠ s0.cfg.ownId ∧
    findSeen f.origin f.seq [{ seenAs .waiting false with copies := 1 }] = some { seenAs .waiting false with copies := 1 } ∧
    s0.cfg.suppression ≤ min 15 (1 + 1) ∧ s0.cau = .idle := by decide +kernel

/-- The same duplicate while its relay's contention delay runs. -/
theorem witness_DuplicatesRaiseCopies_3 :
    let f : Frame := readFrame report0
    (sContend 0).cau = .contending (.relay f.origin f.seq) 6 ∧ candidate? { sContend 0 with relayQ := [] } = none ∧
    receiverAgrees { sContend 0 with cau := .idle } = true := by decide +kernel

/-- A reply of another station's exchange. -/
def reply5 : List Byte := bytes 5 1 0x0D01 9 0 0x0C01 [] [1, 0, 0, 3]

/-- The frames `l` with a bad body check, with an inconsistent body, and good: a report, a request, a reply. -/
def firstCopies : List (List Byte) := [report0.dropLast ++ [0], (request 1 0).dropLast ++ [0], reply5.dropLast ++ [0],
  bytes 1 0 0x0B01 5 19 14 [] [1, 2], bytes 4 1 0x0C01 3 0 0xFFFF [] [1, 2], bytes 5 1 0x0D01 9 0 0x0C01 [] [1, 2],
  report0, request 1 0, reply5]

/-- A first copy in either buffer, its key new or DAMAGED, the seen table full or not. -/
theorem witness_FirstCopiesAreAccepted_1 : ∀ l ∈ firstCopies, ∀ full ∈ [false, true], ∀ known ∈ [false, true],
    let f : Frame := readFrame l
    let old : List SeenEntry := if full then List.replicate 64 (seenAs .heard true) else []
    let damaged : List SeenEntry := if known then [⟨f.origin, f.seq, .damaged, 0, 990, false⟩] else []
    let seen := damaged ++ old.map (fun e => { e with origin := 0x0E01 })
    13 + 2 * f.trailCount ≤ f.len ∧ headerOk l = true ∧ f.networkKey = s0.cfg.networkKey ∧ f.trailCount ≤ 4 ∧
    f.origin ≠ s0.cfg.ownId ∧ bufferOf (sHas l) .a = some ⟨l, none⟩ ∧
    (findSeen f.origin f.seq seen).isSome = known ∧
    (findSeen f.origin f.seq seen).all (fun e => e.state = .damaged) = true ∧
    ((f.kind = 1 ∧ inInterest s0.cfg f.route f.dir = true) ∨
      (f.kind = 4 ∧ (f.subject = s0.cfg.ownId ∨ f.subject = 0xFFFF)) ∨ f.kind = 5) := by decide +kernel

/-- The clause that each of them falls under. -/
theorem witness_FirstCopiesAreAccepted_2 :
    (∀ l ∈ firstCopies.take 3, bodyCheck (readFrame l).body ≠ (readFrame l).bodyCheckWord) ∧
    (∀ l ∈ firstCopies.drop 3, bodyCheck (readFrame l).body = (readFrame l).bodyCheckWord) ∧
    ((firstCopies.drop 3).take 3).map (fun l => readBody (readFrame l).kind (readFrame l).body) = [none, none, none] ∧
    (∀ l ∈ firstCopies.drop 6, readBody (readFrame l).kind (readFrame l).body ≠ none) := by decide +kernel

/-- A refusal that finds an attempt in progress, an IDLE unit, and 2 replies waiting. -/
theorem witness_FirstCopiesAreAccepted_3 :
    let s : State := { s0 with quiet := .running 5 }
    s.maint.replies.length < 2 ∧ { s with cau := .sensing }.cau ≠ .idle ∧ receiverAgrees { s with cau := .sensing } = true ∧
    s.cau = .idle ∧ active s = true ∧ gateOpen s = true ∧ s.rx.state = .listen ∧ s.quiet ≠ .expired ∧
    2 ≤ [reply1, reply1].length := by decide +kernel

/-- R206: a request with a bad body check is answered BODY_CHECK, echo 0; R39: the full table evicts its first free entry. -/
theorem test_first_copies :
    let l := (request 1 0).dropLast ++ [0]
    let v := validate .a l { sHas l with cau := .sensing }
    let w := validate .a report0 { sHas report0 with seen := List.replicate 64 { seenAs .heard false with origin := 0x0E01 } }
    (v.maint.replies.map (fun r => (readFrame (r.frame.drop 2)).body), v.rx.bufA, v.seen.map (·.state)) =
      ([[0, 3, 0, 3]], none, [.damaged]) ∧
    (w.seen.length, w.seen[63]?.map (·.origin)) = (64, some 0x0B01) := by decide +kernel

theorem witness_CountersRiseAndStay :
    ∀ n ∈ countersList { Counters.zero with rxOk := 65535 }, n ≤ 65535 := by decide +kernel

/-- The part with the report accepted, its seen entry HEARD. -/
def sDispatch : State := { accepting s0 report0 with seen := [seenAs .heard true] }

/-- The same bundle for route 7. -/
def bundle7 : List Byte := bytes 3 0 0x0D01 7 2399 14 [] [0x01, 0x51, 0x7F, 1, 0, 9, 0, 60]

/-- A bundle of an age of 2400 ticks. -/
def oldBundle : List Byte := bytes 3 0 0x0D01 7 2400 14 [] [0, 0, 0, 1, 0, 9, 0, 60]

theorem witness_DispatchInsertsAReport_1 :
    ∀ id ∈ s0.rx.accepted, holdsDeparture s0 id = false := by decide +kernel

theorem witness_DispatchInsertsAReport_2 :
    let f : Frame := readFrame report0
    sDispatch.lock = .free ∧ sDispatch.rx.accepted.find? (holdsDeparture sDispatch) = some .a ∧
    bufferOf sDispatch .a = some ⟨report0, some 1000⟩ ∧ f.hop = 0 ∧ f.age < 2400 ∧ candidate? sDispatch = none ∧
    receiverAgrees sDispatch = true ∧ f.kind = 1 ∧ readBody 1 f.body = some (.report 9 420 false none none) ∧
    inInterest sDispatch.cfg f.route f.dir = true ∧ (-300 : Int) ≤ 420 ∧
    findEntry ⟨f.route, f.dir, 9⟩ sDispatch.table = none ∧ sDispatch.table.length < 48 ∧
    sDispatch.composer.wallSignal = false := by decide +kernel

theorem witness_DispatchOfABundleSetsTheWallReference_1 : ∀ l ∈ [bundle, bundle7],
    let s := accepting s0 l
    let f : Frame := readFrame l
    s.lock = .free ∧ s.rx.accepted.find? (holdsDeparture s) = some .a ∧ bufferOf s .a = some ⟨l, some 1000⟩ ∧ f.hop = 0 ∧
    f.age < 2400 ∧ candidate? s = none ∧ receiverAgrees s = true ∧ f.kind = 3 ∧
    readBody 3 f.body = some (.bundle 86399 [(9, 60)]) ∧ s.composer.state = .idle ∧
    { s.composer with state := .suspended }.state = .suspended ∧
    inInterest s.cfg f.route f.dir = decide (l = bundle7) := by decide +kernel

theorem witness_DispatchOfABundleSetsTheWallReference_2 :
    let s := accepting s0 oldBundle
    let f : Frame := readFrame oldBundle
    s.lock = .free ∧ s.rx.accepted.find? (holdsDeparture s) = some .a ∧ bufferOf s .a = some ⟨oldBundle, some 1000⟩ ∧
    f.hop = 0 ∧ 2400 ≤ f.age ∧ candidate? s = none ∧ receiverAgrees s = true ∧ f.kind = 3 ∧
    readBody 3 f.body = some (.bundle 0 [(9, 60)]) ∧ s.composer.wallSignal = false ∧
    ∀ n ∈ countersList s.maint.counters, n ≤ 65535 := by decide +kernel

theorem witness_DispatchOfABundleSetsTheWallReference_3 :
    let f : Frame := readFrame bundle7
    (-301 : Int) < -300 ∧ (-300 : Int) ≤ -300 ∧ findEntry ⟨f.route, f.dir, 9⟩ [] = none ∧ ([] : List DepEntry).length < 48 ∧
    48 ≤ fullTable.length ∧ findEntry ⟨f.route, f.dir, 100⟩ fullTable = none ∧
    findEntry ⟨f.route, f.dir, 9⟩ [entry9 5] = some (entry9 5) ∧ (entry9 5).source = .live ∧
    findEntry ⟨f.route, f.dir, 9⟩ [timed9 0x0D01 8] = some (timed9 0x0D01 8) ∧ (timed9 0x0D01 8).repOrigin = f.origin ∧
    ((timed9 0x0D01 8).repSeq.toNat + 65536 - f.seq.toNat) % 65536 = 1 ∧
    (timed9 0x0D01 7).source = .scheduled ∧ ((timed9 0x0D01 7).repSeq.toNat + 65536 - f.seq.toNat) % 65536 = 0 := by
  decide +kernel

theorem witness_ReportsApplyByReporterAndSequence_1 :
    let f : Frame := readFrame report0
    inInterest s0.cfg f.route f.dir = true ∧ f.age < 2400 ∧ (-300 : Int) ≤ -300 ∧
    findEntry ⟨f.route, f.dir, 9⟩ [entry9 4] = some (entry9 4) ∧
    (f.seq.toNat + 65536 - (entry9 4).repSeq.toNat) % 65536 = 1 := by decide +kernel

theorem witness_ReportsApplyByReporterAndSequence_2 :
    let f : Frame := readFrame report0
    inInterest s0.cfg f.route f.dir = true ∧ f.age < 2400 ∧ (-300 : Int) ≤ -300 ∧
    findEntry ⟨f.route, f.dir, 9⟩ [entry9 5] = some (entry9 5) ∧ (entry9 5).source = .live ∧
    (entry9 5).repOrigin = f.origin ∧ (f.seq.toNat + 65536 - (entry9 5).repSeq.toNat) % 65536 = 0 := by decide +kernel

/-- The three tests of a report at their bounds: route 8 is served in no direction. -/
theorem witness_ReportsApplyByReporterAndSequence_3 :
    let f : Frame := readFrame report0
    inInterest s0.cfg 8 f.dir = false ∧ inInterest s0.cfg f.route f.dir = true ∧ { f with age := 2400 }.age = 2400 ∧
    (-301 : Int) < -300 ∧ { f with subject := 16 }.route = 8 := by decide +kernel

theorem witness_AmendmentsChangeTheFieldsPresent_1 :
    let f : Frame := readFrame report0
    inInterest s0.cfg f.route f.dir = true ∧ f.age < 2400 ∧ findEntry ⟨f.route, f.dir, 9⟩ [] = none := by decide +kernel

theorem witness_AmendmentsChangeTheFieldsPresent_2 :
    let f : Frame := readFrame report0
    inInterest s0.cfg f.route f.dir = true ∧ f.age < 2400 ∧ findEntry ⟨f.route, f.dir, 9⟩ [entry9 5] = some (entry9 5) ∧
    (entry9 5).repOrigin = f.origin ∧ (f.seq.toNat + 65536 - (entry9 5).repSeq.toNat) % 65536 = 0 := by decide +kernel

theorem witness_AmendmentsChangeTheFieldsPresent_3 :
    let f : Frame := readFrame report0
    inInterest s0.cfg f.route f.dir = true ∧ f.age < 2400 ∧ findEntry ⟨f.route, f.dir, 9⟩ [entry9 4] = some (entry9 4) ∧
    (f.seq.toNat + 65536 - (entry9 4).repSeq.toNat) % 65536 = 1 := by decide +kernel

theorem witness_AmendmentsChangeTheFieldsPresent_4 :
    let f : Frame := readFrame report0
    inInterest s0.cfg { f with subject := 16 }.route f.dir = false ∧ inInterest s0.cfg f.route f.dir = true ∧
    2400 ≤ { f with age := 2400 }.age := by decide +kernel

theorem witness_TableKeepsOrderAndCapacity_1 :
    [entry 1 2000, entry 2 2001].Pairwise (fun a b => entryBefore 1000 a b = true) ∧ ∀ x ∈ [entry 1 2000, entry 2
    2001], x.key ≠ (entry 3 2000).key := by decide +kernel

theorem witness_TableKeepsOrderAndCapacity_2 :
    fullTable.length = 48 ∧ fullTable.getLast? = some (entry 47 2047) ∧
    entryBefore 1000 (entry 100 2047) (entry 47 2047) = false := by decide +kernel

theorem witness_TableKeepsOrderAndCapacity_3 :
    fullTable.length = 48 ∧ fullTable.getLast? = some (entry 47 2047) ∧
    entryBefore 1000 (entry 100 2046) (entry 47 2047) = true := by decide +kernel

/-- The part with the relayable report heard once, its copies and its queue as given. -/
def sHeard (copies : Nat) (q : List RelayEntry) : State := { s0 with
  seen := [{ seenAs .heard true with copies := copies }], relayQ := q }

theorem witness_RelayDecisionByEligibility_1 :
    let f : Frame := readFrame report0
    findSeen f.origin f.seq (sHeard 0 []).seen = some (seenAs .heard true) ∧ ¬ 1 ≤ f.hop := by decide +kernel

theorem witness_RelayDecisionByEligibility_2 :
    let f : Frame := readFrame (report 3 2399)
    let s : State := sHeard 2 []
    findSeen f.origin f.seq s.seen = some { seenAs .heard true with copies := 2 } ∧ 1 ≤ f.hop ∧ s.cfg.ownId ∉ f.trail ∧
    f.age < 2400 ∧ s.account.stage = .full ∧ f.len ≤ 94 ∧ s.cfg.suppression ≤ 2 := by decide +kernel

theorem witness_RelayDecisionByEligibility_3 :
    let s : State := sHeard 1 (List.replicate 8 (relayOf 0))
    let f : Frame := readFrame (report 3 2399)
    findSeen f.origin f.seq s.seen = some { seenAs .heard true with copies := 1 } ∧ 1 ≤ f.hop ∧ s.cfg.ownId ∉ f.trail ∧
    f.age < 2400 ∧ s.account.stage = .full ∧ f.len ≤ 94 ∧ 1 < s0.cfg.suppression ∧
    8 ≤ s.relayQ.length := by decide +kernel

theorem witness_RelayDecisionByEligibility_4 :
    let s : State := sHeard 1 (List.replicate 7 (relayOf 0))
    let f : Frame := readFrame (report 3 2399)
    findSeen f.origin f.seq s.seen = some { seenAs .heard true with copies := 1 } ∧ 1 ≤ f.hop ∧ s.cfg.ownId ∉ f.trail ∧
    f.age < 2400 ∧ s.account.stage = .full ∧ f.len ≤ 94 ∧ 1 < s0.cfg.suppression ∧
    s.relayQ.length < 8 := by decide +kernel

theorem witness_RelayDecisionByEligibility_5 :
    [relayOf 0, { relayOf 0 with due := 996 }].Pairwise (fun a b => (a.due - 1000).toInt ≤ (b.due - 1000).toInt) := by
  decide +kernel

theorem witness_CarrierLoadsQuietTimerAndDefers_1 :
    sOff.pins.cd = false ∧ sOff.rx.state = .off ∧ s0.pins.cd = false ∧ s0.rx.state = .listen ∧
    s0.cau = .idle := by decide +kernel

theorem witness_CarrierLoadsQuietTimerAndDefers_2 :
    sReply.pins.cd = false ∧ sReply.rx.state = .listen ∧ sReply.cau = .contending .reply 6 ∧
    sReply.maint.replies = [reply1] ∧ reply1.deferrals < 7 := by decide +kernel

theorem witness_CarrierLoadsQuietTimerAndDefers_3 :
    let s : State := sContend 6
    s.pins.cd = false ∧ s.rx.state = .listen ∧ s.cau = .contending (.relay 0x0B01 5) 6 ∧
    findRelay 0x0B01 5 s.relayQ = some (relayOf 6) ∧ (relayOf 6).deferrals < 7 := by decide +kernel

theorem witness_CarrierLoadsQuietTimerAndDefers_4 :
    let s : State := sContend 7
    s.cau = .contending (.relay 0x0B01 5) 6 ∧ s.relayQ = [relayOf 7] ∧ (relayOf 7).origin = 0x0B01 ∧
    (relayOf 7).seq = 5 ∧ (relayOf 7).deferrals = 7 ∧ s.maint.replies = [] ∧ s.rx.state = .listen ∧
    s.rx.window.on = true ∧ active s = true ∧ gateOpen s = true ∧ s.pins.cd = false := by decide +kernel

theorem witness_CarrierLoadsQuietTimerAndDefers_5 :
    let s : State := { sContend 7 with pins := { noPins with cd := true } }
    s.cau = .contending (.relay 0x0B01 5) 6 ∧ s.relayQ = [relayOf 7] ∧ (relayOf 7).origin = 0x0B01 ∧
    (relayOf 7).seq = 5 ∧ (relayOf 7).deferrals = 7 ∧ s.maint.replies = [] ∧ s.rx.state = .listen ∧
    s.rx.window.on = true ∧ active s = true ∧ gateOpen s = true ∧ s.pins.cd = true := by decide +kernel

/-- The part contending for its oldest reply, deferred seven times. -/
def sLastDeferral (cd : Bool) (rest : List Reply) : State := { sReply with
  pins := { noPins with cd := cd }, maint := { sReply.maint with replies := ⟨[1, 2, 3], 7⟩ :: rest } }

theorem witness_CarrierLoadsQuietTimerAndDefers_6 : ∀ cd ∈ [false, true], ∀ rest ∈ [[], [reply1]],
    let s : State := sLastDeferral cd rest
    s.cau = .contending .reply 6 ∧ s.maint.replies = ⟨[1, 2, 3], 7⟩ :: rest ∧ s.rx.state = .listen ∧
    s.rx.window.on = true ∧ active s = true ∧ gateOpen s = true ∧ s.pins.cd = cd := by decide +kernel

/-- R31: the reply's eighth deferral leaves no counter behind. -/
theorem test_cdAssert_discards_a_reply :
    after (exec .cdAssert (sLastDeferral false [])) (fun t => (t.cau, t.maint)) = some (.idle, s0.maint) := by decide +kernel

theorem witness_QuietChannelStartsContention_1 :
    { s0 with quiet := .running 30 }.quiet = .running 30 ∧ s0.pins.cd = false ∧ s0.cau ≠ .sensing := by decide +kernel

theorem witness_QuietChannelStartsContention_2 :
    let s : State := sSense (.running 30) true
    s.quiet = .running 30 ∧ s.pins.cd = true ∧ s.rx.state = .listen := by decide +kernel

theorem witness_QuietChannelStartsContention_3 :
    let s : State := sSense (.running 30) false
    s.quiet = .running 30 ∧ s.pins.cd = false ∧ s.cau = .sensing ∧ (lfsrDraw s.rng).toNat % 64 ≠ 0 ∧
    s.maint.replies = [] ∧
    s.relayQ.find? (fun x => decide ((x.due - s.clock).toInt ≤ 0)) = some (relayOf 0) := by decide +kernel

theorem witness_QuietChannelStartsContention_4 :
    let s : State := sSense .expired true
    s.pins.cd = true ∧ s.rx.state ≠ .receiving ∧ s.cau = .sensing ∧ s.quiet = .expired ∧
    candidate? s = some (.relay 0x0B01 5) ∧ (lfsrDraw s.rng).toNat % 64 ≠ 0 := by decide +kernel

theorem witness_QuietChannelStartsContention_5 :
    let s : State := sSense (.running 30) true
    s.pins.cd = true ∧ s.rx.state ≠ .receiving ∧ s.quiet ≠ .expired := by decide +kernel

/-- A draw of 0 ms, with the relay or a reply waiting. -/
theorem witness_QuietChannelStartsContention_6 :
    let s : State := { sSense (.running 30) false with rng := 1 }
    s.quiet = .running 30 ∧ s.pins.cd = false ∧ s.cau = .sensing ∧ (lfsrDraw s.rng).toNat % 64 = 0 ∧ s.rx.state = .listen ∧
    s.rx.reception = .none ∧ s.maint.replies = [] ∧
    s.relayQ.find? (fun x => decide ((x.due - s.clock).toInt ≤ 0)) = some (relayOf 0) ∧
    ((candidateFrame s (.relay 0x0B01 5)).length : Int) ≤ spendable s ∧ sReply.maint.replies = [reply1] ∧
    (reply1.frame.length : Int) ≤ spendable s := by decide +kernel

theorem witness_DueRelayStartsAnAttempt_1 :
    active s0 = true ∧ ∀ e ∈ s0.relayQ, 0 < (e.due - s0.clock).toInt := by decide +kernel

theorem witness_DueRelayStartsAnAttempt_2 :
    let s : State := { relaying s0 0 with quiet := .running 5 }
    active s = true ∧ s.cau = .idle ∧
    s.relayQ.find? (fun x => decide ((x.due - s.clock).toInt ≤ 0)) = some (relayOf 0) ∧ s.maint.replies = [] ∧
    gateOpen s0 = true ∧ s0.rx.state = .listen := by decide +kernel

theorem witness_DueRelayStartsAnAttempt_3 :
    let s : State := relaying sOff 0
    active s = true ∧ s.cau = .idle ∧
    s.relayQ.find? (fun x => decide ((x.due - s.clock).toInt ≤ 0)) = some (relayOf 0) ∧ s.maint.replies = [] ∧
    gateOpen sOff = true ∧ sOff.rx.state = .off := by decide +kernel

theorem witness_DueRelayStartsAnAttempt_4 :
    let s : State := relaying s0 0
    active s = true ∧ s.cau = .idle ∧
    s.relayQ.find? (fun x => decide ((x.due - s.clock).toInt ≤ 0)) = some (relayOf 0) ∧ s.maint.replies = [] ∧
    gateOpen s0 = true ∧ s0.rx.state = .listen ∧ s0.quiet = .expired ∧ s0.pins.cd = false ∧
    (lfsrDraw s0.rng).toNat % 64 ≠ 0 := by decide +kernel

theorem witness_DueRelayStartsAnAttempt_5 :
    let s : State := withE (relaying sOff 0) 1090
    active s = true ∧ s.cau = .idle ∧
    s.relayQ.find? (fun x => decide ((x.due - s.clock).toInt ≤ 0)) = some (relayOf 0) ∧ s.maint.replies = [] ∧
    gateOpen s = false ∧ sOff.rx.state = .off ∧ (relaying sOff 0).relayQ = [relayOf 0] := by decide +kernel

theorem witness_ContentionEndSendsOrAbandons_1 :
    let s : State := sContend 0
    s.pins.cd = false ∧ s.cau = .contending (.relay 0x0B01 5) 6 ∧
    ((candidateFrame s (.relay 0x0B01 5)).length : Int) ≤ spendable s ∧ s.rx.state = .listen ∧
    s.rx.reception = .none := by decide +kernel

theorem witness_ContentionEndSendsOrAbandons_2 :
    let s : State := withE (sContend 0) 1113
    let u : State := sContend 0
    spendable s = 23 ∧ 23 < (candidateFrame s (.relay 0x0B01 5)).length ∧
    candidate? { withE u 1113 with relayQ := [] } = none ∧ u.rx.window.on = true ∧ active u = true ∧
    gateOpen s = true := by decide +kernel

theorem witness_ContentionEndSendsOrAbandons_3 :
    sReply.pins.cd = false ∧ sReply.cau = .contending .reply 6 ∧ sReply.maint.replies = [reply1] ∧
    (reply1.frame.length : Int) ≤ spendable sReply ∧ sReply.rx.state = .listen ∧
    sReply.rx.reception = .none := by decide +kernel

/-- The reply costs 3 q where 2 q may be spent; behind it nothing, or another reply. -/
theorem witness_ContentionEndSendsOrAbandons_4 : ∀ rest ∈ [[], [reply1]],
    let s : State := { withE sReply (bannerReserve 4 + 2) with maint := { sReply.maint with replies := reply1 :: rest } }
    s.pins.cd = false ∧ s.cau = .contending .reply 6 ∧ spendable s = 2 ∧ 2 < reply1.frame.length ∧ s.rx.state = .listen ∧
    s.rx.window.on = true ∧ active s = true ∧ gateOpen s = true ∧ s.quiet = .expired ∧ (lfsrDraw s.rng).toNat % 64 ≠ 0 ∧
    candidate? { s with cau := .idle, maint := { s.maint with replies := rest } } =
      (match rest with | [] => none | _ :: _ => some .reply) := by decide +kernel

/-- The part contending for the first of two replies, a frame in reception that lacks its last character. -/
def sMeeting (target : RxTarget) (l : List Byte) (err : Bool) : State := { sReply with
  maint := { s0.maint with replies := [reply1, reply1] }
  rx := { s0.rx with state := .receiving, reception := .body target 1, bufA := some ⟨l, none⟩, bufB := some ⟨l, none⟩,
                     charError := err } }

/-- A request whose body check fails by its last character, which is `last`. -/
def damagedRequest : List Byte × Byte := ((request 1 0).dropLast, (request 1 0).getLastD 0 + 1)

theorem witness_ContentionEndSendsOrAbandons_5 : ∀ err ∈ [false, true],
    ∀ target ∈ [RxTarget.overrun, .buffer .a, .buffer .b],
    let s : State := sMeeting target damagedRequest.1 err
    s.rx.state = .receiving ∧ s.rx.reception = .body target 1 ∧ bufferOf s .a = some ⟨damagedRequest.1, none⟩ ∧
    bufferOf s .b = some ⟨damagedRequest.1, none⟩ ∧ s.rx.charError = err ∧
    after (exec .contentionDelayEnd s) (fun t => t.rx.state) = some .transmitting := by decide +kernel

/-- QUIET_TIMER_EXPIRY with a draw of 0 ms asserts TXEN as well; in LISTEN the character follows that end. -/
theorem witness_ContentionEndSendsOrAbandons_6 :
    let s : State := { sMeeting (.buffer .a) [] false with cau := .sensing, quiet := .running 1, rng := 1 }
    after (exec .quietTimerExpiry s) (fun t => t.rx.state) = some .transmitting ∧ sReply.rx.state ≠ .receiving ∧
    after (exec .contentionDelayEnd sReply) (fun t => t.rx.state) = some .transmitting := by decide +kernel

/-- R208: the request whose end meets the assertion of TXEN finds the place of the reply sent, and is answered BODY_CHECK; one that
ends before the assertion is dropped. Neither frame is cut. -/
theorem test_request_meets_txen :
    let s : State := sMeeting (.buffer .a) damagedRequest.1 false
    let seen (t : State) : Nat × Nat × Nat × Option BufId :=
      (t.maint.replies.length, t.maint.counters.rxBody, t.maint.counters.rxShort, t.rx.accepted.head?)
    after (exec (.characterReceived damagedRequest.2 ⟨false, some .contention⟩) s) seen = some (2, 1, 0, none) ∧
    (after (exec (.characterReceived damagedRequest.2 ⟨false, none⟩) s) (fun t => after (exec .contentionDelayEnd t) seen)) =
      some (some (1, 1, 0, none)) := by decide +kernel

/-- The part with a frame of three characters on the air. -/
def sSend (relay : Bool) : State := { s0 with cau := .sending [1, 2, 3] relay, rx := { s0.rx with state := .transmitting } }

/-- The part with a request accepted and an attempt in progress. -/
def sAsked (s : State) (code arg : Byte) : State := { accepting s (request code arg) with cau := .sensing }

theorem witness_TransmissionEndDebitsAndCounts :
    let s : State := sSend true
    s.cau = .sending [1, 2, 3] true ∧ s.rx.state = .transmitting ∧ s.rx.reception = .none ∧ s.account.running = true ∧
    active s = true ∧ candidate? s = none ∧
    stageHolds s.cfg s.account.stage (s.account.e - 3) = true := by decide +kernel

theorem witness_RequestsAreAnswered_1 :
    let s : State := sAsked s0 1 0
    s.maint.replies.length < 2 ∧ (requested 0xBEEF 1 0).key = s.cfg.maintenanceKey ∧ s.cau ≠ .idle ∧
    receiverAgrees s = true ∧
    findRequest (fun c => decide (c = 1)) s = some (.a, requested 0xBEEF 1 0) := by decide +kernel

theorem witness_RequestsAreAnswered_2 :
    let s : State := sAsked s0 2 0
    s.maint.replies.length < 2 ∧ (requested 0xBEEF 2 0).key = s.cfg.maintenanceKey ∧ s.cau ≠ .idle ∧
    receiverAgrees s = true ∧ findRequest (fun c => decide (c = 2)) s = some (.a, requested 0xBEEF 2 0) ∧
    s.table.length ≤ (requested 0xBEEF 2 0).arg := by decide +kernel

theorem witness_RequestsAreAnswered_3 :
    let s : State := sAsked { s0 with table := fullTable } 2 47
    s.maint.replies.length < 2 ∧ (requested 0xBEEF 2 47).key = s.cfg.maintenanceKey ∧ s.cau ≠ .idle ∧
    receiverAgrees s = true ∧ findRequest (fun c => decide (c = 2)) s = some (.a, requested 0xBEEF 2 47) ∧
    (requested 0xBEEF 2 47).arg < s.table.length := by decide +kernel

theorem witness_RequestsAreAnswered_4 :
    let s : State := sAsked s0 3 0
    s.maint.replies.length < 2 ∧ (requested 0xBEEF 3 0).key = s.cfg.maintenanceKey ∧ s.cau ≠ .idle ∧
    receiverAgrees s = true ∧
    findRequest (fun c => decide (c = 3)) s = some (.a, requested 0xBEEF 3 0) := by decide +kernel

theorem witness_RequestsAreAnswered_5 :
    let s : State := sAsked s0 5 0
    s.maint.replies.length < 2 ∧ (requested 0xBEEF 5 0).key = s.cfg.maintenanceKey ∧ s.cau ≠ .idle ∧
    receiverAgrees s = true ∧
    findRequest (fun c => !(decide (1 ≤ c) && decide (c ≤ 4))) s = some (.a, requested 0xBEEF 5 0) := by decide +kernel

theorem witness_RequestsAreAnswered_6 :
    let s : State := sAsked s0 0 0
    s.maint.replies.length < 2 ∧ (requested 0xBEEF 0 0).key = s.cfg.maintenanceKey ∧ s.cau ≠ .idle ∧
    receiverAgrees s = true ∧
    findRequest (fun c => !(decide (1 ≤ c) && decide (c ≤ 4))) s = some (.a, requested 0xBEEF 0 0) := by decide +kernel

theorem witness_RequestsAreAnswered_7 :
    let s : State := sAsked sDriving 4 0
    s.maint.replies.length < 2 ∧ (requested 0xBEEF 4 0).key = s.cfg.maintenanceKey ∧ s.cau ≠ .idle ∧
    receiverAgrees s = true ∧ findRequest (fun c => decide (c = 4)) s = some (.a, requested 0xBEEF 4 0) ∧
    s.engine.state ≠ .idle ∧ s.account.stage ≠ .frozen := by decide +kernel

theorem witness_RequestsAreAnswered_8 :
    let s : State := sAsked { sDriving with account := sFrozen.account } 4 0
    s.maint.replies.length < 2 ∧ (requested 0xBEEF 4 0).key = s.cfg.maintenanceKey ∧ s.cau ≠ .idle ∧
    receiverAgrees s = true ∧ findRequest (fun c => decide (c = 4)) s = some (.a, requested 0xBEEF 4 0) ∧
    s.engine.state ≠ .idle ∧ s.account.stage = .frozen := by decide +kernel

/-- A REFRESH request that finds the controller OPEN and the engine IDLE. -/
theorem witness_RequestsAreAnswered_11 :
    let s : State := sAsked s0 4 0
    s.maint.replies.length < 2 ∧ (requested 0xBEEF 4 0).key = s.cfg.maintenanceKey ∧ s.cau ≠ .idle ∧ active s = true ∧
    receiverAgrees s = true ∧ s.engine.state = .idle ∧ s.ctl.state = .opened ∧ s.ctl.clearItem ≠ some .freeze ∧
    s.account.stage ≠ .frozen ∧ s.engine.reading = none ∧
    findRequest (fun c => decide (c = 4)) s = some (.a, requested 0xBEEF 4 0) := by decide +kernel

/-- A STATUS request that finds the unit IDLE, and the reply it is answered with. -/
theorem witness_RequestsAreAnswered_9 :
    let s : State := accepting sDriving (request 1 0)
    findRequest (fun n => decide (n = 1)) s = some (.a, requested 0xBEEF 1 0) ∧ s.maint.replies = [] ∧ s.cau = .idle ∧
    active s = true ∧ gateOpen s = true ∧ s.rx.state = .listen ∧ s.rx.window.on = true ∧ s.rx.reception = .none ∧
    s.engine.state ≠ .idle ∧ s.quiet = .expired ∧ s.pins.cd = false ∧ (lfsrDraw s.rng).toNat % 64 ≠ 0 ∧
    (lfsrDraw 1).toNat % 64 = 0 ∧
    (after (exec .statusRequest { s with cau := .sensing }) (fun v => v.maint.replies.map (·.frame.length))) = some [76] := by
  decide +kernel

/-- The same request with a draw of 0 ms, and with 25 q to spend for a reply of 76 characters. -/
theorem witness_RequestsAreAnswered_10 :
    let u : State := accepting sDriving (request 1 0)
    let s : State := { u with rng := 1, account := { u.account with e := bannerReserve 4 + 25, reservation := none } }
    findRequest (fun n => decide (n = 1)) s = some (.a, requested 0xBEEF 1 0) ∧ s.maint.replies = [] ∧ s.cau = .idle ∧
    active s = true ∧ gateOpen s = true ∧ s.rx.state = .listen ∧ s.rx.window.on = true ∧ s.rx.reception = .none ∧
    s.engine.state ≠ .idle ∧ s.quiet = .expired ∧ s.pins.cd = false ∧ (lfsrDraw s.rng).toNat % 64 = 0 ∧
    spendable s < 76 ∧ s.relayQ = [] ∧
    (after (exec .statusRequest { s with cau := .sensing }) (fun v => v.maint.replies.map (·.frame.length))) = some [76] := by
  decide +kernel

/-- The reply's attempt starts with the answer (R29): a contention delay of 120 ms by the draw 0xF4BC. -/
theorem test_statusRequest_starts_an_attempt :
    after (exec .statusRequest (accepting s0 (request 1 0))) (fun t => (t.cau, t.rng)) =
      some (.contending .reply 120, 0xF4BC) := by decide +kernel

theorem witness_RequestsAreDroppedOrDenied_1 :
    let s : State := { accepting s0 (wrongKey 1) with cau := .sensing }
    findRequest (fun n => decide (n = 1)) s = some (.a, requested 0xBEEE 1 0) ∧ s0.maint.replies.length < 2 ∧
    (requested 0xBEEE 1 0).key ≠ s0.cfg.maintenanceKey ∧ receiverAgrees s = true := by decide +kernel

theorem witness_RequestsAreDroppedOrDenied_2 :
    2 ≤ [reply1, reply1].length ∧
    findRequest (fun n => decide (n = 2)) { accepting s0 (wrongKey 2) with maint := { s0.maint with replies :=
      [reply1, reply1] } } = some (.a, requested 0xBEEE 2 0) := by decide +kernel

theorem witness_HarvestCreditsAndReleases_1 :
    sLoad.account.running = false := by decide +kernel

theorem witness_HarvestCreditsAndReleases_2 :
    s0.account.running = true ∧ active s0 = true ∧ nothingToSelect s0 = true ∧
    crossesNothing s0 (min s0.cfg.capacity (s0.account.e + 64)) = true := by decide +kernel

theorem witness_LowClampsAndFreezes_1 :
    sLoad.account.running = false := by decide +kernel

theorem witness_LowClampsAndFreezes_2 :
    sFrozen.account.running = true ∧ sFrozen.account.stage = .frozen ∧ sFrozen.cfg.t3 ≤ sFrozen.cfg.t2 ∧
    sFrozen.cfg.t2 ≤ sFrozen.cfg.t1 ∧ 1 ≤ sFrozen.cfg.t3 ∧
    receiverAgrees (withE sFrozen (min sFrozen.account.e (sFrozen.cfg.t3 - 1))) = true := by decide +kernel

/-- With a refresh in DRIVE or the engine IDLE, no relay or one in contention, in each state of the composer. -/
theorem witness_LowClampsAndFreezes_3 : ∀ u ∈ [sDriving, s0, sContend 0], ∀ c ∈ [ComposerState.idle, .passing, .suspended],
    let s : State := { u with composer := { u.composer with state := c } }
    s.pins.low = false ∧ s.account.running = true ∧ active s = true ∧ s.account.stage ≠ .frozen ∧ s.cfg.t3 < s.cfg.t2 ∧
    s.cfg.t2 < s.cfg.t1 ∧ 1 ≤ s.cfg.t3 ∧ (∀ n ∈ countersList s.maint.counters, n ≤ 65535) ∧
    (s.cau = .idle ∨ (s.cau = .contending (.relay 0x0B01 5) 6 ∧ s.maint.replies = [])) ∧
    receiverAgrees (withE { s with cau := .idle } (min s.account.e (s.cfg.t3 - 1))) = true ∧
    (s.engine.state ≠ .idle ∨ (s.ctl.state ≠ .granted ∧ s.engine.reading = none)) := by decide +kernel

/-- R118, R126, R185: with the engine IDLE the freeze picture is granted at the assertion of LOW, and the relay is abandoned. -/
theorem test_lowAssert_grants_the_freeze_picture :
    after (exec (.lowAssert false) (sContend 0)) (fun t =>
        (t.engine.refresh, t.ctl.clearItem, t.relayQ.length, t.seen.map (·.state), t.cau)) =
      some (some (.clear .freeze), none, 0, [.abandoned], .idle) := by decide +kernel

/-- The two commands on a standing LOW: its release, and an assertion after a release that was not a step. -/
theorem witness_LowClampsAndFreezes_4 : ∀ s ∈ [sFrozen, sDriving],
    { s.pins with low := true }.low = true ∧ s.pins.low = false := by decide +kernel

/-- R175: the release of LOW has no effect but the level, and the next load acts on no LOW. -/
theorem test_lowAssert_release :
    let s : State := { sFrozen with pins := { noPins with low := true } }
    after (exec (.lowAssert false) s) (fun t => decide (t = sFrozen)) = some true ∧
    after (exec (.lowAssert true) s) (fun t => (t.pins.low, t.maint.counters.lowEvents)) = some (true, 1) := by decide +kernel

theorem witness_StageFollowsTheEstimate_1 :
    active (withE sHeld 399999) = false ∧ sHeld.cfg.t3 < sHeld.cfg.t2 ∧ sHeld.cfg.t2 < sHeld.cfg.t1 ∧
    stageRank (bandOfEnergy sHeld.cfg 399999) < stageRank sHeld.account.stage := by decide +kernel

theorem witness_StageFollowsTheEstimate_2 :
    active (withE sHeld 1200000) = false ∧
    stageRank sHeld.account.stage ≤ stageRank (bandOfEnergy sHeld.cfg 1200000) := by decide +kernel

/-- A part with row 0 in DRIVE, in a stage with an estimate and its composer as given. -/
def sStaged (stage : Stage) (freeze : FreezeState) (e : Nat) (composer : ComposerState) : State := { sDriving with
  account := ⟨true, e, some 94, stage, freeze⟩, composer := { sDriving.composer with state := composer } }

theorem witness_StageFollowsTheEstimate_3 : ∀ k ∈ [ComposerState.idle, .passing, .suspended],
    let s := sStaged .thrift .none 1239936 k
    active s = true ∧ s.account.running = true ∧ s.engine.state ≠ .idle ∧ s.cfg.t3 < s.cfg.t2 ∧ s.cfg.t2 < s.cfg.t1 ∧
    s.account.stage = .thrift ∧ min s.cfg.capacity (s.account.e + 64) = 1240000 ∧ s.cfg.t1 + s.cfg.h = 1240000 ∧
    receiverAgrees (withE { s with rx := { s.rx with window := ⟨true, 1000, .full, true⟩ } } 1240000) = true := by
  decide +kernel

theorem witness_StageFollowsTheEstimate_4 :
    let s : State := { sStaged .thrift .none 1239936 .idle with rx := sOff.rx }
    s.rx.state = .off ∧ s.rx.window.running = true ∧ s.cau = .idle ∧
    wantedOn (withE { s with rx := { s.rx with window := ⟨true, 1000, .full, true⟩ } } 1240000) = true := by decide +kernel

theorem witness_StageFollowsTheEstimate_5 : ∀ k ∈ [ComposerState.passing, .suspended],
    let s : State := sStaged .frozen .drawn 99936 k
    s.account.stage = .frozen ∧ min s.cfg.capacity (s.account.e + 64) = 100000 ∧ s.cfg.t3 + s.cfg.h = 100000 ∧
    100000 < s.cfg.t2 + s.cfg.h ∧ receiverAgrees (withE s 100000) = true ∧ s.startup.state = .service := by decide +kernel

theorem witness_StageFollowsTheEstimate_6 : ∀ x ∈ [(Stage.full, 1200000, Stage.thrift), (.thrift, 400000, .scant),
      (.full, 400000, .scant), (.scant, 60000, .frozen), (.full, 60000, .frozen)],
    let s : State := { sStaged x.1 .none x.2.1 .idle with
      seen := [seenAs .waiting false], relayQ := [relayOf 0], cau := .contending (.relay 0x0B01 5) 6 }
    active s = true ∧ s.account.running = true ∧ s.engine.state ≠ .idle ∧ (s.clock + 1).toNat % 8 ≠ 0 ∧
    s.rx.state = .listen ∧ s.rx.window.on = true ∧ gateOpen (withE s (s.account.e - 1)) = true ∧ s.maint.replies = [] ∧
    (∀ n ∈ countersList s.maint.counters, n ≤ 65535) ∧ bandOfEnergy s.cfg (s.account.e - 1) = x.2.2 := by decide +kernel

/-- Section 9.4: with the fall below T3 by a tick's debit every relay is abandoned and the freeze is pending. -/
theorem test_tick_falls_to_frozen :
    after (exec .tick { sStaged .scant .none 60000 .idle with seen := [seenAs .waiting false], relayQ := [relayOf 0] })
      (fun t => (t.account, t.ctl.clearItem, t.relayQ, t.seen.map (·.state), t.composer.state)) =
      some (⟨true, 59999, some 94, .frozen, .pending⟩, some .freeze, [], [.abandoned], .suspended) := by decide +kernel

theorem witness_PeriodEndStartsAPass_1 :
    active { s0 with clock := 1120 } = true ∧ s0.composer.nextPass = some 1120 ∧ ((1120 : Tick) - 1120).toInt ≤ 0 ∧
    s0.composer.state = .idle := by decide +kernel

theorem witness_PeriodEndStartsAPass_2 :
    active s0 = true ∧ s0.composer.nextPass = some 1120 ∧ 0 < ((1120 : Tick) - s0.clock).toInt := by decide +kernel

/-- A pass. -/
def pass1 : Pass := ⟨1000, .full, none, false⟩

/-- The part in that pass, the controller HELD. -/
def sPass : State := { s0 with
  lock := .held, composer := { s0.composer with state := .passing, pass := some pass1 }
  ctl := { s0.ctl with state := .held }, table := [entry 1 5000, entry 2 60000], rows := shownRows }

/-- A row content with a value. -/
def valued (v : Value) : RowContent := { emptyContent with value := v }

/-- The same pass with a bundle and a sweep waiting for the lock. -/
def sPassWaits : State := { sPass with
  rx := { s0.rx with bufA := some ⟨bundle7, some 999⟩, accepted := [.a] }
  seen := [⟨0x0D01, 7, .heard, 0, 999, true⟩], sweepWaiting := true }

theorem witness_PassCompletionWritesRecordsAndFreesTheLock_1 :
    (sPass.rx.accepted = [] ∧ sPass.sweepWaiting = false ∧ sPass.composer.passDue = false ∧
      sPass.composer.wallSignal = false ∧ { sPass.composer with passDue := true }.passDue = true) ∧
    ∀ s ∈ [sPass, { sPass with account := sFrozen.account, rx := sOff.rx }],
      active s = true ∧ s.composer.state = .passing ∧ s.composer.pass = some pass1 ∧ s.rx.accepted = [] ∧
      s.ctl.state ≠ .opened ∧ s.account.running = true ∧ crossesNothing s (s.account.e - 2) = true := by decide +kernel

theorem witness_PassCompletionWritesRecordsAndFreesTheLock_2 :
    let s := sPassWaits
    active s = true ∧ s.composer.state = .passing ∧ s.composer.pass = some pass1 ∧ s.account.running = true ∧
    s.sweepWaiting = true ∧ s.account.stage ≠ .frozen ∧ { sPass.composer with wallSignal := true }.wallSignal = true ∧
    s.rx.accepted.Nodup ∧ (∀ id ∈ s.rx.accepted, bufferOf s id ≠ none ∧ receivingInto s.rx.reception ≠ some id) ∧
    bufferOf s .a = some ⟨bundle7, some 999⟩ ∧ (readFrame bundle7).kind = 3 ∧ (readFrame bundle7).age < 2400 ∧
    readBody 3 (readFrame bundle7).body ≠ none := by decide +kernel

/-- The hypothesis on the debit, after that dispatch and sweep. -/
theorem witness_PassCompletionWritesRecordsAndFreesTheLock_3 :
    after (exec .frameDispatch { sPassWaits with lock := .free }) (fun u => crossesNothing u.sweep 1999998) = some true := by
  decide +kernel

/-- R69, R70, R102: the bundle's item is applied, the sweep removes its entry, 1919 ticks past, 2 q are debited, and the next pass
starts with the bundle's reference. -/
theorem test_passCompletion_does_the_waiting_work :
    after (exec .passCompletion sPassWaits)
      (fun t => (t.sweepWaiting, t.rx.accepted, t.table.map (·.key.trip), t.maint.counters.tableApplied)) =
      some (false, [], [1, 2], 1) ∧
    after (exec .passCompletion sPassWaits)
      (fun t => (t.account.e, t.wall.isSome, t.composer.pass.map (fun p => decide (p.wall = t.wall)))) =
      some (1999998, true, some true) := by
  decide +kernel

theorem witness_RowsAndBannerSayWhatTheRulesChoose :
    (valued (.minutes 10)).value = .minutes 10 ∧ (valued (.minutes 9)).value = .minutes 9 ∧
    { valued (.minutes 10) with value := (valued (.minutes 9)).value } = valued (.minutes 9) := by decide +kernel

theorem witness_RowsAndBannerSayWhatTheRulesChoose_2 :
    ¬ ((∃ a, (valued .due).value = .minutes a) ∧ (∃ a, (valued (.minutes 9)).value = .minutes a) ∧
      { valued .due with value := (valued (.minutes 9)).value } = valued (.minutes 9)) := by
  rintro ⟨⟨_, h⟩, _⟩; exact nomatch h

theorem witness_RowsAndBannerSayWhatTheRulesChoose_3 : sLoad.cfg.configured = false ∧ s0.cfg.configured = true ∧ s0.table = [] ∧
    sPass.table ≠ [] ∧ ∃ (r : Nat) (e : DepEntry), r < sPass.cfg.n ∧ sPass.table[r]? = some e ∧ e.source = .live ∧
      e.stale = false :=
  ⟨rfl, rfl, rfl, nofun, 0, entry 1 5000, by decide, rfl, rfl, rfl⟩

theorem witness_RowsAndBannerSayWhatTheRulesChoose_4 :
    ∃ r : RouteRecord, s0.cfg.routes = [] ++ r :: [] ∧ r.code = (entry 1 5000).key.route ∧ r.serves0 = true ∧
      (entry 1 5000).key.dir = false ∧ ∀ x ∈ s0.cfg.routes, x.code ≠ 8 :=
  ⟨_, rfl, rfl, rfl, rfl, by decide⟩

/-- The part with some rows pending and the pointer at 1. -/
def sRaised (l : List Nat) : State := { s0 with
  rows := s0.rows.mapIdx (fun r row => { row with pending := l.contains r }), ctl := { s0.ctl with pointer := 1 } }

theorem witness_SelectionTakesTheFirstAndGrants_1 : (sRaised [1, 4]).ctl.clearItem = none ∧
    (∃ row, (sRaised [1, 4]).rows[(sRaised [1, 4]).cfg.n]? = some row ∧ row.pending = true) :=
  ⟨rfl, _, rfl, rfl⟩

theorem witness_SelectionTakesTheFirstAndGrants_2 :
    let s := sRaised [1]
    let selectable (r : Nat) : Prop := ∃ row, s.rows[r]? = some row ∧ row.pending = true ∧ row.mask = false
    s.ctl.clearItem = none ∧ (∀ row, s.rows[s.cfg.n]? = some row → row.pending = false) ∧ 3 < s.cfg.n ∧
      selectable ((s.ctl.pointer + 1 + 3) % s.cfg.n) ∧ ∀ j : Nat, j < 3 → ¬ selectable ((s.ctl.pointer + 1 + j) % s.cfg.n) := by
  refine ⟨rfl, fun row h => ?_, by decide, ⟨_, rfl, rfl, rfl⟩, fun j hj => ?_⟩
  · obtain rfl := Option.some.inj (h.symm.trans (show _ = some { Row.initial (.banner .blank) with pending := false } from rfl))
    rfl
  · rintro ⟨row, h, hp, -⟩
    match j, hj with
    | 0, _ => exact absurd (hp.symm.trans (by rw [← Option.some.inj h])) (by decide)
    | 1, _ => exact absurd (hp.symm.trans (by rw [← Option.some.inj h])) (by decide)
    | 2, _ => exact absurd (hp.symm.trans (by rw [← Option.some.inj h])) (by decide)

/-- A part whose full-clear interval has run out. -/
def sInterval (s : State) : State := { s with ctl := { s.ctl with interval := some 0 } }

/-- The part with every row shown. -/
def sShown : State := { s0 with rows := shownRows }

theorem witness_SelectionTakesTheFirstAndGrants_3 :
    let s : State := sInterval sFrozen
    active s = true ∧ s.ctl.interval = some 0 ∧ s.account.stage = .frozen ∧
    nothingToSelect s = true := by decide +kernel

theorem witness_SelectionTakesTheFirstAndGrants_4 :
    let s : State := sInterval sDriving
    active s = true ∧ s.ctl.interval = some 0 ∧ s.account.stage ≠ .frozen ∧ s.engine.state ≠ .idle := by decide +kernel

theorem witness_SelectionTakesTheFirstAndGrants_5 :
    let s : State := sInterval s0
    active s = true ∧ s.ctl.interval = some 0 ∧ s.account.stage ≠ .frozen ∧ s.engine.state = .idle ∧
    s.ctl.state = .opened ∧ s.ctl.clearItem = none ∧ s.engine.reading = none := by decide +kernel

theorem witness_TemperatureAnswerEntersDrive_1 :
    let s : State := sPrepare sShown (.row 0)
    active s = true ∧ s.engine.state = .prepare ∧ s.engine.refresh = some (.row 0) ∧ s.account.reservation = none ∧
    s.pins.pfault = false ∧ s.pins.droop = false ∧ bandOfTemp (max (-40) (min 85 54)) = .b5 ∧
    (s.rows[0]?).isSome = true ∧
    ((20 + 4 * driveFrames .partialWave .b5 + 2 : Nat) : Int) ≤ (s.account.e : Int) - bannerReserve s.cfg.n ∧
    receiverAgrees { s with account := { s.account with reservation := some (20 + 4 * driveFrames .partialWave .b5 + 2) } } =
      true := by decide +kernel

theorem witness_TemperatureAnswerEntersDrive_2 :
    let s : State := sPrepare sShown (.row 0)
    active s = true ∧ s.engine.state = .prepare ∧ s.engine.refresh = some (.row 0) ∧ s.account.reservation = none ∧
    s.pins.pfault = false ∧ s.pins.droop = false ∧ bandOfTemp (max (-40) (min 85 (-20))) = .b0 ∧
    ((20 + 4 * driveFrames .full .b0 + 2 : Nat) : Int) ≤ (s.account.e : Int) - bannerReserve s.cfg.n ∧
    receiverAgrees { s with account := { s.account with reservation := some (20 + 4 * driveFrames .full .b0 + 2) } } = true :=
      by decide +kernel

theorem witness_TemperatureAnswerEntersDrive_3 :
    let s : State := sPrepare sShown (.clear .ordinary)
    active s = true ∧ s.engine.state = .prepare ∧ s.engine.refresh = some (.clear .ordinary) ∧
    s.account.reservation = none ∧ s.pins.pfault = false ∧ s.pins.droop = false ∧
    ((40 + (s.cfg.n + 1) * (4 * driveFrames .full .b3 + 2) : Nat) : Int) ≤ (s.account.e : Int) - bannerReserve s.cfg.n ∧
    receiverAgrees { s with account := { s.account with reservation := some (40 + (s.cfg.n + 1) *
      (4 * driveFrames .full .b3 + 2)) } } = true := by decide +kernel

theorem witness_TemperatureAnswerEntersDrive_4 :
    let s : State := sPrepare { sFrozen with account := ⟨true, 50000, none, .frozen, .pending⟩ } (.clear .freeze)
    active s = true ∧ s.engine.state = .prepare ∧ s.engine.refresh = some (.clear .freeze) ∧
    s.account.reservation = none ∧ s.pins.pfault = false ∧ s.pins.droop = false ∧
    40 + (s.cfg.n + 1) * (4 * driveFrames .full .b3 + 2) ≤ s.account.e ∧
    receiverAgrees { s with account := { s.account with reservation := some (40 + (s.cfg.n + 1) *
      (4 * driveFrames .full .b3 + 2)) } } = true := by decide +kernel

theorem witness_TemperatureAnswerMayBeRefused_1 :
    let s : State := sPrepare sShown (.row 0)
    active s = true ∧ s.engine.state = .prepare ∧ s.engine.refresh = some (.row 0) ∧ s.account.reservation = none ∧
    max (-40) (min 85 (-21 : Int)) ≤ -21 ∧ 55 ≤ max (-40) (min 85 (55 : Int)) := by decide +kernel

theorem witness_TemperatureAnswerMayBeRefused_2 :
    let s : State := { sPrepare sShown (.row 0) with pins := { noPins with droop := true } }
    active s = true ∧ s.engine.state = .prepare ∧ s.engine.refresh = some (.row 0) ∧ s.account.reservation = none ∧
    ¬ (max (-40) (min 85 (-20 : Int)) ≤ -21 ∨ 55 ≤ max (-40) (min 85 (-20 : Int))) := by decide +kernel

/-- A shortage of one quantum for each waveform: PARTIAL in B3, FULL in B0 for the same row, and an ORDINARY panel clear. -/
theorem witness_TemperatureAnswerMayBeRefused_3 :
    let s : State := sPrepare sShown (.row 0)
    active s = true ∧ s.engine.state = .prepare ∧ s.engine.refresh = some (.row 0) ∧ s.account.reservation = none ∧
    0 < s.rows.length ∧ (s.rows[0]?).map (fun row => (row.shown.isNone, row.partialCount)) = some (false, 0) ∧
    (1155 : Int) - bannerReserve 4 < 20 + 4 * driveFrames .partialWave .b3 + 2 ∧
    (1319 : Int) - bannerReserve 4 < 20 + 4 * driveFrames .full .b0 + 2 ∧ bandOfTemp (-20) = .b0 ∧
    (sPrepare sShown (.clear .ordinary)).engine.refresh = some (.clear .ordinary) ∧
    (1459 : Int) - bannerReserve 4 < 40 + (4 + 1) * (4 * driveFrames .full .b3 + 2) ∧ s.account.stage ≠ .frozen := by
  decide +kernel

theorem witness_TemperatureAnswerMayBeRefused_4 :
    let s : State := sPrepare { sFrozen with account := ⟨true, 100, none, .frozen, .pending⟩ } (.clear .freeze)
    active s = true ∧ s.engine.state = .prepare ∧ s.engine.refresh = some (.clear .freeze) ∧
    s.account.reservation = none ∧ s.account.stage = .frozen ∧ s.pins.droop = false ∧
    s.account.e < 40 + (s.cfg.n + 1) * (4 * driveFrames .full .b3 + 2) := by decide +kernel

/-- The freeze picture in a NO DRIVE band, in FROZEN and after the stage has left it. -/
theorem witness_TemperatureAnswerMayBeRefused_5 :
    ∀ a ∈ [Account.mk true 50000 none .frozen .pending, ⟨true, 100000, none, .scant, .none⟩],
      let s : State := sPrepare { sFrozen with account := a } (.clear .freeze)
      active s = true ∧ s.engine.state = .prepare ∧ s.engine.refresh = some (.clear .freeze) ∧
      s.account.reservation = none ∧ max (-40) (min 85 (-41 : Int)) ≤ -21 := by decide +kernel

/-- R125 item 3: the ORDINARY request and the freeze picture's are restored. -/
theorem test_temperatureAnswer_restores_the_clear :
    after (exec (.temperatureAnswer (-41)) (sPrepare sShown (.clear .ordinary))) (fun t => t.ctl.clearItem) =
      some (some .ordinary) ∧
    after (exec (.temperatureAnswer (-41)) (sPrepare sFrozen (.clear .freeze))) (fun t => t.ctl.clearItem) =
      some (some .freeze) := by decide +kernel

/-- A refresh in PREPARE after a number of aborts in a row. -/
def sAwaits (s : State) (x : Refresh) (aborts : Nat) : State :=
  { sPrepare s x with monitor := ⟨s0.monitor.record, aborts, none⟩ }

/-- A row with few rows indeterminate and with all, an ORDINARY panel clear, and the freeze picture in FROZEN and out of it. -/
theorem witness_NoAnswerAborts : ∀ k ∈ [1, 2], ∀ y ∈ [(sShown, Refresh.row 0), (s0, .row 0), (sShown, .clear .ordinary),
      (sFrozen, .clear .freeze), (sShown, .clear .freeze)],
    let s := sAwaits y.1 y.2 k
    active s = true ∧ s.engine.state = .prepare ∧ s.engine.refresh = some y.2 ∧ s.engine.waveform = none ∧
    s.engine.position = none ∧ s.monitor.aborts = k := by decide +kernel

theorem witness_NoAnswerAborts_2 :
    ((sAwaits sShown (.row 0) 1).rows.filter (fun row => row.shown.isNone)).length = 0 ∧
    3 ≤ ((sAwaits s0 (.row 0) 1).rows.filter (fun row => row.shown.isNone)).length ∧
    (sAwaits s0 (.row 0) 1).account.stage ≠ .frozen ∧ (sAwaits sFrozen (.clear .freeze) 1).account.stage = .frozen := by
  decide +kernel

/-- A refresh in DRIVE at WHITE, frame 3, after a number of aborts in a row: row 0 or every row in service. -/
def sCuts (x : Refresh) (a : Account) (aborts : Nat) : State := { sDriving with
  rows := match x with
    | .row _ => sDriving.rows
    | .clear _ => shownRows.map (fun row => { row with inService := true, drawing := some row.desired })
  account := a
  engine := { sDriving.engine with refresh := some x }
  monitor := ⟨s0.monitor.record, aborts, none⟩ }

/-- The accounts of a reservation in FULL and in FROZEN. -/
def inFull : Account := ⟨true, 2000000, some 700, .full, .none⟩

def inFrozen : Account := ⟨true, 50000, some 700, .frozen, .pending⟩

theorem witness_FaultsInDriveAbort : ∀ k ∈ [1, 2], ∀ y ∈ [(Refresh.row 0, inFull, 60), (.clear .ordinary, inFull, 240),
      (.clear .freeze, inFrozen, 240)],
    let s := sCuts y.1 y.2.1 k
    active s = true ∧ s.engine.state = .drive ∧ s.engine.refresh = some y.1 ∧ s.engine.waveform = some .full ∧
    s.engine.position = some ⟨.white, 3, 0, false⟩ ∧ s.engine.counts = some (10, 0) ∧ s.account.running = true ∧
    crossesNothing { s with account := { s.account with reservation := none } } (s.account.e - y.2.2) = true ∧
    s.pins.droop = false ∧ s.monitor.aborts = k := by decide +kernel

theorem witness_FaultsInDriveAbort_2 :
    20 + 4 * 10 + 0 = 60 ∧ 40 + (sDriving.cfg.n + 1) * (4 * 10 + 0) = 240 ∧
    [Refresh.row 0, .clear .ordinary].map (fun x => ((sCuts x inFull 1).rows.filter (fun row => row.inService)).length) =
      [1, 5] := by decide +kernel

/-- R158, R161, R167: the prorated cost of a panel clear, the clear made again, and the freeze picture's controller HELD. -/
theorem test_pfaultAssert_cuts_a_panel_clear :
    after (exec (.pfaultAssert false) (sCuts (.clear .ordinary) inFull 1))
      (fun t => (t.account.e, t.engine.refresh, t.monitor.record.row, t.monitor.aborts)) =
      some (1999760, some (.clear .ordinary), none, 2) ∧
    after (exec (.pfaultAssert false) (sCuts (.clear .freeze) inFrozen 1))
      (fun t => (t.account, t.ctl.clearItem, t.ctl.state, t.ctl.retry)) =
      some (⟨true, 49760, none, .frozen, .pending⟩, some .freeze, .held, some 480) := by decide +kernel

theorem witness_FaultInputsAndReleases_1 :
    active s0 = true ∧ s0.engine.state ≠ .drive ∧ s0.pins.droop = false := by decide +kernel

theorem witness_FaultInputsAndReleases_2 :
    let s : State := { s0 with
      pins := { noPins with droop := true }, ctl := { s0.ctl with state := .held, retry := some 0 } }
    active s = true ∧ nothingToSelect s = true ∧ s.pins.droop = true ∧ s.ctl.state = .held ∧
    s.ctl.retry = some 0 := by decide +kernel

theorem witness_FaultInputsAndReleases_3 :
    let s : State := { s0 with
      engine := { s0.engine with state := .lockout }, monitor := ⟨s0.monitor.record, 3, some 0⟩ }
    active s = true ∧ s.engine.state = .lockout ∧ s.monitor.lockout = some 0 ∧ selection s = none := by decide +kernel

/-- A HELD controller with row 0 pending. -/
def sHeldBack (st : EngineState) (droop : Bool) (lockout : Option Nat) : State := { sRaised [0] with
  pins := { noPins with droop := droop }
  ctl := { s0.ctl with state := .held, pointer := 3, retry := some 0 }
  engine := { Engine.initial with state := st }
  monitor := ⟨s0.monitor.record, 3, lockout⟩ }

theorem witness_FaultInputsAndReleases_4 :
    let s := sHeldBack .idle true none
    active s = true ∧ s.ctl.state = .held ∧ selection s = some (.row 0) ∧ s.engine.reading = none ∧ s.engine.state = .idle ∧
    s.pins.droop = true ∧ s.ctl.retry = some 0 ∧ s.account.running = true ∧
    crossesNothing s (min s.cfg.capacity (s.account.e + 64)) = true := by decide +kernel

theorem witness_FaultInputsAndReleases_5 :
    let s := sHeldBack .lockout false (some 0)
    active s = true ∧ s.ctl.state = .held ∧ selection s = some (.row 0) ∧ s.engine.reading = none ∧
    s.engine.state = .lockout ∧ s.monitor.lockout = some 0 := by decide +kernel

/-- Row 0's refresh in DRIVE at a frame of a phase. -/
def sAt (w : Waveform) (q : Phase) (frame : Nat) (gap : Bool) : State := { sDriving with
  engine := { sDriving.engine with waveform := some w, position := some ⟨q, frame, 0, gap⟩ } }

/-- A panel clear in DRIVE, in a row's period. -/
def sClear (row : Nat) : State := { sDriving with
  engine := { sDriving.engine with refresh := some (.clear .ordinary), position := some ⟨.white, 3, row, false⟩ } }

theorem witness_FramesGapsAndRowPeriods_1 :
    frameInHand (sAt .full .black 1 true) = some (.row 0, .full, .b3, ⟨.black, 1, 0, true⟩, (10, 0)) := by decide +kernel

theorem witness_FramesGapsAndRowPeriods_2 :
    frameInHand (sAt .full .white 3 false) = some (.row 0, .full, .b3, ⟨.white, 3, 0, false⟩, (10, 0)) ∧
    3 < phaseFrames .full .b3 .white := by decide +kernel

theorem witness_FramesGapsAndRowPeriods_3 :
    frameInHand (sAt .full .invert 4 false) = some (.row 0, .full, .b3, ⟨.invert, 4, 0, false⟩, (10, 0)) ∧
    phaseFrames .full .b3 .invert ≤ 4 ∧
    frameInHand (sAt .full .black 4 false) = some (.row 0, .full, .b3, ⟨.black, 4, 0, false⟩, (10, 0)) ∧
    phaseFrames .full .b3 .black ≤ 4 ∧
    frameInHand (sAt .full .white 4 false) = some (.row 0, .full, .b3, ⟨.white, 4, 0, false⟩, (10, 0)) ∧
    phaseFrames .full .b3 .white ≤ 4 ∧
    frameInHand (sAt .full .write 6 false) = some (.row 0, .full, .b3, ⟨.write, 6, 0, false⟩, (10, 0)) ∧
    phaseFrames .full .b3 .write ≤ 6 ∧
    frameInHand (sAt .full .rest 2 false) = some (.row 0, .full, .b3, ⟨.rest, 2, 0, false⟩, (10, 0)) ∧
    phaseFrames .full .b3 .rest ≤ 2 :=
  ⟨rfl, by decide, rfl, by decide, rfl, by decide, rfl, by decide, rfl, by decide⟩

theorem witness_FramesGapsAndRowPeriods_4 :
    frameInHand (sAt .partialWave .write 8 false) = some (.row 0, .partialWave, .b3, ⟨.write, 8, 0, false⟩, (10, 0)) ∧
    phaseFrames .partialWave .b3 .write ≤ 8 ∧
    frameInHand (sAt .partialWave .reinforce 4 false) = some (.row 0, .partialWave, .b3, ⟨.reinforce, 4, 0, false⟩, (10, 0)) ∧
    phaseFrames .partialWave .b3 .reinforce ≤ 4 ∧
    frameInHand (sAt .partialWave .rest 2 false) = some (.row 0, .partialWave, .b3, ⟨.rest, 2, 0, false⟩, (10, 0)) ∧
    phaseFrames .partialWave .b3 .rest ≤ 2 :=
  ⟨rfl, by decide, rfl, by decide, rfl, by decide⟩

theorem witness_FramesGapsAndRowPeriods_5 :
    ∀ row ∈ [3, 4], frameInHand (sClear row) =
      some (.clear .ordinary, .full, .b3, ⟨.white, 3, row, false⟩, (10, 0)) := by decide +kernel

theorem witness_FramesGapsAndRowPeriods_6 :
    (sClear 3).pending = [] ∧ (sClear 3).cfg.n = 4 ∧
    ∀ w ∈ [Waveform.full, .partialWave], ∀ q ∈ [Phase.invert, .black, .white, .write, .reinforce, .rest],
      let s : State := { sDriving with engine := { sDriving.engine with waveform := some w, bus := .driving 0 q } }
      s.engine.bus = .driving 0 q ∧ s.engine.waveform = some w ∧ s.rows[0]? ≠ none := by decide +kernel

/-- Row N's period ends the frame (R141): before it the frame clock passes to the next row, and the frame does not count. -/
theorem test_driveFrameEnd_rowPeriods :
    after (step { sClear 3 with pending := [.driveFrameEnd, .driveFrameEnd] }) (fun t => (t.engine.counts, t.engine.position)) =
      some (some (10, 0), some ⟨.white, 3, 4, false⟩) ∧
    after (step { sClear 4 with pending := [.driveFrameEnd] }) (fun t => (t.engine.counts, t.engine.position)) =
      some (some (11, 0), some ⟨.white, 4, 0, false⟩) := by decide +kernel

/-- A panel clear in SETTLE, every row in service, in the account given. -/
def sCleared (k : ClearKind) (a : Account) : State := { sSettle with
  rows := shownRows.map (fun row => { row with inService := true, drawing := some row.desired })
  account := a
  engine := { sSettle.engine with refresh := some (.clear k), cost := some 706 } }

theorem witness_CompletionShowsWhatWasDrawn_1 :
    active sSettle = true ∧ sSettle.engine.state = .settle ∧ sSettle.engine.refresh = some (.row 0) ∧
    sSettle.engine.waveform = some .full ∧ sSettle.engine.cost = some 94 ∧ sSettle.account.running = true ∧
    crossesNothing { sSettle with account := { sSettle.account with reservation := none } } (sSettle.account.e - 94) = true :=
      by decide +kernel

theorem witness_CompletionShowsWhatWasDrawn_2 :
    let s : State := sCleared .freeze ⟨true, 50000, some 706, .frozen, .pending⟩
    active s = true ∧ s.engine.state = .settle ∧ s.engine.refresh = some (.clear .freeze) ∧
    s.engine.waveform = some .full ∧ s.engine.cost = some 706 ∧ s.account.running = true ∧
    crossesNothing { s with account := { s.account with reservation := none } } (s.account.e - 706) = true ∧
    s.account.stage = .frozen ∧ s.ctl.clearItem = none ∧ s.startup.state = .service := by decide +kernel

/-- The freeze picture that ends outside FROZEN, in the fill period, and with a FREEZE request of a new stay standing. -/
theorem witness_CompletionShowsWhatWasDrawn_4 : ∀ a ∈ [(⟨true, 2000000, some 706, .full, .none⟩ : Account),
      ⟨true, 50000, some 706, .frozen, .pending⟩], ∀ st ∈ [StartupState.fill, .service],
    ∀ item ∈ [none, some ClearKind.ordinary, some .freeze],
    let u : State := sCleared .freeze a
    let s : State := { u with
      startup := { u.startup with state := st }
      ctl := { u.ctl with clearItem := item }
      engine := { u.engine with reading := some ⟨20, 100, true⟩ } }
    active s = true ∧ s.engine.state = .settle ∧ s.engine.refresh = some (.clear .freeze) ∧
    s.engine.waveform = some .full ∧ s.engine.cost = some 706 ∧ s.account.running = true ∧
    crossesNothing { s with account := { s.account with reservation := none } } (s.account.e - 706) = true := by decide +kernel

/-- R187: a freeze picture that ends in a new stay in FROZEN leaves FREEZE_PENDING and sets no mask, and is drawn again. -/
theorem test_refreshCompletion_in_a_new_stay :
    let u : State := sCleared .freeze ⟨true, 50000, some 706, .frozen, .pending⟩
    after (exec .refreshCompletion { u with
        ctl := { u.ctl with clearItem := some .freeze }, engine := { u.engine with reading := none } })
      (fun t => (t.account.freeze, t.rows.any (·.mask), t.engine.state, t.engine.refresh)) =
      some (.pending, false, .prepare, some (.clear .freeze)) := by decide +kernel

theorem witness_CompletionShowsWhatWasDrawn_3 :
    let s : State := sCleared .ordinary ⟨true, 2000000, some 706, .full, .none⟩
    active s = true ∧ s.engine.state = .settle ∧ s.engine.refresh = some (.clear .ordinary) ∧
    s.engine.waveform = some .full ∧ s.engine.cost = some 706 ∧ s.account.running = true ∧
    crossesNothing { s with account := { s.account with reservation := none } } (s.account.e - 706) = true := by decide +kernel

end Sys2Proof.Tests
end

section
/-! The readers of bodies (R9 to R12): words and bundle items by their bytes, for each kind when its reader answers and
with which fields. -/

namespace Sys2Proof.Machine

/-! ### Bytes, words and presence bits -/

theorem be16_toNat (hi lo : Byte) : (be16 hi lo).toNat = hi.toNat * 256 + lo.toNat := by
  have hlo : lo.toNat < 2 ^ 8 := lo.isLt
  rw [be16, BitVec.toNat_append, Nat.shiftLeft_eq, mul_comm, ← Nat.two_pow_add_eq_or_of_lt hlo]

theorem wordAt_toNat (l : List Byte) (i : Nat) :
    (wordAt l i).toNat = (byteAt l i).toNat * 256 + (byteAt l (i + 1)).toNat := be16_toNat _ _

/-- A word as a signed count: two's complement of its two bytes. -/
theorem wordAt_toInt (l : List Byte) (i : Nat) :
    (wordAt l i).toInt =
      let w := (byteAt l i).toNat * 256 + (byteAt l (i + 1)).toNat
      if w < 32768 then (w : Int) else (w : Int) - 65536 := by
  rw [BitVec.toInt_eq_toNat_cond, wordAt_toNat]
  dsimp only
  split <;> split <;> omega

/-- A status byte is read as a number (R9, R10). -/
theorem byte_eq_one_iff (x : Byte) : x = 1 ↔ x.toNat = 1 := BitVec.toNat_inj.symm

theorem bayInRange_iff (x : Byte) : bayInRange x = true ↔ 1 ≤ x.toNat ∧ x.toNat ≤ 26 := by
  simp [bayInRange]

theorem two_mul_present (p : Bool) : 2 * present p = if p then 2 else 0 := by
  cases p <;> rfl

/-- Item `j` of a bundle stands 4j bytes behind the first (R11). -/
theorem bundleItems_eq_map (l : List Byte) (i k : Nat) :
    bundleItems l i k =
      (List.range k).map (fun j => ((wordAt l (i + 4 * j)).toNat, (wordAt l (i + 2 + 4 * j)).toInt)) := by
  induction k generalizing i with
  | zero => rfl
  | succ k ih =>
    have hshift (j : Nat) : i + 4 + 4 * j = i + 4 * (j + 1) ∧ i + 4 + 2 + 4 * j = i + 2 + 4 * (j + 1) := by omega
    simp [bundleItems, ih, List.range_succ_eq_map, hshift]

section
variable {l : List Byte} {b : Body}

/-! ### When a body is consistent -/

theorem readReport_isSome_iff :
    (readReport l).isSome = true ↔
      l.length = 6 + (if (byteAt l 5).getLsbD 0 then 1 else 0) + (if (byteAt l 5).getLsbD 1 then 1 else 0) ∧
      ((byteAt l 4).toNat = 0 ∨ (byteAt l 4).toNat = 1) ∧
      ((byteAt l 5).getLsbD 0 = true → 1 ≤ (byteAt l 6).toNat ∧ (byteAt l 6).toNat ≤ 26) := by
  simp only [readReport, Option.isSome_ite, present, bayInRange_iff, Nat.le_one_iff_eq_zero_or_eq_one]

/-- A status field that is present is the body's last byte (R10). -/
theorem readAmendment_isSome_iff :
    (readAmendment l).isSome = true ↔
      l.length = 3 + (if (byteAt l 2).getLsbD 0 then 2 else 0) + (if (byteAt l 2).getLsbD 1 then 1 else 0)
        + (if (byteAt l 2).getLsbD 2 then 1 else 0) + (if (byteAt l 2).getLsbD 3 then 1 else 0) ∧
      ((byteAt l 2).getLsbD 1 = true →
        let bay := (byteAt l (3 + if (byteAt l 2).getLsbD 0 then 2 else 0)).toNat
        1 ≤ bay ∧ bay ≤ 26) ∧
      ((byteAt l 2).getLsbD 3 = true → (byteAt l (l.length - 1)).toNat ≤ 1) := by
  simp only [readAmendment, Option.isSome_ite, two_mul_present, bayInRange_iff]
  simp only [present]
  refine and_congr_right fun hlen => and_congr_right fun _ => imp_congr_right fun hstatus => ?_
  rw [hlen, if_pos hstatus, Nat.add_sub_cancel]

theorem readBundle_isSome_iff :
    (readBundle l).isSome = true ↔
      4 ≤ l.length ∧
      (byteAt l 0).toNat * 65536 + (byteAt l 1).toNat * 256 + (byteAt l 2).toNat ≤ 86399 ∧
      1 ≤ (byteAt l 3).toNat ∧ (byteAt l 3).toNat ≤ 6 ∧ l.length = 4 + 4 * (byteAt l 3).toNat := by
  simp only [readBundle, Option.isSome_ite, wordAt_toNat, Nat.add_assoc]

/-! ### The fields of a consistent body -/

theorem readReport_fields (h : readReport l = some b) :
    let bay := (byteAt l 5).getLsbD 0
    b = .report (wordAt l 0).toNat (wordAt l 2).toInt (decide ((byteAt l 4).toNat = 1))
      (if bay then some (byteAt l 6).toNat else none)
      (if (byteAt l 5).getLsbD 1 then some (readNotes (byteAt l (if bay then 7 else 6))) else none) := by
  obtain ⟨-, hb⟩ := Option.ite_none_right_eq_some.mp h
  have hnotes (p : Bool) : 6 + present p = if p then 7 else 6 := by cases p <;> rfl
  simpa only [hnotes, byte_eq_one_iff] using (Option.some.inj hb).symm

/-- Each present field stands behind those before it in the order remaining, bay, notes, status (R10). -/
theorem readAmendment_fields (h : readAmendment l = some b) :
    let rem := (byteAt l 2).getLsbD 0
    let bay := (byteAt l 2).getLsbD 1
    let note := (byteAt l 2).getLsbD 2
    let i := if rem then 5 else 3
    let j := if bay then i + 1 else i
    b = .amendment (wordAt l 0).toNat (if rem then some (wordAt l 3).toInt else none)
      (if bay then some (byteAt l i).toNat else none)
      (if note then some (readNotes (byteAt l j)) else none)
      (if (byteAt l 2).getLsbD 3 then some (decide ((byteAt l (if note then j + 1 else j)).toNat = 1)) else none) := by
  obtain ⟨-, hb⟩ := Option.ite_none_right_eq_some.mp h
  have hbay (p : Bool) : 3 + 2 * present p = if p then 5 else 3 := by cases p <;> rfl
  have hnext (p : Bool) (n : Nat) : n + present p = if p then n + 1 else n := by cases p <;> rfl
  simpa only [hbay, hnext, byte_eq_one_iff] using (Option.some.inj hb).symm

theorem readBundle_fields (h : readBundle l = some b) :
    b = .bundle ((byteAt l 0).toNat * 65536 + (byteAt l 1).toNat * 256 + (byteAt l 2).toNat)
      ((List.range (byteAt l 3).toNat).map
        (fun i => ((wordAt l (4 + 4 * i)).toNat, (wordAt l (6 + 4 * i)).toInt))) := by
  obtain ⟨-, hb⟩ := Option.ite_none_right_eq_some.mp h
  simpa only [wordAt_toNat l 1, ← Nat.add_assoc, bundleItems_eq_map] using (Option.some.inj hb).symm

theorem readBody_request_fields (h : readBody 4 l = some b) :
    b = .request (wordAt l 0) (byteAt l 2).toNat (byteAt l 3).toNat := by
  obtain ⟨-, hb⟩ := Option.ite_none_right_eq_some.mp h
  exact (Option.some.inj hb).symm

theorem readBody_reply_fields (h : readBody 5 l = some b) : b = .reply := by
  obtain ⟨-, hb⟩ := Option.ite_none_right_eq_some.mp h
  exact (Option.some.inj hb).symm

end

/-- Settles O11: each kind's body by its own reader, its words spelt out in their bytes. -/
theorem bodiesAreConsistentByTheirRules : Obligations.BodiesAreConsistentByTheirRules := by
  refine ⟨fun l => ⟨readReport_isSome_iff, readAmendment_isSome_iff, readBundle_isSome_iff, ?request, ?reply⟩,
    fun l b => ⟨fun h => ?reportFields, fun h => ?amendmentFields, fun h => ?bundleFields,
      readBody_request_fields, readBody_reply_fields⟩⟩
  case request => exact Option.isSome_ite
  case reply => exact Option.isSome_ite
  case reportFields => simpa only [wordAt_toNat, wordAt_toInt, readNotes] using readReport_fields h
  case amendmentFields => simpa only [wordAt_toNat, wordAt_toInt, readNotes] using readAmendment_fields h
  case bundleFields => simpa only [wordAt_toNat, wordAt_toInt] using readBundle_fields h

end Sys2Proof.Machine
end

section
/-! The relay decision (R42, R43) and the order of the relay queue (R41): the updates of a seen entry, the eligibility of a
frame, the delay drawn, and the place of a new entry. -/

namespace Sys2Proof.Machine

section
variable {o q : Word16} {f g : SeenEntry → SeenEntry}

theorem SeenEntry.hasKey_congr {x y : SeenEntry} (h : x.key = y.key) : x.hasKey o q = y.hasKey o q := by
  rw [Bool.eq_iff_iff, SeenEntry.hasKey_iff, SeenEntry.hasKey_iff, h]

theorem findSeen_updateSeen (hf : ∀ e, (f e).key = e.key) (l : List SeenEntry) :
    findSeen o q (updateSeen o q f l) = (findSeen o q l).map f := by
  induction l with
  | nil => rfl
  | cons x l ih =>
    by_cases hx : x.hasKey o q = true
    · have hfx : (f x).hasKey o q = true := (SeenEntry.hasKey_congr (hf x)).trans hx
      simp [findSeen, updateSeen, hx, hfx]
    · simpa [findSeen, updateSeen, hx] using ih

theorem updateSeen_updateSeen (hg : ∀ e, (g e).key = e.key) (l : List SeenEntry) :
    updateSeen o q f (updateSeen o q g l) = updateSeen o q (fun e => f (g e)) l := by
  simp only [updateSeen, List.map_map]
  refine List.map_congr_left fun x _ => ?_
  by_cases hx : x.hasKey o q = true
  · have hgx : (g x).hasKey o q = true := (SeenEntry.hasKey_congr (hg x)).trans hx
    simp [hx, hgx]
  · simp [hx]

end

theorem stagePermits_iff (st : Stage) (interest : Bool) :
    stagePermits st interest = true ↔ st = .full ∨ (st = .thrift ∧ interest = true) := by
  cases st <;> simp [stagePermits]

theorem eligible_iff (s : State) (f : Frame) :
    eligible s f = true ↔ 1 ≤ f.hop ∧ s.cfg.ownId ∉ f.trail ∧ f.age < 2400 ∧
      (s.account.stage = .full ∨ (s.account.stage = .thrift ∧ inInterest s.cfg f.route f.dir = true)) ∧
      (f.trailCount = 4 ∨ f.len ≤ 94) := by
  simp only [eligible, Bool.and_eq_true, Bool.or_eq_true, Bool.not_eq_true', decide_eq_true_eq, stagePermits_iff,
    List.contains_eq_mem, decide_eq_false_iff_not, and_assoc]

/-- The delay is the least number of ticks of 125 ms that the 200 to 1220 ms drawn fit in (R43). -/
theorem relayDelayTicks_bounds {n : Nat} (hn : n < 256) :
    2 ≤ relayDelayTicks n ∧ relayDelayTicks n ≤ 10 ∧
      125 * relayDelayTicks n < 200 + 4 * n + 125 ∧ 200 + 4 * n ≤ 125 * relayDelayTicks n := by
  unfold relayDelayTicks
  omega

/-- The state after a frame's relay decision but for the queue and the counters: dispatch pending no, and the entry's state
changed to `st` when there is one (R42). -/
def State.decided (f : Frame) (st : Option SeenState) (s : State) : State :=
  { s with
    seen := updateSeen f.origin f.seq (fun x => { x with dispatchPending := false, state := st.getD x.state }) s.seen }

theorem setSeenState_decided (f : Frame) (st : SeenState) (s : State) :
    (s.decided f none).setSeenState f.origin f.seq st = s.decided f (some st) := by
  rw [State.setSeenState, State.decided, updateSeen_updateSeen (by exact fun _ => rfl)]
  rfl

theorem copiesOf_decided {f : Frame} {s : State} {e : SeenEntry} (h : findSeen f.origin f.seq s.seen = some e) :
    copiesOf (s.decided f none) f.origin f.seq = e.copies := by
  rw [copiesOf, State.decided, findSeen_updateSeen (by exact fun _ => rfl), h]
  rfl

theorem queueRelay_decided (f : Frame) (bytes : List Byte) (t : Tick) (s : State) :
    (s.decided f none).queueRelay f bytes t =
      { s.decided f (some .waiting) with
        rng := lfsrDraw s.rng
        relayQ := insertRelay s.clock ⟨f.origin, f.seq, syncBytes ++ bytes, t,
          t + BitVec.ofNat 32 (relayDelayTicks ((lfsrDraw s.rng).toNat % 256)), 0⟩ s.relayQ } := by
  rw [← setSeenState_decided]
  rfl

/-- The decision in terms of the entry found (R42). -/
theorem relayDecision_eq {f : Frame} {s : State} {e : SeenEntry} (bytes : List Byte) (t : Tick)
    (h : findSeen f.origin f.seq s.seen = some e) :
    s.relayDecision f bytes t =
      if eligible s f then
        if s.cfg.suppression ≤ e.copies then (s.decided f (some .suppressed)).count .relaySuppressed
        else if s.relayQ.length < 8 then (s.decided f none).queueRelay f bytes t
        else (s.decided f (some .abandoned)).count .relayAbandoned
      else s.decided f none := by
  rw [← copiesOf_decided h, ← setSeenState_decided, ← setSeenState_decided]
  rfl

theorem insertRelay_splits (now : Tick) (e : RelayEntry) (l : List RelayEntry)
    (h : l.Pairwise (fun a b => tickDiff a.due now ≤ tickDiff b.due now)) :
    ∃ before after : List RelayEntry, l = before ++ after ∧ insertRelay now e l = before ++ e :: after ∧
      (∀ x ∈ before, tickDiff x.due now ≤ tickDiff e.due now) ∧ ∀ x ∈ after, tickDiff e.due now < tickDiff x.due now := by
  induction l with
  | nil => exact ⟨[], [], rfl, rfl, by simp, by simp⟩
  | cons x l ih =>
    obtain ⟨hx, hl⟩ := List.pairwise_cons.1 h
    by_cases hlt : tickDiff e.due now < tickDiff x.due now
    · refine ⟨[], x :: l, rfl, by simp [insertRelay, hlt], by simp, fun y hy => ?_⟩
      rcases List.mem_cons.1 hy with rfl | hy
      · exact hlt
      · exact hlt.trans_le (hx y hy)
    · obtain ⟨before, after, rfl, hins, hbefore, hafter⟩ := ih hl
      refine ⟨x :: before, after, rfl, by simp [insertRelay, hlt, hins], fun y hy => ?_, hafter⟩
      rcases List.mem_cons.1 hy with rfl | hy
      · exact not_lt.1 hlt
      · exact hbefore y hy

/-- Settles O38: the decision by `relayDecision_eq`, the place in the queue by `insertRelay_splits`. -/
theorem relayDecisionByEligibility : Obligations.RelayDecisionByEligibility := by
  refine ⟨fun f bytes t0 s e hfind => ?_, insertRelay_splits⟩
  have hdec := relayDecision_eq bytes t0 hfind
  intro mine decided elig
  refine ⟨fun hel => ?stays, fun hel hc => ?suppressed, fun hel hc hq => ?abandoned, fun hel hc hq => ?queued⟩
  case stays => rw [hdec, if_neg (mt (eligible_iff s f).1 hel)]; rfl
  case suppressed => rw [hdec, if_pos ((eligible_iff s f).2 hel), if_pos hc]; rfl
  case abandoned =>
    rw [hdec, if_pos ((eligible_iff s f).2 hel), if_neg (Nat.not_le.2 hc), if_neg (Nat.not_lt.2 hq)]; rfl
  case queued =>
    obtain ⟨hlo, hhi, hup, hdown⟩ := relayDelayTicks_bounds (Nat.mod_lt (lfsrDraw s.rng).toNat (by decide : 0 < 256))
    refine ⟨relayDelayTicks ((lfsrDraw s.rng).toNat % 256), hlo, hhi, hup, hdown, ?_⟩
    rw [hdec, if_pos ((eligible_iff s f).2 hel), if_neg (Nat.not_le.2 hc), if_pos hq, queueRelay_decided]
    rfl

end Sys2Proof.Machine
end

section
/-! What ages out at a whole second boundary: seen entries (R40) and relays with their attempt (R45, R34). -/

namespace Sys2Proof.Machine

/-! ### Seen entries -/

theorem keepsSeen_eq (now : Tick) (e : SeenEntry) :
    keepsSeen now e =
      !(decide (4800 < (now - e.firstHeard).toInt) && !(decide (e.state = .waiting) || e.dispatchPending)) := by
  have hyoung : decide (tickDiff now e.firstHeard ≤ 4800) = !decide (4800 < (now - e.firstHeard).toInt) := by
    rw [← decide_not]
    exact decide_eq_decide.2 not_lt.symm
  rw [keepsSeen, hyoung, Bool.not_and, Bool.not_not, Bool.or_assoc]

/-! ### The relays of a list abandoned -/

theorem bump_eq_min (n : Nat) : bump n = min 65535 (n + 1) := by
  unfold bump
  split <;> omega

/-- A relay of the list has the key. -/
def namesKey (l : List RelayEntry) (o q : Word16) : Bool := l.any (RelayEntry.hasKey o q)

theorem namesKey_cons (x : RelayEntry) (l : List RelayEntry) (o q : Word16) :
    namesKey (x :: l) o q = (x.hasKey o q || namesKey l o q) := rfl

theorem SeenEntry.hasKey_relay (x : RelayEntry) (e : SeenEntry) : e.hasKey x.origin x.seq = x.hasKey e.origin e.seq := by
  simp only [SeenEntry.hasKey, RelayEntry.hasKey, eq_comm]

theorem RelayEntry.hasKey_relay (x e : RelayEntry) : e.hasKey x.origin x.seq = x.hasKey e.origin e.seq := by
  simp only [RelayEntry.hasKey, eq_comm]

/-- The relay queue without the keys of a list of relays. -/
def withoutKeys (l q : List RelayEntry) : List RelayEntry := q.filter (fun e => !namesKey l e.origin e.seq)

/-- The seen table with the entries of the keys of a list of relays ABANDONED. -/
def markAbandoned (l : List RelayEntry) (seen : List SeenEntry) : List SeenEntry :=
  seen.map (fun e => if namesKey l e.origin e.seq then { e with state := .abandoned } else e)

theorem withoutKeys_nil (q : List RelayEntry) : withoutKeys [] q = q := by simp [withoutKeys, namesKey]

theorem withoutKeys_cons (x : RelayEntry) (l q : List RelayEntry) :
    withoutKeys (x :: l) q = withoutKeys l (q.filter (fun e => !e.hasKey x.origin x.seq)) := by
  simp only [withoutKeys, List.filter_filter, namesKey_cons, RelayEntry.hasKey_relay x, Bool.not_or, Bool.and_comm]

theorem markAbandoned_nil (seen : List SeenEntry) : markAbandoned [] seen = seen := by simp [markAbandoned, namesKey]

theorem markAbandoned_cons (x : RelayEntry) (l : List RelayEntry) (seen : List SeenEntry) :
    markAbandoned (x :: l) seen =
      markAbandoned l (updateSeen x.origin x.seq (fun e => { e with state := .abandoned }) seen) := by
  simp only [markAbandoned, updateSeen, List.map_map]
  refine List.map_congr_left fun e _ => ?_
  cases hx : x.hasKey e.origin e.seq <;> simp [namesKey_cons, SeenEntry.hasKey_relay, hx]

/-- The state after the relays of a list are abandoned (R45). -/
def State.relaysEnded (l : List RelayEntry) (s : State) : State :=
  { s with
    relayQ := withoutKeys l s.relayQ
    seen := markAbandoned l s.seen
    maint := { s.maint with counters := { s.maint.counters with
      relayAbandoned := min 65535 (s.maint.counters.relayAbandoned + l.length) } } }

theorem abandonRelays_eq (l : List RelayEntry) (s : State) (hr : s.maint.counters.relayAbandoned ≤ 65535) :
    State.abandonRelays l s = s.relaysEnded l := by
  induction l generalizing s with
  | nil =>
    rw [State.relaysEnded, withoutKeys_nil, markAbandoned_nil, List.length_nil, Nat.add_zero, Nat.min_eq_right hr]
    rfl
  | cons x l ih =>
    have hcount : min 65535 (bump s.maint.counters.relayAbandoned + l.length) =
        min 65535 (s.maint.counters.relayAbandoned + (x :: l).length) := by
      rw [bump_eq_min, List.length_cons]
      omega
    rw [State.abandonRelays, ih (s.abandonRelay x.origin x.seq) (bump_le _), State.relaysEnded, State.relaysEnded,
      withoutKeys_cons, markAbandoned_cons, ← hcount]
    rfl

/-! ### The attempt of a relay that may have left its queue -/

theorem inQueue_relay_iff (s : State) (o q : Word16) :
    inQueue s (.relay o q) = true ↔ ∃ e ∈ s.relayQ, e.origin = o ∧ e.seq = q := by
  simp [inQueue, findRelay, RelayEntry.hasKey]

theorem recheckAttempt_idle {s : State} (h : s.cau = .idle) : recheckAttempt s = s := by
  simp [recheckAttempt, h]

theorem recheckAttempt_queued {s : State} {c : Candidate} {ms : Nat} (h : s.cau = .contending c ms)
    (hq : inQueue s c = true) : recheckAttempt s = s := by
  simp [recheckAttempt, h, hq]

/-- A contention delay whose candidate has left its queue is cancelled, and with nothing to send the attempt ends (R34, R35). -/
theorem recheckAttempt_left {s : State} {c : Candidate} {ms : Nat} (h : s.cau = .contending c ms)
    (hq : inQueue s c = false) (hn : candidate? s = none) (ha : receiverAgrees (s.setCau .idle) = true) :
    recheckAttempt s = s.setCau .idle := by
  have hn' : candidate? (s.setCau .idle) = none := hn
  simp [recheckAttempt, h, hq, endAttempt, startAttempt_none _ hn', receiverFollow_agrees _ ha]

/-! ### The commands -/

theorem exec_seenEntryAgeOut_boundary {s : State} (h : active s = true) (hb : s.clock.toNat % 8 = 0) :
    exec .seenEntryAgeOut s = .next { s with seen := s.seen.filter (keepsSeen s.clock) } :=
  if_pos ⟨h, decide_eq_true hb⟩

theorem exec_seenEntryAgeOut_between {s : State} (hb : s.clock.toNat % 8 ≠ 0) : exec .seenEntryAgeOut s = .next s :=
  if_neg fun h => hb (of_decide_eq_true h.2)

theorem exec_relayLifetimeExpiry_boundary {s : State} (h : active s = true) (hb : s.clock.toNat % 8 = 0)
    (hr : CountersInRange s) :
    exec .relayLifetimeExpiry s = .next (recheckAttempt (s.relaysEnded (s.relayQ.filter (lifetimeOver s.clock)))) := by
  rw [← abandonRelays_eq _ s (hr _ (by simp [countersList]))]
  exact if_pos ⟨h, decide_eq_true hb⟩

/-- Settles O21: the entries by `keepsSeen_eq`, the relays by `abandonRelays_eq`, the attempt by what `recheckAttempt` does
with an idle unit, a candidate still queued, and one that has left. -/
theorem entriesAndRelaysAgeOut : Obligations.EntriesAndRelaysAgeOut := by
  refine ⟨fun s hact => ⟨fun hb => ?aged, exec_seenEntryAgeOut_between⟩, fun s hact hb hr => ?relays⟩
  case aged =>
    rw [exec_seenEntryAgeOut_boundary hact hb, funext (keepsSeen_eq s.clock)]
  case relays =>
    have hexec := exec_relayLifetimeExpiry_boundary hact hb hr
    intro ended left
    refine ⟨fun hidle => ?idle, fun o q ms hcau => ⟨fun hstays => ?stays, fun hleft hnone hagrees => ?cancelled⟩⟩
    case idle => exact hexec.trans (congrArg _ (recheckAttempt_idle hidle))
    case stays => exact hexec.trans (congrArg _ (recheckAttempt_queued hcau ((inQueue_relay_iff _ o q).2 hstays)))
    case cancelled =>
      have hq : inQueue left (.relay o q) = false := by
        rw [Bool.eq_false_iff, ne_eq, inQueue_relay_iff]
        exact fun ⟨e, he, hk⟩ => hleft e he hk
      exact hexec.trans (congrArg _ (recheckAttempt_left hcau hq hnone hagrees))

end Sys2Proof.Machine
end

section
/-! Frames laid out by Table 1-1 (R6, R7): what reading one gives back, and the relay of a frame with its header rewritten
(R47). -/

namespace Sys2Proof.Machine

/-! ### Words and counts as bytes -/

@[simp] theorem be16_of_word (w : Word16) : be16 (w.extractLsb' 8 8) (w.extractLsb' 0 8) = w := by
  refine BitVec.eq_of_toNat_eq ?_
  have hw := w.isLt
  rw [be16_toNat, BitVec.extractLsb'_toNat, BitVec.extractLsb'_toNat, Nat.shiftRight_eq_div_pow, Nat.shiftRight_zero]
  omega

theorem natByte_toNat {n : Nat} (h : n ≤ 255) : (natByte n).toNat = n := by
  rw [natByte, BitVec.toNat_ofNat]
  omega

/-- The nibbles of the kind and hop byte (Table 1-1). -/
theorem natByte_nibbles {kind hop : Nat} (hk : kind ≤ 15) (hh : hop ≤ 15) :
    ((natByte (kind * 16 + hop)).extractLsb' 4 4).toNat = kind ∧
      ((natByte (kind * 16 + hop)).extractLsb' 0 4).toNat = hop := by
  rw [BitVec.extractLsb'_toNat, BitVec.extractLsb'_toNat, natByte_toNat (by omega), Nat.shiftRight_eq_div_pow,
    Nat.shiftRight_zero]
  omega

/-- The two fields of the age word (Table 1-1). -/
theorem ageWord_fields {age t : Nat} (ha : age ≤ 8191) (ht : t ≤ 7) :
    ((BitVec.ofNat 16 (age * 8 + t)).extractLsb' 3 13).toNat = age ∧
      ((BitVec.ofNat 16 (age * 8 + t)).extractLsb' 0 3).toNat = t := by
  rw [BitVec.extractLsb'_toNat, BitVec.extractLsb'_toNat, BitVec.toNat_ofNat, Nat.shiftRight_eq_div_pow,
    Nat.shiftRight_zero]
  omega

/-! ### Bytes and words at an offset -/

theorem byteAt_append (pre l : List Byte) (i : Nat) : byteAt (pre ++ l) (pre.length + i) = byteAt l i := by
  simp [byteAt, List.getD_eq_getElem?_getD, List.getElem?_append_right]

theorem byteAt_append_cons (pre rest : List Byte) (x : Byte) : byteAt (pre ++ x :: rest) pre.length = x :=
  byteAt_append pre (x :: rest) 0

theorem wordAt_append (pre rest : List Byte) (w : Word16) :
    wordAt (pre ++ (word16Bytes w ++ rest)) pre.length = w := by
  rw [wordAt, byteAt_append]
  exact (congrArg (be16 · _) (byteAt_append_cons ..)).trans (be16_of_word w)

theorem trailBytes_length (trail : List Word16) : (trail.flatMap word16Bytes).length = 2 * trail.length := by
  simp [List.length_flatMap, word16Bytes, Nat.mul_comm]

theorem trailFrom_append (pre : List Byte) (trail : List Word16) (rest : List Byte) :
    trailFrom (pre ++ (trail.flatMap word16Bytes ++ rest)) pre.length trail.length = trail := by
  induction trail generalizing pre with
  | nil => rfl
  | cons w trail ih =>
    have hnext := ih (pre ++ word16Bytes w)
    rw [List.flatMap_cons, List.append_assoc, List.length_cons, trailFrom, wordAt_append]
    rw [List.length_append, List.append_assoc] at hnext
    exact congrArg _ hnext

theorem trailFrom_length (l : List Byte) (i t : Nat) : (trailFrom l i t).length = t := by
  induction t generalizing i with
  | zero => rfl
  | succ t ih => rw [trailFrom, List.length_cons, ih]

/-! ### What reading a laid out frame gives back -/

/-- The eleven bytes of a header before its trail (Table 1-1). -/
def headerStart (key : Byte) (kind hop : Nat) (origin seq : Word16) (age : Nat) (subject : Word16) (t bodyLen : Nat) :
    List Byte :=
  natByte (13 + 2 * t + bodyLen) :: key :: natByte (kind * 16 + hop) ::
    (word16Bytes origin ++ word16Bytes seq ++ nat16Bytes (age * 8 + t) ++ word16Bytes subject)

section
variable (key : Byte) (kind hop : Nat) (origin seq : Word16) (age : Nat) (subject : Word16) (trail : List Word16)
  (body : List Byte) (w : Word16)

/-- The header that the header check covers (R7). -/
def headerBytes (bodyLen : Nat) : List Byte :=
  headerStart key kind hop origin seq age subject trail.length bodyLen ++ trail.flatMap word16Bytes

theorem headerBytes_length (bodyLen : Nat) :
    (headerBytes key kind hop origin seq age subject trail bodyLen).length = 11 + 2 * trail.length := by
  rw [headerBytes, List.length_append, trailBytes_length]
  rfl

theorem buildFrame_eq :
    buildFrame key kind hop origin seq age subject trail (body ++ word16Bytes w) =
      let header := headerBytes key kind hop origin seq age subject trail body.length
      syncBytes ++ (header ++ headerCheck header :: (body ++ word16Bytes w)) := by
  have hlen : 11 + 2 * trail.length + (body ++ word16Bytes w).length = 13 + 2 * trail.length + body.length := by
    simp [word16Bytes]
    omega
  rw [buildFrame, hlen]
  simp [headerBytes, headerStart]

variable {key kind hop origin seq age subject trail body w}

/-- Reading the bytes that a header, its check, a body and its check word make (Table 1-1). -/
theorem readFrame_headerBytes (hkind : kind ≤ 15) (hhop : hop ≤ 15) (hage : age ≤ 8191) (htrail : trail.length ≤ 7)
    (hlen : 13 + 2 * trail.length + body.length ≤ 255) :
    let header := headerBytes key kind hop origin seq age subject trail body.length
    readFrame (header ++ headerCheck header :: (body ++ word16Bytes w)) =
      { len := 13 + 2 * trail.length + body.length, networkKey := key, kind := kind, hop := hop, origin := origin,
        seq := seq, age := age, trailCount := trail.length, subject := subject, trail := trail,
        check := headerCheck header, body := body, bodyCheckWord := w } := by
  intro header
  have hheader : header.length = 11 + 2 * trail.length := headerBytes_length ..
  set check := headerCheck header
  set l := header ++ check :: (body ++ word16Bytes w) with hl
  obtain ⟨hageField, hcountField⟩ := ageWord_fields hage htrail
  obtain ⟨hkindField, hhopField⟩ := natByte_nibbles hkind hhop
  have hageWord : wordAt l 7 = BitVec.ofNat 16 (age * 8 + trail.length) := be16_of_word _
  have horigin : wordAt l 3 = origin := be16_of_word _
  have hseq : wordAt l 5 = seq := be16_of_word _
  have hsubject : wordAt l 9 = subject := be16_of_word _
  have hlenField : (byteAt l 0).toNat = 13 + 2 * trail.length + body.length := natByte_toNat hlen
  have hbodyLen : 13 + 2 * trail.length + body.length - 13 - 2 * trail.length = body.length := by omega
  have htrailField : trailFrom l 11 trail.length = trail := by
    have hstart : l = headerStart key kind hop origin seq age subject trail.length body.length ++
        (trail.flatMap word16Bytes ++ check :: (body ++ word16Bytes w)) := List.append_assoc ..
    rw [hstart]
    exact trailFrom_append _ trail _
  have hcheck : byteAt l (11 + 2 * trail.length) = check := by
    rw [← hheader]
    exact byteAt_append_cons ..
  have hchecked : l = (header ++ [check]) ++ (body ++ word16Bytes w) := by simp [hl]
  have hcheckedLen : (header ++ [check]).length = 12 + 2 * trail.length := by simp [hheader]; omega
  have hbody : (l.drop (12 + 2 * trail.length)).take body.length = body := by
    rw [hchecked, List.drop_left' hcheckedLen, List.take_left]
  have hword : wordAt l (12 + 2 * trail.length + body.length) = w := by
    rw [hchecked, ← hcheckedLen, ← List.length_append, ← List.append_assoc, ← List.append_nil (word16Bytes w)]
    exact wordAt_append ..
  rw [readFrame]
  simp only [hageWord, hcountField, hageField, hlenField, hbodyLen, htrailField, hcheck, hbody, hword, horigin, hseq,
    hsubject]
  exact Frame.mk.injEq .. ▸ ⟨rfl, rfl, hkindField, hhopField, rfl, rfl, rfl, rfl, rfl, rfl, rfl, rfl, rfl⟩

/-- A frame laid out by Table 1-1 has its sync bytes, its length, a header check that holds, and its fields. -/
theorem buildFrame_readsBack (hkind : kind ≤ 15) (hhop : hop ≤ 15) (hage : age ≤ 8191) (htrail : trail.length ≤ 7)
    (hlen : 13 + 2 * trail.length + body.length ≤ 255) :
    let sent := buildFrame key kind hop origin seq age subject trail (body ++ word16Bytes w)
    sent.take 2 = syncBytes ∧ headerOk (sent.drop 2) = true ∧ sent.length = 16 + 2 * trail.length + body.length ∧
    readFrame (sent.drop 2) =
      { len := 13 + 2 * trail.length + body.length, networkKey := key, kind := kind, hop := hop, origin := origin,
        seq := seq, age := age, trailCount := trail.length, subject := subject, trail := trail,
        check := headerCheck ((sent.drop 2).take (11 + 2 * trail.length)), body := body, bodyCheckWord := w } := by
  intro sent
  have hsent : sent = _ := buildFrame_eq key kind hop origin seq age subject trail body w
  have hheader := headerBytes_length key kind hop origin seq age subject trail body.length
  set header := headerBytes key kind hop origin seq age subject trail body.length
  have hdrop : sent.drop 2 = header ++ headerCheck header :: (body ++ word16Bytes w) := by rw [hsent]; rfl
  have htake : (sent.drop 2).take (11 + 2 * trail.length) = header := by rw [hdrop, List.take_left' hheader]
  have hread : readFrame (sent.drop 2) = _ :=
    (congrArg readFrame hdrop).trans (readFrame_headerBytes hkind hhop hage htrail hlen)
  refine ⟨by rw [hsent]; rfl, ?_, ?_, by rw [htake]; exact hread⟩
  · rw [headerOk, hread, htake, decide_eq_true_eq]
  · rw [hsent]
    simp [syncBytes, word16Bytes, hheader]
    omega

end

/-! ### The fields of a received frame -/

theorem readFrame_ranges (l : List Byte) :
    (readFrame l).len ≤ 255 ∧ (readFrame l).kind ≤ 15 ∧ (readFrame l).hop ≤ 15 :=
  ⟨Nat.le_of_lt_succ (byteAt l 0).isLt, Nat.le_of_lt_succ (BitVec.isLt _), Nat.le_of_lt_succ (BitVec.isLt _)⟩

theorem readFrame_trail_length (l : List Byte) : (readFrame l).trail.length = (readFrame l).trailCount :=
  trailFrom_length ..

/-- A well placed frame received whole has the body that its length byte and its trail count give (R6). -/
theorem readFrame_body_length {l : List Byte} (hlen : l.length = (readFrame l).len + 1)
    (hplaced : (readFrame l).wellPlaced = true) :
    13 + 2 * (readFrame l).trailCount + (readFrame l).body.length = (readFrame l).len := by
  have hb : 13 + 2 * (readFrame l).trailCount ≤ (readFrame l).len := of_decide_eq_true hplaced
  have hbody : (readFrame l).body =
      (l.drop (12 + 2 * (readFrame l).trailCount)).take ((readFrame l).len - 13 - 2 * (readFrame l).trailCount) := rfl
  rw [hbody, List.length_take, List.length_drop, hlen]
  omega

/-! ### The relay of a frame -/

/-- The trail that a frame's relay carries: the own id at its end, the oldest of four dropped (R47). -/
def Frame.relayTrail (f : Frame) (ownId : Word16) : List Word16 :=
  (if f.trailCount = 4 then f.trail.drop 1 else f.trail) ++ [ownId]

/-- How many ids the trail grows by (R47). -/
def Frame.trailGrows (f : Frame) : Nat := if f.trailCount = 4 then 0 else 1

theorem Frame.relayTrail_length {f : Frame} (ownId : Word16) (h : f.trail.length = f.trailCount) :
    (f.relayTrail ownId).length = f.trailCount + f.trailGrows := by
  unfold Frame.relayTrail Frame.trailGrows
  split
  · simp [h, ‹f.trailCount = 4›]
  · simp [h]

theorem Frame.trailGrows_fits {f : Frame} (ht : f.trailCount ≤ 4) (hroom : f.trailCount = 4 ∨ f.len ≤ 94)
    (hlen : f.len ≤ 255) : f.trailCount + f.trailGrows ≤ 4 ∧ f.len + 2 * f.trailGrows ≤ 255 := by
  unfold Frame.trailGrows
  split <;> omega

theorem candidateFrame_relay {s : State} {origin seq : Word16} {e : RelayEntry} {l : List Byte}
    (hfind : findRelay origin seq s.relayQ = some e) (hframe : e.frame = syncBytes ++ l) :
    candidateFrame s (.relay origin seq) =
      let f := readFrame l
      buildFrame f.networkKey f.kind (f.hop - 1) f.origin f.seq (min 8191 (f.age + (s.clock - e.holdStart).toNat)) f.subject
        (f.relayTrail s.cfg.ownId) (f.body ++ word16Bytes f.bodyCheckWord) := by
  simp only [candidateFrame, hfind, relayFrame, hframe]
  rfl

/-- Settles O9: the relay is a frame laid out by Table 1-1, whose fields read back by `buildFrame_readsBack`. -/
theorem relayRewritesTheHeader : Obligations.RelayRewritesTheHeader := by
  intro s origin seq e l hfind hframe hlen hplaced ht _ hroom f sent grows
  obtain ⟨hlen255, hkind, hhop⟩ : f.len ≤ 255 ∧ f.kind ≤ 15 ∧ f.hop ≤ 15 := readFrame_ranges l
  obtain ⟨hids, hroomy⟩ : f.trailCount + grows ≤ 4 ∧ f.len + 2 * grows ≤ 255 := Frame.trailGrows_fits ht hroom hlen255
  have hbody : 13 + 2 * f.trailCount + f.body.length = f.len := readFrame_body_length hlen hplaced
  have htrail : (f.relayTrail s.cfg.ownId).length = f.trailCount + grows :=
    Frame.relayTrail_length _ (readFrame_trail_length l)
  have hsentLen : 13 + 2 * (f.relayTrail s.cfg.ownId).length + f.body.length = f.len + 2 * grows := by omega
  have hsent : sent = _ := candidateFrame_relay hfind hframe
  obtain ⟨hsync, hcheck, hwhole, hread⟩ := buildFrame_readsBack (key := f.networkKey) (origin := f.origin) (seq := f.seq)
    (subject := f.subject) (w := f.bodyCheckWord) hkind (hop := f.hop - 1) ((Nat.sub_le ..).trans hhop)
    (Nat.min_le_left 8191 (f.age + (s.clock - e.holdStart).toNat)) (by omega) (hsentLen ▸ hroomy)
  rw [← hsent] at hsync hcheck hwhole hread
  rw [hsentLen, htrail] at hread
  exact ⟨hsync, hcheck, by omega, hread⟩

end Sys2Proof.Machine
end

section
/-! The table order (R54) as a linear order of ranks, insertion by it (R55), and the capacity rule (R66). -/

namespace Sys2Proof.Machine

/-! ### The rank of an entry -/

/-- What the table orders by: the signed distance of D from the current tick, then route, direction and trip, compared in that
order (R54). -/
abbrev TableRank : Type := ℤ ×ₗ ℕ ×ₗ Bool ×ₗ ℕ

/-- The rank of an entry of the given D and key. -/
def tableRank (now d : Tick) (k : Key) : TableRank :=
  toLex (tickDiff d now, toLex (k.route, toLex (k.dir, k.trip)))

theorem keyBefore_iff (a b : Key) :
    keyBefore a b = true ↔
      a.route < b.route ∨ (a.route = b.route ∧ ((a.dir = false ∧ b.dir = true) ∨ (a.dir = b.dir ∧ a.trip < b.trip))) := by
  unfold keyBefore
  split
  case isTrue hroute => simp [hroute]
  case isFalse hroute =>
    rw [not_not] at hroute
    split
    case isTrue hdir =>
      have hother : b.dir = !a.dir := Bool.eq_not_of_ne hdir.symm
      simp [hroute, hother]
    case isFalse hdir =>
      rw [not_not] at hdir
      simp [hroute, hdir]

theorem entryBefore_iff (now : Tick) (a b : DepEntry) :
    entryBefore now a b = true ↔
      tickDiff a.d now < tickDiff b.d now ∨ (tickDiff a.d now = tickDiff b.d now ∧ keyBefore a.key b.key = true) := by
  unfold entryBefore
  split
  case isTrue hd => simp [hd]
  case isFalse hd =>
    rw [not_not] at hd
    simp [hd]

theorem entryBefore_iff_rank_lt (now : Tick) (a b : DepEntry) :
    entryBefore now a b = true ↔ tableRank now a.d a.key < tableRank now b.d b.key := by
  simp only [entryBefore_iff, keyBefore_iff, tableRank, Prod.Lex.toLex_lt_toLex, Bool.lt_iff]

theorem tableRank_key_injective {now d d' : Tick} {k k' : Key} (h : tableRank now d k = tableRank now d' k') : k = k' := by
  simp only [tableRank, toLex_inj, Prod.mk.injEq] at h
  obtain ⟨-, hroute, hdir, htrip⟩ := h
  exact Key.mk.injEq .. ▸ ⟨hroute, hdir, htrip⟩

/-- Of two entries with different keys one comes first. -/
theorem entryBefore_of_not {now : Tick} {a b : DepEntry} (hk : b.key ≠ a.key) (h : ¬ entryBefore now a b = true) :
    entryBefore now b a = true := by
  rw [entryBefore_iff_rank_lt] at h ⊢
  exact (not_lt.1 h).lt_of_ne fun he => hk (tableRank_key_injective he)

theorem entryBefore_trans {now : Tick} {a b c : DepEntry} (hab : entryBefore now a b = true)
    (hbc : entryBefore now b c = true) : entryBefore now a c = true := by
  rw [entryBefore_iff_rank_lt] at hab hbc ⊢
  exact hab.trans hbc

/-! ### Insertion -/

theorem insertEntry_pairwise {now : Tick} {e : DepEntry} {l : List DepEntry}
    (h : l.Pairwise (fun a b => entryBefore now a b = true)) (hk : ∀ x ∈ l, x.key ≠ e.key) :
    (insertEntry now e l).Pairwise (fun a b => entryBefore now a b = true) := by
  induction l with
  | nil => exact List.pairwise_singleton _ e
  | cons x xs ih =>
    obtain ⟨hx, hxs⟩ := List.pairwise_cons.1 h
    obtain ⟨hxk, hxsk⟩ := List.forall_mem_cons.1 hk
    unfold insertEntry
    split
    case isTrue hex =>
      exact List.pairwise_cons.2 ⟨List.forall_mem_cons.2 ⟨hex, fun y hy => entryBefore_trans hex (hx y hy)⟩, h⟩
    case isFalse hex =>
      refine List.pairwise_cons.2 ⟨fun y hy => ?_, ih hxs hxsk⟩
      rcases List.mem_cons.1 ((insertEntry_perm now e xs).mem_iff.1 hy) with rfl | hy
      · exact entryBefore_of_not hxk hex
      · exact hx y hy

/-- The capacity rule at a full table (R66). -/
theorem insertNew_full {e last : DepEntry} {s : State} (hfull : s.table.length = 48) (hlast : s.table.getLast? = some last) :
    s.insertNew e =
      if entryBefore s.clock e last then
        ((s.setTable (insertEntry s.clock e s.table.dropLast)).count .tableEvicted).count .tableApplied
      else s.count .tableRefused := by
  simp only [State.insertNew, hfull, hlast, Nat.lt_irrefl, if_false]

/-- Settles O37: the order by `insertEntry_pairwise`, the capacity rule by `insertNew_full`. -/
theorem tableKeepsOrderAndCapacity : Obligations.TableKeepsOrderAndCapacity := by
  refine ⟨fun now e l hl hk => ⟨insertEntry_pairwise hl hk, insertEntry_perm now e l, fun a b => ?order⟩,
    fun e last s hfull hlast => ⟨fun hbehind => ?refused, fun hahead => ⟨?length, ?evicts⟩⟩⟩
  case order =>
    rw [entryBefore_iff, keyBefore_iff]
    rfl
  case refused => simp [insertNew_full hfull hlast, hbehind]
  case length => simp [hfull]
  case evicts =>
    rw [insertNew_full hfull hlast, if_pos hahead]
    rfl

end Sys2Proof.Machine
end

section
/-! Reports against the entry of their trip (R56, R57, R60, R61). -/

namespace Sys2Proof.Machine

theorem newerSeq_iff (seq last : Word16) :
    newerSeq seq last = true ↔
      1 ≤ (seq.toNat + 65536 - last.toNat) % 65536 ∧ (seq.toNat + 65536 - last.toNat) % 65536 ≤ 32767 := by
  have hlast := last.isLt
  have hdiff : (seq - last).toNat = (seq.toNat + 65536 - last.toNat) % 65536 := by
    rw [BitVec.toNat_sub]
    omega
  simp [newerSeq, hdiff]

theorem remUsable_eq_false_iff (r : Int) : remUsable r = false ↔ r < -300 := by
  simp [remUsable]

/-- The remaining time of an anchor is used up to 7200 s (R56). -/
theorem anchorOf_eq (f : Frame) (r : Int) (t : Tick) : anchorOf f r t = t + BitVec.ofInt 32 (8 * min r 7200 - f.age) := by
  rw [anchorOf, anchor, min_comm, min_def_lt]

theorem reportApplies_iff (f : Frame) (e : DepEntry) :
    reportApplies f e = true ↔ e.source = .scheduled ∨ e.repOrigin ≠ f.origin ∨
      (1 ≤ (f.seq.toNat + 65536 - e.repSeq.toNat) % 65536 ∧ (f.seq.toNat + 65536 - e.repSeq.toNat) % 65536 ≤ 32767) := by
  simp only [reportApplies, Bool.or_eq_true, decide_eq_true_eq, newerSeq_iff, or_assoc]

section
variable {f : Frame} {trip : Nat} {r : Int} {s : State} (t : Tick) (c : Bool) (bay : Option Nat) (notes : Option Notes)

theorem applyReport_foreign (h : inInterest s.cfg f.route f.dir = false) : s.applyReport f t trip r c bay notes = s := by
  simp [State.applyReport, h]

theorem applyReport_late (h : inInterest s.cfg f.route f.dir = true) (hlate : 2400 ≤ f.age ∨ r < -300) :
    s.applyReport f t trip r c bay notes = s.count .tableIgnored := by
  simp [State.applyReport, h, remUsable_eq_false_iff, hlate]

/-- A report that passes its tests, for a trip the table holds (R60, R61). -/
theorem applyReport_held {e : DepEntry} (h : inInterest s.cfg f.route f.dir = true) (hage : f.age < 2400) (hr : -300 ≤ r)
    (hfind : findEntry ⟨f.route, f.dir, trip⟩ s.table = some e) :
    s.applyReport f t trip r c bay notes =
      if reportApplies f e then
        s.applyTo e (reportEntry f t ⟨f.route, f.dir, trip⟩ r c bay notes e.shownRow)
      else s.count .tableIgnored := by
  have htests : ¬ (2400 ≤ f.age ∨ r < -300) := by omega
  simp only [State.applyReport, h, remUsable_eq_false_iff, htests, hfind, Bool.not_true, Bool.false_eq_true, if_false]

end

/-- Settles O35: the tests by `applyReport_foreign` and `applyReport_late`, a held trip by `applyReport_held`. -/
theorem reportsApplyByReporterAndSequence : Obligations.ReportsApplyByReporterAndSequence := by
  intro f t0 trip r c bay notes s key
  refine ⟨applyReport_foreign t0 c bay notes, applyReport_late t0 c bay notes, fun e hin hage hr hfind => ?held⟩
  have hheld := applyReport_held t0 c bay notes hin hage hr hfind
  refine ⟨fun happlies => ?applied, fun hbarred => ?ignored⟩
  case applied =>
    rw [hheld, if_pos ((reportApplies_iff f e).2 happlies), ← anchorOf_eq]
    rfl
  case ignored => rw [hheld, if_neg (mt (reportApplies_iff f e).1 hbarred)]

end Sys2Proof.Machine
end

section
/-! The sweep (R67 to R69) and the change notice (R72): two tables in their order show the same exactly when their first N
entries have the same keys and each key the same fields. -/

namespace Sys2Proof.Machine

/-! ### The sweep -/

theorem sweptTable_eq (now : Tick) (l : List DepEntry) :
    sweptTable now l =
      (l.filter (fun e => decide ((-960 : Int) < (e.d - now).toInt))).map (fun e =>
        { e with stale := e.stale || (decide (e.source = .live) && decide (4800 < (now - e.lastReport).toInt)) }) := by
  have hkept (e : DepEntry) : (!sweptAway now e) = decide ((-960 : Int) < (e.d - now).toInt) := by
    rw [sweptAway, ← decide_not]
    exact decide_eq_decide.2 not_le
  have hmarked (e : DepEntry) : (if goesStale now e then { e with stale := true } else e) =
      { e with stale := e.stale || goesStale now e } := by
    cases hstale : goesStale now e <;> simp
  simp only [sweptTable, hkept, hmarked]
  rfl

theorem exec_tableSweep_free {s : State} (hact : active s = true) (hdue : s.sweepWaiting = true) (hlock : s.lock = .free) :
    exec .tableSweep s = .next s.sweep := if_pos ⟨hact, hdue, hlock⟩

theorem exec_tableSweep_held {s : State} (hlock : s.lock = .held) : exec .tableSweep s = .next s :=
  if_neg fun h => by simp [hlock] at h

/-! ### The change notice -/

theorem noticeFields_eq_iff {a b : DepEntry} (hk : a.key = b.key) :
    noticeFields a = noticeFields b ↔
      a.d = b.d ∧ a.source = b.source ∧ a.state = b.state ∧ a.bay = b.bay ∧ a.notes = b.notes ∧ a.stale = b.stale := by
  simp [noticeFields, hk]

theorem mem_noticeView {n : Nat} {l : List DepEntry} {x : NoticeFields} :
    x ∈ noticeView n l ↔ ∃ e ∈ l.take n, noticeFields e = x := List.mem_map

theorem noticeView_keys (n : Nat) (l : List DepEntry) :
    (noticeView n l).map (·.key) = (l.take n).map (·.key) := List.map_map

/-- What a table in its order shows stands in the order of the ranks. -/
theorem noticeView_pairwise {now : Tick} {n : Nat} {l : List DepEntry}
    (h : l.Pairwise (fun a b => entryBefore now a b = true)) :
    (noticeView n l).Pairwise (InvImage (· < ·) fun x => tableRank now x.d x.key) := by
  refine List.pairwise_map.2 ((h.sublist (List.take_sublist n l)).imp fun hab => ?_)
  exact (entryBefore_iff_rank_lt now _ _).1 hab

/-- Two tables in their order that show the same entries show the same. -/
theorem noticeView_ext {now : Tick} {n : Nat} {l l' : List DepEntry}
    (hl : l.Pairwise (fun a b => entryBefore now a b = true)) (hl' : l'.Pairwise (fun a b => entryBefore now a b = true))
    (hmem : ∀ x, x ∈ noticeView n l ↔ x ∈ noticeView n l') : noticeView n l = noticeView n l' :=
  (noticeView_pairwise hl).eq_of_mem_iff (noticeView_pairwise hl') hmem

/-- The entries that `l` and `l'` share by key among their first `n` have the same fields of R72. -/
def SharedFieldsAgree (n : Nat) (l l' : List DepEntry) : Prop :=
  ∀ e ∈ l.take n, ∀ e' ∈ l'.take n, e.key = e'.key → noticeFields e = noticeFields e'

theorem SharedFieldsAgree.symm {n : Nat} {l l' : List DepEntry} (h : SharedFieldsAgree n l l') : SharedFieldsAgree n l' l :=
  fun e he e' he' hk => (h e' he' e he hk.symm).symm

theorem SharedFieldsAgree.noticeView_subset {n : Nat} {l l' : List DepEntry} (h : SharedFieldsAgree n l l')
    (hkeys : ∀ k ∈ (l.take n).map (·.key), k ∈ (l'.take n).map (·.key)) : noticeView n l ⊆ noticeView n l' := by
  intro x hx
  obtain ⟨e, he, rfl⟩ := mem_noticeView.1 hx
  obtain ⟨e', he', hk⟩ := List.mem_map.1 (hkeys _ (List.mem_map_of_mem he))
  exact mem_noticeView.2 ⟨e', he', (h e he e' he' hk.symm).symm⟩

/-- Where the second table's keys are distinct, an entry of a key has one set of fields there. -/
theorem sharedFieldsAgree_of_noticeView_eq {n : Nat} {l l' : List DepEntry} (hkeys : (l'.map (·.key)).Nodup)
    (h : noticeView n l = noticeView n l') : SharedFieldsAgree n l l' := by
  intro e he e' he' hk
  have hshown : noticeFields e ∈ noticeView n l' := h ▸ mem_noticeView.2 ⟨e, he, rfl⟩
  obtain ⟨e'', he'', hfields⟩ := mem_noticeView.1 hshown
  have hkey : e''.key = e'.key := (congrArg NoticeFields.key hfields).trans hk
  have hsame : e'' = e' := List.inj_on_of_nodup_map hkeys (List.mem_of_mem_take he'') (List.mem_of_mem_take he') hkey
  exact hsame ▸ hfields.symm

/-- Tables in their order show the same exactly when the same keys stand among their first N and the entries of each agree
(R72). -/
theorem noticeView_eq_iff {now : Tick} {n : Nat} {l l' : List DepEntry}
    (hl : l.Pairwise (fun a b => entryBefore now a b = true)) (hl' : l'.Pairwise (fun a b => entryBefore now a b = true))
    (hkeys : (l'.map (·.key)).Nodup) :
    noticeView n l = noticeView n l' ↔
      (∀ k, k ∈ (l.take n).map (·.key) ↔ k ∈ (l'.take n).map (·.key)) ∧ SharedFieldsAgree n l l' := by
  refine ⟨fun h => ⟨fun k => ?_, sharedFieldsAgree_of_noticeView_eq hkeys h⟩, fun ⟨hsame, hagree⟩ => ?_⟩
  · rw [← noticeView_keys, h, noticeView_keys]
  · exact noticeView_ext hl hl' fun x => ⟨fun hx => hagree.noticeView_subset (fun k => (hsame k).1) hx,
      fun hx => hagree.symm.noticeView_subset (fun k => (hsame k).2) hx⟩

theorem not_sharedFieldsAgree_iff {n : Nat} {l l' : List DepEntry} :
    ¬ SharedFieldsAgree n l l' ↔
      ∃ e ∈ l.take n, ∃ e' ∈ l'.take n, e.key = e'.key ∧ ¬ (e.d = e'.d ∧ e.source = e'.source ∧ e.state = e'.state ∧
        e.bay = e'.bay ∧ e.notes = e'.notes ∧ e.stale = e'.stale) := by
  simp only [SharedFieldsAgree, not_forall, exists_prop]
  refine exists_congr fun e => and_congr_right fun _ => exists_congr fun e' => and_congr_right fun _ => ?_
  exact and_congr_right fun hk => not_congr (noticeFields_eq_iff hk)

/-- Settles O22: the sweep by `sweptTable_eq`, the notice by `noticeView_eq_iff`. -/
theorem sweepRemovesAndMarks : Obligations.SweepRemovesAndMarks := by
  refine ⟨fun s hact hdue => ⟨exec_tableSweep_held, fun hlock => ⟨sweptTable_eq .., ?swept⟩⟩,
    fun now n l l' hl hl' _ hkeys => ?notice⟩
  case swept =>
    rw [exec_tableSweep_free hact hdue hlock, ← sweptTable_eq]
    rfl
  case notice =>
    rw [ne_eq, noticeView_eq_iff hl hl' hkeys, not_and_or, not_forall, not_sharedFieldsAgree_iff]

end Sys2Proof.Machine
end

section
/-! The figures of the countdown: the remaining seconds (R81), the display value by its bands (R88 to R92) and the time of day
(R85). -/

namespace Sys2Proof.Machine

/-! ### Remaining seconds -/

theorem clampInt_eq_max_min {lo hi : Int} (h : lo ≤ hi) (v : Int) : clampInt lo hi v = max lo (min hi v) := by
  unfold clampInt
  split
  case isTrue => omega
  case isFalse => split <;> omega

theorem remSeconds_eq (d now : Tick) : remSeconds d now = max (-300) (min 7200 ((d - now).toInt / 8)) :=
  clampInt_eq_max_min (by decide) _

/-! ### The bands of the display value -/

section
variable {e : DepEntry} {now : Tick}

theorem displayValue_of_cancelled (h : e.state = .cancelled) (wall : Option WallRef) :
    displayValue e now wall = .cancelled := if_pos h

theorem displayValue_of_active (h : e.state = .active) (wall : Option WallRef) :
    displayValue e now wall =
      if (e.d - now).toInt < 480 then .due
      else if (e.d - now).toInt < 28800 then .minutes ((e.d - now).toInt / 480).toNat
      else wall.elim .later (clockOf · e.d) := by
  cases wall <;> exact if_neg (by simp [h])

theorem displayValue_due (h : e.state = .active) (hrem : (e.d - now).toInt < 480) (wall : Option WallRef) :
    displayValue e now wall = .due := by
  rw [displayValue_of_active h, if_pos hrem]

theorem displayValue_minutes (h : e.state = .active) (hlo : 480 ≤ (e.d - now).toInt) (hhi : (e.d - now).toInt < 28800)
    (wall : Option WallRef) : displayValue e now wall = .minutes ((e.d - now).toInt / 480).toNat := by
  rw [displayValue_of_active h, if_neg hlo.not_gt, if_pos hhi]

theorem displayValue_overAnHour (h : e.state = .active) (hrem : 28800 ≤ (e.d - now).toInt) (wall : Option WallRef) :
    displayValue e now wall = wall.elim .later (clockOf · e.d) := by
  rw [displayValue_of_active h, if_neg (by omega), if_neg hrem.not_gt]

end

/-! ### The time of day -/

theorem dayTick_eq_emod (w : WallRef) (x : Tick) :
    (dayTick w x : Int) = ((w.wallRef : Int) + (x - w.refTick).toInt) % 691200 :=
  Int.toNat_of_nonneg (Int.emod_nonneg _ (by decide))

theorem dayTick_lt (w : WallRef) (x : Tick) : dayTick w x < 691200 := by
  have hday := dayTick_eq_emod w x
  omega

/-- Settles O12: the seconds by `remSeconds_eq`, the display value band by band, the time of day by `dayTick_eq_emod`. -/
theorem countdownFigures : Obligations.CountdownFigures := by
  refine ⟨fun d now => ⟨?range, fun q hlo hhi => ?floor⟩,
    fun e now wall => ⟨fun h => displayValue_of_cancelled h wall, fun h => ⟨fun hrem => displayValue_due h hrem wall,
      fun hlo hhi => ⟨_, displayValue_minutes h hlo hhi wall, ?minutes⟩, ?clock, ?later⟩⟩,
    fun w x => ⟨dayTick w x, dayTick_lt w x, ?wrapped, dayTick w x / 28800, dayTick w x % 28800 / 480,
      dayTick w x % 480, rfl, ?parts⟩⟩
  case range =>
    rw [remSeconds_eq]
    omega
  case floor =>
    have hq : (d - now).toInt / 8 = q := by omega
    rw [remSeconds_eq, hq]
    omega
  case minutes => omega
  case clock =>
    rintro hrem w rfl
    exact displayValue_overAnHour h hrem (some w)
  case later =>
    rintro hrem rfl
    exact displayValue_overAnHour h hrem none
  case wrapped =>
    have hday := dayTick_eq_emod w x
    exact ⟨-(((w.wallRef : Int) + (x - w.refTick).toInt) / 691200), by omega⟩
  case parts =>
    have hlt := dayTick_lt w x
    omega

end Sys2Proof.Machine
end

section
/-! Selection (R118 to R120) with a grant where no reading is in hand (R121, R122), and the full-clear interval (R115, R116). -/

namespace Sys2Proof.Machine

/-! ### What a selection takes -/

theorem rowSelectable_iff (s : State) (r : Nat) :
    rowSelectable s r = true ↔ ∃ row, s.rows[r]? = some row ∧ row.pending = true ∧ row.mask = false := by
  simp only [rowSelectable, Option.any_eq_true, Bool.and_eq_true, Bool.not_eq_true']

/-- The rotation is searched in its own order: the first row there that `p` holds of is the one found (R120). -/
theorem find?_rotation {n pointer i : Nat} {p : Nat → Bool} (hi : i < n) (hp : p ((pointer + 1 + i) % n) = true)
    (hfirst : ∀ j < i, ¬ p ((pointer + 1 + j) % n) = true) :
    (rotation n pointer).find? p = some ((pointer + 1 + i) % n) := by
  have hlen : i < (rotation n pointer).length := by simpa [rotation] using hi
  refine List.find?_eq_some_iff_getElem.2 ⟨hp, i, hlen, by simp [rotation], fun j hj => ?_⟩
  simpa [rotation] using hfirst j hj

theorem selection_clear {s : State} {k : ClearKind} (h : s.ctl.clearItem = some k) : selection s = some (.clear k) := by
  simp only [selection, h]

theorem selection_banner {s : State} (h : s.ctl.clearItem = none)
    (hb : ∃ row, s.rows[s.cfg.n]? = some row ∧ row.pending = true) : selection s = some (.row s.cfg.n) := by
  have hpending : (s.rows[s.cfg.n]?).any (·.pending) = true := (Option.any_eq_true _ _).2 hb
  simp only [selection, h, hpending, if_true]

theorem selection_rotation {s : State} (h : s.ctl.clearItem = none)
    (hb : ∀ row, s.rows[s.cfg.n]? = some row → row.pending = false) :
    selection s = ((rotation s.cfg.n s.ctl.pointer).find? (rowSelectable s)).map .row := by
  have hpending : (s.rows[s.cfg.n]?).any (·.pending) = false := (Option.any_eq_false _ _).2 hb
  simp [selection, h, hpending]

/-! ### A selection that grants -/

/-- Without a reading in hand PREPARE waits for its temperature read, so the selection leaves the grant as it is (R131). -/
theorem select_grants {s : State} {x : Refresh} (ha : active s = true) (ho : s.ctl.state = .opened)
    (hi : s.engine.state = .idle) (hr : s.engine.reading = none) (hx : selection s = some x) : select s = grant x s := by
  have hreading : (grant x s).engine.reading = none := by rw [← hr, ← grantRows_engine x s]; rfl
  simp only [select, selectDepth, selectWith, ha, ho, hi, hx, beginPrepareWith, hreading, and_self, if_true]

/-! ### The panel clear request and the full-clear interval -/

theorem requestClear_ordinary_frozen {s : State} (h : s.account.stage = .frozen) : requestClear .ordinary s = s := if_pos h

/-- Outside FROZEN the item is ORDINARY if it was absent, and as it was if it was present (R114, R115). -/
theorem requestClear_ordinary_recorded {s : State} (h : s.account.stage ≠ .frozen) :
    requestClear .ordinary s = s.setClearItem (some (s.ctl.clearItem.getD .ordinary)) := by
  cases hitem : s.ctl.clearItem with
  | none => simp [requestClear, h, hitem]
  | some k =>
    calc requestClear .ordinary s
      _ = s := by simp [requestClear, h, hitem]
      _ = s.setClearItem s.ctl.clearItem := rfl
      _ = s.setClearItem (some k) := by rw [hitem]

theorem exec_fullClearIntervalExpiry_ranOut {s : State} (ha : active s = true) (hran : s.ctl.interval = some 0) :
    exec .fullClearIntervalExpiry s = .next (select (requestClear .ordinary (startInterval s))) :=
  if_pos ⟨ha, decide_eq_true hran⟩

theorem exec_fullClearIntervalExpiry_frozen {s : State} (ha : active s = true) (hran : s.ctl.interval = some 0)
    (hstage : s.account.stage = .frozen) : exec .fullClearIntervalExpiry s = .next (select (startInterval s)) := by
  rw [exec_fullClearIntervalExpiry_ranOut ha hran, requestClear_ordinary_frozen (s := startInterval s) hstage]

theorem exec_fullClearIntervalExpiry_requests {s : State} (ha : active s = true) (hran : s.ctl.interval = some 0)
    (hstage : s.account.stage ≠ .frozen) :
    exec .fullClearIntervalExpiry s =
      .next (select ((startInterval s).setClearItem (some (s.ctl.clearItem.getD .ordinary)))) := by
  rw [exec_fullClearIntervalExpiry_ranOut ha hran, requestClear_ordinary_recorded (s := startInterval s) hstage,
    startInterval_ctl]

/-- Settles O53: the selection by its three cases, the rotation by `find?_rotation`; the expiry by what is requested and
whether the controller then selects. -/
theorem selectionTakesTheFirstAndGrants : Obligations.SelectionTakesTheFirstAndGrants := by
  refine ⟨fun s => ⟨fun k => selection_clear, selection_banner, fun hitem hbanner => ?rotation⟩, fun s ha hran => ?expiry⟩
  case rotation =>
    intro selectable i hi hsel hfirst
    have hfound := find?_rotation hi ((rowSelectable_iff s _).2 hsel)
      fun j hj => mt (rowSelectable_iff s _).1 (hfirst j hj)
    rw [selection_rotation hitem hbanner, hfound]
    rfl
  case expiry =>
    refine ⟨fun hstage hnothing => ?frozen, fun hstage hbusy => ?requested, fun hstage hidle hopen hitem hread => ?granted⟩
    case frozen =>
      have hquiet : nothingToSelect (startInterval s) = true := hnothing
      rw [exec_fullClearIntervalExpiry_frozen ha hran hstage, select_nothing _ hquiet]
      rfl
    case requested =>
      rw [exec_fullClearIntervalExpiry_requests ha hran hstage, select_nothing _ (by simp [nothingToSelect, hbusy])]
      rfl
    case granted =>
      have hgrant := select_grants (s := (startInterval s).setClearItem (some .ordinary)) ha hopen hidle hread
        (selection_clear rfl)
      rw [exec_fullClearIntervalExpiry_requests ha hran hstage, hitem, Option.getD_none, hgrant]
      rfl

end Sys2Proof.Machine
end

section
/-! Each command as a whole: that it completes (section 95), what it leaves of the clock and the start-up (R74, R192), and that
it keeps a safe state safe. -/

namespace Sys2Proof.Machine

/-- The commands of the clock and of the start-up, which move what every other command leaves alone (R74, R192). -/
def movesStartup : Instr → Bool
  | .powerOn _ _ | .resetAssert | .resetRelease _ | .loadRetryWaitEnd | .loadEnd _ | .fillPeriodEnd | .tick => true
  | _ => false

theorem exec_mild {c : Instr} (hc : movesStartup c = false) (s : State) : ∃ t, exec c s = .next t ∧ Mild s t := by
  cases c with
  | powerOn | resetAssert | resetRelease | loadRetryWaitEnd | loadEnd | fillPeriodEnd | tick => cases hc
  | seenEntryAgeOut => exact seenAgeOut_mild s
  | relayLifetimeExpiry => exact relayLifetime_mild s
  | tableSweep => exact tableSweep_mild s
  | wallReferenceExpiry => exact wallExpiry_mild s
  | listenPeriodEnd => exact listenPeriodEnd_mild s
  | listenWindowOff => exact listenWindowOff_mild s
  | characterReceived ch how => exact characterReceived_mild ch how s
  | syncGapTimeout => exact syncGap_mild s
  | interCharacterGapTimeout => exact characterGap_mild s
  | cdAssert => exact cdAssert_mild s
  | cdDeassert => exact cdDeassert_mild s
  | frameDispatch => exact frameDispatch_mild s
  | statusRequest => exact statusRequest_mild s
  | tableRequest => exact tableRequest_mild s
  | clearRequest => exact clearRequest_mild s
  | refreshRequest => exact refreshRequest_mild s
  | unknownRequestCode => exact unknownRequest_mild s
  | relayDue => exact relayDue_mild s
  | quietTimerExpiry => exact quietTimerExpiry_mild s
  | contentionDelayEnd => exact contentionDelayEnd_mild s
  | transmissionEnd => exact transmissionEnd_mild s
  | harvestPulse => exact harvestPulse_mild s
  | lowAssert stays => exact lowAssert_mild stays s
  | compositionPeriodEnd => exact compositionPeriodEnd_mild s
  | passCompletion => exact passCompletion_mild s
  | temperatureAnswer degrees => exact temperatureAnswer_mild degrees s
  | temperatureNoAnswer => exact temperatureNoAnswer_mild s
  | driveFrameEnd => exact driveFrameEnd_mild s
  | deadGapEnd => exact deadGapEnd_mild s
  | refreshCompletion => exact refreshCompletion_mild s
  | pfaultAssert stays => exact pfaultAssert_mild stays s
  | droopAssert => exact droopAssert_mild s
  | droopRelease => exact droopRelease_mild s
  | lockoutEnd => exact lockoutEnd_mild s
  | retryTimerExpiry => exact retryTimerExpiry_mild s
  | fullClearIntervalExpiry => exact fullClearInterval_mild s

theorem exec_next_mild {c : Instr} {s t : State} (hc : movesStartup c = false) (h : exec c s = .next t) : Mild s t := by
  obtain ⟨u, hu, hm⟩ := exec_mild hc s
  exact Host.Outcome.next.inj (hu.symm.trans h) ▸ hm

/-! ### The commands of the start-up, each by what it answers -/

section
variable (s : State)

theorem exec_powerOn (levels : Pins) (k : Nat) :
    exec (.powerOn levels k) s = .next (State.poweredOn levels (.begun k s.loader.nacks) s.pending) := rfl

theorem exec_tick : exec .tick s = .next (tickEvent s) := rfl

theorem exec_resetAssert :
    exec .resetAssert s = .next (if s.pins.reset then s else holdInReset s) := by
  cases h : s.pins.reset <;> simp [exec, execResetAssert, h]

theorem exec_resetRelease (k : Nat) :
    exec (.resetRelease k) s = .next (if s.pins.reset then releaseReset k s else s) := by
  cases h : s.pins.reset <;> simp [exec, execResetRelease, h]

theorem exec_loadRetryWaitEnd :
    exec .loadRetryWaitEnd s = .next (if s.startup.state = .loading then { s with loader := s.loader.retried } else s) := by
  by_cases h : s.startup.state = .loading <;> simp [exec, execLoadRetryWaitEnd, h]

theorem exec_fillPeriodEnd :
    exec .fillPeriodEnd s =
      .next (if s.startup.state = .fill ∧ ranOut s.startup.fillTimer = true then endFill s else s) := by
  by_cases h : s.startup.state = .fill ∧ ranOut s.startup.fillTimer = true <;> simp [exec, execFillPeriodEnd, h]

/-- LOAD_END ends a load that its answer decides, and does nothing otherwise (R203). -/
theorem exec_loadEnd (answer : MemoryAnswer) :
    exec (.loadEnd answer) s = .next s ∨ ∃ o c, s.startup.state = .loading ∧ loadResult s.loader.phase answer = some (o, c) ∧
      exec (.loadEnd answer) s = .next (endLoad o c { s with loader := s.loader.ending answer }) := by
  by_cases hl : s.startup.state = .loading
  · cases hr : loadResult s.loader.phase answer with
    | none => exact .inl (by simp [exec, execLoadEnd, hl, hr])
    | some r => exact .inr ⟨r.1, r.2, hl, rfl, by simp [exec, execLoadEnd, hl, hr]⟩
  · exact .inl (by simp [exec, execLoadEnd, hl])

end

/-- A change of the loader alone. -/
theorem Safe.withLoader {s : State} (h : Safe s) (l : Loader) : Safe { s with loader := l } :=
  h.of_bounded h.bounded.congr

/-- The commands that put a configuration in force or set the start kind (R192, R203). -/
def setsStartup : Instr → Bool
  | .powerOn _ _ | .resetAssert | .resetRelease _ | .loadEnd _ => true
  | _ => false

/-- The clock after a command (R74). -/
def clockAfter (c : Instr) (now : Tick) : Tick :=
  match c with
  | .tick => now + 1
  | .powerOn _ _ => 0
  | _ => now

/-- What is claimed of every command: it completes, the queue stands, the clock and the start-up move at their own commands
alone, and a safe state stays safe. -/
structure Completes (c : Instr) (s t : State) : Prop where
  answers : exec c s = .next t
  pending : t.pending = s.pending
  clock : t.clock = clockAfter c s.clock
  startup : setsStartup c = false → t.cfg = s.cfg ∧ t.cfgInForce = s.cfgInForce ∧ t.startup.kind = s.startup.kind ∧
    (c ≠ .fillPeriodEnd → t.startup.state = s.startup.state)
  safe : Safe s → Safe t

theorem exec_completes (c : Instr) (s : State) : ∃ t, Completes c s t := by
  by_cases hc : movesStartup c = false
  · obtain ⟨t, ht, hm⟩ := exec_mild hc s
    have hclock : clockAfter c s.clock = s.clock := by cases c <;> simp_all [movesStartup, clockAfter]
    exact ⟨t, ht, hm.pending, hm.clock.trans hclock.symm, fun _ => ⟨hm.cfg, hm.cfgInForce, by rw [hm.startup], fun _ => by rw [hm.startup]⟩,
      hm.safe⟩
  cases c with
  | powerOn levels k => exact ⟨_, exec_powerOn s levels k, rfl, rfl, nofun, fun _ => poweredOn_safe ..⟩
  | tick =>
    obtain ⟨hclock, ht⟩ := tickEvent_effect s
    exact ⟨_, exec_tick s, ht.pending, hclock, fun _ => ⟨ht.cfg, ht.cfgInForce, ht.kind, fun _ => ht.startup⟩, ht.safe⟩
  | resetAssert =>
    cases hr : s.pins.reset with
    | true => exact ⟨s, by simp [exec_resetAssert, hr], rfl, rfl, nofun, id⟩
    | false => exact ⟨holdInReset s, by simp [exec_resetAssert, hr], rfl, rfl, nofun, holdInReset_safe s⟩
  | resetRelease k =>
    cases hr : s.pins.reset with
    | true => exact ⟨releaseReset k s, by simp [exec_resetRelease, hr], rfl, rfl, nofun, releaseReset_safe k s⟩
    | false => exact ⟨s, by simp [exec_resetRelease, hr], rfl, rfl, nofun, id⟩
  | loadRetryWaitEnd =>
    by_cases hl : s.startup.state = .loading
    · exact ⟨{ s with loader := s.loader.retried }, by simp [exec_loadRetryWaitEnd, hl], rfl, rfl,
        fun _ => ⟨rfl, rfl, rfl, fun _ => rfl⟩, fun h => h.withLoader _⟩
    · exact ⟨s, by simp [exec_loadRetryWaitEnd, hl], rfl, rfl, fun _ => ⟨rfl, rfl, rfl, fun _ => rfl⟩, id⟩
  | fillPeriodEnd =>
    by_cases hf : s.startup.state = .fill ∧ ranOut s.startup.fillTimer = true
    · obtain ⟨hclock, hp, -, -, hkind, hcfg, hforce, -, hsafe⟩ := endFill_effect s
      exact ⟨endFill s, by rw [exec_fillPeriodEnd, if_pos hf], hp, hclock, fun _ => ⟨hcfg, hforce, hkind, fun h => absurd rfl h⟩,
        hsafe hf.1⟩
    · exact ⟨s, by rw [exec_fillPeriodEnd, if_neg hf], rfl, rfl, fun _ => ⟨rfl, rfl, rfl, fun _ => rfl⟩, id⟩
  | loadEnd answer =>
    rcases exec_loadEnd s answer with h | ⟨o, c, hl, hr, h⟩
    · exact ⟨s, h, rfl, rfl, nofun, id⟩
    · obtain ⟨hclock, hp, -, -, -, hsafe⟩ := endLoad_effect o c { s with loader := s.loader.ending answer }
      exact ⟨_, h, hp, hclock, nofun, fun hs => hsafe (loadResult_inRange hr) (by simp [hl]) (hs.withLoader _)⟩
  | _ => exact absurd rfl hc

/-- The answer of a command is the state that `exec_completes` speaks of. -/
theorem Completes.of_exec {c : Instr} {s t : State} (h : exec c s = .next t) : Completes c s t := by
  obtain ⟨u, hu⟩ := exec_completes c s
  exact Host.Outcome.next.inj (hu.answers.symm.trans h) ▸ hu

/-- A step is a command on the state with the queue's rest, or nothing. -/
theorem step_cases {s t : State} (h : step s = .next t) :
    t = s ∨ ∃ c rest, exec c { s with pending := rest } = .next t := by
  unfold step at h
  split at h
  case h_1 c rest _ => exact .inr ⟨c, rest, h⟩
  case h_2 => exact .inl (Host.Outcome.next.inj h).symm

/-- Settles O1. -/
theorem stepTakesFrontCommand : Obligations.StepTakesFrontCommand := fun _ _ _ => rfl

/-- Settles O2, by `exec_completes`. -/
theorem everyCommandCompletes : Obligations.EveryCommandCompletes := by
  intro c s
  obtain ⟨t, ht⟩ := exec_completes c s
  exact ⟨t, ht.answers, ht.pending⟩

/-- Settles O4: the queue is no part of safety, and each command keeps it by `exec_completes`. -/
theorem everyStepKeepsSafe : Obligations.EveryStepKeepsSafe := by
  intro s t hs h
  rcases step_cases h with rfl | ⟨c, rest, hc⟩
  · exact hs
  · exact (Completes.of_exec hc).safe (hs.of_bounded hs.bounded.congr)

/-- Settles O3: nothing has run yet. -/
theorem resetIsSafe : Obligations.ResetIsSafe :=
  ⟨poweredOn_safe .., by decide, by decide, fun _ => ⟨rfl, rfl, rfl, rfl, rfl, rfl, rfl, rfl, rfl, rfl, rfl, rfl⟩⟩

/-- Settles O7: the clock and the start-up by `exec_completes`. -/
theorem clockAndStartupMoveOnlyAtTheirCommands : Obligations.ClockAndStartupMoveOnlyAtTheirCommands := by
  refine ⟨fun c s t h => (Completes.of_exec h).clock, fun c s t hpower hload hassert hrelease h => ?_⟩
  refine (Completes.of_exec h).startup ?_
  cases c with
  | powerOn levels k => exact absurd rfl (hpower levels k)
  | loadEnd answer => exact absurd rfl (hload answer)
  | resetAssert => exact absurd rfl hassert
  | resetRelease k => exact absurd rfl (hrelease k)
  | _ => rfl

end Sys2Proof.Machine
end

section
/-! A part held in a reset or a load (R194, R203): what a change of E, a level and a tick do to it, and that no other command
reaches it. -/

namespace Sys2Proof.Machine

/-! ### A change of E while the blocks are held -/

/-- While the blocks are held the stage rules reach the account alone, and in it the stage and the freeze state (R194). -/
theorem stageRises_held (ctl : State → State) (k : Nat) {s : State} (h : active s = false) :
    ∃ st f, stageRises ctl k s = { s with account := { s.account with stage := st, freeze := f } } := by
  induction k generalizing s with
  | zero => exact ⟨_, _, rfl⟩
  | succ k ih =>
    unfold stageRises
    split
    case h_1 new hn =>
      have hheld : active { s with account :=
          { s.account with stage := new, freeze := freezeAfter s.account.stage new s.account.freeze } } = false := h
      obtain ⟨st, f, heq⟩ := ih hheld
      exact ⟨st, f, by rw [stageChange]; simp only [hheld]; exact heq⟩
    case h_2 => exact ⟨_, _, rfl⟩

theorem stageChange_held (ctl : State → State) (new : Stage) {s : State} (h : active s = false) :
    stageChange ctl new s =
      { s with account := { s.account with stage := new, freeze := freezeAfter s.account.stage new s.account.freeze } } := by
  have hheld : active { s with account :=
      { s.account with stage := new, freeze := freezeAfter s.account.stage new s.account.freeze } } = false := h
  simp [stageChange, hheld]

theorem stageRules_held (ctl : State → State) {s : State} (h : active s = false) :
    ∃ st f, stageRules ctl s = { s with account := { s.account with stage := st, freeze := f } } := by
  unfold stageRules
  split
  · exact ⟨_, _, stageChange_held ctl _ h⟩
  · exact stageRises_held ctl 3 h

theorem wantedOn_held {s : State} (h : active s = false) : wantedOn s = false := by simp [wantedOn, h]

/-- A receiver that is OFF stays so while the blocks are held (R13). -/
theorem receiverAgrees_held {s : State} (h : active s = false) (hoff : s.rx.state = .off) : receiverAgrees s = true := by
  simp [receiverAgrees, hoff, wantedOn_held h]

/-! ### What reaches a held part -/

/-- What reaches a held part: the clock with its wall reference, the input levels but RESET's, the account but its reservation,
the LOW counter, and the droop-seen flag (R194). -/
structure HeldStep (s t : State) : Prop where
  only : t = { s with
    clock := t.clock
    wall := t.wall
    pins := t.pins
    account := t.account
    maint := { s.maint with counters := { s.maint.counters with lowEvents := t.maint.counters.lowEvents } }
    monitor := { s.monitor with record := { s.monitor.record with droopSeen := t.monitor.record.droopSeen } } }
  reset : t.pins.reset = s.pins.reset
  reservation : t.account.reservation = s.account.reservation

theorem HeldStep.refl (s : State) : HeldStep s s := ⟨rfl, rfl, rfl⟩

theorem changeEnergy_held (ctl : State → State) (e : Nat) {s : State} (h : active s = false) (hoff : s.rx.state = .off) :
    HeldStep s (changeEnergy ctl e s) := by
  unfold changeEnergy
  split
  · obtain ⟨st, f, heq⟩ := stageRules_held ctl (s := s.setEnergy e) h
    rw [receiverUpdate_agrees _ (receiverAgrees_held (by rw [heq]; exact h) (by rw [heq]; exact hoff)), heq]
    exact ⟨rfl, rfl, rfl⟩
  · exact .refl s

theorem takeLow_held (ctl : State → State) {s : State} (h : active s = false) (hoff : s.rx.state = .off) :
    HeldStep s (takeLow ctl s) := by
  unfold takeLow
  split
  · obtain ⟨honly, hr, hres⟩ := changeEnergy_held ctl (min s.account.e (s.cfg.t3 - 1)) (s := s.count .lowEvents) h hoff
    exact ⟨honly.trans rfl, hr, hres⟩
  · exact .refl s

/-- What a held part's rest says of the blocks that a command could reach. -/
structure AtRest (s : State) : Prop where
  held : active s = false
  rx : s.rx = .initial
  quiet : s.quiet = .expired
  cau : s.cau = .idle

theorem HeldInReset.atRest {s : State} (h : HeldInReset s) (ha : active s = false) : AtRest s :=
  have ⟨hrx, hquiet, hcau, _⟩ := h.2.2 ha
  ⟨ha, hrx, hquiet, hcau⟩

namespace AtRest

variable {s : State}

theorem off (h : AtRest s) : s.rx.state = .off := by rw [h.rx]; rfl

theorem windowStopped (h : AtRest s) : s.rx.window.running = false := by rw [h.rx]; rfl

theorem noneAccepted (h : AtRest s) : s.rx.accepted = [] := by rw [h.rx]; rfl

theorem takeCharacter (h : AtRest s) (ch : Byte) (err : Bool) : Machine.takeCharacter ch err s = s := by
  simp [Machine.takeCharacter, h.off]

theorem timerEnded (h : AtRest s) (e : TimerEnd) : Machine.timerEnded e s = s := by
  cases e with
  | quiet => simp [Machine.timerEnded, quietExpired, h.quiet]
  | contention => simp [Machine.timerEnded, contentionEnded, h.cau]

theorem withCharacter (h : AtRest s) (ch : Byte) (err : Bool) (e : TimerEnd) :
    Machine.withCharacter ch err (Machine.timerEnded e) s = s := by
  simp [Machine.withCharacter, lacksLast, h.off, h.timerEnded, h.takeCharacter]

theorem takeRequest (h : AtRest s) (p : Nat → Bool) (serve : Request → State → Served) :
    Machine.takeRequest p serve s = s := by
  simp [Machine.takeRequest, findRequest, h.noneAccepted]

theorem frameInHand (h : AtRest s) : Machine.frameInHand s = none := by simp [Machine.frameInHand, h.held]

theorem preparing (h : AtRest s) : Machine.preparing s = none := by simp [Machine.preparing, h.held]

theorem driving (h : AtRest s) : Machine.driving s = none := by simp [Machine.driving, h.held]

theorem inactive (h : AtRest s) : ¬ active s = true := by simp [h.held]

theorem endEarly (h : AtRest s) : Machine.endEarly s = s := by simp [Machine.endEarly, h.off]

/-- A tick of a held part raises the count and, at a whole second boundary, debits the baseline (R74, R172, R194). -/
theorem tickEvent (h : AtRest s) : HeldStep s (Machine.tickEvent s) := by
  have hact : active (advanceClock s) = false := h.held
  have hpow : powered (advanceClock s) = false := by simp [powered, h.off]
  have heq : Machine.tickEvent s =
      if isBoundary (s.clock + 1) then boundaryWork (advanceClock s) else advanceClock s := by
    simp [Machine.tickEvent, hact, receiverDebit, hpow]
  rw [heq]
  split
  · obtain ⟨honly, hreset, hres⟩ := changeEnergy_held ctlStage ((advanceClock s).account.e - 1) hact h.off
    have hheld : active (debit ctlStage 1 (advanceClock s)) = false := by
      rw [debit, honly]; exact hact
    simp only [boundaryWork, hheld]
    exact ⟨honly.trans rfl, hreset, hres⟩
  · exact ⟨rfl, rfl, rfl⟩

end AtRest

/-- A part whose only change is one of its levels, RESET aside. -/
theorem heldStep_pins (s : State) (p : Pins) (h : p.reset = s.pins.reset) : HeldStep s { s with pins := p } := ⟨rfl, h, rfl⟩

/-- The commands whose event a held part meets: its tick, the end of its wall reference, HARVEST, and the levels (R194). -/
def meetsHeld : Instr → Bool
  | .tick | .wallReferenceExpiry | .harvestPulse | .cdAssert | .cdDeassert | .lowAssert _ | .pfaultAssert _ | .droopAssert
  | .droopRelease => true
  | _ => false

/-- Every other command's event cannot come to a part at rest. -/
theorem exec_atRest {c : Instr} {s : State} (h : AtRest s) (hc : setsStartup c = false) (hl : c ≠ .loadRetryWaitEnd)
    (hm : meetsHeld c = false) : exec c s = .next s := by
  have hact := h.held
  have hin := h.inactive
  cases c with
  | powerOn | resetAssert | resetRelease | loadEnd => cases hc
  | loadRetryWaitEnd => exact absurd rfl hl
  | tick | wallReferenceExpiry | harvestPulse | cdAssert | cdDeassert | lowAssert | pfaultAssert | droopAssert
  | droopRelease => cases hm
  | fillPeriodEnd =>
    refine (exec_fillPeriodEnd s).trans (congrArg _ (if_neg fun hf => hin ?_))
    simp [active, hf.1]
  | seenEntryAgeOut => exact if_neg fun ha => hin ha.1
  | relayLifetimeExpiry => exact if_neg fun ha => hin ha.1
  | tableSweep => exact if_neg fun ha => hin ha.1
  | listenPeriodEnd => exact if_neg fun ha => by simp [h.windowStopped] at ha
  | listenWindowOff => exact if_neg fun ha => by simp [h.windowStopped] at ha
  | characterReceived ch how =>
    cases hb : how.behind with
    | none => simp [exec, execCharacterReceived, hb, h.takeCharacter]
    | some e => simp [exec, execCharacterReceived, hb, h.withCharacter]
  | syncGapTimeout => exact if_neg fun ha => by simp [h.off] at ha
  | interCharacterGapTimeout => exact congrArg _ h.endEarly
  | frameDispatch => simp [exec, execFrameDispatch, dispatchFirst, h.noneAccepted]
  | statusRequest => exact congrArg _ (h.takeRequest ..)
  | tableRequest => exact congrArg _ (h.takeRequest ..)
  | clearRequest => exact congrArg _ (h.takeRequest ..)
  | refreshRequest => exact congrArg _ (h.takeRequest ..)
  | unknownRequestCode => exact congrArg _ (h.takeRequest ..)
  | relayDue => exact if_neg fun ha => hin ha.1
  | quietTimerExpiry => exact congrArg _ (h.timerEnded .quiet)
  | contentionDelayEnd => exact congrArg _ (h.timerEnded .contention)
  | transmissionEnd => simp [exec, execTransmissionEnd, h.cau]
  | compositionPeriodEnd => exact if_neg fun ha => hin ha.1
  | passCompletion => exact if_neg fun ha => hin ha.1
  | temperatureAnswer => simp [exec, execTemperatureAnswer, h.preparing]
  | temperatureNoAnswer => simp [exec, execTemperatureNoAnswer, h.preparing]
  | driveFrameEnd => simp [exec, execDriveFrameEnd, h.frameInHand]
  | deadGapEnd => simp [exec, execDeadGapEnd, h.frameInHand]
  | refreshCompletion => exact if_neg fun ha => hin ha.1
  | lockoutEnd => exact if_neg fun ha => hin ha.1
  | retryTimerExpiry => exact if_neg fun ha => hin ha.1
  | fullClearIntervalExpiry => exact if_neg fun ha => hin ha.1

/-- What the events that a held part meets do to it (R194). -/
theorem exec_meetsHeld {c : Instr} {s : State} (h : AtRest s) (hm : meetsHeld c = true) :
    ∃ t, exec c s = .next t ∧ HeldStep s t := by
  have hpins : ∀ p : Pins, AtRest { s with pins := p } := fun p => ⟨h.held, h.rx, h.quiet, h.cau⟩
  cases c with
  | tick => exact ⟨_, rfl, h.tickEvent⟩
  | wallReferenceExpiry =>
    by_cases hw : s.wall.any (fun w => wallOver w s.clock) = true
    · exact ⟨_, if_pos hw, rfl, rfl, rfl⟩
    · exact ⟨_, if_neg hw, .refl s⟩
  | harvestPulse =>
    by_cases hr : s.account.running = true
    · refine ⟨_, if_pos hr, ?_⟩
      simp only [harvest, h.held]
      exact changeEnergy_held ctlStage _ h.held h.off
    · exact ⟨_, if_neg hr, .refl s⟩
  | cdAssert =>
    by_cases hcd : s.pins.cd = true
    · exact ⟨_, if_pos hcd, .refl s⟩
    · refine ⟨_, if_neg hcd, ?_⟩
      have hcarrier : takeCarrier { s with pins := { s.pins with cd := true } } = { s with pins := { s.pins with cd := true } } :=
        if_neg (by simp [powered, h.off])
      rw [hcarrier]
      exact heldStep_pins s _ rfl
  | cdDeassert =>
    by_cases hcd : s.pins.cd = true
    · refine ⟨_, if_pos hcd, ?_⟩
      rw [(hpins _).endEarly, senseQuiet, if_neg (by simp [h.cau])]
      exact heldStep_pins s _ rfl
    · exact ⟨_, if_neg hcd, .refl s⟩
  | lowAssert stays =>
    by_cases hlow : s.pins.low = true ∧ stays = false
    · exact ⟨_, if_pos hlow, heldStep_pins s _ rfl⟩
    · obtain ⟨honly, hr, hres⟩ := takeLow_held ctlStage (s := { s with pins := { s.pins with low := stays } }) h.held h.off
      exact ⟨_, if_neg hlow, honly.trans rfl, hr, hres⟩
  | pfaultAssert stays =>
    exact ⟨{ s with pins := { s.pins with pfault := stays } }, by simp [exec, execPfaultAssert, h.driving],
      heldStep_pins s _ rfl⟩
  | droopAssert =>
    by_cases hd : s.pins.droop = true
    · exact ⟨_, if_pos hd, .refl s⟩
    · refine ⟨_, if_neg hd, ?_⟩
      rw [takeDroop, (hpins _).driving]
      dsimp only
      split
      · exact heldStep_pins s _ rfl
      · exact ⟨rfl, rfl, rfl⟩
  | droopRelease =>
    by_cases hd : s.pins.droop = true
    · exact ⟨{ s with pins := { s.pins with droop := false } }, by simp [exec, execDroopRelease, hd, (hpins _).held],
        heldStep_pins s _ rfl⟩
    · exact ⟨_, if_neg hd, .refl s⟩
  | _ => cases hm

/-- No command but power-on, the edges of RESET and those of the load reaches more of a held part (R194). -/
theorem exec_held {c : Instr} {s t : State} (h : AtRest s) (hc : setsStartup c = false) (hl : c ≠ .loadRetryWaitEnd)
    (he : exec c s = .next t) : HeldStep s t := by
  cases hm : meetsHeld c with
  | true =>
    obtain ⟨u, hu, hs⟩ := exec_meetsHeld h hm
    exact Host.Outcome.next.inj (hu.symm.trans he) ▸ hs
  | false => exact Host.Outcome.next.inj ((exec_atRest h hc hl hm).symm.trans he) ▸ .refl s

/-- Settles O6, by `exec_held`. -/
theorem heldPartTakesNothing : Obligations.HeldPartTakesNothing := by
  intro c s t hheld hact hpower hassert hrelease hretry hload he
  have hc : setsStartup c = false := by
    cases c with
    | powerOn levels k => exact absurd rfl (hpower levels k)
    | loadEnd answer => exact absurd rfl (hload answer)
    | resetAssert => exact absurd rfl hassert
    | resetRelease k => exact absurd rfl (hrelease k)
    | _ => rfl
  exact (exec_held (hheld.atRest hact) hc hretry he).only

/-! ### Rest is kept -/

theorem HeldInReset.congr {s t : State} (h : HeldInReset s) (hr : t.pins.reset = s.pins.reset)
    (hst : t.startup.state = s.startup.state) (hph : s.startup.state = .inReset → t.loader.phase = s.loader.phase)
    (hrest : active s = false →
      t.rx = s.rx ∧ t.quiet = s.quiet ∧ t.cau = s.cau ∧ t.lock = s.lock ∧ t.composer = s.composer ∧ t.engine = s.engine ∧
      t.account.reservation = s.account.reservation ∧ t.ctl = s.ctl ∧ t.monitor.lockout = s.monitor.lockout ∧
      t.startup = s.startup) : HeldInReset t := by
  have hact : active t = active s := by simp only [active, hst]
  obtain ⟨hreset, hstopped, hheld⟩ := h
  refine ⟨by rw [hr, hst]; exact hreset, fun hi => (hph (hst ▸ hi)).trans (hstopped (hst ▸ hi)), fun ha => ?_⟩
  obtain ⟨hrx, hquiet, hcau, hlock, hcomposer, hengine, hres, hctl, hlockout, hstart⟩ := hrest (hact ▸ ha)
  rw [hrx, hquiet, hcau, hlock, hcomposer, hengine, hres, hctl, hlockout, hstart]
  exact hheld (hact ▸ ha)

theorem HeldStep.heldInReset {s t : State} (a : HeldStep s t) (h : HeldInReset s) : HeldInReset t := by
  have honly := a.only
  refine h.congr a.reset (by rw [honly]) (fun _ => by rw [honly]) fun _ => ?_
  refine ⟨?_, ?_, ?_, ?_, ?_, ?_, a.reservation, ?_, ?_, ?_⟩ <;> rw [honly]

/-- In a working part rest says of a command only that RESET, the start-up and the load stand. -/
theorem HeldInReset.working {s t : State} (h : HeldInReset s) (ha : active s = true) (hr : t.pins.reset = s.pins.reset)
    (hst : t.startup.state = s.startup.state) (hph : t.loader = s.loader) : HeldInReset t :=
  h.congr hr hst (fun _ => by rw [hph]) fun hn => by simp [ha] at hn

theorem heldInReset_of_active {s : State} (hr : s.pins.reset = false) (ha : active s = true) : HeldInReset s := by
  have hne : s.startup.state ≠ .inReset := fun h => by simp [active, h] at ha
  exact ⟨by simp [hr, hne], fun h => absurd h hne, fun h => by simp [ha] at h⟩

theorem poweredOn_heldInReset (levels : Pins) (loader : Loader) (q : List Instr) :
    HeldInReset (State.poweredOn levels loader q) := by
  refine ⟨?_, ?_, fun _ => ⟨rfl, rfl, rfl, rfl, rfl, rfl, rfl, rfl, rfl, rfl, rfl, rfl⟩⟩ <;>
    cases h : levels.reset <;> simp [State.poweredOn, Loader.waiting, h]

theorem holdInReset_heldInReset (s : State) : HeldInReset (holdInReset s) :=
  ⟨⟨fun _ => rfl, fun _ => rfl⟩, fun _ => rfl, fun _ => ⟨rfl, rfl, rfl, rfl, rfl, rfl, rfl, rfl, rfl, rfl, rfl, rfl⟩⟩

theorem releaseReset_heldInReset (k : Nat) (s : State) : HeldInReset (releaseReset k s) :=
  ⟨⟨nofun, nofun⟩, nofun, fun _ => ⟨rfl, rfl, rfl, rfl, rfl, rfl, rfl, rfl, rfl, rfl, rfl, rfl⟩⟩

/-- A part that is not IN_RESET has RESET deasserted. -/
theorem HeldInReset.released {s : State} (h : HeldInReset s) (hn : s.startup.state ≠ .inReset) : s.pins.reset = false :=
  Bool.eq_false_iff.2 fun hr => hn (h.1.1 hr)

/-- Every command keeps a held part at rest: those of the start-up set it, the others reach nothing of it. -/
theorem exec_heldInReset {c : Instr} {s t : State} (h : HeldInReset s) (he : exec c s = .next t) : HeldInReset t := by
  have hdone : ∀ u : State, exec c s = .next u → HeldInReset u → HeldInReset t := fun u hu hh =>
    Host.Outcome.next.inj (hu.symm.trans he) ▸ hh
  by_cases hc : setsStartup c = true
  · cases c with
    | powerOn levels k => exact hdone _ (exec_powerOn s levels k) (poweredOn_heldInReset ..)
    | resetAssert =>
      refine hdone _ (exec_resetAssert s) ?_
      split
      · exact h
      · exact holdInReset_heldInReset s
    | resetRelease k =>
      refine hdone _ (exec_resetRelease s k) ?_
      split
      · exact releaseReset_heldInReset k s
      · exact h
    | loadEnd answer =>
      rcases exec_loadEnd s answer with hn | ⟨o, cfg, hl, -, hn⟩
      · exact hdone _ hn h
      · obtain ⟨-, -, hp, hfill, -, -⟩ := endLoad_effect o cfg { s with loader := s.loader.ending answer }
        refine hdone _ hn (heldInReset_of_active ?_ (by simp [active, hfill]))
        rw [hp]
        exact h.released (by simp [hl])
    | _ => cases hc
  rw [Bool.not_eq_true] at hc
  by_cases hl : c = .loadRetryWaitEnd
  · subst hl
    refine hdone _ (exec_loadRetryWaitEnd s) ?_
    split
    · rename_i hload
      exact h.congr rfl rfl (fun hi => by simp [hload] at hi) fun _ => ⟨rfl, rfl, rfl, rfl, rfl, rfl, rfl, rfl, rfl, rfl⟩
    · exact h
  cases ha : active s with
  | false => exact (exec_held (h.atRest ha) hc hl he).heldInReset h
  | true =>
    by_cases hm : movesStartup c = false
    · have hmild := exec_next_mild hm he
      exact h.working ha hmild.reset (by rw [hmild.startup]) hmild.loader
    cases c with
    | tick =>
      obtain ⟨-, ht⟩ := tickEvent_effect s
      exact hdone _ (exec_tick s) (h.working ha ht.reset ht.startup ht.loader)
    | fillPeriodEnd =>
      refine hdone _ (exec_fillPeriodEnd s) ?_
      split
      · rename_i hf
        obtain ⟨-, -, hp, hservice, -⟩ := endFill_effect s
        refine heldInReset_of_active ?_ (by simp [active, hservice])
        rw [hp]
        exact h.released (by simp [hf.1])
      · exact h
    | loadRetryWaitEnd => exact absurd rfl hl
    | powerOn | resetAssert | resetRelease | loadEnd => cases hc
    | _ => exact absurd rfl hm

/-- Settles O5: the queue is no part of rest, and each command keeps it by `exec_heldInReset`. -/
theorem everyStepKeepsHeldAtRest : Obligations.EveryStepKeepsHeldAtRest := by
  intro s t hs h
  rcases step_cases h with rfl | ⟨c, rest, hc⟩
  · exact hs
  · exact exec_heldInReset (s := { s with pending := rest }) hs hc

end Sys2Proof.Machine
end

section
/-! Power-on and the two edges of RESET (R193 to R196, Table 10-2). -/

namespace Sys2Proof.Machine

/-- The load that begins, by how many samples of the bus free check find SDA low (R196). -/
theorem Loader.begun_eq (k nacks : Nat) :
    Loader.begun k nacks = ⟨if k ≤ 9 then .addressing 1 else .busStuck, min k 9, none,
      List.replicate (min k 9) .pulse ++ (if k = 0 then [.start] else if k ≤ 9 then [.stop, .start] else []), nacks⟩ := by
  unfold Loader.begun
  by_cases h0 : k = 0
  · simp [h0]
  by_cases h9 : k ≤ 9
  · simp [h0, h9]
  · simp [h0, h9, Nat.min_eq_right (Nat.le_of_not_le h9)]

theorem Row.initialRows_getElem? {n r : Nat} {row : Row} (h : (Row.initialRows n)[r]? = some row) :
    row = Row.initial (if r < n then emptyRecord else .banner .blank) := by
  by_cases hr : r < n
  · rw [Row.initialRows, List.getElem?_append_left (by simpa using hr)] at h
    simpa [hr] using h.symm
  · rw [Row.initialRows, List.getElem?_append_right (by simpa using hr)] at h
    have hlast : r - n = 0 := by
      by_contra hne
      simp [hne] at h
    simpa [hr, hlast] using h.symm

theorem Row.cut_eq (row : Row) : row.cut = { row with shown := if row.inService then none else row.shown } := by
  unfold Row.cut
  split <;> rfl

/-- Settles O13: the values that `State.poweredOn` names. -/
theorem powerOnLeavesResetValues : Obligations.PowerOnLeavesResetValues := by
  intro levels k s
  refine ⟨_, exec_powerOn s levels k, rfl, rfl, rfl, rfl, rfl, rfl, rfl, rfl, fun h => ?waits, fun h => ?loads, rfl, rfl, rfl,
    rfl, rfl, rfl, rfl, rfl, rfl, rfl, rfl, rfl, rfl, rfl, rfl, rfl, rfl, rfl, (initialRows_counts _).1,
    fun r row h => Row.initialRows_getElem? h, rfl, rfl, rfl, rfl, rfl, rfl, rfl, rfl, rfl, rfl⟩
  case waits => simp [State.poweredOn, h, Loader.waiting]
  case loads => simp [State.poweredOn, h, Loader.begun_eq]

/-- Settles O14: `holdInReset`, its rows by `Row.cut_eq`. -/
theorem resetAssertCutsWorkInFlight : Obligations.ResetAssertCutsWorkInFlight := by
  intro s h
  rw [exec_resetAssert, h, ← funext Row.cut_eq]
  rfl

/-- Settles O15: `releaseReset`, its load by `Loader.begun_eq`. -/
theorem resetReleaseLosesAndKeeps : Obligations.ResetReleaseLosesAndKeeps := by
  intro k s h
  have hkind : kindAfter s.startup = if s.startup.before = .fill ∨ s.startup.before = .service then .line else s.startup.kind := by
    cases hb : s.startup.before <;> simp [kindAfter, hb]
  refine ⟨releaseReset k s, by rw [exec_resetRelease, h]; rfl, ?_, rfl, ?_, fun r row hrow => ?_⟩
  · rw [← hkind, ← Loader.begun_eq]
    rfl
  · exact List.length_mapIdx
  · exact ⟨Row.afterReset s.cfg.n r (masksKept s.account) row, by simp [releaseReset, hrow], rfl⟩

end Sys2Proof.Machine
end

section
/-! The configuration load (R197 to R202): its attempts on the two-wire bus, when a record is valid, and what it puts in force. -/

namespace Sys2Proof.Machine

/-! ### Attempts -/

/-- Every byte read is ACKed but the last (R198). -/
theorem dataRead_eq (r : List Byte) : dataRead r = r.mapIdx (fun i b => .data b (decide (i + 1 < r.length))) := by
  induction r with
  | nil => rfl
  | cons b rest ih =>
    cases rest with
    | nil => rfl
    | cons b' rest' => simp [dataRead, ih, List.mapIdx_cons]

theorem lastAttempt_read (r : List Byte) :
    lastAttempt (.read r) =
      [.address 0x51 false true, .word 0 true, .word 0 true, .repeatedStart, .address 0x51 true true] ++
        r.mapIdx (fun i b => .data b (decide (i + 1 < r.length))) ++ [.stop] := by
  rw [← dataRead_eq]
  rfl

theorem Loader.ending_addressing {l : Loader} {k : Nat} (h : l.phase = .addressing k) (answer : MemoryAnswer) :
    l.ending answer = { l with bus := l.bus ++ lastAttempt answer } := by simp [Loader.ending, h]

theorem Loader.ending_other {l : Loader} (h : ∀ k, l.phase ≠ .addressing k) (answer : MemoryAnswer) : l.ending answer = l := by
  unfold Loader.ending
  split
  case h_1 k hk => exact absurd hk (h k)
  all_goals rfl

theorem Loader.retried_addressing {l : Loader} {k : Nat} (h : l.phase = .addressing k) :
    l.retried = { l with
      phase := if k < 4 then .addressing (k + 1) else .noMemory
      bus := l.bus ++ lastAttempt (.nack (Config.nackedByte l.nacks)) ++ (if k < 4 then [.start] else [])
      nacks := l.nacks + 1 } := by
  by_cases hk : k < 4 <;> simp [Loader.retried, h, hk, lastAttempt]

/-! ### The bytes of a record -/

section
variable {r : List Byte} {i : Nat}

/-- A record of 512 bytes leaves none undriven (R198). -/
theorem recByte_eq (hr : r.length = 512) (hi : i < 512) : recByte r i = byteAt r i := by
  have hlt : i < r.length := by omega
  simp [recByte, byteAt, List.getD_eq_getElem?_getD, hlt]

theorem rec16_eq (hr : r.length = 512) (hi : i + 1 < 512) :
    rec16 r i = (byteAt r i).toNat * 256 + (byteAt r (i + 1)).toNat := by
  rw [rec16, recByte_eq hr (by omega), recByte_eq hr hi]

theorem rec32_eq (hr : r.length = 512) (hi : i + 3 < 512) :
    rec32 r i = (byteAt r i).toNat * 16777216 + (byteAt r (i + 1)).toNat * 65536 + (byteAt r (i + 2)).toNat * 256 +
      (byteAt r (i + 3)).toNat := by
  have hnext : i + 2 + 1 = i + 3 := rfl
  rw [rec32, rec16_eq hr (by omega), rec16_eq hr (by omega), hnext]
  omega

theorem recText_eq (hr : r.length = 512) {k : Nat} (hi : i + k ≤ 512) :
    recText r i k = (List.range k).map (fun j =>
      if 0x20 ≤ (byteAt r (i + j)).toNat ∧ (byteAt r (i + j)).toNat ≤ 0x7E then byteAt r (i + j) else 0x20) := by
  refine List.map_congr_left fun j hj => ?_
  have hlt := List.mem_range.1 hj
  rw [recByte_eq hr (by omega)]
  rfl

/-- The check covers the 510 bytes before it (R200). -/
theorem recordBytes_eq (hr : r.length = 512) : (List.range 510).map (recByte r) = r.take 510 := by
  refine List.ext_getElem (by simp [hr]) fun j hj hj' => ?_
  have hlt : j < 510 := by simpa using hj
  have hlen : j < r.length := by omega
  simp [recByte, List.getD_eq_getElem?_getD, hlen]

theorem recT3_eq : recT3 r = max 1 (rec32 r 26) := by
  unfold recT3
  split <;> omega

end

theorem clampTo_eq {lo hi : Nat} (h : lo ≤ hi) (v : Nat) : clampTo lo hi v = max lo (min hi v) := by
  unfold clampTo
  split
  case isTrue => omega
  case isFalse => split <;> omega

theorem getLsbD_zero_eq (b : Byte) : b.getLsbD 0 = decide (b.toNat % 2 = 1) := by
  rw [BitVec.getLsbD, Nat.testBit_zero]

theorem getLsbD_one_eq (b : Byte) : b.getLsbD 1 = decide (b.toNat / 2 % 2 = 1) := by
  rw [BitVec.getLsbD, Nat.testBit_succ, Nat.testBit_zero]

/-! ### Routes -/

/-- The numbers of a record's bytes, as the tests and the fields of section 10.4 read them. -/
structure RecordBytes (r : List Byte) (b two : Nat → Nat) : Prop where
  length : r.length = 512
  byte : ∀ i, b i = (byteAt r i).toNat
  word : ∀ i, two i = b i * 256 + b (i + 1)

namespace RecordBytes

variable {r : List Byte} {b two : Nat → Nat} {i : Nat}

theorem byte_eq (h : RecordBytes r b two) (hi : i < 512) : (recByte r i).toNat = b i := by
  rw [h.byte, recByte_eq h.length hi]

theorem word_eq (h : RecordBytes r b two) (hi : i + 1 < 512) : rec16 r i = two i := by
  rw [h.word, h.byte, h.byte, rec16_eq h.length hi]

theorem bit0_eq (h : RecordBytes r b two) (hi : i < 512) : (recByte r i).getLsbD 0 = decide (b i % 2 = 1) := by
  rw [getLsbD_zero_eq, h.byte_eq hi]

theorem bit1_eq (h : RecordBytes r b two) (hi : i < 512) : (recByte r i).getLsbD 1 = decide (b i / 2 % 2 = 1) := by
  rw [getLsbD_one_eq, h.byte_eq hi]

end RecordBytes

/-- The test of a route record (R200 item 7). -/
def RouteInRange (b two : Nat → Nat) (i : Nat) : Prop :=
  1 ≤ two i ∧ two i ≤ 32767 ∧ (decide (b (i + 2) % 2 = 1) = true → b (i + 7) ≤ 23) ∧
    (decide (b (i + 2) / 2 % 2 = 1) = true → b (i + 8) ≤ 23)

section
variable {r : List Byte} {b two : Nat → Nat} {i : Nat}

theorem routeOk_iff (h : RecordBytes r b two) (hi : i + 8 < 512) : routeOk r i = true ↔ RouteInRange b two i := by
  simp only [routeOk, RouteInRange, h.word_eq (i := i) (by omega), h.bit0_eq (i := i + 2) (by omega),
    h.bit1_eq (i := i + 2) (by omega), h.byte_eq (i := i + 7) (by omega), h.byte_eq (i := i + 8) (by omega),
    Bool.and_eq_true, Bool.or_eq_true, Bool.not_eq_true', decide_eq_true_eq, decide_eq_false_iff_not, and_assoc,
    ← imp_iff_not_or]

/-- The tests of a record, in their order (R200). -/
theorem recordValid_iff (h : RecordBytes r b two) :
    recordValid r = true ↔
      two 0 = 0x4A4C ∧ b 2 = 1 ∧ (bodyCheck (r.take 510)).toNat = two 510 ∧
      1 ≤ two 3 ∧ two 3 ≤ 0xFFFD ∧ 4 ≤ b 8 ∧ b 8 ≤ 10 ∧ recT3 r < rec32 r 22 ∧ rec32 r 22 < rec32 r 18 ∧
      rec32 r 18 ≤ rec32 r 14 ∧ b 32 ≤ 12 ∧ ∀ i : Nat, i < b 32 → RouteInRange b two (33 + 18 * i) := by
  have hroutes : b 32 ≤ 12 → ((List.range (b 32)).all (fun i => routeOk r (routeAt i)) = true ↔
      ∀ i : Nat, i < b 32 → RouteInRange b two (33 + 18 * i)) := fun hcount => by
    simp only [List.all_eq_true, List.mem_range]
    exact forall₂_congr fun i hi => routeOk_iff h (i := routeAt i) (by unfold routeAt; omega)
  simp only [recordValid, recordFieldsOk, recordCheckOk, Bool.and_eq_true, decide_eq_true_eq, recordBytes_eq h.length,
    byte_eq_one_iff, h.word_eq (i := 0) (by omega), h.word_eq (i := 3) (by omega), h.word_eq (i := 510) (by omega),
    h.byte_eq (i := 2) (by omega), h.byte_eq (i := 8) (by omega), h.byte_eq (i := 32) (by omega)]
  constructor
  · rintro ⟨⟨⟨⟨⟨⟨⟨⟨⟨⟨⟨hmagic, hversion⟩, hlo⟩, hhi⟩, hn4⟩, hn10⟩, ht3⟩, ht2⟩, ht1⟩, hcount⟩, hall⟩, hcheck⟩
    exact ⟨hmagic, hversion, hcheck, hlo, hhi, hn4, hn10, ht3, ht2, ht1, hcount, (hroutes hcount).1 hall⟩
  · rintro ⟨hmagic, hversion, hcheck, hlo, hhi, hn4, hn10, ht3, ht2, ht1, hcount, hall⟩
    exact ⟨⟨⟨⟨⟨⟨⟨⟨⟨⟨⟨hmagic, hversion⟩, hlo⟩, hhi⟩, hn4⟩, hn10⟩, ht3⟩, ht2⟩, ht1⟩, hcount⟩, (hroutes hcount).2 hall⟩, hcheck⟩

end

/-- A route record in range as it stands in the configuration (Table 10-4). -/
theorem readRoute_eq {r : List Byte} {b two : Nat → Nat} {i : Nat} (h : RecordBytes r b two) (hi : i + 8 < 512)
    (hin : RouteInRange b two i) :
    let drawn (i n : Nat) : List Byte := (List.range n).map (fun j =>
      if 0x20 ≤ b (i + j) ∧ b (i + j) ≤ 0x7E then byteAt r (i + j) else 0x20)
    readRoute r i = ⟨two i, decide (b (i + 2) % 2 = 1), decide (b (i + 2) / 2 % 2 = 1), drawn (i + 3) 4,
      if decide (b (i + 2) % 2 = 1) then drawn (256 + 10 * b (i + 7)) 10 else [],
      if decide (b (i + 2) / 2 % 2 = 1) then drawn (256 + 10 * b (i + 8)) 10 else []⟩ := by
  intro drawn
  obtain ⟨-, -, h7, h8⟩ := hin
  have htext : ∀ j k, j + k ≤ 512 → recText r j k = drawn j k := fun j k hjk => by
    simp only [recText_eq h.length hjk, drawn, h.byte]
  have hdest : ∀ p : Bool, ∀ j, (p = true → j ≤ 23) →
      (if p then destText r j else []) = if p then drawn (256 + 10 * j) 10 else [] := fun p j hj => by
    cases p with
    | false => rfl
    | true => exact htext _ _ (by have := hj rfl; omega)
  simp only [readRoute, h.word_eq (i := i) (by omega), h.bit0_eq (i := i + 2) (by omega),
    h.bit1_eq (i := i + 2) (by omega), h.byte_eq (i := i + 7) (by omega), h.byte_eq (i := i + 8) (by omega),
    htext (i + 3) 4 (by omega), hdest _ _ h7, hdest _ _ h8]

theorem loadResult_record (k : Nat) (r : List Byte) : loadResult (.addressing k) (.read r) = some (recordResult r) := rfl

/-- Settles O16: the attempts by `Loader.retried_addressing` and `lastAttempt_read`, a record's tests by `recordValid_iff`, its
fields byte by byte. -/
theorem loadRetriesThenDecides : Obligations.LoadRetriesThenDecides := by
  refine ⟨fun k s hload hphase _ => ?retries, ⟨rfl, rfl, rfl, rfl, lastAttempt_read⟩,
    fun l answer => ⟨fun k hk => Loader.ending_addressing hk answer, fun hk => Loader.ending_other hk answer⟩,
    fun answer byte k => ⟨rfl, rfl, fun hk => if_pos hk, fun hk => if_neg (by omega)⟩, fun r k hr => ?record⟩
  case retries => rw [exec_loadRetryWaitEnd, if_pos hload, Loader.retried_addressing hphase]
  case record =>
    intro b two four t3 clamp drawn bit0 bit1 okRoute route valid
    have h : RecordBytes r b two := ⟨hr, fun _ => rfl, fun _ => rfl⟩
    have hfour : ∀ i, i + 3 < 512 → rec32 r i = four i := fun i hi => rec32_eq hr hi
    have ht3 : recT3 r = t3 := by rw [recT3_eq, hfour 26 (by omega)]
    have hiff : recordValid r = true ↔ valid := by
      rw [recordValid_iff h, ht3, hfour 22 (by omega), hfour 18 (by omega), hfour 14 (by omega)]
      rfl
    have hclamp : ∀ lo hi i, lo ≤ hi → i < 512 → clampTo lo hi (recByte r i).toNat = clamp lo hi (b i) :=
      fun lo hi i hlo hi512 => by rw [clampTo_eq hlo, h.byte_eq hi512]
    refine ⟨fun hinvalid => ?invalid, fun hvalid => ⟨recordCfg r, ?valid, rfl, ?ownId, recByte_eq hr (by omega), ?key,
      h.byte_eq (by omega), hclamp _ _ _ (by omega) (by omega), hclamp _ _ _ (by omega) (by omega),
      hclamp _ _ _ (by omega) (by omega), hclamp _ _ _ (by omega) (by omega), hclamp _ _ _ (by omega) (by omega),
      hfour 14 (by omega), hfour 18 (by omega), hfour 22 (by omega), ht3, ?rise, ?routes⟩⟩
    case invalid => rw [loadResult_record, recordResult, if_neg (mt hiff.1 hinvalid)]
    case valid => rw [loadResult_record, recordResult, if_pos (hiff.2 hvalid)]
    case ownId => exact (be16_toNat ..).trans (h.word_eq (i := 3) (by omega))
    case key => exact (be16_toNat ..).trans (h.word_eq (i := 6) (by omega))
    case rise =>
      obtain ⟨-, -, -, -, -, -, -, -, -, hcap, -, -⟩ := hvalid
      simp only [recordCfg, h.word_eq (i := 30) (by omega), hfour 14 (by omega), hfour 18 (by omega)]
      split <;> omega
    case routes =>
      obtain ⟨-, -, -, -, -, -, -, -, -, -, hcount, hroutes⟩ := hvalid
      simp only [recordCfg, h.byte_eq (i := 32) (by omega)]
      refine List.map_congr_left fun i hi => ?_
      have hlt := List.mem_range.1 hi
      exact readRoute_eq h (i := routeAt i) (by unfold routeAt; omega) (hroutes i hlt)

end Sys2Proof.Machine
end

section
/-! The start of a pass (R102, R103) with the sweep that is due before it (R69), where the fill period (R205) and the composition
period (R100) end; the end of the wall reference (R84); the counters (R213) and the banner reserve (R176). -/

namespace Sys2Proof.Machine

/-- A pass that starts: the sweep that is due, and then the lock (R69, R103). -/
theorem startPass_eq (s : State) :
    startPass s = { s with
      table := if s.sweepWaiting then sweptTable s.clock s.table else s.table
      sweepWaiting := false
      lock := .held
      composer := ⟨.passing, false, some (s.clock + BitVec.ofNat 32 (periodTicks s.cfg s.account.stage)), false,
        some ⟨s.clock, s.account.stage, s.wall, s.composer.clearArmed⟩, false, false⟩ } := by
  cases h : s.sweepWaiting <;> simp [startPass, takeLock, State.sweepDue, h, State.sweep, State.setTable]

/-- Settles O19: the end of the fill period, its first pass by `startPass_eq`. -/
theorem fillPeriodEndStartsService : Obligations.FillPeriodEndStartsService := by
  intro s hfill htimer held
  have hexec : exec .fillPeriodEnd s = .next (endFill s) := by
    rw [exec_fillPeriodEnd, if_pos ⟨hfill, by simp [ranOut, htimer]⟩]
  refine ⟨fun hfrozen => ?frozen, fun hstage => ?working⟩
  case frozen => rw [hexec, endFill, startInterval_account, if_pos hfrozen]; rfl
  case working => rw [hexec, endFill, startInterval_account, if_neg hstage, startPass_eq]; rfl

/-- Settles O50: the pass by `startPass_eq`. -/
theorem periodEndStartsAPass : Obligations.PeriodEndStartsAPass := by
  intro s next hact hnext
  have hover : periodOver s = true ↔ (next - s.clock).toInt ≤ 0 := by
    simp [periodOver, hnext, hasCome, tickDiff]
  refine ⟨fun hcome hidle => ?starts, fun hnot => if_neg ?none⟩
  case starts =>
    have hexec : exec .compositionPeriodEnd s = .next (startPass s) :=
      if_pos ⟨hact, by simp [composerIdle, hidle], hover.2 hcome⟩
    rw [hexec, startPass_eq]
    rfl
  case none =>
    rintro ⟨-, hidle, hcome⟩
    have hcome' := hover.1 hcome
    rcases hnot with hlate | hbusy
    · omega
    · exact hbusy (of_decide_eq_true hidle)

/-- Settles O23. -/
theorem wallReferenceExpires : Obligations.WallReferenceExpires := by
  intro s w hw
  have hover : s.wall.any (fun w => wallOver w s.clock) = true ↔ 691200 ≤ (s.clock - w.refTick).toInt := by
    simp [hw, wallOver, dayTicks, tickDiff]
  exact ⟨fun h => if_pos (hover.2 h), fun h => if_neg fun ho => by have := hover.1 ho; omega⟩

/-- Settles O32: each counter's own place in the list. -/
theorem countersRiseAndStay : Obligations.CountersRiseAndStay := by
  refine ⟨fun k c _ => ?_, rfl, fun _ => rfl⟩
  cases k <;> simp [countOn, countersList, Counter.place, bump_eq_min]

/-- Settles O49: no band of either waveform has more frames than FULL in B0. -/
theorem bannerReserveIsAColdPanelClear : Obligations.BannerReserveIsAColdPanelClear := by
  intro n k
  refine ⟨rfl, rfl, fun w b => ?_⟩
  have hframes : driveFrames w b ≤ 52 := by cases w <;> cases b <;> decide
  exact Nat.add_le_add_left (Nat.mul_le_mul_left _ (by omega)) 40

end Sys2Proof.Machine
end

section
/-! The receiver's power as what is wanted of it changes (R13), and the edges of the listening window (R14). -/

namespace Sys2Proof.Machine

section
variable {s : State}

theorem receiverAgrees_iff : receiverAgrees s = true ↔
    (s.rx.state = .off → wantedOn s = false) ∧ (s.rx.state = .listen → wantedOn s = true) := by
  cases h : s.rx.state <;> simp [receiverAgrees, h]

/-- A receiver that runs for its own sake moves by nothing that is wanted of it (R13). -/
theorem receiverAgrees_running (h : s.rx.state = .receiving ∨ s.rx.state = .transmitting) : receiverAgrees s = true := by
  rcases h with h | h <;> simp [receiverAgrees_iff, h]

/-- The entry to LISTEN (R2, R13, R26). -/
def State.listening (s : State) : State :=
  { s with rx := { s.rx with state := .listen, firstSync := false }, quiet := loadedQuiet }

theorem receiverFollow_opens (hoff : s.rx.state = .off) (hw : wantedOn s = true) : receiverFollow s = s.listening := by
  simp [receiverFollow, hoff, hw, State.listening]

theorem receiverFollow_closes (hl : s.rx.state = .listen) (hw : wantedOn s = false) : receiverFollow s = s.setRx .off := by
  simp [receiverFollow, hl, hw]

theorem receiverUpdate_opens (hoff : s.rx.state = .off) (hw : wantedOn s = true) : receiverUpdate s = s.listening := by
  simp [receiverUpdate, hoff, receiverFollow_opens hoff hw]

theorem abandonAttempt_idle (h : s.cau = .idle) : abandonAttempt s = s := by simp [abandonAttempt, h]

/-- A receiver that enters OFF by the gate or the window ends the attempt in progress (R32). -/
theorem receiverUpdate_closes (hl : s.rx.state = .listen) (hw : wantedOn s = false) :
    receiverUpdate s = abandonAttempt (s.setRx .off) := by
  simp [receiverUpdate, hl, receiverFollow_closes hl hw]

theorem wantedOn_iff : wantedOn s = true ↔ active s = true ∧ (s.rx.window.on = true ∨ s.cau ≠ .idle) ∧ gateOpen s = true := by
  simp [wantedOn, carrierSense, and_assoc]

end

/-! ### The listening window -/

theorem exec_listenPeriodEnd_over {s : State} (hr : s.rx.window.running = true)
    (hover : ((listenPattern s.rx.window.pattern).1 : Int) ≤ (s.clock - s.rx.window.start).toInt) :
    exec .listenPeriodEnd s = .next (receiverUpdate (beginPeriod s)) := if_pos ⟨hr, decide_eq_true hover⟩

theorem exec_listenWindowOff_over {s : State} (hr : s.rx.window.running = true) (hon : s.rx.window.on = true)
    (hfull : s.rx.window.pattern ≠ .full)
    (hover : ((listenPattern s.rx.window.pattern).2 : Int) ≤ (s.clock - s.rx.window.start).toInt) :
    exec .listenWindowOff s = .next (receiverUpdate (closeWindow s)) := by
  have hspan : (listenPattern s.rx.window.pattern).2 < (listenPattern s.rx.window.pattern).1 := by
    cases hp : s.rx.window.pattern with
    | full => exact absurd hp hfull
    | thrift | scant | frozen => decide
  exact if_pos ⟨hr, hon, hspan, decide_eq_true hover⟩

/-- Settles O24: the edges of the window, and what the receiver does at each by what is then wanted of it. -/
theorem listeningPeriodsAndTheirWindows : Obligations.ListeningPeriodsAndTheirWindows := by
  refine ⟨fun s hact hrun hcau hover => ?begins, fun s hrun hon hfull hcau hover => ?ends⟩
  case begins =>
    have hexec := exec_listenPeriodEnd_over hrun (by cases hp : s.rx.window.pattern <;> simpa [hp, listenPattern] using hover)
    have hwant : wantedOn (beginPeriod s) = gateOpen s := by
      have hgate : gateOpen (beginPeriod s) = gateOpen s := rfl
      rw [Bool.eq_iff_iff, wantedOn_iff, hgate]
      exact ⟨fun h => h.2.2, fun h => ⟨hact, .inl rfl, h⟩⟩
    intro w
    refine ⟨fun hgate hoff => ?opens, fun hstays => ?stays⟩
    case opens => rw [hexec, receiverUpdate_opens (s := beginPeriod s) hoff (hwant.trans hgate)]; rfl
    case stays =>
      have hagrees : receiverAgrees (beginPeriod s) = true := by
        rw [receiverAgrees_iff, hwant]
        rcases hstays with h | h | ⟨h, hgate⟩ | ⟨h, hgate⟩ <;> simp [*]
      rw [hexec, receiverUpdate_agrees _ hagrees]
      rfl
  case ends =>
    have hexec := exec_listenWindowOff_over hrun hon hfull
      (by cases hp : s.rx.window.pattern <;> simp_all [listenPattern])
    have hwant : wantedOn (closeWindow s) = false := by
      rw [Bool.eq_false_iff, ne_eq, wantedOn_iff]
      rintro ⟨-, hwindow | hsense, -⟩
      · cases hwindow
      · exact hsense hcau
    refine ⟨fun hl => ?off, fun hl => ?stays⟩
    case off => rw [hexec, receiverUpdate_closes (s := closeWindow s) hl hwant, abandonAttempt_idle (by exact hcau)]; rfl
    case stays => rw [hexec, receiverUpdate_agrees _ (receiverAgrees_iff.2 ⟨fun _ => hwant, fun h => absurd h hl⟩)]; rfl

end Sys2Proof.Machine
end

section
/-! The characters of the air receiver (R1 to R5): sync pairs, the length byte, the characters of a frame and its ends. -/

namespace Sys2Proof.Machine

/-! ### A receive buffer by its name -/

/-- The receiver with another content of one buffer (R17). -/
def Receiver.withBuffer (id : BufId) (buf : Option RxBuffer) (rx : Receiver) : Receiver :=
  { rx with bufA := if id = .a then buf else rx.bufA, bufB := if id = .b then buf else rx.bufB }

section
variable (id : BufId) (s : State)

theorem freeBuffer_eq : s.freeBuffer id = { s with rx := s.rx.withBuffer id none } := by cases id <;> rfl

theorem drop_eq (k : Counter) : s.drop id k = State.count k { s with rx := s.rx.withBuffer id none } := by
  rw [State.drop, freeBuffer_eq]

variable {id s}

theorem updateBuffer_eq {b : RxBuffer} (h : bufferOf s id = some b) (f : RxBuffer → RxBuffer) :
    s.updateBuffer id f = { s with rx := s.rx.withBuffer id (some (f b)) } := by
  cases id with
  | a =>
    have hA : s.rx.bufA = some b := h
    simp [State.updateBuffer, Receiver.withBuffer, hA]
  | b =>
    have hB : s.rx.bufB = some b := h
    simp [State.updateBuffer, Receiver.withBuffer, hB]

theorem storeChar_eq {b : RxBuffer} (h : bufferOf s id = some b) (ch : Byte) :
    s.storeChar (.buffer id) ch = { s with rx := s.rx.withBuffer id (some { b with bytes := b.bytes ++ [ch] }) } :=
  updateBuffer_eq h _

theorem bufferOf_withBuffer (buf : Option RxBuffer) {t : State} (h : t.rx.bufA = (s.rx.withBuffer id buf).bufA)
    (h' : t.rx.bufB = (s.rx.withBuffer id buf).bufB) : bufferOf t id = buf := by
  cases id with
  | a => exact h
  | b => exact h'

end

/-! ### The end of a reception -/

/-- The receiver once its reception has ended, in LISTEN or OFF by what is wanted (R13). -/
def Receiver.ended (on : Bool) (rx : Receiver) : Receiver :=
  { rx with state := if on then .listen else .off, reception := .none, firstSync := false, charError := false }

/-- Without an attempt that the entry to OFF would abandon, the end of a reception moves the receiver alone (R13). -/
theorem leaveToListen_eq {s : State} (h : wantedOn s = true ∨ s.cau = .idle) :
    leaveToListen s = { s with rx := s.rx.ended (wantedOn s) } := by
  cases hw : wantedOn s with
  | true =>
    rw [leaveToListen_wanted s hw]
    rfl
  | false =>
    have hidle : s.cau = .idle := h.resolve_left (by simp [hw])
    have hw' : wantedOn s.clearReception = false := hw
    simp only [leaveToListen, hw', Bool.false_eq_true, if_false]
    exact abandonAttempt_idle hidle

/-- The same of a state that differs from `s` in nothing that the wanting and the unit look at. -/
theorem leaveToListen_like {s t : State} (h : wantedOn s = true ∨ s.cau = .idle) (hw : wantedOn t = wantedOn s)
    (hc : t.cau = s.cau) : leaveToListen t = { t with rx := t.rx.ended (wantedOn s) } := by
  rw [leaveToListen_eq (by rw [hw, hc]; exact h), hw]

/-! ### Sync hunting -/

section
variable (ch : Byte) (err : Bool) (s : State)

theorem exec_characterReceived : exec (.characterReceived ch ⟨err, none⟩) s = .next (takeCharacter ch err s) := rfl

variable {ch err s}

theorem exec_characterReceived_listen (h : s.rx.state = .listen) :
    exec (.characterReceived ch ⟨err, none⟩) s = .next (hunt ch err s) := by
  simp [exec_characterReceived, takeCharacter, h]

theorem exec_characterReceived_receiving (h : s.rx.state = .receiving) :
    exec (.characterReceived ch ⟨err, none⟩) s = .next (receive ch err s) := by
  simp [exec_characterReceived, takeCharacter, h]

end

/-- Settles O25: the characters of a LISTEN receiver by `hunt`. -/
theorem huntingTakesSyncPairs : Obligations.HuntingTakesSyncPairs := by
  refine ⟨fun ch err s => ⟨fun hdeaf => ?deaf, fun hl => ?listens⟩, fun s => ⟨fun hl => if_pos hl, fun hl => if_neg hl⟩⟩
  case deaf => rcases hdeaf with h | h <;> simp [exec_characterReceived, takeCharacter, h]
  case listens =>
    rw [exec_characterReceived_listen hl]
    refine ⟨fun herr hch => ?first, fun hother => ?other, fun herr hch hfirst => ?second⟩
    case first => simp [hunt, herr, hch]
    case other =>
      have hfirst : ¬ (err = false ∧ ch = 0xC3) := by
        rcases hother with h | ⟨h, -⟩
        · simp [h]
        · exact fun hs => h hs.2
      have hsecond : ¬ (err = false ∧ ch = 0x3C ∧ s.rx.firstSync = true) := by
        rcases hother with h | ⟨-, h⟩
        · simp [h]
        · exact fun hs => h hs.2
      rw [hunt, if_neg hfirst, if_neg hsecond]
    case second =>
      have hbegin : hunt ch err s = beginFrame s := by simp [hunt, herr, hch, hfirst]
      rw [hbegin]
      refine ⟨fun hA => ?a, fun hA hB => ?b, fun hA hB => ?none⟩
      case a => simp [beginFrame, assignBuffer, hA]
      case b =>
        obtain ⟨a, hA⟩ := Option.ne_none_iff_exists'.1 hA
        simp [beginFrame, assignBuffer, hA, hB]
      case none =>
        obtain ⟨a, hA⟩ := Option.ne_none_iff_exists'.1 hA
        obtain ⟨b, hB⟩ := Option.ne_none_iff_exists'.1 hB
        simp [beginFrame, assignBuffer, hA, hB, State.count]

/-! ### The characters of a frame -/

section
variable {ch : Byte} {err : Bool} {s : State}

/-- A length byte in range (R4). -/
theorem takeLength_stores {target : RxTarget} (hlo : 13 ≤ ch.toNat) (hhi : ch.toNat ≤ 96) :
    takeLength target ch err s =
      let u := (s.storeChar target ch).setReception (.body target ch.toNat)
      { u with rx := { u.rx with charError := err } } := if_pos ⟨hlo, hhi⟩

theorem takeLength_fails {target : RxTarget} (h : ch.toNat < 13 ∨ 96 < ch.toNat) :
    takeLength target ch err s = lengthFailure target ch.toNat s := if_neg (by omega)

/-- A character of a frame that is not its last (R5). -/
theorem takeBody_more {target : RxTarget} {left : Nat} (h : 2 ≤ left) :
    takeBody target left ch err s = (s.joinCharacter target ch err).setReception (.body target (left - 1)) :=
  if_neg (by omega)

theorem joinCharacter_buffer {id : BufId} {b : RxBuffer} (h : bufferOf s id = some b) :
    s.joinCharacter (.buffer id) ch err = { s with rx := { s.rx.withBuffer id (some { b with bytes := b.bytes ++ [ch] }) with
      charError := s.rx.charError || err } } := by
  rw [State.joinCharacter, storeChar_eq h]
  rfl

theorem receive_length {target : RxTarget} (h : s.rx.reception = .length target) :
    receive ch err s = takeLength target ch err s := by simp [receive, h]

theorem receive_body {target : RxTarget} {left : Nat} (h : s.rx.reception = .body target left) :
    receive ch err s = takeBody target left ch err s := by simp [receive, h]

theorem receive_skip {left : Nat} (h : s.rx.reception = .skip left) :
    receive ch err s = if left ≤ 1 then leaveToListen s else s.setReception (.skip (left - 1)) := by simp [receive, h]

end

/-- Settles O26: the length byte by `takeLength_stores` and `takeLength_fails`, the later characters by `takeBody_more`. -/
theorem frameCharactersAreStored : Obligations.FrameCharactersAreStored := by
  intro ch err s hrx
  rw [exec_characterReceived_receiving hrx]
  refine ⟨fun id b hb => ⟨fun hlen => ⟨fun hlo hhi => ?stored, fun hlo hout => ?failed, fun hzero hend => ?nothing⟩,
      fun left hleft hbody => ?joined⟩,
    fun hlen => ⟨fun hlo hhi => ?overrun, fun hlo hout => ?overrunFailed⟩, fun left hleft hskip => ?skipped,
    fun left hleft hbody => ?overrunJoined⟩
  case stored => rw [receive_length hlen, takeLength_stores hlo hhi, storeChar_eq hb]; rfl
  case failed =>
    rw [receive_length hlen, takeLength_fails hout, lengthFailure, if_neg (by omega), drop_eq]
    rfl
  case nothing =>
    have hdropped : wantedOn (s.drop id .rxLength) = wantedOn s := by rw [drop_eq]; rfl
    rw [receive_length hlen, takeLength_fails (by omega), lengthFailure, if_pos hzero,
      leaveToListen_eq (by rw [hdropped, drop_eq]; exact hend), hdropped, drop_eq]
    rfl
  case joined => rw [receive_body hbody, takeBody_more hleft, joinCharacter_buffer hb]; rfl
  case overrun => rw [receive_length hlen, takeLength_stores hlo hhi]; rfl
  case overrunFailed => rw [receive_length hlen, takeLength_fails hout, lengthFailure, if_neg (by omega)]; rfl
  case skipped => rw [receive_skip hskip, if_neg (by omega)]; rfl
  case overrunJoined => rw [receive_body hbody, takeBody_more hleft]; rfl

/-! ### The ends of a frame -/

section
variable {ch : Byte} {err : Bool} {s : State}

theorem takeBody_last {target : RxTarget} {left : Nat} (h : left ≤ 1) :
    takeBody target left ch err s = frameEnd target (s.joinCharacter target ch err) := if_pos h

end

/-- The normal end of a frame in a buffer, by its character-error mark (R5, R18 step 2). -/
theorem frameEndBy_buffer (leave : State → State) {id : BufId} {b : RxBuffer} {s : State} (hb : bufferOf s id = some b) :
    frameEndBy leave (.buffer id) s =
      if s.rx.charError then leave (s.drop id .rxChar) else validate id b.bytes (leave s) := by
  simp only [frameEndBy, hb]

/-- Settles O27: the last character joins its frame, whose end is by `frameEndBy_buffer` and `leaveToListen_like`. -/
theorem lastCharacterEndsTheFrame : Obligations.LastCharacterEndsTheFrame := by
  intro ch err s hrx hend ended
  rw [exec_characterReceived_receiving hrx]
  refine ⟨fun id b hb hbody => ?frame, fun hlast => ?uncounted⟩
  case frame =>
    have hlast : receive ch err s =
        frameEndBy leaveToListen (.buffer id) { s with rx := { s.rx.withBuffer id (some { b with bytes := b.bytes ++ [ch] }) with
          charError := s.rx.charError || err } } := by
      rw [receive_body hbody, takeBody_last le_rfl, joinCharacter_buffer hb]
      rfl
    rw [hlast, frameEndBy_buffer _ (bufferOf_withBuffer _ rfl rfl)]
    refine ⟨fun hmarked => ?dropped, fun hclean herr => ?validated⟩
    case dropped =>
      have hmark : (s.rx.charError || err) = true := by simpa using hmarked
      rw [if_pos hmark, drop_eq, leaveToListen_like hend]
      · cases id <;> rfl
      · rfl
      · rfl
    case validated =>
      have hmark : (s.rx.charError || err) = false := by simp [hclean, herr]
      rw [if_neg (by simp [hmark]), leaveToListen_like hend]
      · rfl
      · rfl
      · rfl
  case uncounted =>
    have hleave : receive ch err s = leaveToListen s ∨ receive ch err s = leaveToListen (s.joinCharacter .overrun ch err) := by
      rcases hlast with h | h
      · exact .inr (by rw [receive_body h, takeBody_last le_rfl]; rfl)
      · exact .inl (by rw [receive_skip h, if_pos le_rfl])
    rcases hleave with h | h <;> rw [h]
    · exact congrArg Host.Outcome.next (leaveToListen_eq hend)
    · exact congrArg Host.Outcome.next (leaveToListen_like hend rfl rfl)

/-! ### The early end of a frame or a skip -/

section
variable {s : State}

theorem endEarly_cut {target : RxTarget} (hrx : s.rx.state = .receiving)
    (h : s.rx.reception = .length target ∨ ∃ left, s.rx.reception = .body target left) :
    endEarly s = leaveToListen (s.discardCut target) := by
  rcases h with h | ⟨left, h⟩ <;> simp [endEarly, hrx, h]

theorem endEarly_skip {left : Nat} (hrx : s.rx.state = .receiving) (h : s.rx.reception = .skip left) :
    endEarly s = leaveToListen s := by simp [endEarly, hrx, h]

theorem discardCut_buffer (id : BufId) (s : State) :
    s.discardCut (.buffer id) =
      State.count (if s.rx.charError then .rxChar else .rxShort) { s with rx := s.rx.withBuffer id none } := by
  rw [State.discardCut, freeBuffer_eq]

/-- What CD_DEASSERT does beyond the early end, to a unit that is not in SENSING: the level (R26). -/
theorem exec_cdDeassert_notSensing {u : State} (hcd : s.pins.cd = true)
    (hu : endEarly { s with pins := { s.pins with cd := false } } = u) (hn : u.cau ≠ .sensing) :
    exec .cdDeassert s = .next u := by
  refine (if_pos hcd).trans (congrArg _ ?_)
  rw [hu, senseQuiet, if_neg fun h => hn h.1]

end

/-- Settles O28: both commands end the frame or skip by `endEarly`, the receiver by `leaveToListen_like`. -/
theorem earlyEndDropsTheFrame : Obligations.EarlyEndDropsTheFrame := by
  intro s hrx hunit ended low
  have hwant : wantedOn s = true ∨ s.cau = .idle := hunit.symm.imp_left And.left
  have hsense : s.cau ≠ .sensing := by
    rcases hunit with h | ⟨-, h⟩
    · simp [h]
    · exact h
  have hboth : ∀ u : State, endEarly s = u → endEarly { s with pins := { s.pins with cd := false } } = low u →
      u.cau = s.cau → exec .interCharacterGapTimeout s = .next u ∧ (s.pins.cd = true → exec .cdDeassert s = .next (low u)) :=
    fun u hu hlow hcau => ⟨congrArg _ hu, fun hcd => exec_cdDeassert_notSensing hcd hlow (hcau ▸ hsense)⟩
  refine ⟨fun id => ?frame, fun huncounted => ?uncounted⟩
  case frame =>
    have hdropped : (s.rx.reception = .length (.buffer id) ∨ ∃ left, s.rx.reception = .body (.buffer id) left) →
        ∀ v : State, v.rx = s.rx → wantedOn v = wantedOn s → v.cau = s.cau →
          endEarly v = State.count (if s.rx.charError then .rxChar else .rxShort)
            { v with rx := (s.rx.withBuffer id none).ended (wantedOn s) } := by
      intro hrec v hv hw hc
      rw [endEarly_cut (hv ▸ hrx) (hv ▸ hrec), leaveToListen_like hwant _ _]
      · rw [discardCut_buffer, hv]
        rfl
      · rw [discardCut_buffer, ← hw]
        rfl
      · rw [discardCut_buffer, ← hc]
        rfl
    refine ⟨fun left hbody => ?body, fun hlen hclean => ?length⟩
    case body =>
      have hcut := hdropped (.inr ⟨left, hbody⟩)
      exact hboth _ (hcut s rfl rfl rfl) (hcut { s with pins := { s.pins with cd := false } } rfl rfl rfl) rfl
    case length =>
      have hcut := hdropped (.inl hlen)
      have hk : (if s.rx.charError then Counter.rxChar else .rxShort) = .rxShort := by simp [hclean]
      rw [hk] at hcut
      exact hboth _ (hcut s rfl rfl rfl) (hcut { s with pins := { s.pins with cd := false } } rfl rfl rfl) rfl
  case uncounted =>
    have hleave : ∀ v : State, v.rx = s.rx → endEarly v = leaveToListen v := by
      intro v hv
      rcases huncounted with h | ⟨left, h | h⟩
      · exact endEarly_cut (by rw [hv, hrx]) (.inl (hv ▸ h))
      · exact endEarly_cut (by rw [hv, hrx]) (.inr ⟨left, hv ▸ h⟩)
      · exact endEarly_skip (by rw [hv, hrx]) (hv ▸ h)
    refine hboth _ ?_ ?_ rfl
    · exact (hleave s rfl).trans (leaveToListen_eq hwant)
    · exact (hleave { s with pins := { s.pins with cd := false } } rfl).trans (leaveToListen_eq hwant)

end Sys2Proof.Machine
end

section
/-! The rules of the channel access unit (R26 to R35): what an attempt, a contention draw, a sending and a deferral make of the
state, case by case. -/

namespace Sys2Proof.Machine

/-! ### The entries of one key -/

theorem updateSeen_eq (o q : Word16) (f : SeenEntry → SeenEntry) (l : List SeenEntry) :
    updateSeen o q f l = l.map (fun x => if x.origin = o ∧ x.seq = q then f x else x) := by
  simp [updateSeen, SeenEntry.hasKey]

/-! ### The receiver under a carrier-sense request -/

section
variable {s : State}

theorem receiverFollow_wanted (hl : s.rx.state = .listen) (hw : wantedOn s = true) : receiverFollow s = s := by
  simp [receiverFollow, hl, hw]

theorem receiverFollow_transmitting (h : s.rx.state = .transmitting) : receiverFollow s = s := by simp [receiverFollow, h]

theorem wantedOn_busy (hact : active s = true) (hcau : s.cau ≠ .idle) (hg : gateOpen s = true) : wantedOn s = true :=
  wantedOn_iff.2 ⟨hact, .inr hcau, hg⟩

theorem wantedOn_window (hact : active s = true) (hon : s.rx.window.on = true) (hg : gateOpen s = true) : wantedOn s = true :=
  wantedOn_iff.2 ⟨hact, .inl hon, hg⟩

theorem wantedOn_shut (hg : gateOpen s = false) : wantedOn s = false := by simp [wantedOn, hg]

theorem channelQuiet_eq_false : channelQuiet s = false ↔ s.quiet ≠ .expired ∨ s.pins.cd = true := by
  cases hcd : s.pins.cd <;> simp [channelQuiet, hcd]

theorem channelQuiet_iff : channelQuiet s = true ↔ s.quiet = .expired ∧ s.pins.cd = false := by simp [channelQuiet]

end

/-! ### Candidates -/

section
variable {s : State}

theorem candidate_reply {r : Reply} {rest : List Reply} (h : s.maint.replies = r :: rest) : candidate? s = some .reply := by
  simp [candidate?, h]

theorem readyRelay_eq (s : State) : readyRelay s = s.relayQ.find? (fun x => decide ((x.due - s.clock).toInt ≤ 0)) := rfl

theorem readyRelay_eq_none : readyRelay s = none ↔ ∀ e ∈ s.relayQ, 0 < (e.due - s.clock).toInt := by
  simp [readyRelay_eq]

theorem candidate_relay {e : RelayEntry} (hn : s.maint.replies = [])
    (he : s.relayQ.find? (fun x => decide ((x.due - s.clock).toInt ≤ 0)) = some e) :
    candidate? s = some (.relay e.origin e.seq) := by
  have hready : readyRelay s = some e := he
  simp [candidate?, hn, hready]

theorem candidate_eq_none : candidate? s = none ↔ s.maint.replies = [] ∧ ∀ e ∈ s.relayQ, 0 < (e.due - s.clock).toInt := by
  cases hr : s.maint.replies with
  | nil => simp [candidate?, hr, readyRelay_eq_none]
  | cons r rest => simp [candidate?, hr]

end

/-! ### The attempt that starts -/

theorem startAttempts_busy (n : Nat) {s : State} (h : s.cau ≠ .idle) : startAttempts n s = s := by
  cases n <;> simp [startAttempts, h]

theorem startAttempts_none (n : Nat) {s : State} (h : candidate? s = none) : startAttempts n s = s := by
  cases n <;> simp [startAttempts, h]

/-- The drawn contention delay (R25, R30). -/
def contentionMs (s : State) : Nat := (lfsrDraw s.rng).toNat % 64 * 2

/-- The unit in the contention delay drawn for a candidate (R30). -/
def State.contends (c : Candidate) (s : State) : State :=
  { s with rng := lfsrDraw s.rng, cau := .contending c (contentionMs s) }

theorem contentionDraw_eq (c : Candidate) (s : State) :
    contentionDraw c s = if (lfsrDraw s.rng).toNat % 64 = 0 then energyCheck c (s.contends c) else s.contends c := by
  have hzero : (lfsrDraw s.rng).toNat % 64 * 2 = 0 ↔ (lfsrDraw s.rng).toNat % 64 = 0 := by omega
  simp only [contentionDraw, State.contends, contentionMs, hzero]

section
variable {s : State} {c : Candidate}

theorem energyCheck_pays (h : ((candidateFrame s c).length : Int) ≤ spendable s) : energyCheck c s = s.send c := if_pos h

theorem energyCheck_refuses (h : spendable s < ((candidateFrame s c).length : Int)) :
    energyCheck c s = (s.abandon c).setCau .idle := if_neg (not_le.2 h)

theorem contentionDraw_waits (h : (lfsrDraw s.rng).toNat % 64 ≠ 0) : contentionDraw c s = s.contends c := by
  rw [contentionDraw_eq, if_neg h]

theorem contentionDraw_ends (h : (lfsrDraw s.rng).toNat % 64 = 0) : contentionDraw c s = energyCheck c (s.contends c) := by
  rw [contentionDraw_eq, if_pos h]

/-- An attempt begins: the carrier-sense request, and the draw on a quiet channel (R29). -/
theorem startAttempts_opens (n : Nat) (hidle : s.cau = .idle) (hc : candidate? s = some c) (hg : gateOpen s = true) :
    startAttempts (n + 1) s =
      if channelQuiet (receiverFollow (s.setCau .sensing)) then
        startAttempts n (contentionDraw c (receiverFollow (s.setCau .sensing)))
      else receiverFollow (s.setCau .sensing) := by
  simp only [startAttempts, if_pos hidle, hc, if_pos hg]

theorem startAttempts_shut (n : Nat) (hidle : s.cau = .idle) (hc : candidate? s = some c) (hg : gateOpen s = false) :
    startAttempts (n + 1) s = startAttempts n (s.abandon c) := by
  simp only [startAttempts, if_pos hidle, hc, hg, Bool.false_eq_true, if_false]

theorem startAttempt_active (hact : active s = true) : startAttempt s = startAttempts (attemptFuel s) s := if_pos hact

theorem endAttempt_eq (s : State) : endAttempt s = offerCandidate (s.setCau .idle) := rfl

/-- The receiver in LISTEN takes the carrier-sense request as it is. -/
theorem receiverFollow_sensing (hact : active s = true) (hg : gateOpen s = true) (hl : s.rx.state = .listen) :
    receiverFollow (s.setCau .sensing) = s.setCau .sensing :=
  receiverFollow_wanted hl (wantedOn_busy hact (by simp) hg)

/-- With the channel not quiet the attempt is in SENSING (R29). -/
theorem offerCandidate_senses (hact : active s = true) (hidle : s.cau = .idle) (hc : candidate? s = some c)
    (hg : gateOpen s = true) (hl : s.rx.state = .listen) (hq : channelQuiet s = false) :
    offerCandidate s = s.setCau .sensing := by
  have hq' : channelQuiet (s.setCau .sensing) = false := hq
  rw [offerCandidate, startAttempt_active hact, attemptFuel, startAttempts_opens _ hidle hc hg,
    receiverFollow_sensing hact hg hl, hq', if_neg Bool.false_ne_true, receiverFollow_sensing hact hg hl]

/-- The carrier-sense request takes a receiver from OFF to LISTEN, which loads the quiet timer (R13, R26). -/
theorem offerCandidate_listens (hact : active s = true) (hidle : s.cau = .idle) (hc : candidate? s = some c)
    (hg : gateOpen s = true) (hoff : s.rx.state = .off) : offerCandidate s = (s.setCau .sensing).listening := by
  have hopen : receiverFollow (s.setCau .sensing) = (s.setCau .sensing).listening :=
    receiverFollow_opens hoff (wantedOn_busy hact (by simp) hg)
  have hq : channelQuiet (s.setCau .sensing).listening = false := channelQuiet_eq_false.2 (.inl (by simp [State.listening, loadedQuiet]))
  rw [offerCandidate, startAttempt_active hact, attemptFuel, startAttempts_opens _ hidle hc hg, hopen, hq,
    if_neg Bool.false_ne_true]
  exact receiverFollow_wanted rfl (wantedOn_busy hact (by simp [State.listening]) hg)

/-- On a quiet channel the contention delay is drawn at once (R29, R30). -/
theorem startAttempt_draws (hact : active s = true) (hidle : s.cau = .idle) (hc : candidate? s = some c)
    (hg : gateOpen s = true) (hl : s.rx.state = .listen) (hq : channelQuiet s = true) :
    startAttempt s = startAttempts (s.maint.replies.length + s.relayQ.length) (contentionDraw c (s.setCau .sensing)) := by
  have hq' : channelQuiet (s.setCau .sensing) = true := hq
  rw [startAttempt_active hact, attemptFuel, startAttempts_opens _ hidle hc hg, receiverFollow_sensing hact hg hl, if_pos hq']

theorem offerCandidate_contends (hact : active s = true) (hidle : s.cau = .idle) (hc : candidate? s = some c)
    (hg : gateOpen s = true) (hl : s.rx.state = .listen) (hq : channelQuiet s = true)
    (hd : (lfsrDraw s.rng).toNat % 64 ≠ 0) : offerCandidate s = s.contends c := by
  have hbusy : (s.contends c).cau ≠ .idle := by simp [State.contends]
  have hdraw : contentionDraw c (s.setCau .sensing) = s.contends c := contentionDraw_waits hd
  rw [offerCandidate, startAttempt_draws hact hidle hc hg hl hq, hdraw, startAttempts_busy _ hbusy]
  exact receiverFollow_wanted hl (wantedOn_busy hact hbusy hg)

/-- A delay of 0 ms that the candidate can pay for ends with it on the air (R30, R32, R33). -/
theorem offerCandidate_sends (hact : active s = true) (hidle : s.cau = .idle) (hc : candidate? s = some c)
    (hg : gateOpen s = true) (hl : s.rx.state = .listen) (hq : channelQuiet s = true)
    (hd : (lfsrDraw s.rng).toNat % 64 = 0) (hpay : ((candidateFrame s c).length : Int) ≤ spendable s) :
    offerCandidate s = (s.contends c).send c := by
  have hdraw : contentionDraw c (s.setCau .sensing) = (s.contends c).send c :=
    (contentionDraw_ends hd).trans (energyCheck_pays (s := s.contends c) (by cases c <;> exact hpay))
  have hcau : ((s.contends c).send c).cau ≠ .idle := by cases c <;> simp [State.send]
  rw [offerCandidate, startAttempt_draws hact hidle hc hg hl hq, hdraw, startAttempts_busy _ hcau]
  exact receiverFollow_transmitting (by cases c <;> rfl)

end

/-! ### Sending -/

/-- The receiver while TXEN is asserted (R33). -/
def Receiver.onAir (rx : Receiver) : Receiver := { rx with state := .transmitting, firstSync := false, charError := false }

section
variable {s : State}

theorem cutReception_none (h : s.rx.reception = .none) : (cutReception s).setRx .transmitting = { s with rx := s.rx.onAir } := by
  simp [cutReception, h, State.clearReception, State.setRx, Receiver.onAir]

theorem send_reply {r : Reply} {rest : List Reply} (hr : s.maint.replies = r :: rest) (h : s.rx.reception = .none) :
    s.send .reply =
      { s with cau := .sending r.frame false, maint := { s.maint with replies := rest }, rx := s.rx.onAir } := by
  simp [State.send, cutReception_none h, candidateFrame, hr]

theorem send_relay {o q : Word16} (h : s.rx.reception = .none) :
    s.send (.relay o q) =
      { ({ s with rx := s.rx.onAir } : State).removeRelay o q .relayed with
        cau := .sending (candidateFrame s (.relay o q)) true } := by
  simp only [State.send, cutReception_none h]

end

/-! ### Deferrals and ends -/

section
variable {s : State} {c : Candidate}

theorem deferral_early (h : deferralsOf (s.deferCandidate c) c < 8) :
    deferral c s = (s.deferCandidate c).setCau .sensing := if_neg (not_le.2 h)

theorem deferral_eighth (h : deferralsOf (s.deferCandidate c) c = 8) :
    deferral c s = endAttempt ((s.deferCandidate c).abandon c) := if_pos h.ge

theorem settleAttempt_busy (h : s.cau ≠ .idle) : settleAttempt s = s := if_neg h

theorem settleAttempt_idle (h : s.cau = .idle) : settleAttempt s = endAttempt s := if_pos h

/-- An attempt that ends with no other candidate leaves the unit IDLE (R35). -/
theorem endAttempt_none (hc : candidate? s = none) (ha : receiverAgrees (s.setCau .idle) = true) :
    endAttempt s = s.setCau .idle := offerCandidate_none _ hc ha

end

end Sys2Proof.Machine
end

section
/-! The commands of the channel access unit: carrier detect, the quiet timer, the due tick of a relay and the end of a contention
delay, and a character at the instant of TXEN. -/

namespace Sys2Proof.Machine

/-! ### Carrier detect -/

section
variable {s : State}

/-- CD asserted at a powered receiver (R26). -/
def State.carrier (s : State) : State := { s with pins := { s.pins with cd := true }, quiet := loadedQuiet }

theorem exec_cdAssert (hcd : s.pins.cd = false) :
    exec .cdAssert s = .next (takeCarrier { s with pins := { s.pins with cd := true } }) := if_neg (by simp [hcd])

theorem powered_iff : powered s = true ↔ s.rx.state = .listen ∨ s.rx.state = .receiving := by simp [powered]

theorem exec_cdAssert_deaf (hcd : s.pins.cd = false) (h : s.rx.state = .off ∨ s.rx.state = .transmitting) :
    exec .cdAssert s = .next { s with pins := { s.pins with cd := true } } := by
  rw [exec_cdAssert hcd]
  rcases h with h | h <;> simp [takeCarrier, powered, h]

theorem takeCarrier_still (h : s.rx.state = .listen ∨ s.rx.state = .receiving) (hcau : s.cau = .idle ∨ s.cau = .sensing) :
    takeCarrier s = { s with quiet := loadedQuiet } := by
  have hp : powered s = true := powered_iff.2 h
  rcases hcau with hc | hc <;> simp [takeCarrier, hp, hc]

theorem takeCarrier_defers {c : Candidate} {ms : Nat} (h : s.rx.state = .listen ∨ s.rx.state = .receiving)
    (hcau : s.cau = .contending c ms) : takeCarrier s = deferral c { s with quiet := loadedQuiet } := by
  have hp : powered s = true := powered_iff.2 h
  simp [takeCarrier, hp, hcau]

theorem exec_cdAssert_still (hcd : s.pins.cd = false) (h : s.rx.state = .listen ∨ s.rx.state = .receiving)
    (hcau : s.cau = .idle ∨ s.cau = .sensing) : exec .cdAssert s = .next s.carrier :=
  (exec_cdAssert hcd).trans (congrArg _ (takeCarrier_still (s := { s with pins := { s.pins with cd := true } }) h hcau))

theorem exec_cdAssert_defers {c : Candidate} {ms : Nat} (hcd : s.pins.cd = false)
    (h : s.rx.state = .listen ∨ s.rx.state = .receiving) (hcau : s.cau = .contending c ms) :
    exec .cdAssert s = .next (deferral c s.carrier) :=
  (exec_cdAssert hcd).trans (congrArg _ (takeCarrier_defers (s := { s with pins := { s.pins with cd := true } }) h hcau))

theorem exec_contentionDelayEnd_carrier {c : Candidate} {ms : Nat} (hcau : s.cau = .contending c ms)
    (hcd : s.pins.cd = true) : exec .contentionDelayEnd s = .next (deferral c s) := by
  have h : contentionEnded s = deferral c s := by simp [contentionEnded, hcau, hcd]
  exact congrArg _ h

theorem exec_contentionDelayEnd_quiet {c : Candidate} {ms : Nat} (hcau : s.cau = .contending c ms)
    (hcd : s.pins.cd = false) : exec .contentionDelayEnd s = .next (settleAttempt (energyCheck c s)) := by
  have h : contentionEnded s = settleAttempt (energyCheck c s) := by simp [contentionEnded, hcau, hcd]
  exact congrArg _ h

/-! ### Deferrals -/

theorem deferCandidate_reply {r : Reply} {rest : List Reply} (h : s.maint.replies = r :: rest) :
    s.deferCandidate .reply =
      { s with maint := { s.maint with replies := { r with deferrals := r.deferrals + 1 } :: rest } } := by
  simp [State.deferCandidate, h]

theorem deferralsOf_reply {r : Reply} {rest : List Reply} (h : s.maint.replies = r :: rest) :
    deferralsOf (s.deferCandidate .reply) .reply = r.deferrals + 1 := by
  rw [deferCandidate_reply h]
  rfl

theorem deferralsOf_relay {o q : Word16} {e : RelayEntry} (h : findRelay o q s.relayQ = some e) :
    deferralsOf (s.deferCandidate (.relay o q)) (.relay o q) = e.deferrals + 1 := by
  have hkept : (RelayEntry.hasKey o q ∘ fun x : RelayEntry => if x.hasKey o q then { x with deferrals := x.deferrals + 1 } else x) =
      RelayEntry.hasKey o q := by
    funext x
    cases hx : x.hasKey o q <;> simp [hx]
    exact hx
  have hkey : e.hasKey o q = true := List.find?_some (p := RelayEntry.hasKey o q) h
  have hfind : (s.relayQ.map (fun x => if x.hasKey o q then { x with deferrals := x.deferrals + 1 } else x)).find?
      (RelayEntry.hasKey o q) = some { e with deferrals := e.deferrals + 1 } := by
    rw [List.find?_map, hkept]
    simp [show s.relayQ.find? (RelayEntry.hasKey o q) = some e from h, hkey]
  simp only [deferralsOf, State.deferCandidate, findRelay, hfind]
  rfl

/-- The discarded reply is the one that was deferred. -/
theorem abandon_deferred_reply {r : Reply} {rest : List Reply} (h : s.maint.replies = r :: rest) :
    (s.deferCandidate .reply).abandon .reply = { s with maint := { s.maint with replies := rest } } := by
  rw [deferCandidate_reply h]
  rfl

/-- The last relay of the queue abandoned at its eighth deferral. -/
theorem abandon_deferred_relay {o q : Word16} {e : RelayEntry} (h : s.relayQ = [e]) (ho : e.origin = o) (hq : e.seq = q) :
    (s.deferCandidate (.relay o q)).abandon (.relay o q) = State.count .relayAbandoned { s with
      relayQ := []
      seen := s.seen.map (fun x => if x.origin = o && x.seq = q then { x with state := .abandoned } else x) } := by
  subst ho hq
  have hgone : ([e].map (fun x : RelayEntry => if x.hasKey e.origin e.seq then { x with deferrals := x.deferrals + 1 } else x)).filter
      (fun x => !x.hasKey e.origin e.seq) = [] := by simp [RelayEntry.hasKey]
  have hq : (s.deferCandidate (.relay e.origin e.seq)).relayQ =
      s.relayQ.map (fun x => if x.hasKey e.origin e.seq then { x with deferrals := x.deferrals + 1 } else x) := rfl
  rw [State.abandon, State.abandonRelay, State.removeRelay, hq, h, hgone]
  rfl

end

/-- The end of an attempt at a receiver in LISTEN by its window, with the channel not quiet (R29, R35). -/
theorem endAttempt_notQuiet {s : State} (hact : active s = true) (hg : gateOpen s = true) (hl : s.rx.state = .listen)
    (hon : s.rx.window.on = true) (hq : channelQuiet s = false) :
    endAttempt s = s.setCau (if candidate? s = none then .idle else .sensing) := by
  cases hc : candidate? s with
  | none => exact endAttempt_none hc (by simp [receiverAgrees_iff, hl, show wantedOn (s.setCau .idle) = true from wantedOn_window hact hon hg])
  | some c => exact offerCandidate_senses (s := s.setCau .idle) hact rfl hc hg hl hq

/-- The eighth deferral of the only relay, with no reply waiting (R31, R35). -/
theorem deferral_lastRelay {s : State} {o q : Word16} {e : RelayEntry} (hone : s.relayQ = [e]) (ho : e.origin = o) (hq : e.seq = q)
    (hseven : e.deferrals = 7) (hnone : s.maint.replies = []) (hact : active s = true) (hg : gateOpen s = true)
    (hl : s.rx.state = .listen) (hon : s.rx.window.on = true) (hquiet : channelQuiet s = false) :
    deferral (.relay o q) s = State.count .relayAbandoned { s with
      cau := .idle
      relayQ := []
      seen := s.seen.map (fun x => if x.origin = o && x.seq = q then { x with state := .abandoned } else x) } := by
  have hfind : findRelay o q s.relayQ = some e := by simp [findRelay, hone, RelayEntry.hasKey, ho, hq]
  have hcandidate : candidate? (State.count .relayAbandoned { s with
      relayQ := []
      seen := s.seen.map (fun x => if x.origin = o && x.seq = q then { x with state := .abandoned } else x) }) = none :=
    candidate_eq_none.2 ⟨hnone, by simp [State.count]⟩
  rw [deferral_eighth (by rw [deferralsOf_relay hfind, hseven]), abandon_deferred_relay hone ho hq,
    endAttempt_notQuiet, if_pos hcandidate]
  exacts [rfl, hact, hg, hl, hon, hquiet]

/-- The eighth deferral of a reply (R31, R35, R208). -/
theorem deferral_lastReply {s : State} {r : Reply} {rest : List Reply} (hr : s.maint.replies = r :: rest)
    (hseven : r.deferrals = 7) (hact : active s = true) (hg : gateOpen s = true) (hl : s.rx.state = .listen)
    (hon : s.rx.window.on = true) (hquiet : channelQuiet s = false) :
    deferral .reply s = { s with
      cau := if rest = [] ∧ ∀ x ∈ s.relayQ, 0 < (x.due - s.clock).toInt then .idle else .sensing
      maint := { s.maint with replies := rest } } := by
  have hcandidate : candidate? { s with maint := { s.maint with replies := rest } } = none ↔
      rest = [] ∧ ∀ x ∈ s.relayQ, 0 < (x.due - s.clock).toInt := candidate_eq_none
  rw [deferral_eighth (by rw [deferralsOf_reply hr, hseven]), abandon_deferred_reply hr,
    endAttempt_notQuiet]
  · simp only [hcandidate]
    rfl
  exacts [hact, hg, hl, hon, hquiet]

/-- Settles O39: the deferrals by `deferral_early`, the eighth by `deferral_lastRelay` and `deferral_lastReply`. -/
theorem carrierLoadsQuietTimerAndDefers : Obligations.CarrierLoadsQuietTimerAndDefers := by
  refine ⟨fun s hcd => ⟨exec_cdAssert_deaf hcd, fun hon => ⟨exec_cdAssert_still hcd hon, fun ms r rest hcau hr hfew => ?reply,
      fun ms o q e hcau he hfew => ?relay⟩⟩,
    fun s ms o q e hcau hone ho hq hseven hnone hl hon hact hg => ⟨fun hcd => ?lastRelay, fun hcd => ?lastRelayEnd⟩,
    fun s ms r rest hcau hr hseven hl hon hact hg => ⟨fun hcd => ?lastReply, fun hcd => ?lastReplyEnd⟩⟩
  case reply =>
    have hr' : s.carrier.maint.replies = r :: rest := hr
    rw [exec_cdAssert_defers hcd hon hcau, deferral_early (by rw [deferralsOf_reply hr']; omega), deferCandidate_reply hr']
    rfl
  case relay =>
    have he' : findRelay o q s.carrier.relayQ = some e := he
    rw [exec_cdAssert_defers hcd hon hcau, deferral_early (by rw [deferralsOf_relay he']; omega)]
    rfl
  case lastRelay =>
    refine (exec_cdAssert_defers hcd (.inl hl) hcau).trans (congrArg _ ?_)
    exact deferral_lastRelay (s := s.carrier) hone ho hq hseven hnone hact hg hl hon (channelQuiet_eq_false.2 (.inr rfl))
  case lastRelayEnd =>
    exact (exec_contentionDelayEnd_carrier hcau hcd).trans (congrArg _
      (deferral_lastRelay hone ho hq hseven hnone hact hg hl hon (channelQuiet_eq_false.2 (.inr hcd))))
  case lastReply =>
    refine (exec_cdAssert_defers hcd (.inl hl) hcau).trans (congrArg _ ?_)
    exact deferral_lastReply (s := s.carrier) hr hseven hact hg hl hon (channelQuiet_eq_false.2 (.inr rfl))
  case lastReplyEnd =>
    exact (exec_contentionDelayEnd_carrier hcau hcd).trans (congrArg _
      (deferral_lastReply hr hseven hact hg hl hon (channelQuiet_eq_false.2 (.inr hcd))))

/-! ### The quiet timer -/

section
variable {s : State} {c : Candidate}

theorem senseQuiet_not (h : s.cau ≠ .sensing ∨ channelQuiet s = false) : senseQuiet s = s :=
  if_neg fun hs => h.elim (fun hc => hc hs.1) (fun hq => by simp [hq] at hs)

theorem senseQuiet_draws (hcau : s.cau = .sensing) (hq : channelQuiet s = true) (hc : candidate? s = some c) :
    senseQuiet s = settleAttempt (contentionDraw c s) := by simp [senseQuiet, hcau, hq, hc]

/-- The contention delay drawn on a quiet channel (R29, R30). -/
theorem senseQuiet_contends (hcau : s.cau = .sensing) (hq : channelQuiet s = true) (hc : candidate? s = some c)
    (hd : (lfsrDraw s.rng).toNat % 64 ≠ 0) : senseQuiet s = s.contends c := by
  rw [senseQuiet_draws hcau hq hc, contentionDraw_waits hd, settleAttempt_busy (by simp [State.contends])]

/-- A delay of 0 ms that the candidate can pay for (R30, R32, R33). -/
theorem senseQuiet_sends (hcau : s.cau = .sensing) (hq : channelQuiet s = true) (hc : candidate? s = some c)
    (hd : (lfsrDraw s.rng).toNat % 64 = 0) (hpay : ((candidateFrame s c).length : Int) ≤ spendable s) :
    senseQuiet s = (s.contends c).send c := by
  have hpay' : ((candidateFrame (s.contends c) c).length : Int) ≤ spendable (s.contends c) := by cases c <;> exact hpay
  rw [senseQuiet_draws hcau hq hc, contentionDraw_ends hd, energyCheck_pays hpay',
    settleAttempt_busy (by cases c <;> simp [State.send])]

/-- The quiet timer that is not held loaded expires (R26). -/
def State.quieted (s : State) : State := { s with quiet := .expired }

theorem exec_quietTimerExpiry_held {ms : Nat} (hrun : s.quiet = .running ms) (hcd : s.pins.cd = true)
    (hp : s.rx.state = .listen ∨ s.rx.state = .receiving) : exec .quietTimerExpiry s = .next s := by
  have h : quietExpired s = s := by simp [quietExpired, hrun, quietHeld, hcd, powered_iff.2 hp]
  exact congrArg _ h

theorem exec_quietTimerExpiry {ms : Nat} (hrun : s.quiet = .running ms) (hcd : s.pins.cd = false) :
    exec .quietTimerExpiry s = .next (senseQuiet s.quieted) := by
  have h : quietExpired s = senseQuiet s.quieted := by simp [quietExpired, hrun, quietHeld, hcd, State.quieted]
  exact congrArg _ h

/-- CD_DEASSERT outside a frame (R26). -/
theorem exec_cdDeassert_outside (hcd : s.pins.cd = true) (hrx : s.rx.state ≠ .receiving) :
    exec .cdDeassert s = .next (senseQuiet { s with pins := { s.pins with cd := false } }) := by
  have h : endEarly { s with pins := { s.pins with cd := false } } = { s with pins := { s.pins with cd := false } } := if_neg hrx
  exact (if_pos hcd).trans (by rw [h])

end

/-- Settles O40: both commands by `senseQuiet`, whose draw waits or, at 0 ms, sends. -/
theorem quietChannelStartsContention : Obligations.QuietChannelStartsContention := by
  refine ⟨fun s ms hrun => ⟨exec_quietTimerExpiry_held hrun, fun hcd hcau => ?expires, fun hcd hcau hd c hc => ?draws⟩,
    fun s ms hrun hcd hcau hd hl hrec => ⟨fun r rest hr hpay => ?reply, fun e hn he => ?relay⟩,
    fun s hcd hrx => ⟨fun hstill => ?level, fun c hcau hq hc hd => ?deasserted⟩⟩
  case expires => exact (exec_quietTimerExpiry hrun hcd).trans (congrArg _ (senseQuiet_not (s := s.quieted) (.inl hcau)))
  case draws =>
    have hcand : candidate? s = some c := by
      rcases hc with ⟨hr, rfl⟩ | ⟨hn, e, he, rfl⟩
      · obtain ⟨r, rest, hr⟩ := List.exists_cons_of_ne_nil hr
        exact candidate_reply hr
      · exact candidate_relay hn he
    exact (exec_quietTimerExpiry hrun hcd).trans (congrArg _
      (senseQuiet_contends (s := s.quieted) hcau (channelQuiet_iff.2 ⟨rfl, hcd⟩) hcand hd))
  case reply =>
    have hframe : candidateFrame s .reply = r.frame := by simp [candidateFrame, hr]
    refine (exec_quietTimerExpiry hrun hcd).trans (congrArg _ ((senseQuiet_sends (s := s.quieted) hcau
      (channelQuiet_iff.2 ⟨rfl, hcd⟩) (candidate_reply hr) hd (hframe ▸ hpay)).trans ?_))
    exact send_reply (s := s.quieted.contends .reply) hr hrec
  case relay =>
    intro frame hpay
    refine (exec_quietTimerExpiry hrun hcd).trans (congrArg _ ((senseQuiet_sends (s := s.quieted) hcau
      (channelQuiet_iff.2 ⟨rfl, hcd⟩) (candidate_relay hn he) hd hpay).trans ?_))
    exact send_relay (s := s.quieted.contends (.relay e.origin e.seq)) hrec
  case level =>
    refine (exec_cdDeassert_outside hcd hrx).trans (congrArg _ (senseQuiet_not (hstill.imp_right fun hq => ?_)))
    exact channelQuiet_eq_false.2 (.inl hq)
  case deasserted =>
    exact (exec_cdDeassert_outside hcd hrx).trans (congrArg _ (senseQuiet_contends
      (s := { s with pins := { s.pins with cd := false } }) hcau (channelQuiet_iff.2 ⟨hq, rfl⟩) hc hd))

/-! ### The due tick of a relay -/

section
variable {s : State}

theorem exec_relayDue_not (h : s.cau ≠ .idle ∨ readyRelay s = none) : exec .relayDue s = .next s := by
  refine if_neg fun hs => ?_
  rcases h with h | h
  · exact h hs.2.1
  · simp [h] at hs

theorem exec_relayDue {e : RelayEntry} (hact : active s = true) (hcau : s.cau = .idle) (he : readyRelay s = some e) :
    exec .relayDue s = .next (offerCandidate s) := if_pos ⟨hact, hcau, by simp [he]⟩

/-- A closed gate refuses the carrier-sense request of the only relay, which is abandoned (R27, R32). -/
theorem offerCandidate_shut {e : RelayEntry} (hact : active s = true) (hcau : s.cau = .idle) (hg : gateOpen s = false)
    (hoff : s.rx.state = .off) (hc : candidate? s = some (.relay e.origin e.seq)) (hone : s.relayQ = [e])
    (hn : s.maint.replies = []) :
    offerCandidate s = State.count .relayAbandoned { s with
      relayQ := []
      seen := s.seen.map (fun x => if x.origin = e.origin && x.seq = e.seq then { x with state := .abandoned } else x) } := by
  have habandon : s.abandon (.relay e.origin e.seq) = State.count .relayAbandoned { s with
      relayQ := []
      seen := s.seen.map (fun x => if x.origin = e.origin && x.seq = e.seq then { x with state := .abandoned } else x) } := by
    have hgone : [e].filter (fun x => !x.hasKey e.origin e.seq) = [] := by simp [RelayEntry.hasKey]
    rw [State.abandon, State.abandonRelay, State.removeRelay, hone, hgone]
    rfl
  have hnone : candidate? (s.abandon (.relay e.origin e.seq)) = none := by
    rw [habandon]
    exact candidate_eq_none.2 ⟨hn, by simp [State.count]⟩
  have hagrees : receiverAgrees (s.abandon (.relay e.origin e.seq)) = true := by
    have hrx : (s.abandon (.relay e.origin e.seq)).rx.state = .off := hoff
    have hshut : wantedOn (s.abandon (.relay e.origin e.seq)) = false := wantedOn_shut hg
    simp [receiverAgrees_iff, hrx, hshut]
  rw [offerCandidate, startAttempt_active hact, attemptFuel, startAttempts_shut _ hcau hc hg, startAttempts_none _ hnone,
    receiverFollow_agrees _ hagrees, habandon]

end

/-- Settles O41: the ready relay is the candidate that `offerCandidate` takes. -/
theorem dueRelayStartsAnAttempt : Obligations.DueRelayStartsAnAttempt := by
  refine fun s hact => ⟨fun h => exec_relayDue_not (h.imp_right readyRelay_eq_none.2), fun e hcau he hn => ?_⟩
  have hexec : exec .relayDue s = .next (offerCandidate s) := exec_relayDue hact hcau he
  have hc : candidate? s = some (.relay e.origin e.seq) := candidate_relay hn he
  rw [hexec]
  exact ⟨fun hg hl hq => congrArg _ (offerCandidate_senses hact hcau hc hg hl (channelQuiet_eq_false.2 hq)),
    fun hg hoff => congrArg _ (offerCandidate_listens hact hcau hc hg hoff),
    fun hg hl hq hcd hd => congrArg _ (offerCandidate_contends hact hcau hc hg hl (channelQuiet_iff.2 ⟨hq, hcd⟩) hd),
    fun hg hoff hone => congrArg _ (offerCandidate_shut hact hcau hg hoff hc hone hn)⟩

end Sys2Proof.Machine
end

section
/-! The end of a contention delay and of a transmission, and a character at the instant of TXEN: what the channel access unit
does does not depend on the frame in reception, so the frame that ends there goes on the air's side as it would alone. -/

namespace Sys2Proof.Machine

/-! ### What the channel access unit does not look at -/

/-- The state without the frame in reception, the receive buffers and the counters. -/
def State.bare (s : State) : State :=
  { s with
    rx := { s.rx with reception := .none, firstSync := false, charError := false, bufA := none, bufB := none }
    maint := { s.maint with counters := .zero } }

/-- An operation whose outcome but for the frame in reception, the buffers and the counters does not depend on them. -/
def Blind (f : State → State) : Prop := ∀ s, (f s).bare = (f s.bare).bare

theorem Blind.comp {f g : State → State} (hg : Blind g) (hf : Blind f) : Blind fun s => g (f s) :=
  fun s => (hg (f s)).trans (hf s ▸ (hg (f s.bare)).symm)

theorem Blind.rx_state {f : State → State} (h : Blind f) {s u : State} (hsu : s.bare = u.bare) :
    (f s).rx.state = (f u).rx.state := by
  have hbare : (f s).bare = (f u).bare := (h s).trans (hsu ▸ (h u).symm)
  have hstate := congrArg (fun v : State => v.rx.state) hbare
  exact hstate

theorem bare_cutReception (s : State) : (cutReception s).bare = s.bare := by
  have hdiscard : ∀ target : RxTarget, (s.discardCut target).bare = s.bare
    | .buffer .a | .buffer .b | .overrun => rfl
  cases hr : s.rx.reception with
  | none | skip left => simp only [cutReception, hr]; rfl
  | length target | body target left => simp only [cutReception, hr]; exact hdiscard target

theorem blind_setCau (u : CauState) : Blind (State.setCau u) := fun _ => rfl

theorem blind_receiverFollow : Blind receiverFollow := by
  intro s
  have hw : wantedOn s.bare = wantedOn s := rfl
  have hrx : s.bare.rx.state = s.rx.state := rfl
  cases hs : s.rx.state with
  | off => cases h : wantedOn s <;> simp only [receiverFollow, hrx, hs, hw, h] <;> rfl
  | listen => cases h : wantedOn s <;> simp only [receiverFollow, hrx, hs, hw, h] <;> rfl
  | receiving | transmitting => simp only [receiverFollow, hrx, hs]; rfl

section
variable (c : Candidate)

theorem blind_abandon : Blind (State.abandon c) := by cases c <;> exact fun _ => rfl

theorem blind_deferCandidate : Blind (State.deferCandidate c) := by cases c <;> exact fun _ => rfl

theorem blind_send : Blind (State.send c) := by
  intro s
  have hcut : (cutReception s).bare = (cutReception s.bare).bare :=
    (bare_cutReception s).trans (bare_cutReception s.bare).symm
  cases c with
  | reply => exact congrArg (fun u : State => { u.setRx .transmitting with
      cau := .sending (candidateFrame s .reply) false, maint := { u.maint with replies := u.maint.replies.drop 1 } }) hcut
  | relay o q => exact congrArg (fun u : State => { (u.setRx .transmitting).removeRelay o q .relayed with
      cau := .sending (candidateFrame s (.relay o q)) true }) hcut

theorem blind_energyCheck : Blind (energyCheck c) := by
  intro s
  by_cases h : ((candidateFrame s c).length : Int) ≤ spendable s
  · have h' : ((candidateFrame s.bare c).length : Int) ≤ spendable s.bare := by cases c <;> exact h
    rw [energyCheck_pays h, energyCheck_pays h']
    exact blind_send c s
  · have h' : spendable s.bare < ((candidateFrame s.bare c).length : Int) := by cases c <;> exact not_le.1 h
    rw [energyCheck_refuses (not_le.1 h), energyCheck_refuses h']
    exact (blind_setCau .idle).comp (blind_abandon c) s

theorem blind_contentionDraw : Blind (contentionDraw c) := by
  intro s
  by_cases h : (lfsrDraw s.rng).toNat % 64 = 0
  · rw [contentionDraw_ends h, contentionDraw_ends (s := s.bare) h]
    exact blind_energyCheck c (s.contends c)
  · rw [contentionDraw_waits h, contentionDraw_waits (s := s.bare) h]
    rfl

end

theorem blind_startAttempts (n : Nat) : Blind (startAttempts n) := by
  induction n with
  | zero => exact fun _ => rfl
  | succ n ih =>
    intro s
    by_cases hidle : s.cau = .idle
    · cases hc : candidate? s with
      | none => rw [startAttempts_none _ hc, startAttempts_none (s := s.bare) _ hc]; rfl
      | some c =>
        have hfollow := blind_receiverFollow.comp (blind_setCau .sensing) s
        cases hg : gateOpen s with
        | false =>
          rw [startAttempts_shut n hidle hc hg, startAttempts_shut (s := s.bare) n hidle hc hg]
          exact ih.comp (blind_abandon c) s
        | true =>
          have hquiet : channelQuiet (receiverFollow (s.bare.setCau .sensing)) = channelQuiet (receiverFollow (s.setCau .sensing)) := by
            have hq := congrArg channelQuiet hfollow.symm
            exact hq
          rw [startAttempts_opens n hidle hc hg, startAttempts_opens (s := s.bare) n hidle hc hg, hquiet]
          cases channelQuiet (receiverFollow (s.setCau .sensing)) with
          | false => exact hfollow
          | true =>
            exact (ih.comp (blind_contentionDraw c)).comp (blind_receiverFollow.comp (blind_setCau .sensing)) s
    · rw [startAttempts_busy _ hidle, startAttempts_busy (s := s.bare) _ hidle]
      rfl

theorem blind_offerCandidate : Blind offerCandidate := by
  refine blind_receiverFollow.comp fun s => ?_
  cases hact : active s with
  | false =>
    have h : startAttempt s = s := if_neg (by simp [hact])
    have h' : startAttempt s.bare = s.bare := if_neg (by simp [show active s.bare = active s from rfl, hact])
    rw [h, h']
    rfl
  | true =>
    rw [startAttempt_active hact, startAttempt_active (s := s.bare) hact]
    exact blind_startAttempts _ s

theorem blind_endAttempt : Blind endAttempt := blind_offerCandidate.comp (blind_setCau .idle)

theorem blind_settleAttempt : Blind settleAttempt := by
  intro s
  by_cases h : s.cau = .idle
  · rw [settleAttempt_idle h, settleAttempt_idle (s := s.bare) h]
    exact blind_endAttempt s
  · rw [settleAttempt_busy h, settleAttempt_busy (s := s.bare) h]
    rfl

theorem blind_deferral (c : Candidate) : Blind (deferral c) := by
  intro s
  have hcount : deferralsOf (s.bare.deferCandidate c) c = deferralsOf (s.deferCandidate c) c := by cases c <;> rfl
  by_cases h : 8 ≤ deferralsOf (s.deferCandidate c) c
  · rw [deferral, deferral, if_pos h, if_pos (hcount ▸ h)]
    exact (blind_endAttempt.comp (blind_abandon c)).comp (blind_deferCandidate c) s
  · rw [deferral, deferral, if_neg h, if_neg (hcount ▸ h)]
    exact (blind_setCau .sensing).comp (blind_deferCandidate c) s

theorem blind_senseQuiet : Blind senseQuiet := by
  intro s
  by_cases h : s.cau = .sensing ∧ channelQuiet s = true
  · cases hc : candidate? s with
    | none =>
      have hs : ∀ u : State, u.cau = .sensing ∧ channelQuiet u = true → candidate? u = none → senseQuiet u = endAttempt u :=
        fun u hu hn => by rw [senseQuiet, if_pos hu, hn]
      rw [hs s h hc, hs s.bare h hc]
      exact blind_endAttempt s
    | some c =>
      rw [senseQuiet_draws h.1 h.2 hc, senseQuiet_draws (s := s.bare) h.1 h.2 hc]
      exact blind_settleAttempt.comp (blind_contentionDraw c) s
  · rw [senseQuiet, senseQuiet, if_neg h, if_neg (show ¬ (s.bare.cau = .sensing ∧ channelQuiet s.bare = true) from h)]
    rfl

theorem blind_quietExpired : Blind quietExpired := by
  intro s
  cases hq : s.quiet with
  | expired => simp only [quietExpired, hq, show s.bare.quiet = s.quiet from rfl]; rfl
  | running ms =>
    have hheld : quietHeld s.bare = quietHeld s := rfl
    simp only [quietExpired, hq, show s.bare.quiet = s.quiet from rfl, hheld]
    cases quietHeld s with
    | true => rfl
    | false => exact blind_senseQuiet s.quieted

theorem blind_contentionEnded : Blind contentionEnded := by
  intro s
  cases hcau : s.cau with
  | contending c ms =>
    simp only [contentionEnded, hcau, show s.bare.cau = s.cau from rfl, show s.bare.pins = s.pins from rfl]
    cases s.pins.cd with
    | true => exact blind_deferral c s
    | false => exact blind_settleAttempt.comp (blind_energyCheck c) s
  | idle | sensing | sending frame relay =>
    simp only [contentionEnded, hcau, show s.bare.cau = s.cau from rfl]
    rfl

theorem blind_timerEnded (e : TimerEnd) : Blind (timerEnded e) := by
  cases e with
  | quiet => exact blind_quietExpired
  | contention => exact blind_contentionEnded

end Sys2Proof.Machine
end

section
/-! The end of a contention delay, a character at the instant of TXEN, and the end of a transmission (R30 to R33, R48, R208). -/

namespace Sys2Proof.Machine

/-! ### A character with the end of a timer at its instant -/

section
variable {ch : Byte} {err : Bool} {act : State → State} {s : State}

theorem lacksLast_eq_none (h : s.rx.state ≠ .receiving ∨ ∀ x : RxTarget, s.rx.reception ≠ .body x 1) : lacksLast s = none := by
  unfold lacksLast
  split
  next target hrx hrec =>
    rcases h with h | h
    · exact absurd hrx h
    · exact absurd hrec (h target)
  next => rfl

theorem lacksLast_body {x : RxTarget} (hrx : s.rx.state = .receiving) (hrec : s.rx.reception = .body x 1) :
    lacksLast s = some x := by simp [lacksLast, hrx, hrec]

/-- Where no frame lacks its last character alone, or TXEN is not asserted, the character comes after the timer's end. -/
theorem withCharacter_after (h : lacksLast s = none ∨ (act s).rx.state ≠ .transmitting) :
    withCharacter ch err act s = takeCharacter ch err (act s) := by
  unfold withCharacter
  split
  next target hlast htx =>
    rcases h with h | h
    · simp [h] at hlast
    · exact absurd htx h
  next => rfl

theorem withCharacter_behind {x : RxTarget} (hlast : lacksLast s = some x) (htx : (act s).rx.state = .transmitting) :
    withCharacter ch err act s = frameEndBy (fun u => act u.clearReception) x (s.joinCharacter x ch err) := by
  simp [withCharacter, hlast, htx]

end

/-- The frame whose last character comes at the instant of TXEN, a good one (R5, R208). -/
theorem withCharacter_validates {e : TimerEnd} {ch : Byte} {id : BufId} {b : RxBuffer} {s : State} (hrx : s.rx.state = .receiving)
    (hrec : s.rx.reception = .body (.buffer id) 1) (hb : bufferOf s id = some b) (hclean : s.rx.charError = false)
    (htx : (timerEnded e s).rx.state = .transmitting) :
    withCharacter ch false (timerEnded e) s = validate id (b.bytes ++ [ch])
      (timerEnded e { s with rx := { s.rx.withBuffer id (some { b with bytes := b.bytes ++ [ch] }) with
        reception := .none, firstSync := false, charError := false } }) := by
  rw [withCharacter_behind (lacksLast_body hrx hrec) htx, joinCharacter_buffer hb, frameEndBy_buffer _ (bufferOf_withBuffer _ rfl rfl),
    if_neg (by simp [hclean])]
  rfl

/-- The frame whose last character comes at the instant of TXEN, with a character error (R5, R18 step 2). -/
theorem withCharacter_drops {e : TimerEnd} {ch : Byte} {err : Bool} {id : BufId} {b : RxBuffer} {s : State}
    (hrx : s.rx.state = .receiving) (hrec : s.rx.reception = .body (.buffer id) 1) (hb : bufferOf s id = some b)
    (hmarked : s.rx.charError = true ∨ err = true) (htx : (timerEnded e s).rx.state = .transmitting) :
    withCharacter ch err (timerEnded e) s =
      timerEnded e (State.count .rxChar { s with rx := { s.rx.withBuffer id none with
        reception := .none, firstSync := false, charError := false } }) := by
  have hmark : (s.rx.charError || err) = true := by simpa using hmarked
  rw [withCharacter_behind (lacksLast_body hrx hrec) htx, joinCharacter_buffer hb, frameEndBy_buffer _ (bufferOf_withBuffer _ rfl rfl),
    if_pos hmark, drop_eq]
  cases id <;> rfl

theorem withCharacter_overrun {e : TimerEnd} {ch : Byte} {err : Bool} {s : State} (hrx : s.rx.state = .receiving)
    (hrec : s.rx.reception = .body .overrun 1) (htx : (timerEnded e s).rx.state = .transmitting) :
    withCharacter ch err (timerEnded e) s =
      timerEnded e { s with rx := { s.rx with reception := .none, firstSync := false, charError := false } } := by
  rw [withCharacter_behind (lacksLast_body hrx hrec) htx]
  rfl

/-! ### The end of a contention delay -/

/-- A candidate that costs more than the spendable energy, the last one there is (R32, R35). -/
theorem exec_contentionDelayEnd_refused {s : State} {c : Candidate} {ms : Nat} (hcd : s.pins.cd = false)
    (hcau : s.cau = .contending c ms) (hcost : spendable s < ((candidateFrame s c).length : Int)) :
    exec .contentionDelayEnd s = .next (endAttempt (s.abandon c)) := by
  rw [exec_contentionDelayEnd_quiet hcau hcd, energyCheck_refuses hcost, settleAttempt_idle rfl]
  rfl

theorem exec_contentionDelayEnd_sends {s : State} {c : Candidate} {ms : Nat} (hcd : s.pins.cd = false)
    (hcau : s.cau = .contending c ms) (hcost : ((candidateFrame s c).length : Int) ≤ spendable s) :
    exec .contentionDelayEnd s = .next (s.send c) := by
  rw [exec_contentionDelayEnd_quiet hcau hcd, energyCheck_pays hcost, settleAttempt_busy (by cases c <;> simp [State.send])]

theorem receiverAgrees_listens {s : State} (hl : s.rx.state = .listen) (hw : wantedOn s = true) : receiverAgrees s = true := by
  simp [receiverAgrees_iff, hl, hw]

/-- Settles O42: the candidate by the energy check, the character by `withCharacter`, whose timer end is blind to the frame in
reception. -/
theorem contentionEndSendsOrAbandons : Obligations.ContentionEndSendsOrAbandons := by
  refine ⟨fun s ms o q hcd hcau => ?relay, fun s ms r rest hcd hcau hr hpay hl hrec => ?reply,
    fun s ms r rest hcd hcau hr hcost hl hon hact hg => ?refused, fun e ch err s t => ?character⟩
  case relay =>
    refine ⟨fun hpay hl hrec => ?sent, fun hcost hnone hl hon hact hg => ?abandoned⟩
    case sent =>
      rw [exec_contentionDelayEnd_sends hcd hcau hpay, send_relay hrec]
      rfl
    case abandoned =>
      rw [exec_contentionDelayEnd_refused hcd hcau hcost]
      exact congrArg _ (endAttempt_none hnone (receiverAgrees_listens hl (wantedOn_window hact hon hg)))
  case reply =>
    have hframe : candidateFrame s .reply = r.frame := by simp [candidateFrame, hr]
    rw [exec_contentionDelayEnd_sends hcd hcau (by rw [hframe]; exact hpay), send_reply hr hrec]
    rfl
  case refused =>
    have hframe : candidateFrame s .reply = r.frame := by simp [candidateFrame, hr]
    intro left
    have hleft : (s.abandon .reply).setCau .idle = left := by
      rw [State.abandon, hr]
      rfl
    have hends : exec .contentionDelayEnd s = .next (offerCandidate left) := by
      rw [exec_contentionDelayEnd_refused hcd hcau (by rw [hframe]; exact hcost), endAttempt_eq, hleft]
    have hwant : wantedOn left = true := wantedOn_window hact hon hg
    rw [hends]
    exact ⟨fun hn => congrArg _ (offerCandidate_none _ hn (receiverAgrees_listens hl hwant)),
      fun c hc hq hd => congrArg _ (offerCandidate_contends (s := left) hact rfl hc hg hl (channelQuiet_iff.2 ⟨hq, hcd⟩) hd)⟩
  case character =>
    intro i both ht
    have hi : ∀ u : State, exec i u = .next (timerEnded e u) := fun u => by cases e <;> rfl
    obtain rfl : timerEnded e s = t := by
      rw [hi] at ht
      exact Host.Outcome.next.inj ht
    refine ⟨fun hafter => congrArg _ (withCharacter_after ?_), fun hrx htx => ⟨fun hrec => ?overrun, fun id b hrec hb => ?buffer⟩⟩
    · rcases hafter with h | h | h
      · exact .inl (lacksLast_eq_none (.inl h))
      · exact .inl (lacksLast_eq_none (.inr h))
      · exact .inr h
    case overrun => exact (congrArg _ (withCharacter_overrun hrx hrec htx)).trans (hi _).symm
    case buffer =>
      intro held bytes
      refine ⟨fun hmarked => ?dropped, fun v hclean herr hv => ?validated⟩
      case dropped => exact (congrArg _ (withCharacter_drops hrx hrec hb hmarked htx)).trans (hi _).symm
      case validated =>
        obtain rfl : timerEnded e (held (some { b with bytes := bytes })) = v := by
          rw [hi] at hv
          exact Host.Outcome.next.inj hv
        have hbare : (held (some { b with bytes := bytes })).bare = s.bare := rfl
        refine ⟨((blind_timerEnded e).rx_state hbare).trans htx, ?_⟩
        subst herr
        exact congrArg _ (withCharacter_validates hrx hrec hb hclean htx)

end Sys2Proof.Machine
end

section
/-! The end of a transmission (R33, R35, R48). -/

namespace Sys2Proof.Machine

section
variable {s : State}

theorem wantedOn_idle (hact : active s = true) (hcau : s.cau = .idle) : wantedOn s = (s.rx.window.on && gateOpen s) := by
  simp [wantedOn, hact, carrierSense, hcau]

theorem wantedOn_attempt (hact : active s = true) (hcau : s.cau ≠ .idle) : wantedOn s = gateOpen s := by
  simp [wantedOn, hact, carrierSense, hcau]

/-- The receiver once TXEN is released, by what is wanted of it (R13). -/
def Receiver.released (on : Bool) (rx : Receiver) : Receiver :=
  { rx with state := if on then .listen else .off, firstSync := false, charError := false }

theorem debit_onAir {q : Nat} (hr : s.account.running = true) (htx : s.rx.state = .transmitting)
    (hh : stageHolds s.cfg s.account.stage (s.account.e - q) = true) :
    debit ctlStage q s = withE s (s.account.e - q) := by
  refine debit_quiet ctlStage q s hr ?_
  have hagrees : receiverAgrees (withE s (s.account.e - q)) = true := receiverAgrees_running (.inr htx)
  simp [crossesNothing, hh, hagrees]

/-- A sending unit keeps its attempt while the receiver returns (R13, R32). -/
theorem leaveToListen_sending {frame : List Byte} {relay : Bool} (hcau : s.cau = .sending frame relay)
    (hact : active s = true) (hrec : s.rx.reception = .none) :
    leaveToListen s = { s with rx := s.rx.released (gateOpen s) } := by
  have hw : wantedOn s.clearReception = gateOpen s := wantedOn_attempt (s := s.clearReception) hact (by simp [hcau])
  have hclear : ∀ r : RxState, s.clearReception.setRx r = { s with rx := { s.rx with state := r, firstSync := false, charError := false } } :=
    fun r => by simp [State.clearReception, State.setRx, hrec]
  cases hg : gateOpen s with
  | true =>
    simp only [leaveToListen, hw, hg, if_true, hclear]
    rfl
  | false =>
    simp only [leaveToListen, hw, hg, Bool.false_eq_true, if_false, hclear]
    simp [abandonAttempt, hcau, Receiver.released]

/-- The attempt ends with no candidate ready, and the receiver gives up the carrier-sense request (R13, R35). -/
theorem endAttempt_released (hact : active s = true) (hc : candidate? s = none) :
    endAttempt { s with rx := s.rx.released (gateOpen s) } =
      { s with cau := .idle, rx := s.rx.released (s.rx.window.on && gateOpen s) } := by
  have hidle : startAttempt { s with cau := .idle, rx := s.rx.released (gateOpen s) } =
      { s with cau := .idle, rx := s.rx.released (gateOpen s) } := startAttempt_none _ hc
  have hw : wantedOn { s with cau := .idle, rx := s.rx.released (gateOpen s) } = (s.rx.window.on && gateOpen s) :=
    wantedOn_idle (s := { s with cau := .idle, rx := s.rx.released (gateOpen s) }) hact rfl
  have hfollow : endAttempt { s with rx := s.rx.released (gateOpen s) } =
      receiverFollow { s with cau := .idle, rx := s.rx.released (gateOpen s) } := congrArg receiverFollow hidle
  rw [hfollow, receiverFollow, hw]
  cases gateOpen s <;> cases s.rx.window.on <;> rfl

theorem exec_transmissionEnd {frame : List Byte} {relay : Bool} (hcau : s.cau = .sending frame relay) :
    exec .transmissionEnd s = .next (finishSending frame relay s) := by
  have h : execTransmissionEnd s = .next (finishSending frame relay s) := by simp only [execTransmissionEnd, hcau]
  exact h

end

/-- Settles O43: the debit crosses nothing, the receiver returns while the unit still sends, and then the attempt ends. -/
theorem transmissionEndDebitsAndCounts : Obligations.TransmissionEndDebitsAndCounts := by
  intro s frame relay hcau htx hrec hrun hact hc hh listens
  let u := countSent relay { withE s (s.account.e - frame.length) with quiet := loadedQuiet }
  have hu : u.cau = s.cau ∧ u.rx = s.rx ∧ active u = active s ∧ candidate? u = candidate? s := by
    cases relay <;> exact ⟨rfl, rfl, rfl, rfl⟩
  obtain ⟨hucau, hurx, huact, huc⟩ := hu
  have hleave : leaveToListen u = { u with rx := u.rx.released (gateOpen u) } :=
    leaveToListen_sending (hucau.trans hcau) (huact.trans hact) (hurx ▸ hrec)
  have hfinish : finishSending frame relay s = endAttempt (leaveToListen u) := by
    rw [finishSending, debit_onAir hrun htx hh]
  rw [exec_transmissionEnd hcau, hfinish, hleave, endAttempt_released (huact.trans hact) (huc.trans hc)]
  cases relay <;> rfl

end Sys2Proof.Machine
end

section
/-! The validation chain from step 3 on (R18 to R23): the drops, the interest filter, a duplicate and a first copy. -/

namespace Sys2Proof.Machine

/-! ### The steps before the seen table -/

section
variable {id : BufId} {l : List Byte} {s : State} {f : Frame}

theorem wellPlaced_iff : f.wellPlaced = true ↔ 13 + 2 * f.trailCount ≤ f.len := by simp [Frame.wellPlaced]

theorem badFormat_iff : f.badFormat = true ↔ f.kind = 0 ∨ 6 ≤ f.kind ∨ 5 ≤ f.trailCount := by
  simp [Frame.badFormat]
  omega

theorem badFormat_eq_false (hlo : 1 ≤ f.kind) (hhi : f.kind ≤ 5) (ht : f.trailCount ≤ 4) : f.badFormat = false := by
  rw [Bool.eq_false_iff, ne_eq, badFormat_iff]
  omega

theorem validate_misplaced (h : (readFrame l).len < 13 + 2 * (readFrame l).trailCount ∨ headerOk l = false) :
    validate id l s = s.drop id .rxHeader := by
  refine if_pos ?_
  rcases h with h | h
  · simp [Frame.wellPlaced, h]
  · simp [h]

section
variable (hplaced : 13 + 2 * (readFrame l).trailCount ≤ (readFrame l).len) (hok : headerOk l = true)
include hplaced hok

theorem validate_placed : validate id l s =
    if (readFrame l).networkKey ≠ s.cfg.networkKey then s.drop id .rxForeign
    else if (readFrame l).badFormat then s.drop id .rxHeader
    else if (readFrame l).origin = s.cfg.ownId then s.drop id .rxDuplicate
    else lookupSeen id (readFrame l) s := by
  have hstep : ¬ ((!(readFrame l).wellPlaced || !headerOk l) = true) := by simp [wellPlaced_iff.2 hplaced, hok]
  exact if_neg hstep

theorem validate_foreign (h : (readFrame l).networkKey ≠ s.cfg.networkKey) : validate id l s = s.drop id .rxForeign := by
  rw [validate_placed hplaced hok, if_pos h]

variable (hkey : (readFrame l).networkKey = s.cfg.networkKey)
include hkey

theorem validate_badFormat (h : (readFrame l).badFormat = true) : validate id l s = s.drop id .rxHeader := by
  rw [validate_placed hplaced hok, if_neg (not_not.2 hkey), if_pos h]

theorem validate_own (hf : (readFrame l).badFormat = false) (h : (readFrame l).origin = s.cfg.ownId) :
    validate id l s = s.drop id .rxDuplicate := by
  rw [validate_placed hplaced hok, if_neg (not_not.2 hkey), if_neg (by simp [hf]), if_pos h]

theorem validate_lookup (hf : (readFrame l).badFormat = false) (h : (readFrame l).origin ≠ s.cfg.ownId) :
    validate id l s = lookupSeen id (readFrame l) s := by
  rw [validate_placed hplaced hok, if_neg (not_not.2 hkey), if_neg (by simp [hf]), if_neg h]

end

/-! ### The seen table -/

/-- A key without an entry, or with a DAMAGED one, makes the frame a first copy (R19). -/
theorem lookupSeen_first (h : ∀ e : SeenEntry, findSeen f.origin f.seq s.seen = some e → e.state = .damaged) :
    lookupSeen id f s = firstCopy id f s := by
  unfold lookupSeen
  split
  next e he => exact if_pos (h e he)
  next => rfl

theorem lookupSeen_duplicate {e : SeenEntry} (he : findSeen f.origin f.seq s.seen = some e) (h : e.state ≠ .damaged) :
    lookupSeen id f s = recheckAttempt ((s.drop id .rxDuplicate).duplicate e) := by
  simp only [lookupSeen, he, if_neg h]

theorem findSeen_key {o q : Word16} {seen : List SeenEntry} {e : SeenEntry} (h : findSeen o q seen = some e) :
    e.origin = o ∧ e.seq = q := by
  have hkey : e.hasKey o q = true := List.find?_some h
  simpa [SeenEntry.hasKey] using hkey

/-! ### The interest filter -/

theorem isDeparture_iff : f.isDeparture = true ↔ 1 ≤ f.kind ∧ f.kind ≤ 3 := by simp [Frame.isDeparture]

theorem stagePermits_eq_false {stage : Stage} : stagePermits stage false = false ↔ stage ≠ .full := by
  cases stage <;> simp [stagePermits]

theorem skips_iff : skips s f = true ↔
    (1 ≤ f.kind ∧ f.kind ≤ 3 ∧ inInterest s.cfg f.route f.dir = false ∧ s.account.stage ≠ .full) ∨
      (f.kind = 4 ∧ f.subject ≠ s.cfg.ownId ∧ f.subject ≠ 0xFFFF) := by
  by_cases hd : f.isDeparture = true
  · have hkind := isDeparture_iff.1 hd
    have hother : f.kind ≠ 4 := by omega
    cases hi : inInterest s.cfg f.route f.dir with
    | true => simp [skips, hd, hi, hother]
    | false => simp [skips, hd, hi, hkind, hother, stagePermits_eq_false]
  · have hkind : ¬ (1 ≤ f.kind ∧ f.kind ≤ 3) := fun h => hd (isDeparture_iff.2 h)
    by_cases hfour : f.kind = 4
    · simp [skips, hd, hfour]
    · simp only [skips, hd, Bool.false_eq_true, if_false, hfour, false_iff, not_or, not_and]
      exact ⟨fun hlo hhi => absurd ⟨hlo, hhi⟩ hkind, fun h => absurd h id⟩

end

/-- Settles O29: each drop by its step of `validate`, the filter by `skips_iff`. -/
theorem validationDropsAndSkips : Obligations.ValidationDropsAndSkips := by
  intro id l s f dropped
  have hdrop : ∀ k : Counter, s.drop id k = dropped k := drop_eq id s
  refine ⟨fun h => (validate_misplaced h).trans (hdrop _), fun hplaced hok => ⟨fun h => ?foreign, fun hkey => ⟨fun h => ?format,
    fun hlo hhi ht h => ?own⟩, fun hkey ht hother hfirst => ⟨skips_iff, fun h => ?skipped⟩⟩⟩
  case foreign => exact (validate_foreign hplaced hok h).trans (hdrop _)
  case format => exact (validate_badFormat hplaced hok hkey (badFormat_iff.2 h)).trans (hdrop _)
  case own => exact (validate_own hplaced hok hkey (badFormat_eq_false hlo hhi ht) h).trans (hdrop _)
  case skipped =>
    have hkind : 1 ≤ f.kind ∧ f.kind ≤ 5 := by
      rcases h with ⟨hlo, hhi, -⟩ | ⟨hk, -⟩ <;> omega
    rw [validate_lookup hplaced hok hkey (badFormat_eq_false hkind.1 hkind.2 ht) hother, lookupSeen_first hfirst]
    exact (if_pos (skips_iff.2 h)).trans (hdrop _)

end Sys2Proof.Machine
end

section
/-! A duplicate (R19, R38, R44) and a first copy (R20 to R23). -/

namespace Sys2Proof.Machine

/-! ### A duplicate -/

theorem removeRelay_eq (o q : Word16) (st : SeenState) (s : State) :
    s.removeRelay o q st = { s with
      seen := s.seen.map (fun x => if x.origin = o ∧ x.seq = q then { x with state := st } else x)
      relayQ := s.relayQ.filter (fun x => ¬ (x.origin = o ∧ x.seq = q)) } := by
  have hq : (fun x : RelayEntry => !x.hasKey o q) = fun x => decide ¬ (x.origin = o ∧ x.seq = q) := by
    funext x
    simp [RelayEntry.hasKey]
  rw [State.removeRelay, State.setSeenState, updateSeen_eq, hq]

/-- The copies count of a key raised, at most to 15 (R38). -/
def State.withCopies (o q : Word16) (n : Nat) (s : State) : State :=
  { s with seen := s.seen.map (fun x => if x.origin = o ∧ x.seq = q then { x with copies := min 15 (n + 1) } else x) }

section
variable {s : State} {e : SeenEntry}

theorem duplicate_counts (h : ¬ (e.state = .waiting ∧ s.cfg.suppression ≤ min 15 (e.copies + 1))) :
    s.duplicate e = s.withCopies e.origin e.seq e.copies :=
  (if_neg h).trans (by rw [State.withCopies, updateSeen_eq])

theorem duplicate_suppresses (hw : e.state = .waiting) (h : s.cfg.suppression ≤ min 15 (e.copies + 1)) :
    s.duplicate e = State.count .relaySuppressed ((s.withCopies e.origin e.seq e.copies).removeRelay e.origin e.seq .suppressed) :=
  (if_pos ⟨hw, h⟩).trans (by rw [State.withCopies, updateSeen_eq])

end

theorem inQueue_removed (o q : Word16) (st : SeenState) (s : State) : inQueue (s.removeRelay o q st) (.relay o q) = false := by
  rw [Bool.eq_false_iff, ne_eq, inQueue_relay_iff, removeRelay_eq]
  rintro ⟨e, he, hk⟩
  simp only [List.mem_filter, decide_eq_true_eq] at he
  exact he.2 hk

/-- Settles O30: the copies by `duplicate_counts`, the suppression by `duplicate_suppresses`, the attempt by `recheckAttempt`. -/
theorem duplicatesRaiseCopies : Obligations.DuplicatesRaiseCopies := by
  intro id l s e f hplaced hok hkey hlo hhi ht hother he hstate dropped suppressed
  obtain ⟨ho, hq⟩ := findSeen_key he
  have hvalidate : validate id l s = recheckAttempt ((s.drop id .rxDuplicate).duplicate e) := by
    rw [validate_lookup hplaced hok hkey (badFormat_eq_false hlo hhi ht) hother, lookupSeen_duplicate he hstate]
  have hdropped : (s.drop id .rxDuplicate).withCopies e.origin e.seq e.copies = dropped := by
    rw [drop_eq, ho, hq]
    rfl
  have hsuppressed : State.count .relaySuppressed (dropped.removeRelay e.origin e.seq .suppressed) = suppressed := by
    rw [removeRelay_eq, ho, hq]
    rfl
  have hcfg : (s.drop id .rxDuplicate).cfg = s.cfg := by rw [drop_eq]; rfl
  refine ⟨fun hidle => ⟨fun hfew => ?counted, fun hw hmany => ?suppresses⟩, fun ms hcau hw hmany hnone hagrees => ?cancelled⟩
  case counted =>
    rw [hvalidate, duplicate_counts (hcfg ▸ hfew), hdropped]
    exact recheckAttempt_idle hidle
  case suppresses =>
    rw [hvalidate, duplicate_suppresses hw (hcfg ▸ hmany), hdropped, hsuppressed]
    exact recheckAttempt_idle hidle
  case cancelled =>
    have hleft : inQueue suppressed (.relay f.origin f.seq) = false := by
      rw [← hsuppressed, ho, hq]
      exact inQueue_removed f.origin f.seq .suppressed dropped
    rw [hvalidate, duplicate_suppresses hw (hcfg ▸ hmany), hdropped, hsuppressed]
    exact recheckAttempt_left hcau hleft hnone hagrees

/-! ### A first copy -/

/-- What waits for the arbiter once a reply has joined is a candidate. -/
theorem candidate_joinReply (o q : Word16) (echo : Nat) (r : Result) (payload : List Byte) (s : State) :
    candidate? (s.joinReply o q echo r payload) = some .reply := by
  cases h : s.maint.replies <;> simp [candidate?, State.joinReply, h]

section
variable {s : State} {o q : Word16} {r : Result}

theorem refuseRequest_full (h : 2 ≤ s.maint.replies.length) : refuseRequest o q r s = s := if_pos (decide_eq_true h)

/-- A refusal answered (R29, R206, R207): the attempt goes on, or an IDLE unit is in SENSING while the channel is not quiet. -/
theorem refuseRequest_answers (hroom : s.maint.replies.length < 2)
    (h : (s.cau ≠ .idle ∧ receiverAgrees s = true) ∨ (s.cau = .idle ∧ active s = true ∧ gateOpen s = true ∧
      s.rx.state = .listen ∧ (s.quiet ≠ .expired ∨ s.pins.cd = true))) :
    refuseRequest o q r s = { s.joinReply o q 0 r [] with cau := if s.cau = .idle then .sensing else s.cau } := by
  have hanswer : refuseRequest o q r s = offerCandidate (s.joinReply o q 0 r []) :=
    if_neg (by simpa [replyQueueFull] using hroom)
  rw [hanswer]
  rcases h with ⟨hbusy, hagrees⟩ | ⟨hidle, hact, hg, hl, hq⟩
  · rw [if_neg hbusy]
    exact offerCandidate_busy _ hbusy hagrees
  · rw [if_pos hidle]
    exact offerCandidate_senses (s := s.joinReply o q 0 r []) hact hidle (candidate_joinReply ..) hg hl
      (channelQuiet_eq_false.2 hq)

end

section
variable {id : BufId} {s : State} {f : Frame}

/-- A frame the part has a use for: a departure frame in the interest set, or any in FULL, a request addressed to the part, or a
reply (R20). -/
def Wanted (s : State) (f : Frame) : Prop :=
  (decide (1 ≤ f.kind ∧ f.kind ≤ 3) = true ∧ (inInterest s.cfg f.route f.dir = true ∨ s.account.stage = .full)) ∨
    (f.kind = 4 ∧ (f.subject = s.cfg.ownId ∨ f.subject = 0xFFFF)) ∨ f.kind = 5

theorem kind_of_wanted (h : Wanted s f) : 1 ≤ f.kind ∧ f.kind ≤ 5 := by
  rcases h with ⟨hd, -⟩ | ⟨hk, -⟩ | hk
  · have hd := of_decide_eq_true hd
    omega
  · omega
  · omega

theorem skips_wanted (h : Wanted s f) : skips s f = false := by
  rw [Bool.eq_false_iff, ne_eq, skips_iff]
  rintro (⟨hlo, hhi, hi, hfull⟩ | ⟨hk, hown, hall⟩)
  · rcases h with ⟨-, h | h⟩ | ⟨hk, -⟩ | hk
    · simp [hi] at h
    · exact hfull h
    · omega
    · omega
  · rcases h with ⟨hd, -⟩ | ⟨-, h | h⟩ | hk'
    · have hd := of_decide_eq_true hd
      omega
    · exact hown h
    · exact hall h
    · omega

theorem refuseIfRequest_other {r : Result} (h : f.kind ≠ 4) : refuseIfRequest f r s = s := if_neg h

theorem refuseIfRequest_request {r : Result} (h : f.kind = 4) : refuseIfRequest f r s = refuseRequest f.origin f.seq r s :=
  if_pos h

theorem firstCopy_failed (hs : skips s f = false) (hb : f.bodyOk = false) :
    firstCopy id f s = refuseIfRequest f .bodyCheck ((s.drop id .rxBody).markDamaged f) := by simp [firstCopy, hs, hb]

theorem firstCopy_malformed (hs : skips s f = false) (hb : f.bodyOk = true) (hr : readBody f.kind f.body = none) :
    firstCopy id f s = refuseIfRequest f .badLength ((s.drop id .rxBody).markHeard f false) := by simp [firstCopy, hs, hb, hr]

theorem firstCopy_good (hs : skips s f = false) (hb : f.bodyOk = true) (hr : readBody f.kind f.body ≠ none) :
    firstCopy id f s = acceptFrame id f s := by
  obtain ⟨b, hr⟩ := Option.ne_none_iff_exists'.1 hr
  simp [firstCopy, hs, hb, hr]

/-- The entry of a first copy (R37, R39). -/
theorem makeSeen_eq (o q : Word16) (st : SeenState) (t : Tick) (pend : Bool) (l : List SeenEntry) :
    makeSeen o q st t pend l =
      if (findSeen o q l).isSome then updateSeen o q (fun e => { e with state := st, dispatchPending := pend }) l
      else createSeen ⟨o, q, st, 0, t, pend⟩ l := by
  unfold makeSeen
  split <;> simp [*]

theorem markDamaged_eq (s : State) : s.markDamaged f = { s with
    seen := if (findSeen f.origin f.seq s.seen).isSome then s.seen
      else createSeen ⟨f.origin, f.seq, .damaged, 0, s.clock, false⟩ s.seen } := by
  unfold State.markDamaged
  split <;> simp [*]

theorem acceptFrame_reply (h : f.kind = 5) :
    acceptFrame id f s = ((s.count .rxOk).markHeard f f.isDeparture).freeBuffer id := if_pos h

theorem acceptFrame_held (h : f.kind ≠ 5) :
    acceptFrame id f s = ((s.count .rxOk).markHeard f f.isDeparture).holdAccepted id := if_neg h

theorem holdAccepted_eq {b : RxBuffer} (hb : bufferOf s id = some b) :
    s.holdAccepted id = { s with rx := { s.rx.withBuffer id (some { b with endTick := some s.clock }) with
      accepted := s.rx.accepted ++ [id] } } := by
  rw [State.holdAccepted, updateBuffer_eq hb]
  rfl

end

/-- Settles O31: `validate` comes to `firstCopy`, whose three outcomes are made by `markDamaged`, `markHeard` and `holdAccepted`;
a refusal is answered by `refuseRequest_answers`. -/
theorem firstCopiesAreAccepted : Obligations.FirstCopiesAreAccepted := by
  intro id l s b f departure hplaced hok hkey ht hother hb hfirst hinterest known room fresh heard filled failed bad malformed good
    held refused answers
  have hkind := kind_of_wanted hinterest
  have hskips := skips_wanted hinterest
  have hvalidate : validate id l s = firstCopy id f s := by
    rw [validate_lookup hplaced hok hkey (badFormat_eq_false hkind.1 hkind.2 ht) hother, lookupSeen_first hfirst]
  have hbad : (s.drop id .rxBody).markDamaged f = bad := by
    rw [markDamaged_eq, drop_eq]
    rfl
  have hmade : ∀ pend : Bool, makeSeen f.origin f.seq .heard s.clock pend s.seen = heard pend := fun pend => makeSeen_eq ..
  have hmalformed : (s.drop id .rxBody).markHeard f false = malformed := by
    rw [State.markHeard, drop_eq]
    exact congrArg (fun seen => failed seen) (hmade false)
  have hrefused : ∀ (r : Result) (seen : List SeenEntry), answers →
      refuseRequest f.origin f.seq r (failed seen) = refused r (failed seen) :=
    fun r seen h => refuseRequest_answers (s := failed seen) h.1 h.2
  have hfull : ∀ (r : Result) (seen : List SeenEntry), f.kind ≠ 4 ∨ 2 ≤ s.maint.replies.length →
      refuseIfRequest f r (failed seen) = failed seen := by
    intro r seen h
    by_cases hk : f.kind = 4
    · rw [refuseIfRequest_request hk]
      exact refuseRequest_full (s := failed seen) (h.resolve_left (not_not.2 hk))
    · exact refuseIfRequest_other hk
  have hgood : (s.count .rxOk).markHeard f f.isDeparture = good s.rx := by
    have hd : f.isDeparture = departure := by simp [Frame.isDeparture, departure]
    rw [State.markHeard, hd]
    exact congrArg (fun seen => State.count .rxOk { s with seen := seen }) (hmade departure)
  refine ⟨fun hbody => ⟨fun hsilent => ?failed, fun hk ha => ?failedRequest⟩,
    fun hbody hr => ⟨fun hsilent => ?malformed, fun hk ha => ?malformedRequest⟩,
    fun hbody hr => ⟨fun hk => ?held, fun hk => ?reply⟩⟩
  case failed => rw [hvalidate, firstCopy_failed hskips (decide_eq_false hbody), hbad]; exact hfull _ _ hsilent
  case failedRequest =>
    rw [hvalidate, firstCopy_failed hskips (decide_eq_false hbody), hbad, refuseIfRequest_request hk]
    exact hrefused _ _ ha
  case malformed => rw [hvalidate, firstCopy_malformed hskips (decide_eq_true hbody) hr, hmalformed]; exact hfull _ _ hsilent
  case malformedRequest =>
    rw [hvalidate, firstCopy_malformed hskips (decide_eq_true hbody) hr, hmalformed, refuseIfRequest_request hk]
    exact hrefused _ _ ha
  case held =>
    rw [hvalidate, firstCopy_good hskips (decide_eq_true hbody) hr, acceptFrame_held hk, hgood]
    exact holdAccepted_eq (s := good s.rx) hb
  case reply =>
    rw [hvalidate, firstCopy_good hskips (decide_eq_true hbody) hr, acceptFrame_reply hk, hgood, freeBuffer_eq]
    rfl

end Sys2Proof.Machine
end

section
/-! The five request commands (R206 to R212): what an accepted request is answered, and the attempt that its reply starts. -/

namespace Sys2Proof.Machine

/-! ### A selection with no fresh reading in hand -/

/-- Without a fresh reading PREPARE waits for its temperature read, so the selection leaves the grant as it is (R131). -/
theorem select_grants_stale {s : State} {x : Refresh} (ha : active s = true) (ho : s.ctl.state = .opened)
    (hi : s.engine.state = .idle) (hr : ∀ r, s.engine.reading = some r → r.old = true) (hx : selection s = some x) :
    select s = grant x s := by
  cases hread : s.engine.reading with
  | none => exact select_grants ha ho hi hread hx
  | some r =>
    have hreading : (grant x s).engine.reading = some r := by rw [← hread, ← grantRows_engine x s]; rfl
    have hold : readingServes r (grant x s).clock = false := by simp [readingServes, hr r hread]
    simp only [select, selectDepth, selectWith, ha, ho, hi, hx, beginPrepareWith, hreading, hold, and_self, if_true,
      Bool.false_eq_true, if_false]

/-- With a refresh in the engine the controller does not select (R118). -/
theorem select_busy {s : State} (h : s.engine.state ≠ .idle) : select s = s := select_nothing s (by simp [nothingToSelect, h])

/-! ### Taking a request -/

/-- The receiver once an accepted frame has been taken out of its buffer (R17). -/
def Receiver.taken (id : BufId) (rx : Receiver) : Receiver :=
  { rx.withBuffer id none with accepted := rx.accepted.filter (· ≠ id) }

theorem takeBuffer_eq (id : BufId) (s : State) : s.takeBuffer id = { s with rx := s.rx.taken id } := by
  rw [State.takeBuffer, freeBuffer_eq]
  rfl

/-- A request command with the codes it takes (R206). -/
def RequestCommand (c : Instr) (p : Nat → Bool) : Prop :=
  (c = .statusRequest ∧ p = fun n => decide (n = 1)) ∨ (c = .tableRequest ∧ p = fun n => decide (n = 2)) ∨
    (c = .clearRequest ∧ p = fun n => decide (n = 3)) ∨ (c = .refreshRequest ∧ p = fun n => decide (n = 4)) ∨
    (c = .unknownRequestCode ∧ p = fun n => !(decide (1 ≤ n) && decide (n ≤ 4)))

/-- One of the five services. -/
def IsService (serve : Request → State → Served) : Prop :=
  serve = serveStatus ∨ serve = serveTable ∨ serve = serveClear ∨ serve = serveRefresh ∨ serve = serveUnknown

theorem exec_requestCommand {c : Instr} {p : Nat → Bool} (h : RequestCommand c p) :
    ∃ serve, IsService serve ∧ ∀ s : State, exec c s = .next (takeRequest p serve s) := by
  rcases h with ⟨rfl, rfl⟩ | ⟨rfl, rfl⟩ | ⟨rfl, rfl⟩ | ⟨rfl, rfl⟩ | ⟨rfl, rfl⟩
  · exact ⟨serveStatus, .inl rfl, fun _ => rfl⟩
  · exact ⟨serveTable, .inr (.inl rfl), fun _ => rfl⟩
  · exact ⟨serveClear, .inr (.inr (.inl rfl)), fun _ => rfl⟩
  · exact ⟨serveRefresh, .inr (.inr (.inr (.inl rfl))), fun _ => rfl⟩
  · exact ⟨serveUnknown, .inr (.inr (.inr (.inr rfl))), fun _ => rfl⟩

/-- The state with the reply to a request joined, before the arbiter is told (R206, R207). -/
def replied (serve : Request → State → Served) (q : Request) (s : State) : State :=
  if q.key ≠ s.cfg.maintenanceKey then s.joinReply q.origin q.seq q.code .denied []
  else (serve q s).state.joinReply q.origin q.seq q.code (serve q s).result (serve q s).payload

section
variable {s : State} {p : Nat → Bool} {serve : Request → State → Served} {id : BufId} {q : Request}

theorem takeRequest_found (h : findRequest p s = some (id, q)) :
    takeRequest p serve s = answer serve q { s with rx := s.rx.taken id } := by
  simp only [takeRequest, h, takeBuffer_eq]

theorem answer_full (h : 2 ≤ s.maint.replies.length) : answer serve q s = s := if_pos (decide_eq_true h)

theorem answer_room (h : s.maint.replies.length < 2) : answer serve q s = offerCandidate (replied serve q s) := by
  have hroom : ¬ replyQueueFull s = true := by simpa [replyQueueFull] using h
  rw [answer, if_neg hroom, replied]
  split <;> rfl

theorem replied_denied (h : q.key ≠ s.cfg.maintenanceKey) :
    replied serve q s = s.joinReply q.origin q.seq q.code .denied [] := if_pos h

theorem replied_served (h : q.key = s.cfg.maintenanceKey) :
    replied serve q s = (serve q s).state.joinReply q.origin q.seq q.code (serve q s).result (serve q s).payload :=
  if_neg (not_not.2 h)

/-- A request taken while an attempt is in progress: the reply joins and nothing else follows (R29). -/
theorem takeRequest_busy (h : findRequest p s = some (id, q)) (hroom : s.maint.replies.length < 2) {u : State}
    (hu : replied serve q { s with rx := s.rx.taken id } = u) (hcau : u.cau ≠ .idle) (ha : receiverAgrees u = true) :
    takeRequest p serve s = u := by
  rw [takeRequest_found h]
  exact (answer_room (s := { s with rx := s.rx.taken id }) hroom).trans (by rw [hu, offerCandidate_busy u hcau ha])

end

/-- A request with the key in force carried out while an attempt is in progress. -/
theorem takeRequest_served {s : State} {p : Nat → Bool} {id : BufId} {q : Request} (serve : Request → State → Served) (u : State)
    {r : Result} {payload : List Byte} (hserve : serve q { s with rx := s.rx.taken id } = ⟨u, r, payload⟩)
    (h : findRequest p s = some (id, q)) (hroom : s.maint.replies.length < 2) (hkey : q.key = s.cfg.maintenanceKey)
    (hcau : u.cau ≠ .idle) (ha : receiverAgrees u = true) :
    takeRequest p serve s = u.joinReply q.origin q.seq q.code r payload := by
  refine takeRequest_busy h hroom ((replied_served (s := { s with rx := s.rx.taken id }) hkey).trans ?_) hcau ha
  rw [hserve]

/-- Settles O45: `answer` before its service. -/
theorem requestsAreDroppedOrDenied : Obligations.RequestsAreDroppedOrDenied := by
  intro c p s id q hcommand hfound freed
  obtain ⟨serve, -, hexec⟩ := exec_requestCommand hcommand
  refine ⟨fun hfull => ?dropped, fun hroom hkey hcau ha => ?denied⟩
  case dropped =>
    rw [hexec, takeRequest_found hfound]
    exact congrArg _ (answer_full (s := freed) hfull)
  case denied =>
    have hreplied : replied serve q freed = freed.joinReply q.origin q.seq q.code .denied [] := replied_denied hkey
    exact (hexec s).trans (congrArg _ (takeRequest_busy hfound hroom hreplied hcau ha))

/-! ### The services -/

section
variable {s : State} {serve : Request → State → Served} {q : Request}

theorem serveTable_outOfRange (h : s.table.length ≤ q.arg) : serveTable q s = ⟨s, .badRange, []⟩ := if_pos h

theorem serveTable_inRange (h : q.arg < s.table.length) : serveTable q s = ⟨s, .ok, tablePayload s q.arg⟩ := if_neg (not_le.2 h)

theorem serveRefresh_frozen (h : s.account.stage = .frozen) : serveRefresh q s = ⟨s, .stage, []⟩ := if_pos h

theorem serveRefresh_requests (h : s.account.stage ≠ .frozen) :
    serveRefresh q s = ⟨select (s.setClearItem (some (s.ctl.clearItem.getD .ordinary))), .ok, []⟩ := by
  rw [← requestClear_ordinary_recorded h]
  exact if_neg h

/-- With a refresh in service the controller does not select (R118). -/
theorem serveRefresh_busy (h : s.account.stage ≠ .frozen) (hb : s.engine.state ≠ .idle) :
    serveRefresh q s = ⟨s.setClearItem (some (s.ctl.clearItem.getD .ordinary)), .ok, []⟩ := by
  rw [serveRefresh_requests h, select_busy]
  exact hb

/-- A service with a refresh in the engine touches the panel clear item and the counters alone, and does not look at the attempt. -/
theorem serve_busy (h : IsService serve) (hb : s.engine.state ≠ .idle) : ∃ (ctl : Controller) (counters : Counters) (r : Result)
    (payload : List Byte), ∀ x : CauState, serve q { s with cau := x } =
      ⟨{ s with cau := x, ctl := ctl, maint := { s.maint with counters := counters } }, r, payload⟩ := by
  rcases h with rfl | rfl | rfl | rfl | rfl
  case inl => exact ⟨s.ctl, s.maint.counters, .ok, statusPayload s, fun _ => rfl⟩
  case inr.inl =>
    by_cases hr : s.table.length ≤ q.arg
    · exact ⟨s.ctl, s.maint.counters, .badRange, [], fun x => serveTable_outOfRange (s := { s with cau := x }) hr⟩
    · exact ⟨s.ctl, s.maint.counters, .ok, tablePayload s q.arg, fun x => serveTable_inRange (s := { s with cau := x }) (not_le.1 hr)⟩
  case inr.inr.inl => exact ⟨s.ctl, .zero, .ok, [], fun _ => rfl⟩
  case inr.inr.inr.inl =>
    by_cases hf : s.account.stage = .frozen
    · exact ⟨s.ctl, s.maint.counters, .stage, [], fun x => serveRefresh_frozen (s := { s with cau := x }) hf⟩
    · exact ⟨{ s.ctl with clearItem := some (s.ctl.clearItem.getD .ordinary) }, s.maint.counters, .ok, [],
        fun x => serveRefresh_busy (s := { s with cau := x }) hf hb⟩
  case inr.inr.inr.inr => exact ⟨s.ctl, s.maint.counters, .unknown, [], fun _ => rfl⟩

theorem replied_busy (h : IsService serve) (hb : s.engine.state ≠ .idle) : ∃ (ctl : Controller) (maint : Maint),
    ∀ x : CauState, replied serve q { s with cau := x } = { s with cau := x, ctl := ctl, maint := maint } := by
  by_cases hk : q.key = s.cfg.maintenanceKey
  · obtain ⟨ctl, counters, r, payload, hserve⟩ := serve_busy (q := q) h hb
    refine ⟨ctl, { s.maint with
      counters := counters
      replies := s.maint.replies ++ [⟨replyFrame s q.origin q.seq q.code r payload, 0⟩], seq := s.maint.seq + 1 }, fun x => ?_⟩
    rw [replied_served (s := { s with cau := x }) hk, hserve]
    rfl
  · exact ⟨s.ctl, { s.maint with
      replies := s.maint.replies ++ [⟨replyFrame s q.origin q.seq q.code .denied [], 0⟩], seq := s.maint.seq + 1 },
      fun x => replied_denied (s := { s with cau := x }) hk⟩

end

/-! ### The attempt that a reply starts -/

/-- A delay of 0 ms that the only candidate, a reply, cannot pay for: it is discarded and the attempt ends (R30, R32, R35). -/
theorem offerCandidate_discards {s : State} {r : Reply} (hact : active s = true) (hidle : s.cau = .idle)
    (hr : s.maint.replies = [r]) (hg : gateOpen s = true) (hl : s.rx.state = .listen) (hon : s.rx.window.on = true)
    (hq : channelQuiet s = true) (hd : (lfsrDraw s.rng).toNat % 64 = 0) (hcost : spendable s < (r.frame.length : Int))
    (hrelays : ∀ e ∈ s.relayQ, 0 < (e.due - s.clock).toInt) :
    offerCandidate s = { s with rng := lfsrDraw s.rng, cau := .idle, maint := { s.maint with replies := [] } } := by
  have hframe : candidateFrame s .reply = r.frame := by simp [candidateFrame, hr]
  have hdraw : contentionDraw .reply (s.setCau .sensing) = ((s.contends .reply).abandon .reply).setCau .idle :=
    (contentionDraw_ends hd).trans (energyCheck_refuses (s := s.contends .reply) (by rw [← hframe] at hcost; exact hcost))
  have hleft : ((s.contends .reply).abandon .reply).setCau .idle =
      { s with rng := lfsrDraw s.rng, cau := .idle, maint := { s.maint with replies := [] } } := by
    have hone : (s.contends .reply).maint.replies = [r] := hr
    rw [State.abandon, hone]
    rfl
  rw [offerCandidate, startAttempt_draws hact hidle (candidate_reply hr) hg hl hq, hdraw, hleft, startAttempts_none,
    receiverFollow_wanted]
  · exact hl
  · exact wantedOn_window hact hon hg
  · exact candidate_eq_none.2 ⟨rfl, hrelays⟩

/-- Settles O44: what each service makes, the grant of REFRESH, and the attempt that the reply starts by `offerCandidate`. -/
theorem requestsAreAnswered : Obligations.RequestsAreAnswered := by
  refine ⟨fun s id q hroom hkey hcau ha => ⟨fun hf => ?status, fun hf => ⟨fun hr => ?badRange, fun hr => ?table⟩,
      fun hf => ?clear, fun hf => ?unknown⟩,
    fun s id q hroom hkey hcau ha hb hf => ⟨fun hs => ?stage, fun hs => ?busy⟩,
    fun s id q hroom hkey hcau hact ha hidle hopen hitem hs hread hf => ?granted,
    fun c p s v id q r hcommand hf hnone hidle hact hg hl hon hrec hb hv hr => ?starts⟩
  case status => exact congrArg _ (takeRequest_served serveStatus { s with rx := s.rx.taken id } rfl hf hroom hkey hcau ha)
  case badRange =>
    exact congrArg _ (takeRequest_served serveTable { s with rx := s.rx.taken id } (serveTable_outOfRange hr) hf hroom hkey hcau ha)
  case table =>
    exact congrArg _ (takeRequest_served serveTable { s with rx := s.rx.taken id } (serveTable_inRange hr) hf hroom hkey hcau ha)
  case clear =>
    exact congrArg _ (takeRequest_served serveClear
      { s with rx := s.rx.taken id, maint := { s.maint with counters := .zero } } rfl hf hroom hkey hcau ha)
  case unknown => exact congrArg _ (takeRequest_served serveUnknown { s with rx := s.rx.taken id } rfl hf hroom hkey hcau ha)
  case stage =>
    exact congrArg _ (takeRequest_served serveRefresh { s with rx := s.rx.taken id } (serveRefresh_frozen hs) hf hroom hkey hcau ha)
  case busy =>
    exact congrArg _ (takeRequest_served serveRefresh
      (({ s with rx := s.rx.taken id } : State).setClearItem (some (s.ctl.clearItem.getD .ordinary)))
      (serveRefresh_busy (s := { s with rx := s.rx.taken id }) hs hb) hf hroom hkey hcau ha)
  case granted =>
    let asked : State := ({ s with rx := s.rx.taken id } : State).setClearItem (some .ordinary)
    have hordinary : s.ctl.clearItem.getD .ordinary = .ordinary := by
      rcases h : s.ctl.clearItem with _ | _ | _
      · rfl
      · rfl
      · exact absurd h hitem
    have hserve : serveRefresh q { s with rx := s.rx.taken id } = ⟨grant (.clear .ordinary) asked, .ok, []⟩ := by
      rw [serveRefresh_requests (s := { s with rx := s.rx.taken id }) hs, hordinary]
      exact congrArg (fun u => (⟨u, .ok, []⟩ : Served)) (select_grants_stale (s := asked) hact hopen hidle hread (selection_clear rfl))
    exact congrArg _ (takeRequest_served serveRefresh (grant (.clear .ordinary) asked) hserve hf hroom hkey hcau ha)
  case starts =>
    intro draw drawn
    obtain ⟨serve, hservice, hexec⟩ := exec_requestCommand hcommand
    obtain ⟨ctl, maint, hmade⟩ := replied_busy (s := { s with rx := s.rx.taken id }) (q := q) hservice hb
    let made : State := { s with rx := s.rx.taken id, ctl := ctl, maint := maint }
    have hroom : s.maint.replies.length < 2 := by simp [hnone]
    have hsensing : exec c { s with cau := .sensing } = .next { made with cau := .sensing } := by
      have hagrees : receiverAgrees { made with cau := .sensing } = true :=
        receiverAgrees_listens hl (wantedOn_window (s := { made with cau := .sensing }) hact hon hg)
      exact (hexec _).trans (congrArg _ (takeRequest_busy (s := { s with cau := .sensing }) hf hroom (hmade .sensing) (by simp) hagrees))
    obtain rfl : { made with cau := .sensing } = v := Host.Outcome.next.inj (hsensing.symm.trans hv)
    have hidleExec : exec c s = .next (offerCandidate made) := by
      rw [hexec, takeRequest_found hf]
      exact congrArg _ ((answer_room (s := { s with rx := s.rx.taken id }) hroom).trans (congrArg _ (hmade s.cau)))
    have hframe : candidateFrame made .reply = r.frame := by simp [candidateFrame, show made.maint.replies = [r] from hr]
    have hcand : candidate? made = some .reply := candidate_reply hr
    rw [hidleExec]
    refine ⟨fun hloud => ?sensing, fun hquiet hcd => ⟨fun hd => ?contends, fun hd hpay => ?sends, fun hd hcost hrelays => ?discards⟩⟩
    case sensing =>
      exact congrArg _ (offerCandidate_senses (s := made) hact hidle hcand hg hl (channelQuiet_eq_false.2 hloud))
    case contends =>
      exact congrArg _ (offerCandidate_contends (s := made) hact hidle hcand hg hl (channelQuiet_iff.2 ⟨hquiet, hcd⟩) hd)
    case sends =>
      refine congrArg _ ((offerCandidate_sends (s := made) hact hidle hcand hg hl (channelQuiet_iff.2 ⟨hquiet, hcd⟩) hd
        (hframe ▸ hpay)).trans ?_)
      exact send_reply (s := made.contends .reply) hr hrec
    case discards =>
      exact congrArg _ (offerCandidate_discards (s := made) hact hidle hr hg hl hon (channelQuiet_iff.2 ⟨hquiet, hcd⟩) hd
        hcost hrelays)

end Sys2Proof.Machine
end

section
/-! The frames of a refresh (R138 to R143): frame clock periods, dead gaps, and the message of a frame. -/

namespace Sys2Proof.Machine

/-! ### Frame clock periods -/

section
variable {s : State} {x : Refresh} {w : Waveform} {b : Band} {p : Position} {fd fg : Nat}

theorem exec_driveFrameEnd_gap (h : frameInHand s = some (x, w, b, p, (fd, fg))) (hg : p.gap = true) :
    exec .driveFrameEnd s = .next s := by
  have hexec : execDriveFrameEnd s = .next s := by simp only [execDriveFrameEnd, h, hg, if_true]
  exact hexec

theorem exec_driveFrameEnd (h : frameInHand s = some (x, w, b, p, (fd, fg))) (hg : p.gap = false) :
    exec .driveFrameEnd s = .next { s with engine := s.engine.endPeriod s.cfg.n x w b p (fd, fg) } := by
  have hexec : execDriveFrameEnd s = .next { s with engine := s.engine.endPeriod s.cfg.n x w b p (fd, fg) } := by
    simp only [execDriveFrameEnd, h, hg, Bool.false_eq_true, if_false]
  exact hexec

theorem exec_deadGapEnd_gap (h : frameInHand s = some (x, w, b, p, (fd, fg))) (hg : p.gap = true) :
    exec .deadGapEnd s = .next { s with engine := s.engine.driveFrame x p.phase p.frame } := by
  have hexec : execDeadGapEnd s = .next { s with engine := s.engine.driveFrame x p.phase p.frame } := by
    simp only [execDeadGapEnd, h, hg, if_true]
  exact hexec

theorem exec_deadGapEnd (h : frameInHand s = some (x, w, b, p, (fd, fg))) (hg : p.gap = false) :
    exec .deadGapEnd s = .next s := by
  have hexec : execDeadGapEnd s = .next s := by simp only [execDeadGapEnd, h, hg, Bool.false_eq_true, if_false]
  exact hexec

/-- The frame clock period in progress is the last of its frame. -/
def LastPeriod (n : Nat) (p : Position) : Refresh → Prop
  | .row _ => True
  | .clear _ => n ≤ p.row

theorem lastPeriod_iff {n : Nat} : lastPeriod n x p = true ↔ LastPeriod n p x := by
  cases x <;> simp [lastPeriod, LastPeriod]

/-- The engine once a frame has been counted. -/
def Engine.counted (ground : Bool) (fd fg : Nat) (e : Engine) : Engine :=
  { e with counts := some (if ground then (fd, fg + 1) else (fd + 1, fg)) }

variable {n : Nat} {e : Engine}

theorem endPeriod_between (h : ¬ LastPeriod n p x) : e.endPeriod n x w b p (fd, fg) = e.nextRow p :=
  if_neg (mt lastPeriod_iff.1 h)

theorem endPeriod_last (h : LastPeriod n p x) :
    e.endPeriod n x w b p (fd, fg) = (e.counted (p.phase = .rest) fd fg).afterFrame x w b p := by
  have hc : countFrame p.phase (fd, fg) = if decide (p.phase = .rest) then (fd, fg + 1) else (fd + 1, fg) := by
    simp [countFrame]
  rw [Engine.endPeriod, if_pos (lastPeriod_iff.2 h), Engine.endFrame, hc]
  rfl

theorem afterFrame_again (h : p.frame < phaseFrames w b p.phase) :
    e.afterFrame x w b p = e.driveFrame x p.phase (p.frame + 1) := if_pos h

/-- The last frame of the last phase (R146). -/
theorem afterFrame_settles (h : phaseFrames w b p.phase ≤ p.frame) (hn : nextPhase w p.phase = none) :
    e.afterFrame x w b p = e.settled := by simp only [Engine.afterFrame, if_neg (not_lt.2 h), hn]

/-- The last frame of a phase before a dead gap (R142). -/
theorem afterFrame_gap {q : Phase} (h : phaseFrames w b p.phase ≤ p.frame) (hn : nextPhase w p.phase = some q)
    (hg : gapBetween w p.phase q = true) : e.afterFrame x w b p = e.deadGap x q := by
  simp only [Engine.afterFrame, if_neg (not_lt.2 h), hn, hg, if_true]

theorem afterFrame_phase {q : Phase} (h : phaseFrames w b p.phase ≤ p.frame) (hn : nextPhase w p.phase = some q)
    (hg : gapBetween w p.phase q = false) : e.afterFrame x w b p = e.driveFrame x q 1 := by
  simp only [Engine.afterFrame, if_neg (not_lt.2 h), hn, hg, Bool.false_eq_true, if_false]

end

/-! ### The message of a frame -/

/-- The pixel of an image, white where there is no record (R138). -/
def imageInk (x : Option RowRecord) (i : Nat) : Bool :=
  match x with
  | some y => inkAt y i
  | none => false

theorem currentInk_eq (row : Row) (i : Nat) : currentInk row i = imageInk row.shown i := by
  unfold currentInk imageInk
  cases row.shown <;> rfl

theorem targetInk_eq (row : Row) (i : Nat) : targetInk row i = imageInk row.drawing i := by
  unfold targetInk imageInk
  cases row.drawing <;> rfl

/-- The message of the frame on the bus, its classes by the images of the row. -/
theorem frameMessage_driving {s : State} {r : Nat} {q : Phase} {w : Waveform} {row : Row} (hbus : s.engine.bus = .driving r q)
    (hw : s.engine.waveform = some w) (hrow : s.rows[r]? = some row) :
    frameMessage s = some ⟨r, (List.range Config.rowPixels).map
      (fun i => pixelClass w q (imageInk row.shown i) (imageInk row.drawing i)), phaseLevels w q⟩ := by
  simp only [frameMessage, hbus, hw, hrow, Option.map_some, currentInk_eq, targetInk_eq]

theorem inkAt_key (c : RowContent) (k : Option Key) (i : Nat) :
    inkAt (.departure { c with key := k }) i = inkAt (.departure c) i := rfl

theorem inkAt_empty {c : RowContent} (h : c.value = .empty) (i : Nat) : inkAt (.departure c) i = false := by
  simp [inkAt, isBlank, h]

theorem inkAt_blankBanner (i : Nat) : inkAt (.banner .blank) i = false := rfl

/-- Settles O59: the periods by `endPeriod_between` and `endPeriod_last`, what follows a frame by its phase, the message by
`frameMessage_driving`. -/
theorem framesGapsAndRowPeriods : Obligations.FramesGapsAndRowPeriods := by
  refine ⟨fun s x w b p fd fg h => ?frames, by decide, fun s r q w row hbus hw hrow => ?message,
    fun c k i => ⟨inkAt_key c k i, fun hv => inkAt_empty hv i, inkAt_blankBanner i⟩, fun s hs => ?idle⟩
  case frames =>
    intro first last counted drive gap
    have hfirst : first = firstRow x := by cases x <;> rfl
    have hlast : last ↔ LastPeriod s.cfg.n p x := by cases x <;> exact Iff.rfl
    have hend : p.gap = false → last → exec .driveFrameEnd s = .next { s with
        engine := (counted (p.phase = .rest)).afterFrame x w b p } := fun hg hl => by
      rw [exec_driveFrameEnd h hg, endPeriod_last (hlast.1 hl)]
      rfl
    have hdrive : ∀ (e : Engine) (q : Phase) (frame : Nat), e.driveFrame x q frame = drive e q frame := fun e q frame => by
      rw [Engine.driveFrame, ← hfirst]
    have hgap : ∀ q : Phase, p.gap = false → last → phaseFrames w b p.phase ≤ p.frame → p.phase ≠ .rest →
        nextPhase w p.phase = some q → gapBetween w p.phase q = true →
        exec .driveFrameEnd s = .next { s with engine := gap q } := by
      intro q hg hl hdone hp hn hb
      rw [hend hg hl, afterFrame_gap hdone hn hb, decide_eq_false hp, Engine.deadGap, ← hfirst]
    have hphase : ∀ q : Phase, p.gap = false → last → phaseFrames w b p.phase ≤ p.frame → p.phase ≠ .rest →
        nextPhase w p.phase = some q → gapBetween w p.phase q = false →
        exec .driveFrameEnd s = .next { s with engine := drive (counted false) q 1 } := by
      intro q hg hl hdone hp hn hb
      rw [hend hg hl, afterFrame_phase hdone hn hb, decide_eq_false hp, hdrive]
    refine ⟨fun hg => ⟨exec_driveFrameEnd_gap h hg, ?gapEnd⟩, exec_deadGapEnd h, fun hg hl => ?between,
      fun hg hl hmore => ?again, fun hg hl hdone => ⟨fun hw hp => ?invert, fun hw hp => ?black, fun hw hp => ?white,
        fun hw hp => ?write, fun hw hp => ?partialWrite, fun hw hp => ?reinforce, fun hp => ?rest⟩⟩
    case gapEnd => rw [exec_deadGapEnd_gap h hg, hdrive]
    case between =>
      rw [exec_driveFrameEnd h hg, endPeriod_between (mt hlast.2 hl), Engine.nextRow, hg]
    case again => rw [hend hg hl, afterFrame_again hmore, hdrive]
    case invert => exact hgap .black hg hl hdone (by simp [hp]) (by rw [hw, hp]; rfl) (by rw [hw, hp]; decide)
    case black => exact hgap .white hg hl hdone (by simp [hp]) (by rw [hw, hp]; rfl) (by rw [hw, hp]; decide)
    case white => exact hgap .write hg hl hdone (by simp [hp]) (by rw [hw, hp]; rfl) (by rw [hw, hp]; decide)
    case write => exact hphase .rest hg hl hdone (by simp [hp]) (by rw [hw, hp]; rfl) (by rw [hw, hp]; decide)
    case partialWrite => exact hphase .reinforce hg hl hdone (by simp [hp]) (by rw [hw, hp]; rfl) (by rw [hw, hp]; decide)
    case reinforce => exact hphase .rest hg hl hdone (by simp [hp]) (by rw [hw, hp]; rfl) (by rw [hw, hp]; decide)
    case rest =>
      have hnone : nextPhase w p.phase = none := by rw [hp]; cases w <;> rfl
      rw [hend hg hl, afterFrame_settles hdone hnone, hp]
      rfl
  case message =>
    intro black message now aim changed
    have hframe := frameMessage_driving hbus hw hrow
    refine ⟨fun hw => ⟨fun hq => ?invert, fun hq => ?black, fun hq => ?white, fun hq => ?write, fun hq => ?rest⟩,
      fun hw => ⟨fun hq => ?drives, fun hq => ?partialRest⟩⟩
    case drives => rcases hq with hq | hq <;> subst hw hq <;> exact hframe
    all_goals
      subst hw hq
      exact hframe
  case idle => simp only [step, hs]

end Sys2Proof.Machine
end

section
/-! The releases of a HELD controller with the grants they make (R118, R121, R126), the fault inputs outside DRIVE (R160, R163),
and the harvest credit (R171). -/

namespace Sys2Proof.Machine

/-! ### A release -/

/-- The controller released from HELD (R126). -/
def Controller.released (c : Controller) : Controller :=
  if c.state = .held then { c with state := .opened, retry := none } else c

section
variable {s : State} {x : Refresh}

theorem leaveHeld_eq (s : State) : leaveHeld s = { s with ctl := s.ctl.released } := by
  unfold leaveHeld Controller.released
  split <;> rfl

theorem Controller.released_held {c : Controller} (h : c.state = .held) :
    c.released = { c with state := .opened, retry := none } := if_pos h

theorem leaveHeld_held (h : s.ctl.state = .held) :
    leaveHeld s = { s with ctl := { s.ctl with state := .opened, retry := none } } := if_pos h

theorem Controller.released_clearItem (c : Controller) : c.released.clearItem = c.clearItem := by
  unfold Controller.released
  split <;> rfl

theorem Controller.released_pointer (c : Controller) : c.released.pointer = c.pointer := by
  unfold Controller.released
  split <;> rfl

theorem selection_leaveHeld (s : State) : selection (leaveHeld s) = selection s := by
  rw [leaveHeld_eq]
  simp only [selection, Controller.released_clearItem, Controller.released_pointer]
  rfl

theorem nothingToSelect_iff : nothingToSelect s = true ↔ s.engine.state ≠ .idle ∨ selection s = none := by
  simp [nothingToSelect]

theorem nothingToSelect_leaveHeld (h : nothingToSelect s = true) : nothingToSelect (leaveHeld s) = true := by
  refine nothingToSelect_iff.2 ((nothingToSelect_iff.1 h).imp (fun hb => ?_) fun hn => (selection_leaveHeld s).trans hn)
  rw [leaveHeld_eq]
  exact hb

/-- A stage change at the controller with nothing selectable (R126). -/
theorem ctlStage_nothing (h : nothingToSelect s = true) : ctlStage s = { s with ctl := s.ctl.released } := by
  rw [ctlStage, select_nothing _ (nothingToSelect_leaveHeld h), leaveHeld_eq]

theorem releaseHeld_nothing (h : nothingToSelect s = true) : releaseHeld s = { s with ctl := s.ctl.released } := by
  by_cases hs : s.ctl.state = .held
  · exact (if_pos hs).trans (ctlStage_nothing h)
  · exact (if_neg hs).trans (by rw [Controller.released, if_neg hs])

/-- A release grants what is selectable at once, where no fresh reading is in hand (R118, R121, R126). -/
theorem select_leaveHeld_grants (ha : active s = true) (hs : s.ctl.state = .held) (hi : s.engine.state = .idle)
    (hr : ∀ r, s.engine.reading = some r → r.old = true) (hx : selection s = some x) :
    select (leaveHeld s) = grant x { s with ctl := { s.ctl with state := .opened, retry := none } } := by
  have hx' : selection (leaveHeld s) = some x := (selection_leaveHeld s).trans hx
  rw [leaveHeld_held hs] at hx' ⊢
  exact select_grants_stale ha rfl hi hr hx'

theorem releaseHeld_grants (ha : active s = true) (hs : s.ctl.state = .held) (hi : s.engine.state = .idle)
    (hr : ∀ r, s.engine.reading = some r → r.old = true) (hx : selection s = some x) :
    releaseHeld s = grant x { s with ctl := { s.ctl with state := .opened, retry := none } } :=
  (if_pos hs).trans (select_leaveHeld_grants ha hs hi hr hx)

/-! ### The commands -/

theorem driving_eq_none (h : s.engine.state ≠ .drive) : driving s = none := if_neg fun hs => h hs.2

theorem exec_pfaultAssert_outside {stays : Bool} (h : s.engine.state ≠ .drive) :
    exec (.pfaultAssert stays) s = .next { s with pins := { s.pins with pfault := stays } } := by
  have hexec : execPfaultAssert stays s = .next { s with pins := { s.pins with pfault := stays } } := by
    simp only [execPfaultAssert, driving_eq_none h]
  exact hexec

theorem startup_of_active (h : active s = true) : s.startup.state ≠ .inReset := by
  intro hs
  simp [active, hs] at h

theorem exec_droopAssert (hd : s.pins.droop = false) :
    exec .droopAssert s = .next (takeDroop { s with pins := { s.pins with droop := true } }) := if_neg (by simp [hd])

theorem takeDroop_outside (ha : active s = true) (h : s.engine.state ≠ .drive) : takeDroop s = seeDroop s := by
  simp only [takeDroop, driving_eq_none h, if_neg (startup_of_active ha)]

theorem exec_droopRelease (ha : active s = true) (hd : s.pins.droop = true) :
    exec .droopRelease s = .next (releaseHeld { s with pins := { s.pins with droop := false } }) :=
  (if_pos hd).trans (if_pos ha)

theorem exec_retryTimerExpiry (ha : active s = true) (hr : s.ctl.retry = some 0) :
    exec .retryTimerExpiry s = .next (releaseHeld s) := if_pos ⟨ha, decide_eq_true hr⟩

/-- The end of a lockout before the controller is released (R166). -/
def State.unlocked (s : State) : State :=
  { s with monitor := { s.monitor with lockout := none, aborts := 0 }, engine := { s.engine with state := .idle } }

theorem exec_lockoutEnd (ha : active s = true) (hl : s.engine.state = .lockout) (hr : s.monitor.lockout = some 0) :
    exec .lockoutEnd s = .next (ctlStage s.unlocked) := if_pos ⟨ha, hl, decide_eq_true hr⟩

theorem exec_harvestPulse_stopped (h : s.account.running = false) : exec .harvestPulse s = .next s := if_neg (by simp [h])

/-- A credit that crosses nothing (R126, R171). -/
theorem exec_harvestPulse_quiet (ha : active s = true) (hr : s.account.running = true)
    (h : crossesNothing s (min s.cfg.capacity (s.account.e + 64)) = true) :
    exec .harvestPulse s = .next (releaseHeld (withE s (min s.cfg.capacity (s.account.e + 64)))) := by
  have hholds : stageHolds s.cfg s.account.stage (min s.cfg.capacity (s.account.e + 64)) = true := by
    simp only [crossesNothing, Bool.and_eq_true] at h
    exact h.1
  have hharvest : harvest s = releaseHeld (credit ctlStage 64 s) := if_pos ⟨ha, hholds⟩
  rw [← credit_quiet ctlStage 64 s hr h, ← hharvest]
  exact if_pos hr

end

/-- Settles O46: a credit that crosses nothing, and a release with nothing selectable. -/
theorem harvestCreditsAndReleases : Obligations.HarvestCreditsAndReleases := by
  refine fun s => ⟨exec_harvestPulse_stopped, fun hr ha hn hc => ?_⟩
  rw [exec_harvestPulse_quiet ha hr hc]
  exact congrArg _ (releaseHeld_nothing (s := withE s (min s.cfg.capacity (s.account.e + 64))) hn)

/-- Settles O58: the levels outside DRIVE, and each release by `releaseHeld_nothing` or `releaseHeld_grants`. -/
theorem faultInputsAndReleases : Obligations.FaultInputsAndReleases := by
  intro s ha released
  refine ⟨fun stays h => exec_pfaultAssert_outside h, fun h hd => ?droop, fun hn hd => ?release, fun hn hs hr => ?retry,
    fun hl hr hn => ?lockout, fun r hs hx hread => ?grants⟩
  case droop =>
    rw [exec_droopAssert hd]
    exact congrArg _ (takeDroop_outside (s := { s with pins := { s.pins with droop := true } }) ha h)
  case release =>
    rw [exec_droopRelease ha hd]
    exact congrArg _ (releaseHeld_nothing (s := { s with pins := { s.pins with droop := false } }) hn)
  case retry => rw [exec_retryTimerExpiry ha hr, releaseHeld_nothing hn, Controller.released_held hs]
  case lockout =>
    rw [exec_lockoutEnd ha hl hr]
    exact congrArg _ (ctlStage_nothing (s := s.unlocked) (nothingToSelect_iff.2 (.inr hn)))
  case grants =>
    intro granted e
    refine ⟨fun hi hd => ?droopRelease, fun hi hr => ?retryExpiry, fun hi hrun hc => ?harvest, fun hl hr => ?lockoutEnd⟩
    case droopRelease =>
      rw [exec_droopRelease ha hd]
      exact congrArg _ (releaseHeld_grants (s := { s with pins := { s.pins with droop := false } }) ha hs hi hread hx)
    case retryExpiry =>
      rw [exec_retryTimerExpiry ha hr]
      exact congrArg _ (releaseHeld_grants ha hs hi hread hx)
    case harvest =>
      rw [exec_harvestPulse_quiet ha hrun hc]
      exact congrArg _ (releaseHeld_grants (s := withE s e) ha hs hi hread hx)
    case lockoutEnd =>
      rw [exec_lockoutEnd ha hl hr]
      exact congrArg _ (select_leaveHeld_grants (s := s.unlocked) ha hs rfl hread hx)

end Sys2Proof.Machine
end

section
/-! The end of a refresh by its completion (R147 to R149): the rows it drew, their shown-row fields, and its cost. -/

namespace Sys2Proof.Machine

/-! ### The rows of a refresh -/

/-- The rows with `f` applied to those that a refresh draws. -/
def onRows (x : Refresh) (f : Row → Row) (rows : List Row) : List Row :=
  match x with
  | .row r => rows.modify r f
  | .clear _ => rows.map f

theorem onRefresh_eq (x : Refresh) (f : Row → Row) (s : State) : s.onRefresh x f = { s with rows := onRows x f s.rows } := by
  cases x <;> rfl

theorem onRows_onRows (x : Refresh) (f g : Row → Row) (rows : List Row) :
    onRows x g (onRows x f rows) = onRows x (g ∘ f) rows := by
  cases x with
  | row r => exact List.modify_modify_eq ..
  | clear k => exact List.map_map

/-- A shown record carries an entry's key (R107). -/
def recordCarries (k : Key) (x : Option RowRecord) : Bool :=
  match x with
  | some (.departure c) => c.key = some k
  | some (.banner _) => false
  | none => false

/-- The shown-row fields depend on the shown records alone (R107). -/
theorem shownRowOf_congr {rows rows' : List Row} (h : rows.map (·.shown) = rows'.map (·.shown)) (n : Nat) (k : Key) :
    shownRowOf n rows k = shownRowOf n rows' k := by
  have hshown : ∀ l : List Row, shownRowOf n l k = ((l.map (·.shown)).take n).findIdx? (recordCarries k) := by
    intro l
    rw [← List.map_take, List.findIdx?_map]
    rfl
  rw [hshown, hshown, h]

/-- The table with its shown-row fields up to date for a panel (R107). -/
def shownOn (n : Nat) (rows : List Row) (table : List DepEntry) : List DepEntry :=
  table.map (fun e => { e with shownRow := shownRowOf n rows e.key })

theorem shownOn_congr {rows rows' : List Row} (h : rows.map (·.shown) = rows'.map (·.shown)) (n : Nat) (table : List DepEntry) :
    shownOn n rows table = shownOn n rows' table :=
  List.map_congr_left fun e _ => by rw [shownRowOf_congr h]

theorem onRows_shown (x : Refresh) {f g : Row → Row} (h : ∀ row, (f row).shown = (g row).shown) (rows : List Row) :
    (onRows x f rows).map (·.shown) = (onRows x g rows).map (·.shown) := by
  cases x with
  | row r =>
    refine List.ext_getElem (by simp [onRows]) fun i hi hi' => ?_
    simp only [onRows, List.getElem_map, List.getElem_modify]
    split <;> simp [h]
  | clear k => simp [onRows, h]

/-! ### The release of the reservation -/

/-- A debit with the release of the reservation that crosses no threshold (R179). -/
theorem releaseAndDebit_quiet (ctl : State → State) {q : Nat} {s : State} (hr : s.account.running = true)
    (hc : crossesNothing { s with account := { s.account with reservation := none } } (s.account.e - q) = true) :
    releaseAndDebit ctl q s = { s with account := { s.account with e := s.account.e - q, reservation := none } } :=
  debit_quiet ctl q (s.setReservation none) hr hc

/-! ### The completion -/

/-- A row that a refresh has drawn, once it is out of service (R147, R148). -/
def Row.completed (w : Waveform) (row : Row) : Row :=
  { row with
    shown := row.drawing
    drawing := none
    inService := false
    partialCount := partialAfter w row.partialCount
    pending := row.pending || decide (row.drawing ≠ some row.desired) }

/-- The state after a completion, before what a panel clear adds and the selection (R147). -/
def State.completed (x : Refresh) (w : Waveform) (cost : Nat) (s : State) : State :=
  State.count .drawDone { s with
    rows := onRows x (Row.completed w) s.rows
    table := shownOn s.cfg.n (onRows x (Row.completed w) s.rows) s.table
    account := { s.account with e := s.account.e - cost, reservation := none }
    monitor := { s.monitor with aborts := 0 }
    engine := s.engine.ended .idle }

section
variable {s : State} {x : Refresh} {w : Waveform} {cost : Nat}

theorem exec_refreshCompletion (ha : active s = true) (hs : s.engine.state = .settle) (hx : s.engine.refresh = some x)
    (hw : s.engine.waveform = some w) (hcost : s.engine.cost = some cost) :
    exec .refreshCompletion s = .next (completeRefresh x w cost s) := by
  have hexec : execRefreshCompletion s = .next (completeRefresh x w cost s) := by
    simp only [execRefreshCompletion, ha, hs, hx, hw, hcost, and_self, if_true, Option.getD_some]
  exact hexec

theorem completeRefresh_eq (hr : s.account.running = true)
    (hc : crossesNothing { s with account := { s.account with reservation := none } } (s.account.e - cost) = true) :
    completeRefresh x w cost s = select
      (let u := match x with | .row _ => s.completed x w cost | .clear k => clearCompleted k (s.completed x w cost)
       { u with ctl := { u.ctl with state := .opened } }) := by
  have hrows : onRows x (fun row => { row with pending := row.pending || row.differs })
      (onRows x Row.released (onRows x (Row.drawn w) s.rows)) = onRows x (Row.completed w) s.rows := by
    rw [onRows_onRows, onRows_onRows]
    rfl
  have htable : shownOn s.cfg.n (onRows x (Row.drawn w) s.rows) s.table =
      shownOn s.cfg.n (onRows x (Row.completed w) s.rows) s.table := shownOn_congr (onRows_shown x (f := Row.drawn w) (g := Row.completed w) (fun _ => rfl) s.rows) ..
  have hdebit := releaseAndDebit_quiet ctlStage (q := cost) (s := { s with
    rows := onRows x Row.released (onRows x (Row.drawn w) s.rows)
    table := shownOn s.cfg.n (onRows x (Row.drawn w) s.rows) s.table }) hr hc
  have hcompleted : s.completed x w cost = State.count .drawDone { s with
      rows := onRows x (fun row => { row with pending := row.pending || row.differs })
        (onRows x Row.released (onRows x (Row.drawn w) s.rows))
      table := shownOn s.cfg.n (onRows x (Row.drawn w) s.rows) s.table
      account := { s.account with e := s.account.e - cost, reservation := none }
      monitor := { s.monitor with aborts := 0 }
      engine := s.engine.ended .idle } := by
    rw [hrows, htable]
    rfl
  have hbefore : (updateShownRows (s.onRefresh x (Row.drawn w))).onRefresh x Row.released = { s with
      rows := onRows x Row.released (onRows x (Row.drawn w) s.rows)
      table := shownOn s.cfg.n (onRows x (Row.drawn w) s.rows) s.table } := by
    rw [onRefresh_eq, onRefresh_eq]
    rfl
  rw [hcompleted]
  simp only [completeRefresh]
  rw [hbefore, hdebit, onRefresh_eq]
  cases x <;> rfl

end

/-! ### What a completed panel clear adds (R149) -/

/-- The full-clear interval after a panel clear: from its full length in SERVICE, as it was in the fill period (R116). -/
def intervalAfterClear (s : State) : Option Nat :=
  if s.startup.state = .service then some (28800 * s.cfg.clearHours) else s.ctl.interval

/-- The rows with the masks of the departure rows set where `m` holds, and as they were otherwise. -/
def maskedRows (n : Nat) (m : Bool) (rows : List Row) : List Row :=
  rows.mapIdx (fun r row => { row with mask := if r < n ∧ m = true then true else row.mask })

theorem setMasks_true (s : State) : s.setMasks true = { s with rows := maskedRows s.cfg.n true s.rows } := by
  have hrow : (fun (r : Nat) (row : Row) => if r < s.cfg.n then { row with mask := true } else row) =
      fun r row => { row with mask := if r < s.cfg.n ∧ true = true then true else row.mask } := by
    funext r row
    by_cases h : r < s.cfg.n <;> simp [h]
  rw [State.setMasks, maskedRows, hrow]

theorem maskedRows_false (n : Nat) (rows : List Row) : maskedRows n false rows = rows := by
  refine List.ext_getElem (by simp [maskedRows]) fun i h h' => ?_
  simp [maskedRows]

theorem maskedRows_shown (n : Nat) (m : Bool) (rows : List Row) : (maskedRows n m rows).map (·.shown) = rows.map (·.shown) := by
  refine List.ext_getElem (by simp [maskedRows]) fun i h h' => ?_
  simp [maskedRows]

theorem clearCompleted_ordinary (s : State) :
    clearCompleted .ordinary s = { s with ctl := { s.ctl with interval := intervalAfterClear s } } := by
  unfold clearCompleted intervalAfterClear
  split <;> rfl

theorem clearCompleted_freeze (s : State) :
    clearCompleted .freeze s =
      let done := decide (s.account.stage = .frozen ∧ s.ctl.clearItem ≠ some .freeze)
      { s with
        rows := maskedRows s.cfg.n done s.rows
        account := { s.account with freeze := if done then .drawn else s.account.freeze }
        ctl := { s.ctl with interval := intervalAfterClear s } } := by
  have hordinary : clearCompleted .freeze s = freezeDrawn (clearCompleted .ordinary s) := rfl
  by_cases hdone : s.account.stage = .frozen ∧ s.ctl.clearItem ≠ some .freeze
  · rw [hordinary, clearCompleted_ordinary, freezeDrawn, if_pos hdone, setMasks_true]
    simp only [decide_eq_true hdone]
    rfl
  · rw [hordinary, clearCompleted_ordinary, freezeDrawn, if_neg hdone]
    simp only [decide_eq_false hdone, maskedRows_false]
    rfl

theorem mapIdx_completed (n : Nat) (done : Prop) [Decidable done] (w : Waveform) (rows : List Row) :
    rows.mapIdx (fun r row => { row.completed w with mask := if r < n ∧ done then true else row.mask }) =
      maskedRows n (decide done) (rows.map (Row.completed w)) := by
  refine List.ext_getElem (by simp [maskedRows]) fun i h h' => ?_
  simp [maskedRows, Row.completed]

/-- Settles O60: the completion by `completeRefresh_eq`, what a panel clear adds by `clearCompleted`, and the selection. -/
theorem completionShowsWhatWasDrawn : Obligations.CompletionShowsWhatWasDrawn := by
  intro s x w cost ha hs hx hw hcost hr hc drawn completed
  have hexec := exec_refreshCompletion ha hs hx hw hcost
  rw [completeRefresh_eq hr hc] at hexec
  refine ⟨fun r hrow => ?row, fun hfreeze => ?freeze, fun hordinary => ?ordinary⟩
  case row =>
    subst hrow
    intro u
    have hu : exec .refreshCompletion s = .next (select u) := hexec
    exact ⟨hu, fun hn => hu.trans (congrArg _ (select_nothing u (nothingToSelect_iff.2 (.inr hn))))⟩
  case freeze =>
    subst hfreeze
    intro done u
    have hrows : s.rows.mapIdx (fun r row => { drawn row with mask := if r < s.cfg.n ∧ done then true else row.mask }) =
        maskedRows s.cfg.n (decide done) (s.rows.map (Row.completed w)) := mapIdx_completed ..
    have hpicture : (if decide done = true then FreezeState.drawn else s.account.freeze) =
        if done then .drawn else s.account.freeze := by simp only [decide_eq_true_eq]
    have htable : shownOn s.cfg.n (s.rows.map (Row.completed w)) s.table =
        shownOn s.cfg.n (maskedRows s.cfg.n (decide done) (s.rows.map (Row.completed w))) s.table :=
      shownOn_congr (maskedRows_shown ..).symm ..
    have hmade : completed (maskedRows s.cfg.n (decide done) (s.rows.map (Row.completed w)))
        (if decide done = true then .drawn else s.account.freeze)
        (if s.startup.state = .service then some (28800 * s.cfg.clearHours) else s.ctl.interval) = u := by
      rw [hpicture, ← hrows]
    have hu : exec .refreshCompletion s = .next (select u) := by
      rw [hexec, ← hmade]
      simp only [clearCompleted_freeze, State.completed, onRows, htable]
      rfl
    refine ⟨hu, fun hitem hread => hu.trans (congrArg _ ?_)⟩
    exact select_grants_stale (s := u) ha rfl rfl hread (selection_clear hitem)
  case ordinary =>
    subst hordinary
    simp only [clearCompleted_ordinary] at hexec
    exact hexec

end Sys2Proof.Machine
end

section
/-! PREPARE from the temperature's answer on (R130 to R137): the entry to DRIVE, and the refusals (R125). -/

namespace Sys2Proof.Machine

/-! ### Temperatures, bands and waveforms -/

theorem bandOfTemp_iff (t : Int) :
    (bandOfTemp t = .noDriveCold ↔ t ≤ -21) ∧ (bandOfTemp t = .b0 ↔ -20 ≤ t ∧ t ≤ -11) ∧
    (bandOfTemp t = .b1 ↔ -10 ≤ t ∧ t ≤ -1) ∧ (bandOfTemp t = .b2 ↔ 0 ≤ t ∧ t ≤ 9) ∧
    (bandOfTemp t = .b3 ↔ 10 ≤ t ∧ t ≤ 24) ∧ (bandOfTemp t = .b4 ↔ 25 ≤ t ∧ t ≤ 39) ∧
    (bandOfTemp t = .b5 ↔ 40 ≤ t ∧ t ≤ 54) ∧ (bandOfTemp t = .noDriveHot ↔ 55 ≤ t) := by
  unfold bandOfTemp
  split_ifs <;> simp <;> omega

theorem noDrive_bandOfTemp (t : Int) : noDrive (bandOfTemp t) = true ↔ t ≤ -21 ∨ 55 ≤ t := by
  unfold bandOfTemp
  split_ifs <;> simp [noDrive] <;> omega

theorem noDrive_eq_false {b : Band} (hcold : b ≠ .noDriveCold) (hhot : b ≠ .noDriveHot) : noDrive b = false := by
  simp [noDrive, hcold, hhot]

section
variable {s : State} {x : Refresh} {b : Band}

/-- A row is drawn in FULL: indeterminate, at its partial limit, or in a cold band (R134). -/
abbrev DrawsFull (s : State) (b : Band) (row : Row) : Prop :=
  row.shown = none ∨ s.cfg.partialLimit ≤ row.partialCount ∨ b = .b0 ∨ b = .b1

theorem waveformOf_row {r : Nat} {row : Row} (hrow : s.rows[r]? = some row) :
    waveformOf s (.row r) b = if DrawsFull s b row then .full else .partialWave := by
  have hfull : (row.shown.isNone || decide (s.cfg.partialLimit ≤ row.partialCount) || decide (b = .b0) || decide (b = .b1)) =
      true ↔ DrawsFull s b row := by simp [DrawsFull, or_assoc]
  simp only [waveformOf, hrow, hfull]

/-! ### The reservation -/

theorem spendable_unreserved (h : s.account.reservation = none) :
    spendable s = (s.account.e : Int) - bannerReserve s.cfg.n := by simp [spendable, reserved, h]

theorem reservationPasses_freeze {cost : Nat} : reservationPasses s (.clear .freeze) cost = decide (cost ≤ s.account.e) := by
  simp [reservationPasses]

theorem reservationPasses_other {cost : Nat} (hx : x ≠ .clear .freeze) (h : s.account.reservation = none) :
    reservationPasses s x cost = decide ((cost : Int) ≤ (s.account.e : Int) - bannerReserve s.cfg.n) := by
  rw [reservationPasses, if_neg hx, spendable_unreserved h]

/-! ### The answer -/

/-- The temperature of an answer, clamped (R132). -/
def tempOf (degrees : Int) : Int := max (-40) (min 85 degrees)

/-- The state with the reading of an answer in hand and its band determined (R132, R133). -/
def State.measured (degrees : Int) (s : State) : State :=
  { s with engine := { s.engine with
      reading := some ⟨tempOf degrees, s.clock, false⟩, lastBand := some (bandOfTemp (tempOf degrees)) } }

theorem exec_temperatureAnswer {degrees : Int} (ha : active s = true) (hs : s.engine.state = .prepare)
    (hx : s.engine.refresh = some x) :
    exec (.temperatureAnswer degrees) s = .next
      (if noDrive (bandOfTemp (tempOf degrees)) then refuse .noDriveBand x (s.measured degrees)
       else reserveWith select x (bandOfTemp (tempOf degrees)) (s.measured degrees)) := by
  have hpreparing : preparing s = some x := by simp [preparing, ha, hs, hx]
  have hexec : execTemperatureAnswer degrees s = .next (prepareWith select x (readingOf degrees s.clock).degrees
      { s with engine := { s.engine with reading := some (readingOf degrees s.clock) } }) := by
    simp only [execTemperatureAnswer, hpreparing]
  have hreading : readingOf degrees s.clock = ⟨tempOf degrees, s.clock, false⟩ := by rw [readingOf, clampInt_eq_max_min (by decide)]; rfl
  rw [hreading] at hexec
  exact hexec

theorem exec_temperatureAnswer_noDrive {degrees : Int} (ha : active s = true) (hs : s.engine.state = .prepare)
    (hx : s.engine.refresh = some x) (hb : noDrive (bandOfTemp (tempOf degrees)) = true) :
    exec (.temperatureAnswer degrees) s = .next (refuse .noDriveBand x (s.measured degrees)) := by
  rw [exec_temperatureAnswer ha hs hx, if_pos hb]

theorem exec_temperatureAnswer_drivable {degrees : Int} (ha : active s = true) (hs : s.engine.state = .prepare)
    (hx : s.engine.refresh = some x) (hb : noDrive (bandOfTemp (tempOf degrees)) = false) :
    exec (.temperatureAnswer degrees) s = .next (reserveWith select x (bandOfTemp (tempOf degrees)) (s.measured degrees)) := by
  rw [exec_temperatureAnswer ha hs hx, hb, if_neg Bool.false_ne_true]

/-- The state at the first frame of a refresh (R137). -/
def State.driven (x : Refresh) (w : Waveform) (b : Band) (cost : Nat) (s : State) : State :=
  { s with
    account := { s.account with reservation := some cost }
    engine := { s.engine with
      state := .drive, band := some b, waveform := some w, cost := some cost
      position := some ⟨firstPhase w, 1, firstRow x, false⟩, counts := some (0, 0), frameClock := .running
      bus := .driving (firstRow x) (firstPhase w) } }

/-- The entry to DRIVE with the energy at hand and no fault input asserted (R130, R135 to R137). -/
theorem reserveWith_drives (hp : s.pins.pfault = false) (hd : s.pins.droop = false)
    (hpass : reservationPasses s x (refreshCost s.cfg.n x (waveformOf s x b) b) = true)
    (hagrees : receiverAgrees { s with account := { s.account with
      reservation := some (refreshCost s.cfg.n x (waveformOf s x b) b) } } = true) :
    reserveWith select x b s = s.driven x (waveformOf s x b) b (refreshCost s.cfg.n x (waveformOf s x b) b) := by
  let priced : State := { s with engine := { s.engine with cost := some (refreshCost s.cfg.n x (waveformOf s x b) b) } }
  have hpass' : reservationPasses priced x (refreshCost s.cfg.n x (waveformOf s x b) b) = true := hpass
  have hupdate : receiverUpdate (priced.setReservation (some (refreshCost s.cfg.n x (waveformOf s x b) b))) =
      priced.setReservation (some (refreshCost s.cfg.n x (waveformOf s x b) b)) := receiverUpdate_agrees _ hagrees
  have hfault : entryFault s.pins = none := by simp [entryFault, hp, hd]
  have hreserve : reserveWith select x b s = enterDrive x (waveformOf s x b) b
      (receiverUpdate (priced.setReservation (some (refreshCost s.cfg.n x (waveformOf s x b) b)))) := by
    have hpins : (enterDrive x (waveformOf s x b) b
        (receiverUpdate (priced.setReservation (some (refreshCost s.cfg.n x (waveformOf s x b) b))))).pins = s.pins := by
      rw [hupdate]
      rfl
    have hdroop : priced.pins.droop = false := hd
    simp only [reserveWith]
    rw [if_neg (by simp [hd]), if_pos hpass', hpins, hfault]
  rw [hreserve, hupdate]
  rfl

theorem reserveWith_droops (hd : s.pins.droop = true) :
    reserveWith select x b s = refuse .droop x { s with
      engine := { s.engine with cost := some (refreshCost s.cfg.n x (waveformOf s x b) b) }
      monitor := { s.monitor with record := { s.monitor.record with droopSeen := true } } } := if_pos hd

theorem reserveWith_short (hd : s.pins.droop = false)
    (hshort : reservationPasses s x (refreshCost s.cfg.n x (waveformOf s x b) b) = false) :
    reserveWith select x b s = refuse .energyShort x
      { s with engine := { s.engine with cost := some (refreshCost s.cfg.n x (waveformOf s x b) b) } } := by
  have hshort' : reservationPasses { s with engine := { s.engine with cost := some (refreshCost s.cfg.n x (waveformOf s x b) b) } }
      x (refreshCost s.cfg.n x (waveformOf s x b) b) = false := hshort
  simp only [reserveWith]
  rw [if_neg (by simp [hd]), if_neg (by simp [hshort'])]

end

/-- Settles O54: the entry to DRIVE by `reserveWith_drives`, whose waveform is the row's or, for a panel clear, FULL. -/
theorem temperatureAnswerEntersDrive : Obligations.TemperatureAnswerEntersDrive := by
  refine ⟨fun degrees s x ha hs hx hp hd hres => ?drives, fun t => ?bands, by decide, by decide⟩
  case drives =>
    intro temp band hcold hhot driven
    have hexec := exec_temperatureAnswer_drivable (degrees := degrees) ha hs hx (noDrive_eq_false hcold hhot)
    have hdrives : ∀ w : Waveform, waveformOf s x band = w →
        reservationPasses s x (refreshCost s.cfg.n x w band) = true →
        receiverAgrees { s with account := { s.account with reservation := some (refreshCost s.cfg.n x w band) } } = true →
        exec (.temperatureAnswer degrees) s = .next ((s.measured degrees).driven x w band (refreshCost s.cfg.n x w band)) := by
      rintro w rfl hpass hagrees
      exact hexec.trans (congrArg _ (reserveWith_drives (s := s.measured degrees) hp hd hpass hagrees))
    refine ⟨fun r row hr hrow => ?row, fun k hk => ?clear⟩
    case row =>
      subst hr
      intro full w cost hcost hagrees
      have hpass : reservationPasses s (.row r) cost = true := by
        rw [reservationPasses_other (by simp) hres]
        exact decide_eq_true hcost
      have hphase : (if full then Phase.invert else .write) = firstPhase w := by
        by_cases hfull : full
        · simp only [w, if_pos hfull, firstPhase]
        · simp only [w, if_neg hfull, firstPhase]
      rw [hphase]
      exact hdrives w (waveformOf_row hrow) hpass hagrees
    case clear =>
      subst hk
      intro cost hordinary hfreeze hagrees
      have hpass : reservationPasses s (.clear k) cost = true := by
        cases k with
        | ordinary =>
          rw [reservationPasses_other (by simp) hres]
          exact decide_eq_true (hordinary rfl)
        | freeze =>
          rw [reservationPasses_freeze]
          exact decide_eq_true (hfreeze rfl)
      exact hdrives .full rfl hpass hagrees
  case bands =>
    obtain ⟨hcold, h0, h1, h2, h3, h4, h5, hhot⟩ := bandOfTemp_iff t
    exact ⟨hcold.2, fun a b => h0.2 ⟨a, b⟩, fun a b => h1.2 ⟨a, b⟩, fun a b => h2.2 ⟨a, b⟩, fun a b => h3.2 ⟨a, b⟩,
      fun a b => h4.2 ⟨a, b⟩, fun a b => h5.2 ⟨a, b⟩, hhot.2⟩

end Sys2Proof.Machine
end

section
/-! The refusals of a grant in PREPARE (R125, R133, R135, R136, R160, R186). -/

namespace Sys2Proof.Machine

/-! ### What a refusal leaves -/

/-- The state of a refused refresh, with the rows and the panel clear item given (R125). -/
def State.refusedWith (rows : List Row) (item : Option ClearKind) (s : State) : State :=
  { s with
    rows := rows
    ctl := { s.ctl with state := .held, clearItem := item, retry := some 480, pointer := s.ctl.grantPointer }
    engine := s.engine.ended .idle }

/-- The panel clear item after a refusal that skips no freeze (R125). -/
def refusedItem (x : Refresh) (s : State) : Option ClearKind :=
  match x with
  | .row _ => s.ctl.clearItem
  | .clear .ordinary => if s.account.stage = .frozen then s.ctl.clearItem else some (s.ctl.clearItem.getD .ordinary)
  | .clear .freeze => if s.account.stage = .frozen then some .freeze else s.ctl.clearItem

/-- The state of a refused refresh that skips no freeze. -/
def State.refused (x : Refresh) (s : State) : State :=
  s.refusedWith (onRows x Row.withdrawn s.rows) (refusedItem x s)

section
variable {s : State} {x : Refresh} {cause : RefusalCause}

/-- The state with the grant of a refresh withdrawn (R125 items 1, 2 and 4). -/
def State.withdrawn (x : Refresh) (s : State) : State :=
  { s with
    rows := onRows x Row.withdrawn s.rows
    ctl := { s.ctl with pointer := s.ctl.grantPointer }
    engine := s.engine.ended .idle }

theorem withdraw_eq (x : Refresh) (s : State) : withdraw x s = s.withdrawn x := by
  rw [withdraw, onRefresh_eq]
  rfl

theorem refuse_row (cause : RefusalCause) (r : Nat) (s : State) : refuse cause (.row r) s = s.refused (.row r) := by
  rw [refuse, withdraw_eq]
  rfl

theorem refuse_ordinary (cause : RefusalCause) (s : State) : refuse cause (.clear .ordinary) s = s.refused (.clear .ordinary) := by
  rw [refuse, withdraw_eq]
  by_cases hf : s.account.stage = .frozen
  · simp only [State.refused, refusedItem, if_pos hf]
    exact congrArg enterHeld (requestClear_ordinary_frozen (s := s.withdrawn (.clear .ordinary)) hf)
  · simp only [State.refused, refusedItem, if_neg hf]
    exact congrArg enterHeld (requestClear_ordinary_recorded (s := s.withdrawn (.clear .ordinary)) hf)

/-- A freeze picture refused for want of energy in FROZEN is skipped (R186). -/
theorem refuse_skips (hf : s.account.stage = .frozen) :
    refuse .energyShort (.clear .freeze) s =
      { s.refusedWith (maskedRows s.cfg.n true (s.rows.map Row.withdrawn)) none with
        account := { s.account with freeze := .skipped } } := by
  have hf' : (s.withdrawn (.clear .freeze)).account.stage = .frozen := hf
  rw [refuse, withdraw_eq]
  simp only [if_pos hf', if_true, skipFreeze, setMasks_true]
  rfl

theorem refuse_freeze (h : ¬ (cause = .energyShort ∧ s.account.stage = .frozen)) :
    refuse cause (.clear .freeze) s = s.refused (.clear .freeze) := by
  rw [refuse, withdraw_eq]
  by_cases hf : s.account.stage = .frozen
  · have hf' : (s.withdrawn (.clear .freeze)).account.stage = .frozen := hf
    have hcause : cause ≠ .energyShort := fun hc => h ⟨hc, hf⟩
    simp only [if_pos hf', if_neg hcause, State.refused, refusedItem, if_pos hf]
    rfl
  · have hf' : ¬ (s.withdrawn (.clear .freeze)).account.stage = .frozen := hf
    simp only [if_neg hf', State.refused, refusedItem, if_neg hf]
    rfl

/-- A refusal that skips no freeze withdraws the grant and requests its panel clear again (R125). -/
theorem refuse_eq (h : ¬ (cause = .energyShort ∧ x = .clear .freeze ∧ s.account.stage = .frozen)) :
    refuse cause x s = s.refused x := by
  rcases x with r | _ | _
  · exact refuse_row cause r s
  · exact refuse_ordinary cause s
  · exact refuse_freeze fun hc => h ⟨hc.1, rfl, hc.2⟩

end

theorem mapIdx_withdrawn (n : Nat) (rows : List Row) :
    rows.mapIdx (fun r row => { row.withdrawn with mask := if r < n then true else row.mask }) =
      maskedRows n true (rows.map Row.withdrawn) := by
  refine List.ext_getElem (by simp [maskedRows]) fun i h h' => ?_
  simp [maskedRows, Row.withdrawn, Row.released]

/-- Settles O55: each cause of a refusal by the step of PREPARE that finds it, and what it leaves by `refuse_eq` and
`refuse_skips`. -/
theorem temperatureAnswerMayBeRefused : Obligations.TemperatureAnswerMayBeRefused := by
  intro degrees s x ha hs hx hres hrow temp band nodrive back withdrawn frozen refused short
  have hrefused : (s.measured degrees).refused x = refused := by rcases x with r | _ | _ <;> rfl
  have hdrivable : ¬ nodrive → noDrive band = false := fun h => by
    rw [Bool.eq_false_iff, ne_eq, noDrive_bandOfTemp]
    exact h
  have hpasses : short → reservationPasses s x (refreshCost s.cfg.n x (waveformOf s x band) band) = false := by
    intro hsh
    rcases x with r | _ | _
    · obtain ⟨row, hget⟩ : ∃ row, s.rows[r]? = some row := ⟨_, List.getElem?_eq_getElem (hrow r rfl)⟩
      rw [waveformOf_row hget, reservationPasses_other (by simp) hres]
      exact decide_eq_false (not_le.2 (hsh row hget))
    · rw [reservationPasses_other (by simp) hres]
      exact decide_eq_false (not_le.2 hsh)
    · rw [reservationPasses_freeze]
      exact decide_eq_false (not_le.2 hsh)
  have hshort : short → s.pins.droop = false → ¬ nodrive →
      exec (.temperatureAnswer degrees) s = .next (refuse .energyShort x { s.measured degrees with
        engine := { (s.measured degrees).engine with
          cost := some (refreshCost s.cfg.n x (waveformOf s x band) band) } }) := by
    intro hsh hd hn
    rw [exec_temperatureAnswer_drivable ha hs hx (hdrivable hn)]
    exact congrArg _ (reserveWith_short (s := s.measured degrees) hd (hpasses hsh))
  refine ⟨fun hn => ?noDrive, fun hn hd => ?droops, fun hn hd hsh hother => ?short, fun hn hd hsh hfreeze hfrozen => ?skipped⟩
  case noDrive =>
    have hb : noDrive band = true := (noDrive_bandOfTemp temp).2 hn
    rw [exec_temperatureAnswer_noDrive ha hs hx hb, refuse_eq (by simp), hrefused]
  case droops =>
    rw [exec_temperatureAnswer_drivable ha hs hx (hdrivable hn), reserveWith_droops (s := s.measured degrees) hd,
      refuse_eq (by simp), ← hrefused]
    rcases x with r | _ | _ <;> rfl
  case short =>
    rw [hshort hsh hd hn, refuse_eq, ← hrefused]
    · rcases x with r | _ | _ <;> rfl
    · exact fun h => hother h.2
  case skipped =>
    subst hfreeze
    rw [hshort hsh hd hn, refuse_skips]
    · exact congrArg (fun rows => Host.Outcome.next { withdrawn rows none with
        account := { s.account with freeze := .skipped } }) (mapIdx_withdrawn s.cfg.n s.rows).symm
    · exact hfrozen

end Sys2Proof.Machine
end

section
/-! The abort of a refresh (R156 to R162, R165 to R167): by NO_ANSWER, or by a fault input in DRIVE. -/

namespace Sys2Proof.Machine

/-! ### The rows and the panel clear item of an abort -/

/-- A row of an aborted refresh, once it is out of service (R157). -/
def Row.aborted (row : Row) : Row :=
  { row with inService := false, drawing := none, pending := row.pending || decide (row.shown ≠ some row.desired) }

/-- A refresh draws row `r`. -/
def drawsRow (x : Refresh) (r : Nat) : Bool :=
  match x with
  | .row k => decide (r = k)
  | .clear _ => true

theorem onRows_eq_mapIdx (x : Refresh) (f : Row → Row) (rows : List Row) :
    onRows x f rows = rows.mapIdx (fun r row => if drawsRow x r then f row else row) := by
  cases x with
  | row k =>
    refine List.ext_getElem (by simp [onRows]) fun i h h' => ?_
    simp [onRows, drawsRow, List.getElem_modify, eq_comm]
  | clear k =>
    refine List.ext_getElem (by simp [onRows]) fun i h h' => ?_
    simp [onRows, drawsRow]

/-- How many rows of a panel are indeterminate (R161). -/
def indeterminate (rows : List Row) : Nat := (rows.filter (fun row => row.shown.isNone)).length

theorem indeterminate_congr {rows rows' : List Row} (h : rows.map (·.shown) = rows'.map (·.shown)) :
    indeterminate rows = indeterminate rows' := by
  have hshown : ∀ l : List Row, indeterminate l = (l.map (·.shown)).countP Option.isNone := fun l => by
    rw [List.countP_map, indeterminate, ← List.countP_eq_length_filter]
    rfl
  rw [hshown, hshown, h]

/-- The refresh is a panel clear. -/
def isClear : Refresh → Bool
  | .clear _ => true
  | .row _ => false

/-- An abort requests an ORDINARY panel clear outside FROZEN (R161, R167). -/
def AbortClears (driven : Bool) (x : Refresh) (rows : List Row) : Prop :=
  3 ≤ indeterminate rows ∨ (driven = false ∧ ∃ k : ClearKind, x = .clear k)

/-- The freeze picture aborted in FROZEN (R167). -/
abbrev AbortsFreeze (x : Refresh) (s : State) : Prop := x = .clear .freeze ∧ s.account.stage = .frozen

section
variable {s : State} {x : Refresh} {driven : Bool}

theorem clearsTest_iff : (decide (3 ≤ indeterminate s.rows) || (!driven && isClear x)) = true ↔ AbortClears driven x s.rows := by
  cases x <;> simp [AbortClears, isClear]

theorem abortClears_eq (driven : Bool) (x : Refresh) (s : State) : abortClears driven x s =
    let t := if decide (3 ≤ indeterminate s.rows) || (!driven && isClear x) then requestClear .ordinary s else s
    if AbortsFreeze x s then requestClear .freeze t else t := by
  have hf : (x = .clear .freeze && s.account.stage = .frozen) = decide (AbortsFreeze x s) := (Bool.decide_and ..).symm
  have hraw : abortClears driven x s =
      let t := if decide (3 ≤ indeterminate s.rows) || (!driven && isClear x) then requestClear .ordinary s else s
      if x = .clear .freeze && s.account.stage = .frozen then requestClear .freeze t else t := by cases x <;> rfl
  rw [hraw, hf]
  simp only [decide_eq_true_eq]

theorem abortClears_freeze (h : AbortsFreeze x s) : abortClears driven x s = s.setClearItem (some .freeze) := by
  simp only [abortClears_eq, requestClear_ordinary_frozen h.2, ite_self, if_pos h]
  rfl

theorem abortClears_ordinary (hf : s.account.stage ≠ .frozen) (h : AbortClears driven x s.rows) :
    abortClears driven x s = s.setClearItem (some (s.ctl.clearItem.getD .ordinary)) := by
  have hfreeze : ¬ AbortsFreeze x s := fun hx => hf hx.2
  simp only [abortClears_eq, if_pos (clearsTest_iff.2 h), if_neg hfreeze, requestClear_ordinary_recorded hf]

theorem abortClears_none (hfreeze : ¬ AbortsFreeze x s) (h : s.account.stage = .frozen ∨ ¬ AbortClears driven x s.rows) :
    abortClears driven x s = s := by
  rcases h with hf | hn
  · simp only [abortClears_eq, if_neg hfreeze, requestClear_ordinary_frozen hf, ite_self]
  · simp only [abortClears_eq, if_neg hfreeze, if_neg (mt clearsTest_iff.1 hn)]

end

/-- The panel clear item that an abort leaves (R161, R167). -/
def AbortLeavesItem (driven : Bool) (x : Refresh) (rows : List Row) (s : State) (item : Option ClearKind) : Prop :=
  (AbortsFreeze x s ∧ item = some .freeze) ∨
  (s.account.stage ≠ .frozen ∧ AbortClears driven x rows ∧ item = some (s.ctl.clearItem.getD .ordinary)) ∨
  (¬ AbortsFreeze x s ∧ (s.account.stage = .frozen ∨ ¬ AbortClears driven x rows) ∧ item = s.ctl.clearItem)

theorem abortClears_leaves {driven : Bool} {x : Refresh} {s : State} {item : Option ClearKind}
    (h : AbortLeavesItem driven x s.rows s item) : abortClears driven x s = s.setClearItem item := by
  rcases h with ⟨hf, rfl⟩ | ⟨hs, hc, rfl⟩ | ⟨hf, hc, rfl⟩
  · exact abortClears_freeze hf
  · exact abortClears_ordinary hs hc
  · exact abortClears_none hf hc

/-! ### The abort -/

/-- The state after an abort, with the engine's state, the controller and the lockout timer given (R156 to R162). `rows`, `table` and
`account` are those that the cut itself leaves. -/
def State.abortedTo (cause : FaultCause) (x : Refresh) (rows : List Row) (table : List DepEntry) (account : Account)
    (st : EngineState) (ctl : Controller) (lockout : Option Nat) (s : State) : State :=
  State.count .drawAborted { s with
    rows := onRows x Row.aborted rows
    table := table
    account := account
    ctl := ctl
    engine := s.engine.ended st
    monitor := ⟨recordOf cause x s.engine, s.monitor.aborts + 1, lockout⟩ }

section
variable {s : State} {x : Refresh} {cause : FaultCause} {rows : List Row} {table : List DepEntry} {account : Account}
  {item : Option ClearKind}

/-- What items 1 to 5 of an abort leave (R162). -/
def CutLeaves (cause : FaultCause) (x : Refresh) (rows : List Row) (table : List DepEntry) (account : Account) (s : State) : Prop :=
  account.stage = s.account.stage ∧ abortRows (decide (cause ≠ .noAnswer)) x s = { s with
    rows := onRows x Row.released rows
    table := table
    account := account
    engine := { s.engine with frameClock := .stopped, bus := .grounded } }

/-- The engine and the controller after an abort (R165, R166). -/
def settleAbort (sel : State → State) (x : Refresh) (locked : Prop) [Decidable locked] (s : State) : State :=
  let t := { s with engine := s.engine.ended (if locked then .lockout else .idle) }
  if locked ∨ AbortsFreeze x s then enterHeld t else sel { t with ctl := { t.ctl with state := .opened } }

/-- The state of an abort with its record written and the pending requests of its rows raised (R159, R161). -/
def State.recorded (record : FaultRecord) (x : Refresh) (s : State) : State :=
  ({ s.count .drawAborted with monitor :=
    { record := record
      aborts := s.monitor.aborts + 1
      lockout := if 3 ≤ s.monitor.aborts + 1 then some 2400 else s.monitor.lockout } } : State).onRefresh x
    (fun row => { row with pending := row.pending || row.differs })

theorem abortWith_unchanged (sel : State → State) (h : (abortRows (decide (cause ≠ .noAnswer)) x s).account.stage = s.account.stage) :
    abortWith sel cause x s = settleAbort sel x (3 ≤ (abortRows (decide (cause ≠ .noAnswer)) x s).monitor.aborts + 1)
      (abortClears (decide (cause ≠ .noAnswer)) x ((abortRows (decide (cause ≠ .noAnswer)) x s).recorded (recordOf cause x s.engine) x)) := by
  unfold abortWith
  simp only [h, ne_eq, not_true_eq_false, if_false]
  rfl

theorem onRows_id (x : Refresh) (rows : List Row) : onRows x id rows = rows := by
  cases x with
  | row r => exact List.modify_id ..
  | clear k => exact List.map_id ..

/-- The settled abort, with the item that its panel clears leave. -/
theorem abortWith_eq (sel : State → State) (hcut : CutLeaves cause x rows table account s)
    (hitem : AbortLeavesItem (decide (cause ≠ .noAnswer)) x rows s item) :
    abortWith sel cause x s = settleAbort sel x (3 ≤ s.monitor.aborts + 1)
      (State.count .drawAborted { s with
        rows := onRows x Row.aborted rows
        table := table
        account := account
        ctl := { s.ctl with clearItem := item }
        engine := { s.engine with frameClock := .stopped, bus := .grounded }
        monitor := ⟨recordOf cause x s.engine, s.monitor.aborts + 1,
          if 3 ≤ s.monitor.aborts + 1 then some 2400 else s.monitor.lockout⟩ }) := by
  obtain ⟨hstage, hrows⟩ := hcut
  let cut : State := { s with
    rows := onRows x Row.released rows
    table := table
    account := account
    engine := { s.engine with frameClock := .stopped, bus := .grounded } }
  let raised : State := State.count .drawAborted { cut with
    rows := onRows x Row.aborted rows
    monitor := ⟨recordOf cause x s.engine, s.monitor.aborts + 1,
      if 3 ≤ s.monitor.aborts + 1 then some 2400 else s.monitor.lockout⟩ }
  have hraised : cut.recorded (recordOf cause x s.engine) x = raised := by
    have hpending : onRows x (fun row => { row with pending := row.pending || row.differs }) (onRows x Row.released rows) =
        onRows x Row.aborted rows := onRows_onRows ..
    rw [State.recorded, onRefresh_eq]
    exact congrArg (fun l => { raised with rows := l }) hpending
  have hshown : (onRows x Row.aborted rows).map (·.shown) = rows.map (·.shown) := by
    rw [onRows_shown x (f := Row.aborted) (g := id) (fun _ => rfl), onRows_id]
  have hitem' : AbortLeavesItem (decide (cause ≠ .noAnswer)) x raised.rows raised item := by
    have hind : indeterminate raised.rows = indeterminate rows := indeterminate_congr hshown
    have hst : raised.account.stage = s.account.stage := hstage
    have hctl : raised.ctl = s.ctl := rfl
    simpa only [AbortLeavesItem, AbortsFreeze, AbortClears, hind, hst, hctl] using hitem
  rw [abortWith_unchanged sel (by rw [hrows]; exact hstage), hrows]
  exact congrArg (settleAbort sel x (3 ≤ s.monitor.aborts + 1)) ((congrArg _ hraised).trans (abortClears_leaves hitem'))

section
variable {sel : State → State} {locked : Prop} [Decidable locked] {t : State}

theorem settleAbort_selects (h : ¬ locked) (hf : ¬ AbortsFreeze x t) :
    settleAbort sel x locked t = sel { t with engine := t.engine.ended .idle, ctl := { t.ctl with state := .opened } } := by
  simp only [settleAbort, if_neg h, if_neg (not_or.2 ⟨h, hf⟩)]

theorem settleAbort_holds (h : ¬ locked) (hf : AbortsFreeze x t) :
    settleAbort sel x locked t = enterHeld { t with engine := t.engine.ended .idle } := by
  simp only [settleAbort, if_neg h, if_pos (Or.inr hf)]

theorem settleAbort_locks (h : locked) :
    settleAbort sel x locked t = enterHeld { t with engine := t.engine.ended .lockout } := by
  simp only [settleAbort, if_pos h, if_pos (Or.inl h)]

end

variable (sel : State → State) (hcut : CutLeaves cause x rows table account s)
  (hitem : AbortLeavesItem (decide (cause ≠ .noAnswer)) x rows s item)
include hcut hitem

/-- The first and the second abort in a row but of the freeze picture in FROZEN: the controller selects (R165). -/
theorem abortWith_selects (hfew : s.monitor.aborts < 2) (hf : ¬ AbortsFreeze x s) :
    abortWith sel cause x s = sel (s.abortedTo cause x rows table account .idle
      { s.ctl with state := .opened, clearItem := item } s.monitor.lockout) := by
  have hunlocked : ¬ 3 ≤ s.monitor.aborts + 1 := by omega
  rw [abortWith_eq sel hcut hitem, if_neg hunlocked, settleAbort_selects hunlocked]
  · rfl
  · exact fun h => hf ⟨h.1, hcut.1 ▸ h.2⟩

theorem abortWith_holds (hfew : s.monitor.aborts < 2) (hf : AbortsFreeze x s) :
    abortWith sel cause x s = s.abortedTo cause x rows table account .idle
      { s.ctl with state := .held, clearItem := item, retry := some 480 } s.monitor.lockout := by
  have hunlocked : ¬ 3 ≤ s.monitor.aborts + 1 := by omega
  rw [abortWith_eq sel hcut hitem, if_neg hunlocked, settleAbort_holds hunlocked]
  · rfl
  · exact ⟨hf.1, hcut.1.trans hf.2⟩

/-- The third abort in a row enters LOCKOUT (R166). -/
theorem abortWith_locks (hthird : s.monitor.aborts = 2) :
    abortWith sel cause x s = s.abortedTo cause x rows table account .lockout
      { s.ctl with state := .held, clearItem := item, retry := some 480 } (some 2400) := by
  have hlocked : 3 ≤ s.monitor.aborts + 1 := by omega
  rw [abortWith_eq sel hcut hitem, if_pos hlocked, settleAbort_locks hlocked]
  rfl

end

/-! ### NO_ANSWER -/

theorem exec_temperatureNoAnswer {s : State} {x : Refresh} (ha : active s = true) (hs : s.engine.state = .prepare)
    (hx : s.engine.refresh = some x) : exec .temperatureNoAnswer s = .next (abortWith select .noAnswer x s) := by
  have hexec : execTemperatureNoAnswer s = .next (abortWith select .noAnswer x s) := by
    simp only [execTemperatureNoAnswer, preparing, ha, hs, hx, and_self, if_true]
  exact hexec

/-- A NO_ANSWER cuts no frame: the rows keep their shown records and nothing is debited (R162). -/
theorem cutLeaves_noAnswer (x : Refresh) (s : State) : CutLeaves .noAnswer x s.rows s.table s.account s := by
  refine ⟨rfl, ?_⟩
  rw [show decide (FaultCause.noAnswer ≠ .noAnswer) = false from rfl]
  exact onRefresh_eq x Row.released { s with engine := { s.engine with frameClock := .stopped, bus := .grounded } }

/-- Settles O56: an abort whose cut leaves the rows as they are. -/
theorem noAnswerAborts : Obligations.NoAnswerAborts := by
  intro s x ha hs hx hw hp mine freezing clears ended aborted
  have hexec := exec_temperatureNoAnswer ha hs hx
  have hended : ∀ (st : EngineState) (ctl : Controller) (lockout : Option Nat),
      s.abortedTo .noAnswer x s.rows s.table s.account st ctl lockout = ended st ctl lockout := by
    intro st ctl lockout
    have hrecord : recordOf .noAnswer x s.engine =
        ⟨.noAnswer, false, match x with | .row k => some k | .clear _ => none, none, 0⟩ := by
      cases x <;> simp [recordOf, recordPlace, recordRow, hw, hp]
    have hengine : s.engine.ended st = { s.engine with
        state := st, refresh := none, band := none, cost := none, counts := none, frameClock := .stopped, bus := .grounded } := by
      simp [Engine.ended, hw, hp]
    rw [State.abortedTo, hrecord, hengine, onRows_eq_mapIdx]
    cases x <;> rfl
  have haborted : ∀ item : Option ClearKind, AbortLeavesItem false x s.rows s item → aborted item := by
    intro item hitem
    have hcut := cutLeaves_noAnswer x s
    refine ⟨fun hfew hf => ?_, fun hfew hf => ?_, fun hthird => ?_⟩
    · rw [hexec, abortWith_selects select hcut hitem hfew hf, hended]
    · rw [hexec, abortWith_holds select hcut hitem hfew hf, hended]
    · rw [hexec, abortWith_locks select hcut hitem hthird, hended]
  have hclears : clears ↔ AbortClears false x s.rows := by simp [clears, AbortClears, indeterminate]
  exact ⟨fun hf => haborted _ (.inl ⟨hf, rfl⟩),
    fun hst hc => haborted _ (.inr (.inl ⟨hst, hclears.1 hc, rfl⟩)),
    fun hf hc => haborted _ (.inr (.inr ⟨hf, hc.imp_right (mt hclears.2), rfl⟩))⟩

end Sys2Proof.Machine
end

section
/-! A fault input in DRIVE aborts the refresh there (R155 to R162). -/

namespace Sys2Proof.Machine

section
variable {s : State} {x : Refresh} {fd fg : Nat}

theorem driving_some (ha : active s = true) (hs : s.engine.state = .drive) (hx : s.engine.refresh = some x) :
    driving s = some x := by simp [driving, ha, hs, hx]

theorem exec_pfaultAssert_driving {stays : Bool} (h : driving s = some x) :
    exec (.pfaultAssert stays) s = .next (abortWith select .pfault x { s with pins := { s.pins with pfault := stays } }) := by
  have hexec : execPfaultAssert stays s =
      .next (abortWith select .pfault x { s with pins := { s.pins with pfault := stays } }) := by simp only [execPfaultAssert, h]
  exact hexec

theorem takeDroop_driving (h : driving s = some x) : takeDroop s = abortWith select .droop x s := by simp only [takeDroop, h]

/-- The account after the prorated debit of an abort in DRIVE (R158, R179). -/
def Account.prorated (n : Nat) (x : Refresh) (fd fg : Nat) (a : Account) : Account :=
  { a with e := a.e - frameCost n x fd fg, reservation := none }

/-- A cut in DRIVE: the rows in service are indeterminate, the shown-row fields follow, and the prorated cost is debited with the
release of the reservation (R156 to R158, R162). -/
theorem cutLeaves_driven {cause : FaultCause} (hcause : cause ≠ .noAnswer) (hcounts : s.engine.counts = some (fd, fg))
    (hr : s.account.running = true)
    (hc : crossesNothing { s with account := { s.account with reservation := none } } (s.account.e - frameCost s.cfg.n x fd fg) = true) :
    CutLeaves cause x (s.rows.map Row.cut) (shownOn s.cfg.n (s.rows.map Row.cut) s.table) (s.account.prorated s.cfg.n x fd fg) s := by
  let cut : State := { s with
    rows := onRows x Row.released (s.rows.map Row.cut)
    table := shownOn s.cfg.n (s.rows.map Row.cut) s.table
    engine := { s.engine with frameClock := .stopped, bus := .grounded } }
  have hcost : proratedCost s.cfg.n x { s.engine with frameClock := .stopped, bus := .grounded } = frameCost s.cfg.n x fd fg := by
    simp only [proratedCost, hcounts]
  have hrows : abortRows true x s = releaseAndDebit id (frameCost s.cfg.n x fd fg) cut := by
    rw [← hcost]
    exact congrArg (releaseAndDebit id _) (onRefresh_eq x Row.released _)
  refine ⟨rfl, ?_⟩
  rw [decide_eq_true hcause, hrows, releaseAndDebit_quiet id (s := cut) hr hc]
  rfl

end

/-- Settles O57: both inputs abort by `abortWith`, whose cut is `cutLeaves_driven`. -/
theorem faultsInDriveAbort : Obligations.FaultsInDriveAbort := by
  intro stays s x fd fg w p ha hs hx hw hp hcounts hr e hc mine cut freezing clears ended aborted both
  have he : s.account.e - frameCost s.cfg.n x fd fg = e := by cases x <;> rfl
  have hcut : s.rows.map Row.cut = cut := by rw [funext Row.cut_eq]
  have hended : ∀ (c : FaultCause) (u : State) (st : EngineState) (ctl : Controller) (lockout : Option Nat),
      u.engine = s.engine → u.monitor = s.monitor →
      u.abortedTo c x (s.rows.map Row.cut) (shownOn s.cfg.n (s.rows.map Row.cut) s.table) (s.account.prorated s.cfg.n x fd fg)
        st ctl lockout = ended c u st ctl lockout := by
    intro c u st ctl lockout heng hmon
    have hrecord : recordOf c x u.engine =
        ⟨c, false, match x with | .row k => some k | .clear _ => none, some (w, p.phase), p.frame⟩ := by
      rw [heng]
      cases x <;> simp [recordOf, recordPlace, recordRow, hw, hp]
    rw [State.abortedTo, hrecord, Account.prorated, he, hcut, onRows_eq_mapIdx, heng, hmon]
    cases x <;> rfl
  have haborted : ∀ (i : Instr) (c : FaultCause) (u : State) (item : Option ClearKind), c ≠ .noAnswer →
      exec i s = .next (abortWith select c x u) →
      CutLeaves c x (s.rows.map Row.cut) (shownOn s.cfg.n (s.rows.map Row.cut) s.table) (s.account.prorated s.cfg.n x fd fg) u →
      u.ctl = s.ctl → u.account = s.account → u.engine = s.engine → u.monitor = s.monitor →
      AbortLeavesItem true x (s.rows.map Row.cut) s item → aborted item i c u := by
    intro i c u item hcause hexec hleaves hctl hacc heng hmon hitem
    have hitem' : AbortLeavesItem (decide (c ≠ .noAnswer)) x (s.rows.map Row.cut) u item := by
      rw [decide_eq_true hcause]
      simpa only [AbortLeavesItem, AbortsFreeze, hctl, hacc] using hitem
    have hfreeze : AbortsFreeze x u ↔ freezing := by rw [AbortsFreeze, hacc]
    refine ⟨fun hfew hf => ?_, fun hfew hf => ?_, fun hthird => ?_⟩
    · rw [hexec, abortWith_selects select hleaves hitem' (hmon ▸ hfew) (mt hfreeze.1 hf), hended _ _ _ _ _ heng hmon, hctl, hmon]
    · rw [hexec, abortWith_holds select hleaves hitem' (hmon ▸ hfew) (hfreeze.2 hf), hended _ _ _ _ _ heng hmon, hctl, hmon]
    · rw [hexec, abortWith_locks select hleaves hitem' (hmon ▸ hthird), hended _ _ _ _ _ heng hmon, hctl]
  have hboth : ∀ item : Option ClearKind, AbortLeavesItem true x (s.rows.map Row.cut) s item → both item := by
    intro item hitem
    have hdriving : driving s = some x := driving_some ha hs hx
    refine ⟨haborted _ .pfault _ item (by simp) (exec_pfaultAssert_driving hdriving) ?_ rfl rfl rfl rfl hitem,
      fun hd => haborted _ .droop _ item (by simp) ((exec_droopAssert hd).trans (congrArg _ ?_)) ?_ rfl rfl rfl rfl hitem⟩
    · exact cutLeaves_driven (s := { s with pins := { s.pins with pfault := stays } }) (by simp) hcounts hr (he ▸ hc)
    · exact takeDroop_driving (s := { s with pins := { s.pins with droop := true } }) hdriving
    · exact cutLeaves_driven (s := { s with pins := { s.pins with droop := true } }) (by simp) hcounts hr (he ▸ hc)
  have hclears : clears ↔ AbortClears true x (s.rows.map Row.cut) := by simp [clears, AbortClears, indeterminate, hcut]
  exact ⟨fun hf => hboth _ (.inl ⟨hf, rfl⟩),
    fun hst hcl => hboth _ (.inr (.inl ⟨hst, hclears.1 hcl, rfl⟩)),
    fun hf hcl => hboth _ (.inr (.inr ⟨hf, hcl.imp_right (mt hclears.2), rfl⟩))⟩

end Sys2Proof.Machine
end

section
/-! Amendments, bundle items and new entries in the table (R59, R62 to R66), and the dispatch that brings them there (R23). -/

namespace Sys2Proof.Machine

/-! ### Amendments -/

/-- The amended entry, its anchor written out (R56, R63). -/
theorem amendedEntry_eq (f : Frame) (t : Tick) (r : Option Int) (bay : Option Nat) (notes : Option Notes) (c : Option Bool)
    (e : DepEntry) : amendedEntry f t r bay notes c e = { e with
      d := (match r with | some q => t + BitVec.ofInt 32 (8 * min q 7200 - f.age) | none => e.d)
      bay := (match bay with | some x => some x | none => e.bay)
      notes := (match notes with | some x => some x | none => e.notes)
      state := (match c with | some true => .cancelled | some false => .active | none => e.state)
      repOrigin := f.origin, repSeq := f.seq, lastReport := t, stale := false } := by
  cases r with
  | none => rcases c with _ | _ | _ <;> rfl
  | some q =>
    have hd := anchorOf_eq f q t
    simp only [← hd]
    rcases c with _ | _ | _ <;> rfl

/-- A changed entry takes the place of the entry of its key, or the place of its new D (R55). -/
theorem applyTo_eq {old e : DepEntry} {k : Key} (s : State) (hk : e.key = k) :
    s.applyTo old e = State.count .tableApplied (s.setTable
      (if e.d = old.d then s.table.map (fun x => if x.key = k then e else x)
       else insertEntry s.clock e (s.table.filter (fun x => x.key ≠ k)))) := by
  subst hk
  rfl

section
variable {f : Frame} {trip : Nat} {r : Option Int} {bay : Option Nat} {notes : Option Notes} {c : Option Bool} {s : State} {t : Tick}

theorem applyAmendment_foreign (h : inInterest s.cfg f.route f.dir = false) : s.applyAmendment f t trip r bay notes c = s := by
  simp [State.applyAmendment, h]

variable (hin : inInterest s.cfg f.route f.dir = true)
include hin

theorem applyAmendment_late (h : 2400 ≤ f.age) : s.applyAmendment f t trip r bay notes c = s.count .tableIgnored := by
  simp [State.applyAmendment, hin, h]

theorem applyAmendment_unknown (hage : f.age < 2400) (hfind : findEntry ⟨f.route, f.dir, trip⟩ s.table = none) :
    s.applyAmendment f t trip r bay notes c = s.count .tableIgnored := by
  simp [State.applyAmendment, hin, Nat.not_le.2 hage, hfind]

variable (hage : f.age < 2400) {e : DepEntry} (hfind : findEntry ⟨f.route, f.dir, trip⟩ s.table = some e)
include hage hfind

/-- An amendment of a trip the table holds (R62, R63). -/
theorem applyAmendment_held : s.applyAmendment f t trip r bay notes c =
    if e.repOrigin = f.origin ∧ newerSeq f.seq e.repSeq = false then s.count .tableIgnored
    else if r.any (fun r => !remUsable r) then s.count .tableIgnored
    else if r.isNone && bay.isNone && notes.isNone && c.isNone then s.count .tableApplied
    else s.applyTo e (amendedEntry f t r bay notes c e) := by
  simp only [State.applyAmendment, hin, hfind, Nat.not_le.2 hage, Bool.not_true, Bool.false_eq_true, if_false]

theorem applyAmendment_barred (h : (e.repOrigin = f.origin ∧ newerSeq f.seq e.repSeq = false) ∨ (∃ q, r = some q ∧ q < -300)) :
    s.applyAmendment f t trip r bay notes c = s.count .tableIgnored := by
  rw [applyAmendment_held hin hage hfind]
  rcases h with h | ⟨q, rfl, hq⟩
  · exact if_pos h
  · have hany : (some q).any (fun r => !remUsable r) = true := by simp [(remUsable_eq_false_iff q).2 hq]
    rw [if_pos hany, ite_self]

variable (hopen : ¬ (e.repOrigin = f.origin ∧ newerSeq f.seq e.repSeq = false))
include hopen

theorem applyAmendment_empty (hr : r = none) (hb : bay = none) (hn : notes = none) (hc : c = none) :
    s.applyAmendment f t trip r bay notes c = s.count .tableApplied := by
  subst hr hb hn hc
  rw [applyAmendment_held hin hage hfind, if_neg hopen]
  rfl

theorem applyAmendment_applies (hr : ∀ q, r = some q → -300 ≤ q) (hfield : r ≠ none ∨ bay ≠ none ∨ notes ≠ none ∨ c ≠ none) :
    s.applyAmendment f t trip r bay notes c = s.applyTo e (amendedEntry f t r bay notes c e) := by
  have hany : ¬ r.any (fun r => !remUsable r) = true := by
    rintro h
    obtain ⟨q, hq, hu⟩ := (Option.any_eq_true _ _).1 h
    have hlow := (remUsable_eq_false_iff q).1 (by simpa using hu)
    have := hr q hq
    omega
  have hsome : ¬ (r.isNone && bay.isNone && notes.isNone && c.isNone) = true := by
    simp only [Bool.and_eq_true, Option.isNone_iff_eq_none, not_and]
    rintro ⟨⟨hr, hb⟩, hn⟩ hc
    simp [hr, hb, hn, hc] at hfield
  rw [applyAmendment_held hin hage hfind, if_neg hopen, if_neg hany, if_neg hsome]

end

/-- Settles O36: the tests in their order, the fields by `amendedEntry_eq`. -/
theorem amendmentsChangeTheFieldsPresent : Obligations.AmendmentsChangeTheFieldsPresent := by
  intro f t0 trip r bay notes c s key
  refine ⟨applyAmendment_foreign, applyAmendment_late, fun hin hage => ⟨applyAmendment_unknown hin hage, fun e hfind => ?held⟩⟩
  intro ahead barred
  have hbarred : barred ↔ e.repOrigin = f.origin ∧ newerSeq f.seq e.repSeq = false :=
    and_congr_right fun _ => (not_congr (newerSeq_iff f.seq e.repSeq).symm).trans (by simp)
  refine ⟨fun h => applyAmendment_barred hin hage hfind (h.imp_left hbarred.1),
    fun hb => applyAmendment_empty hin hage hfind (mt hbarred.2 hb), fun hb hr hfield => ?applied⟩
  have hkey : (amendedEntry f t0 r bay notes c e).key = key := (findEntry_some hfind).2
  rw [applyAmendment_applies hin hage hfind (mt hbarred.2 hb) hr hfield, applyTo_eq s hkey, amendedEntry_eq]
  rfl

end Sys2Proof.Machine
end

section
/-! The items of a schedule bundle (R64, R65) and the dispatch of a departure frame that is not relayed (R23, R58, R59, R83). -/

namespace Sys2Proof.Machine

/-! ### What an application moves -/

/-- An application or a count moves the table with the recompose flag and the counters, and nothing else. -/
def AppliedTo (s t : State) : Prop :=
  ∃ (table : List DepEntry) (recompose : Bool) (counters : Counters), t = { s with
    table := table
    composer := { s.composer with recompose := recompose }
    maint := { s.maint with counters := counters } }

theorem AppliedTo.refl (s : State) : AppliedTo s s := ⟨s.table, s.composer.recompose, s.maint.counters, rfl⟩

theorem AppliedTo.trans {s t u : State} (a : AppliedTo s t) (b : AppliedTo t u) : AppliedTo s u := by
  obtain ⟨table, recompose, counters, rfl⟩ := a
  obtain ⟨table', recompose', counters', rfl⟩ := b
  exact ⟨table', recompose', counters', rfl⟩

theorem appliedTo_count (k : Counter) (s : State) : AppliedTo s (s.count k) := ⟨s.table, s.composer.recompose, _, rfl⟩

theorem appliedTo_setTable (l : List DepEntry) (s : State) : AppliedTo s (s.setTable l) := ⟨l, _, s.maint.counters, rfl⟩

theorem appliedTo_insertNew (e : DepEntry) (s : State) : AppliedTo s (s.insertNew e) := by
  unfold State.insertNew
  split
  · exact (appliedTo_setTable _ s).trans (appliedTo_count _ _)
  · split
    · split
      · exact ((appliedTo_setTable _ s).trans (appliedTo_count _ _)).trans (appliedTo_count _ _)
      · exact appliedTo_count _ s
    · exact appliedTo_count _ s

theorem appliedTo_applyItem (f : Frame) (t : Tick) (i : Nat × Int) (s : State) : AppliedTo s (s.applyItem f t i) := by
  unfold State.applyItem
  dsimp only
  split
  · exact appliedTo_count _ s
  · split
    · exact appliedTo_insertNew _ s
    · split
      · exact appliedTo_count _ s
      · split
        · exact appliedTo_count _ s
        · exact (appliedTo_setTable _ s).trans (appliedTo_count _ _)

theorem applyItems_eq_foldl (f : Frame) (t : Tick) (items : List (Nat × Int)) (s : State) :
    s.applyItems f t items = items.foldl (fun u i => u.applyItem f t i) s := by
  induction items generalizing s with
  | nil => rfl
  | cons i rest ih => exact ih _

theorem appliedTo_applyItems (f : Frame) (t : Tick) (items : List (Nat × Int)) (s : State) :
    AppliedTo s (s.applyItems f t items) := by
  induction items generalizing s with
  | nil => exact .refl s
  | cons i rest ih => exact (appliedTo_applyItem f t i s).trans (ih _)

/-! ### The signal of the wall reference -/

/-- The state whose composer has the signal of the wall reference as given (R83). -/
def State.withSignal (b : Bool) (s : State) : State := { s with composer := { s.composer with wallSignal := b } }

/-- The state whose composer has the signal of a set wall reference (R83). -/
def State.signalled (s : State) : State := s.withSignal true

section
variable (b : Bool) (s : State)

theorem insertNew_withSignal (e : DepEntry) : (s.withSignal b).insertNew e = (s.insertNew e).withSignal b := by
  have hroom : (s.withSignal b).table = s.table ∧ (s.withSignal b).clock = s.clock := ⟨rfl, rfl⟩
  unfold State.insertNew
  rw [hroom.1, hroom.2]
  split
  · rfl
  · split
    · split <;> rfl
    · rfl

theorem applyItem_withSignal (f : Frame) (t : Tick) (i : Nat × Int) :
    (s.withSignal b).applyItem f t i = (s.applyItem f t i).withSignal b := by
  have htable : (s.withSignal b).table = s.table := rfl
  unfold State.applyItem
  dsimp only
  rw [htable]
  split
  · rfl
  · split
    · exact insertNew_withSignal b s _
    · split
      · rfl
      · split <;> rfl

theorem applyItems_withSignal (f : Frame) (t : Tick) (items : List (Nat × Int)) :
    (s.withSignal b).applyItems f t items = (s.applyItems f t items).withSignal b := by
  induction items generalizing s with
  | nil => rfl
  | cons i rest ih =>
    simp only [State.applyItems, applyItem_withSignal]
    exact ih _

end

/-! ### One item -/

section
variable {f : Frame} {t : Tick} {trip : Nat} {r : Int} {s : State}

theorem itemEntry_eq (f : Frame) (t : Tick) (k : Key) (r : Int) (shown : Option Nat) : itemEntry f t k r shown =
    ⟨k, .scheduled, .active, t + BitVec.ofInt 32 (8 * min r 7200 - f.age), t, f.origin, f.seq, none, none, false, shown⟩ := by
  rw [← anchorOf_eq]
  rfl

theorem insertNew_room {e : DepEntry} (h : s.table.length < 48) :
    s.insertNew e = State.count .tableApplied (s.setTable (insertEntry s.clock e s.table)) := if_pos h

theorem applyItem_unusable (h : r < -300) : s.applyItem f t (trip, r) = s.count .tableIgnored := by
  simp [State.applyItem, (remUsable_eq_false_iff r).2 h]

variable (hr : -300 ≤ r)
include hr

theorem remUsable_of_le : remUsable r = true := decide_eq_true hr

theorem applyItem_new (hfind : findEntry ⟨f.route, f.dir, trip⟩ s.table = none) :
    s.applyItem f t (trip, r) = s.insertNew (itemEntry f t ⟨f.route, f.dir, trip⟩ r none) := by
  simp [State.applyItem, remUsable_of_le hr, hfind]

variable {e : DepEntry} (hfind : findEntry ⟨f.route, f.dir, trip⟩ s.table = some e)
include hfind

theorem applyItem_ignored (h : e.source = .live ∨ (e.repOrigin = f.origin ∧ newerSeq e.repSeq f.seq = true)) :
    s.applyItem f t (trip, r) = s.count .tableIgnored := by
  rcases h with h | h
  · simp [State.applyItem, remUsable_of_le hr, hfind, h]
  · simp only [State.applyItem, remUsable_of_le hr, hfind, Bool.not_true, Bool.false_eq_true, if_pos h, ite_self]

theorem applyItem_applies (hs : e.source = .scheduled) (h : ¬ (e.repOrigin = f.origin ∧ newerSeq e.repSeq f.seq = true)) :
    s.applyItem f t (trip, r) = s.applyTo e (itemEntry f t ⟨f.route, f.dir, trip⟩ r e.shownRow) := by
  have hlive : e.source ≠ .live := by simp [hs]
  simp only [State.applyItem, remUsable_of_le hr, hfind, Bool.not_true, Bool.false_eq_true, if_false, if_neg hlive, if_neg h]

end

/-! ### The dispatch of a frame that is not relayed -/

/-- The state once a dispatched frame has left its buffer, its seen entry no longer pending (R17, R23, R42). -/
def State.dispatched (f : Frame) (id : BufId) (s : State) : State :=
  { s with
    seen := s.seen.map (fun x => if x.origin = f.origin ∧ x.seq = f.seq then { x with dispatchPending := false } else x)
    rx := s.rx.taken id }

section
variable {s : State} {id : BufId} {l : List Byte} {t0 : Tick}

/-- A frame of hop limit 0 is not relayed (R42). -/
theorem relayDecision_noHop {f : Frame} (h : f.hop = 0) (bytes : List Byte) (t : Tick) (s : State) :
    s.relayDecision f bytes t = { s with
      seen := s.seen.map (fun x => if x.origin = f.origin ∧ x.seq = f.seq then { x with dispatchPending := false } else x) } := by
  have hel : ∀ u : State, ¬ eligible u f = true := fun u => by simp [eligible, h]
  rw [← updateSeen_eq]
  exact if_neg (hel _)

theorem dispatchBuffer_noHop (hb : bufferOf s id = some ⟨l, some t0⟩) (hhop : (readFrame l).hop = 0) :
    dispatchBuffer id s = offerCandidate ((s.applyFrame (readFrame l) t0).dispatched (readFrame l) id) := by
  simp only [dispatchBuffer, hb, Option.getD_some, relayDecision_noHop hhop, takeBuffer_eq]
  rfl

theorem exec_frameDispatch_waits (h : s.lock = .held ∨ ∀ id ∈ s.rx.accepted, holdsDeparture s id = false) :
    exec .frameDispatch s = .next s := by
  have hstays : dispatchFirst s = s := by
    unfold dispatchFirst
    rcases h with h | h
    · exact if_neg (by simp [h])
    · have hnone : s.rx.accepted.find? (holdsDeparture s) = none := by simpa using h
      rw [hnone]
      exact ite_self _
  exact congrArg _ hstays

theorem exec_frameDispatch (hlock : s.lock = .free) (hfind : s.rx.accepted.find? (holdsDeparture s) = some id) :
    exec .frameDispatch s = .next (takeWallSignal (dispatchBuffer id s)) := by
  have hexec : dispatchFirst s = takeWallSignal (dispatchBuffer id s) := by simp only [dispatchFirst, hlock, hfind, if_true]
  exact congrArg _ hexec

/-- The dispatch of a frame that is not relayed, with nothing to send: the application and the composer's signal (R23, R83). -/
theorem exec_frameDispatch_noHop {u : State} (hlock : s.lock = .free) (hfind : s.rx.accepted.find? (holdsDeparture s) = some id)
    (hb : bufferOf s id = some ⟨l, some t0⟩) (hhop : (readFrame l).hop = 0) (hu : s.applyFrame (readFrame l) t0 = u)
    (hc : candidate? (u.dispatched (readFrame l) id) = none) (ha : receiverAgrees (u.dispatched (readFrame l) id) = true) :
    exec .frameDispatch s = .next (takeWallSignal (u.dispatched (readFrame l) id)) := by
  rw [exec_frameDispatch hlock hfind, dispatchBuffer_noHop hb hhop, hu, offerCandidate_none _ hc ha]

theorem takeWallSignal_none (h : s.composer.wallSignal = false) : takeWallSignal s = s := if_neg (by simp [h])

theorem takeWallSignal_idle (h : s.composer.wallSignal = true) (hs : s.composer.state = .idle) :
    takeWallSignal s = startPass { s with composer := { s.composer with wallSignal := false } } :=
  (if_pos h).trans (if_pos hs)

theorem takeWallSignal_busy (h : s.composer.wallSignal = true) (hs : s.composer.state ≠ .idle) :
    takeWallSignal s = { s with composer := { s.composer with wallSignal := false } } :=
  (if_pos h).trans (if_neg hs)

end

/-- Settles O33: the report's application in a dispatch that is not relayed. -/
theorem dispatchInsertsAReport : Obligations.DispatchInsertsAReport := by
  refine ⟨fun s => exec_frameDispatch_waits, fun s id l t0 trip r c bay notes => ?inserts⟩
  intro f key hlock hfind hb hkind hbody hhop hin hage hr hnew hroom hsignal hc ha e table
  have happlied : s.applyFrame f t0 = State.count .tableApplied (s.setTable table) := by
    have htests : ¬ (2400 ≤ f.age ∨ remUsable r = false) := by
      rw [remUsable_eq_false_iff]
      omega
    have hread : readBody f.kind f.body = some (.report trip r c bay notes) := by rw [hkind, hbody]
    have hentry : reportEntry f t0 key r c bay notes none = e := by
      simp only [e, ← anchorOf_eq]
      rfl
    simp only [State.applyFrame, hread, State.applyReport, hin, Bool.not_true, Bool.false_eq_true, if_false, if_neg htests]
    rw [show findEntry ⟨f.route, f.dir, trip⟩ s.table = none from hnew]
    exact (congrArg (fun x => s.insertNew x) hentry).trans (insertNew_room hroom)
  rw [exec_frameDispatch_noHop hlock hfind hb hhop happlied hc ha]
  exact congrArg _ (takeWallSignal_none hsignal)

/-! ### A bundle -/

section
variable {s : State} {f : Frame} {t : Tick} {tod : Nat} {items : List (Nat × Int)}

theorem applyFrame_bundle (hkind : f.kind = 3) (hbody : readBody 3 f.body = some (.bundle tod items)) :
    s.applyFrame f t = s.applyBundle f t tod items := by
  have hread : readBody f.kind f.body = some (.bundle tod items) := by rw [hkind, hbody]
  simp only [State.applyFrame, hread]

/-- Below an age of 2400 ticks the wall reference is set and signalled, and the items of a bundle in the interest set follow
(R64, R83). -/
theorem applyBundle_early (h : f.age < 2400) : s.applyBundle f t tod items =
    ((if inInterest s.cfg f.route f.dir then
      items.foldl (fun u i => u.applyItem f t i) { s with wall := some ⟨(8 * tod + f.age) % 691200, t⟩ }
      else { s with wall := some ⟨(8 * tod + f.age) % 691200, t⟩ }) : State).signalled := by
  have hset : s.setWall tod f t = ({ s with wall := some ⟨(8 * tod + f.age) % 691200, t⟩ } : State).withSignal true := rfl
  have hcfg : ∀ u : State, (u.withSignal true).cfg = u.cfg := fun _ => rfl
  simp only [State.applyBundle, if_neg (Nat.not_le.2 h), hset, applyItems_withSignal, hcfg, ← applyItems_eq_foldl]
  split <;> rfl

theorem countMany_tableIgnored (m : Nat) (s : State) (h : s.maint.counters.tableIgnored ≤ 65535) :
    s.countMany .tableIgnored m = { s with maint := { s.maint with counters := { s.maint.counters with
      tableIgnored := min 65535 (s.maint.counters.tableIgnored + m) } } } := by
  induction m generalizing s with
  | zero => rw [Nat.add_zero, Nat.min_eq_right h]; rfl
  | succ m ih =>
    have hcount : min 65535 (bump s.maint.counters.tableIgnored + m) = min 65535 (s.maint.counters.tableIgnored + (m + 1)) := by
      rw [bump_eq_min]
      omega
    have hstep := ih (s.count .tableIgnored) (bump_le _)
    rw [← hcount]
    exact hstep

theorem applyBundle_late (h : 2400 ≤ f.age) (hr : CountersInRange s) : s.applyBundle f t tod items =
    { s with maint := { s.maint with counters := { s.maint.counters with
      tableIgnored :=
        min 65535 (s.maint.counters.tableIgnored + (if inInterest s.cfg f.route f.dir then items.length else 0)) } } } := by
  have hle : s.maint.counters.tableIgnored ≤ 65535 := hr _ (by simp [countersList])
  cases hin : inInterest s.cfg f.route f.dir with
  | true =>
    simp only [State.applyBundle, if_pos h, hin, if_true]
    exact countMany_tableIgnored _ s hle
  | false =>
    simp only [State.applyBundle, if_pos h, hin, Bool.false_eq_true, if_false, Nat.add_zero, Nat.min_eq_right hle]

end

/-- Settles O34: a bundle by `applyBundle_early` and `applyBundle_late`, one item by its tests. -/
theorem dispatchOfABundleSetsTheWallReference : Obligations.DispatchOfABundleSetsTheWallReference := by
  refine ⟨fun s id l t0 tod items => ?bundle, fun f t0 trip r s => ?item⟩
  case bundle =>
    intro f hlock hfind hb hkind hbody hhop hc ha wall timed applied done
    have hearly : f.age < 2400 → exec .frameDispatch s = .next (takeWallSignal (applied.signalled.dispatched f id)) ∧
        AppliedTo timed applied := by
      intro hage
      have hto : AppliedTo timed applied := by
        cases hin : inInterest s.cfg f.route f.dir with
        | true =>
          simp only [applied, hin, if_true, ← applyItems_eq_foldl]
          exact appliedTo_applyItems f t0 items timed
        | false =>
          simp only [applied, hin, Bool.false_eq_true, if_false]
          exact .refl timed
      have hu : s.applyFrame f t0 = applied.signalled := (applyFrame_bundle hkind hbody).trans (applyBundle_early hage)
      obtain ⟨table, recompose, counters, hmade⟩ := hto
      refine ⟨exec_frameDispatch_noHop hlock hfind hb hhop hu ?_ ?_, table, recompose, counters, hmade⟩
      · rw [hmade]
        exact hc
      · rw [hmade]
        exact ha
    refine ⟨fun hage hidle => ?idle, fun hage hsuspended => ?suspended, fun hage hsignal hr => ?late⟩
    case idle =>
      obtain ⟨hexec, table, recompose, counters, hmade⟩ := hearly hage
      have hstate : (applied.signalled.dispatched f id).composer.state = .idle := by
        rw [hmade]
        exact hidle
      rw [hexec, takeWallSignal_idle rfl hstate, startPass_eq, hmade]
      rfl
    case suspended =>
      obtain ⟨hexec, table, recompose, counters, hmade⟩ := hearly hage
      have hstate : (applied.signalled.dispatched f id).composer.state ≠ .idle := by
        rw [hmade]
        exact ne_of_eq_of_ne hsuspended (by decide)
      rw [hexec, takeWallSignal_busy rfl hstate, hmade]
      rfl
    case late =>
      have hu : s.applyFrame f t0 = _ := (applyFrame_bundle hkind hbody).trans (applyBundle_late hage hr)
      rw [exec_frameDispatch_noHop hlock hfind hb hhop hu hc ha]
      exact congrArg _ (takeWallSignal_none hsignal)
  case item =>
    intro key made applied
    have hmade : ∀ shown : Option Nat, itemEntry f t0 key r shown = made shown := itemEntry_eq f t0 key r
    refine ⟨applyItem_unusable, fun hr hnew => ⟨fun hroom => ?inserts, fun hfull => ?full⟩, fun hr e hfind => ?held⟩
    case inserts =>
      rw [applyItem_new hr hnew, insertNew_room hroom, hmade]
      rfl
    case full => rw [applyItem_new hr hnew, hmade]
    case held =>
      intro ahead newer
      have hnewer : newer ↔ e.repOrigin = f.origin ∧ newerSeq e.repSeq f.seq = true :=
        and_congr_right fun _ => (newerSeq_iff e.repSeq f.seq).symm
      refine ⟨fun h => applyItem_ignored hr hfind (h.imp_right hnewer.1), fun hs h => ?applies⟩
      rw [applyItem_applies hr hfind hs (mt hnewer.2 h), hmade, applyTo_eq s (k := key) rfl]
      rfl

end Sys2Proof.Machine
end

section
/-! A built frame read back (R6 to R8), and the payloads of the replies: STATUS (R209, Table 11-2) and TABLE (R210, Table 11-4). -/

namespace Sys2Proof.Machine

/-- Settles O8: `buildFrame_readsBack` for a body with its own check. -/
theorem builtFrameReadsBack : Obligations.BuiltFrameReadsBack := by
  intro key kind hop origin seq age subject trail body hkind hhop hage htrail hlen l
  obtain ⟨-, hheader, hlength, hread⟩ := buildFrame_readsBack (key := key) (origin := origin) (seq := seq) (subject := subject)
    (w := bodyCheck body) hkind hhop hage htrail hlen
  have hl : l = (buildFrame key kind hop origin seq age subject trail (body ++ word16Bytes (bodyCheck body))).drop 2 := rfl
  rw [← hl] at hheader hread
  have hcount : l.length = 14 + 2 * trail.length + body.length := by
    rw [hl, List.length_drop]
    omega
  refine ⟨hread, hcount, ?placed, hheader, ?bodyOk⟩
  case placed =>
    rw [hread]
    exact decide_eq_true (Nat.le_add_right ..)
  case bodyOk =>
    rw [hread]
    exact decide_eq_true rfl

/-! ### Lists of records of one length -/

theorem drop_flatMap_of_length {α β : Type} {g : α → List β} {k : Nat} (hg : ∀ x, (g x).length = k) (l : List α) (i : Nat) :
    (l.flatMap g).drop (k * i) = (l.drop i).flatMap g := by
  induction l generalizing i with
  | nil => simp
  | cons x l ih =>
    cases i with
    | zero => rfl
    | succ i => rw [List.flatMap_cons, Nat.mul_succ, Nat.add_comm, ← List.drop_drop, ← hg x, List.drop_left, hg x, ih i]; rfl

theorem length_flatMap_of_length {α β : Type} {g : α → List β} {k : Nat} (hg : ∀ x, (g x).length = k) (l : List α) :
    (l.flatMap g).length = k * l.length := by simp [List.length_flatMap, hg, Nat.mul_comm]

theorem byteAt_drop (l : List Byte) (j i : Nat) : byteAt (l.drop j) i = byteAt l (j + i) := by
  simp [byteAt, List.getD_eq_getElem?_getD]

theorem wordAt_drop (l : List Byte) (j i : Nat) : wordAt (l.drop j) i = wordAt l (j + i) := by
  simp only [wordAt, byteAt_drop, Nat.add_assoc]

theorem nat16Bytes_length (n : Nat) : (nat16Bytes n).length = 2 := rfl

theorem tableEntryBytes_length (now : Tick) (e : DepEntry) : (tableEntryBytes now e).length = 10 := rfl

/-- Word `i` of a list of counts. -/
theorem wordAt_counts {l : List Nat} {i n : Nat} (h : l[i]? = some n) : wordAt (l.flatMap nat16Bytes) (2 * i) = BitVec.ofNat 16 n := by
  obtain ⟨hi, rfl⟩ := List.getElem?_eq_some_iff.1 h
  have hat : wordAt ((l.flatMap nat16Bytes).drop (2 * i)) 0 = BitVec.ofNat 16 l[i] := by
    rw [drop_flatMap_of_length nat16Bytes_length, List.drop_eq_getElem_cons hi]
    exact be16_of_word _
  rwa [wordAt_drop] at hat

/-! ### STATUS -/

theorem statusPayload_counter {s : State} {i n : Nat} (h : (countersList s.maint.counters)[i]? = some n) :
    wordAt (statusPayload s) (16 + 2 * i) = BitVec.ofNat 16 n := by
  have hdrop : (statusPayload s).drop 16 = (countersList s.maint.counters).flatMap nat16Bytes := rfl
  rw [← wordAt_drop, hdrop]
  exact wordAt_counts h

theorem ofNat16_mod (n : Nat) : BitVec.ofNat 16 (n % 65536) = BitVec.ofNat 16 n :=
  BitVec.eq_of_toNat_eq (by rw [BitVec.toNat_ofNat, BitVec.toNat_ofNat, Nat.mod_mod])

/-! ### TABLE -/

theorem tablePayload_length (s : State) (start : Nat) : (tablePayload s start).length = 10 * min 6 (s.table.length - start) := by
  rw [tablePayload, length_flatMap_of_length (tableEntryBytes_length _), List.length_take, List.length_drop]

/-- Each entry's ten bytes stand at ten times its place among those of the payload. -/
theorem tablePayload_drop {s : State} {start i : Nat} {e : DepEntry} (hi : i < 6) (he : s.table[start + i]? = some e) :
    ∃ rest, (tablePayload s start).drop (10 * i) = tableEntryBytes s.clock e ++ rest := by
  have hat : ((s.table.drop start).take 6)[i]? = some e := by
    rw [List.getElem?_take_of_lt hi, List.getElem?_drop, he]
  obtain ⟨hlt, rfl⟩ := List.getElem?_eq_some_iff.1 hat
  rw [tablePayload, drop_flatMap_of_length (tableEntryBytes_length _), List.drop_eq_getElem_cons hlt, List.flatMap_cons]
  exact ⟨_, rfl⟩

theorem bits_flags : ∀ dir live cancelled stale : Bool,
    let b := natByte (bitOf dir 1 + bitOf live 2 + bitOf cancelled 4 + bitOf stale 8)
    b.getLsbD 0 = dir ∧ b.getLsbD 1 = live ∧ b.getLsbD 2 = cancelled ∧ b.getLsbD 3 = stale ∧ b.toNat < 16 := by decide

theorem bits_notes : ∀ lastTrip stepFree shortWorking : Bool,
    let b := natByte (bitOf lastTrip 1 + bitOf stepFree 2 + bitOf shortWorking 4)
    b.getLsbD 0 = lastTrip ∧ b.getLsbD 1 = stepFree ∧ b.getLsbD 2 = shortWorking ∧ b.toNat < 8 := by decide

theorem notesByte_eq (n : Option Notes) : notesByte n =
    bitOf (n.getD ⟨false, false, false⟩).lastTrip 1 + bitOf (n.getD ⟨false, false, false⟩).stepFree 2
      + bitOf (n.getD ⟨false, false, false⟩).shortWorking 4 := by cases n <;> rfl

/-- The seconds remaining fit the signed word that carries them. -/
theorem remSeconds_word (d now : Tick) : (BitVec.ofInt 16 (remSeconds d now)).toInt = remSeconds d now := by
  rw [BitVec.toInt_ofInt, remSeconds_eq]
  exact Int.bmod_eq_of_le (by omega) (by omega)

/-- Settles O10: the reply by `buildFrame_readsBack`, the payloads byte by byte. -/
theorem repliesCarryTheirFields : Obligations.RepliesCarryTheirFields := by
  refine ⟨fun s origin seq echo r payload hroom => ?reply, fun s => ⟨rfl, tablePayload_length s⟩, fun s => ?status,
    fun s start i e hi he => ?table⟩
  case reply =>
    intro l f
    obtain ⟨hsync, hheader, -, hread⟩ := buildFrame_readsBack (key := s.cfg.networkKey) (kind := 5) (hop := 1)
      (origin := s.cfg.ownId) (seq := s.maint.seq) (age := 0) (subject := origin) (trail := [])
      (body := natByte echo :: natByte (resultCode r) :: (word16Bytes seq ++ payload))
      (w := bodyCheck (natByte echo :: natByte (resultCode r) :: (word16Bytes seq ++ payload)))
      (by decide) (by decide) (by decide) (by decide) (by simp [word16Bytes]; omega)
    have hf : f = _ := hread
    rw [hf]
    refine ⟨rfl, rfl, rfl, rfl, rfl, rfl, rfl, rfl, ?len, ?body, hheader, decide_eq_true rfl, hsync⟩
    case len =>
      simp [word16Bytes]
      omega
    case body => cases r <;> rfl
  case status =>
    intro p stage freeze
    refine ⟨?stages, be16_of_word _, ?low, ?band, ?reading, rfl, rfl, rfl, ?engine, rfl, ?cause, ?row, fun h => ?absent,
      fun q h _ => ?full, fun q h hq => ?partialWave, rfl, fun i n => statusPayload_counter⟩
    case stages =>
      have hp : byteAt p 0 = natByte (stageCode s.account.stage + 16 * freezeCode s.account.freeze) := rfl
      simp only [hp, stage, freeze]
      cases s.account.stage <;> cases s.account.freeze <;> rfl
    case low => exact (be16_of_word _).trans (ofNat16_mod _)
    case band =>
      have hp : byteAt p 5 = natByte ((s.engine.lastBand.map bandCode).getD 0xFF) := rfl
      rw [hp]
      cases s.engine.lastBand with
      | none => rfl
      | some b => cases b <;> rfl
    case reading =>
      have hp : byteAt p 6 = temperatureByte s.engine.reading := rfl
      rw [hp]
      cases s.engine.reading <;> rfl
    case engine =>
      have hp : byteAt p 10 = natByte (engineCode s.engine.state) := rfl
      rw [hp]
      cases s.engine.state <;> rfl
    case cause =>
      have hp : byteAt p 12 = natByte (causeCode s.monitor.record.cause + if s.monitor.record.droopSeen then 0x80 else 0) := rfl
      rw [hp]
      cases s.monitor.record.cause <;> cases s.monitor.record.droopSeen <;> rfl
    case row =>
      have hp : byteAt p 13 = natByte (s.monitor.record.row.getD 0xFF) := rfl
      rw [hp]
      cases s.monitor.record.row <;> rfl
    all_goals
      have hp : byteAt p 14 = natByte (match s.monitor.record.place with | none => 0 | some (w, q) => phaseCode w q) := rfl
      rw [hp, h]
    case absent => rfl
    case full => cases q <;> rfl
    case partialWave => rcases hq with rfl | rfl | rfl <;> rfl
  case table =>
    intro q notes
    obtain ⟨rest, hq⟩ : ∃ rest, q = tableEntryBytes s.clock e ++ rest := tablePayload_drop hi he
    have hflags : byteAt q 2 = natByte (tableFlags e) := hq ▸ rfl
    have hnotes : byteAt q 8 = natByte (bitOf notes.lastTrip 1 + bitOf notes.stepFree 2 + bitOf notes.shortWorking 4) := by
      rw [← notesByte_eq, hq]
      rfl
    obtain ⟨hdir, hlive, hcancelled, hstale, hfew⟩ :=
      bits_flags e.key.dir (decide (e.source = .live)) (decide (e.state = .cancelled)) e.stale
    obtain ⟨hlast, hstep, hshort, hsmall⟩ := bits_notes notes.lastTrip notes.stepFree notes.shortWorking
    have hroute : wordAt q 0 = BitVec.ofNat 16 e.key.route := by
      rw [hq]
      exact be16_of_word _
    have htrip : wordAt q 3 = BitVec.ofNat 16 e.key.trip := by
      rw [hq]
      exact be16_of_word _
    have hrem : wordAt q 5 = BitVec.ofInt 16 (remSeconds e.d s.clock) := by
      rw [hq]
      exact be16_of_word _
    have hshown : byteAt q 9 = natByte (e.shownRow.getD 0xFF) := hq ▸ rfl
    rw [hflags, hnotes, hrem, hshown]
    refine ⟨hroute, hdir, hlive, hcancelled, hstale, hfew, htrip, remSeconds_word .., hq ▸ rfl, hlast, hstep, hshort, hsmall, ?_⟩
    cases e.shownRow <;> rfl

end Sys2Proof.Machine
end

section
/-! What a pass writes (R95, R96, R105): the hysteresis of a row, the banner message, the candidate of an entry. -/

namespace Sys2Proof.Machine

/-! ### Hysteresis -/

/-- The case in which hysteresis applies (R105): both values are minutes and the records are otherwise the same. -/
theorem hysteresisCase_minutes {cand shown : RowContent} {m' m : Nat} (hc : cand.value = .minutes m')
    (hs : shown.value = .minutes m) (heq : { cand with value := shown.value } = shown) :
    hysteresisCase cand (some (.departure shown)) = some (m', m) := by
  simp only [hysteresisCase, hc, hs]
  rw [← hs]
  exact if_pos heq

theorem hysteresisCase_other {cand shown : RowContent} (h : ¬ ((∃ a, cand.value = .minutes a) ∧ (∃ a, shown.value = .minutes a) ∧
    { cand with value := shown.value } = shown)) : hysteresisCase cand (some (.departure shown)) = none := by
  unfold hysteresisCase
  dsimp only
  split
  · next m' m hc hs => exact if_neg fun heq => h ⟨⟨m', hc⟩, ⟨m, hs⟩, heq⟩
  · rfl

/-- The counts that are kept back: a rise below the threshold, and in SCANT a fall of one minute (R105). -/
theorem carries_eq_false_iff {threshold : Nat} {stage : Stage} {m' m : Nat} : carries threshold stage m' m = false ↔
    (m < m' ∧ m' - m < threshold) ∨ (m' < m ∧ stage = .scant ∧ m - m' < 2) := by
  unfold carries
  rcases lt_trichotomy m m' with hrise | heq | hfall
  · simp [hrise, Nat.ne_of_gt hrise, Nat.lt_asymm hrise]
  · simp [heq]
  · rw [if_neg (Nat.ne_of_lt hfall), if_neg (Nat.lt_asymm hfall)]
    cases stage <;> simp [hfall, Nat.lt_asymm hfall]

theorem desiredOf_minutes {cand shown : RowContent} {m' m : Nat} (c : Cfg) (stage : Stage) (hc : cand.value = .minutes m')
    (hs : shown.value = .minutes m) (heq : { cand with value := shown.value } = shown) :
    desiredOf c stage cand (some (.departure shown)) =
      if (m < m' ∧ m' - m < c.riseThreshold) ∨ (m' < m ∧ stage = .scant ∧ m - m' < 2) then .departure shown
      else .departure cand := by
  simp only [desiredOf, hysteresisCase_minutes hc hs heq, ← carries_eq_false_iff, Option.getD_some]
  cases carries c.riseThreshold stage m' m <;> rfl

theorem desiredOf_other {cand : RowContent} {shown : Option RowRecord} (c : Cfg) (stage : Stage)
    (h : hysteresisCase cand shown = none) : desiredOf c stage cand shown = .departure cand := by simp only [desiredOf, h]

/-! ### The banner -/

section
variable {s : State}

theorem bannerOf_notConfigured (h : s.cfg.configured = false) : bannerOf s = .notConfigured := by simp [bannerOf, h]

theorem bannerOf_noService (h : s.cfg.configured = true) (ht : s.table = []) : bannerOf s = .noService := by
  simp [bannerOf, h, ht]

theorem bannerOf_table (h : s.cfg.configured = true) (ht : s.table ≠ []) :
    bannerOf s = if (s.table.take s.cfg.n).any (fun e => e.source = .live && !e.stale) then .blank else .noLive := by
  simp only [bannerOf, h, List.isEmpty_eq_false_iff.2 ht, Bool.not_true, Bool.false_eq_true, if_false]
  cases (s.table.take s.cfg.n).any (fun e => e.source = .live && !e.stale) <;> rfl

/-- A LIVE entry that is not stale stands among the first N (R96). -/
theorem anyLive_iff : (s.table.take s.cfg.n).any (fun e => e.source = .live && !e.stale) = true ↔
    ∃ (r : Nat) (e : DepEntry), r < s.cfg.n ∧ s.table[r]? = some e ∧ e.source = .live ∧ e.stale = false := by
  simp only [List.any_eq_true, List.mem_iff_getElem?, List.getElem?_take, Option.ite_none_right_eq_some, Bool.and_eq_true, decide_eq_true_eq,
    Bool.not_eq_true']
  exact ⟨fun ⟨e, ⟨r, hr, he⟩, h⟩ => ⟨r, e, hr, he, h⟩, fun ⟨r, e, hr, he, h⟩ => ⟨e, ⟨r, hr, he⟩, h⟩⟩

end

/-! ### The candidate of an entry -/

/-- A route record serves a key (R95). -/
def Serves (k : Key) (r : RouteRecord) : Prop := r.code = k.route ∧ (if k.dir then r.serves1 else r.serves0) = true

theorem serves_iff {k : Key} {r : RouteRecord} :
    (decide (r.code = k.route) && (if k.dir then r.serves1 else r.serves0)) = true ↔ Serves k r := by
  simp [Serves]

theorem routeOf_first {c : Cfg} {k : Key} {before after : List RouteRecord} {r : RouteRecord}
    (hc : c.routes = before ++ r :: after) (hr : Serves k r) (hb : ∀ x ∈ before, ¬ Serves k x) : routeOf c k = some r := by
  rw [routeOf, hc]
  exact List.find?_eq_some_iff_append.2
    ⟨serves_iff.2 hr, before, after, rfl, fun x hx => by rw [Bool.not_eq_true', ← Bool.not_eq_true, serves_iff]; exact hb x hx⟩

theorem routeOf_none {c : Cfg} {k : Key} (h : ∀ x ∈ c.routes, ¬ Serves k x) : routeOf c k = none :=
  List.find?_eq_none.2 fun x hx => mt serves_iff.1 (h x hx)

theorem contentOf_eq (c : Cfg) (e : DepEntry) (now : Tick) (wall : Option WallRef) : contentOf c e now wall =
    ⟨some e.key, (routeOf c e.key).map (·.label), (routeOf c e.key).map (fun r => if e.key.dir then r.text1 else r.text0), e.bay,
      displayValue e now wall, decide (e.source = .live ∧ e.stale = false), decide (∃ n, e.notes = some n ∧ n.lastTrip = true)⟩ := by
  have hlive : (decide (e.source = .live) && !e.stale) = decide (e.source = .live ∧ e.stale = false) := by
    cases e.stale <;> simp
  have hnote : e.notes.any (·.lastTrip) = decide (∃ n, e.notes = some n ∧ n.lastTrip = true) := by
    cases e.notes <;> simp
  rw [← hlive, ← hnote]
  rfl

/-- Settles O52: the rules of R105, R96 and R95, each by its lemma. -/
theorem rowsAndBannerSayWhatTheRulesChoose : Obligations.RowsAndBannerSayWhatTheRulesChoose := by
  refine ⟨fun c stage cand shown m' m _ => ⟨desiredOf_minutes c stage, fun h => desiredOf_other c stage (hysteresisCase_other h), rfl⟩,
    fun s => ⟨bannerOf_notConfigured, bannerOf_noService, fun hc ht => ⟨fun hnone => ?noLive, fun hsome => ?blank⟩⟩,
    fun c e now wall => ⟨fun before after r hc hr hb => ?served, fun h => ?unserved⟩, rfl⟩
  case noLive =>
    have hno : ¬ _ := mt anyLive_iff.1 fun ⟨r, e, hr, he, h⟩ => hnone r e hr he h
    rw [bannerOf_table hc ht, if_neg hno]
  case blank => rw [bannerOf_table hc ht, if_pos (anyLive_iff.2 hsome)]
  case served => rw [contentOf_eq, routeOf_first hc hr hb]; rfl
  case unserved => rw [contentOf_eq, routeOf_none h]; rfl

end Sys2Proof.Machine
end

section
/-! The stage rules where a threshold is crossed (R181 to R183, R185): one stage change, its neighbours, and a fall to FROZEN by LOW
(R175). -/

namespace Sys2Proof.Machine

/-! ### The rules -/

section
variable {c : Cfg} {e : Nat}

theorem bandOfEnergy_frozen (h32 : c.t3 ≤ c.t2) (h21 : c.t2 ≤ c.t1) (he : e < c.t3) : bandOfEnergy c e = .frozen := by
  rw [bandOfEnergy, if_neg (by omega), if_neg (by omega), if_neg (by omega)]

theorem bandOfEnergy_scant (h21 : c.t2 ≤ c.t1) (hlo : c.t3 ≤ e) (hhi : e < c.t2) : bandOfEnergy c e = .scant := by
  rw [bandOfEnergy, if_neg (by omega), if_neg (by omega), if_pos hlo]

theorem bandOfEnergy_thrift (hlo : c.t2 ≤ e) (hhi : e < c.t1) : bandOfEnergy c e = .thrift := by
  rw [bandOfEnergy, if_neg (by omega), if_pos hlo]

/-- Below T3 the stage FROZEN holds (R181, R182). -/
theorem stageHolds_frozen (h : e < c.t3 + c.h) : stageHolds c .frozen e = true := by
  simp [stageHolds, stageRank, riseOf, h]

theorem frozen_lt {stage : Stage} (h : stage ≠ .frozen) : stageRank .frozen < stageRank stage := by
  cases stage with
  | frozen => exact absurd rfl h
  | full | thrift | scant => decide

variable {ctl : State → State} {s : State}

/-- A fall goes at once to the band of E (R181). -/
theorem stageRules_falls {new : Stage} (hb : bandOfEnergy s.cfg s.account.e = new) (h : stageRank new < stageRank s.account.stage) :
    stageRules ctl s = stageChange ctl new s := by
  subst hb
  exact if_pos h

/-- One rise, after which the stage holds (R182). -/
theorem stageRules_rises {new : Stage} {t : State} (hb : stageRank s.account.stage ≤ stageRank (bandOfEnergy s.cfg s.account.e))
    (hrise : riseOf s.cfg s.account.stage s.account.e = some new) (ht : stageChange ctl new s = t)
    (hend : riseOf t.cfg t.account.stage t.account.e = none) : stageRules ctl s = t := by
  simp only [stageRules, if_neg (Nat.not_lt.2 hb), stageRises, hrise, ht, hend]

theorem changeEnergy_running (hr : s.account.running = true) :
    changeEnergy ctl e s = receiverUpdate (stageRules ctl (s.setEnergy e)) := if_pos hr

end

/-! ### The neighbours of a stage change -/

/-- The account of a new stage (R183, R185, R188). -/
def State.staged (new : Stage) (s : State) : State :=
  { s with account := { s.account with stage := new, freeze := freezeAfter s.account.stage new s.account.freeze } }

theorem stageChange_active {s : State} (ctl : State → State) (new : Stage) (ha : active s = true) : stageChange ctl new s =
    ctl (freezeStage s.account.stage new (composerStage s.account.stage new
      (relayStage s.account.stage new (windowStage new (s.staged new))))) := if_pos ha

/-- No attempt is in progress, or one contends for a relay while no reply waits. -/
def OnlyRelays (s : State) : Prop :=
  s.cau = .idle ∨ ∃ (ms : Nat) (o q : Word16), s.cau = .contending (.relay o q) ms ∧ s.maint.replies = []

/-- The relay queue emptied, the attempt ended, with the seen table and the counters that this leaves (R46). -/
def State.relaysDropped (seen : List SeenEntry) (counters : Counters) (s : State) : State :=
  { s with cau := .idle, relayQ := [], seen := seen, maint := { s.maint with counters := counters } }

/-- The abandonment of every relay leaves this seen table and these counters (R45, R46). -/
def DropsRelays (seen : List SeenEntry) (counters : Counters) (s : State) : Prop :=
  State.abandonRelays s.relayQ s = { s with relayQ := [], seen := seen, maint := { s.maint with counters := counters } }

/-- The counters once so many relays are abandoned (R213). -/
def Counters.relaysDropped (k : Nat) (c : Counters) : Counters := { c with relayAbandoned := min 65535 (c.relayAbandoned + k) }

theorem withoutKeys_self (q : List RelayEntry) : withoutKeys q q = [] := by
  refine List.filter_eq_nil_iff.2 fun e he => ?_
  have hnamed : namesKey q e.origin e.seq = true := List.any_eq_true.2 ⟨e, he, by simp [RelayEntry.hasKey]⟩
  simp [hnamed]

theorem dropsRelays_inRange {s : State} (hr : CountersInRange s) :
    DropsRelays (markAbandoned s.relayQ s.seen) (s.maint.counters.relaysDropped s.relayQ.length) s := by
  have hcount : s.maint.counters.relayAbandoned ≤ 65535 := hr _ (by simp [countersList])
  rw [DropsRelays, abandonRelays_eq s.relayQ s hcount, State.relaysEnded, withoutKeys_self]
  rfl

theorem dropsRelays_none {s : State} (h : s.relayQ = []) : DropsRelays s.seen s.maint.counters s := by
  have hempty : ({ s with relayQ := [] } : State) = s := by rw [← h]
  rw [DropsRelays, h]
  exact hempty.symm

theorem relayStage_falls {old new : Stage} {s : State} {seen : List SeenEntry} {counters : Counters}
    (hfall : stageRank new < stageRank old) (hlow : stageRank new ≤ 1) (hdrops : DropsRelays seen counters s) (hcau : OnlyRelays s)
    (ha : receiverAgrees (s.setCau .idle) = true) : relayStage old new s = s.relaysDropped seen counters := by
  rw [relayStage, if_pos ⟨hfall, hlow⟩, hdrops]
  rcases hcau with hidle | ⟨ms, o, q, hcau, hreplies⟩
  · rw [recheckAttempt_idle (by exact hidle), State.relaysDropped, ← hidle]
  · refine recheckAttempt_left (c := .relay o q) (ms := ms) hcau rfl ?_ ha
    simp [candidate?, readyRelay, hreplies]

theorem relayStage_kept {old new : Stage} {s : State} (h : stageRank old ≤ stageRank new ∨ 2 ≤ stageRank new) :
    relayStage old new s = s := if_neg (by omega)

theorem mapIdx_self (rows : List Row) : rows.mapIdx (fun _ row => row) = rows := List.ext_getElem (by simp) (by simp)

/-- What a fall to FROZEN leaves at the composer (R108, R109). -/
theorem composerStage_frozen (old : Stage) (s : State) : composerStage old .frozen s = { s with
    rows := s.rows.mapIdx (fun r row => { row with
      desired := if s.composer.state = .passing then row.desired else freezeContent s.cfg.n r })
    composer := if s.composer.state = .passing then s.composer else { s.composer with state := .suspended } } := by
  cases h : s.composer.state with
  | passing =>
    simp [composerStage, h, mapIdx_self]
  | idle => simp [composerStage, h, writeFreezeContent]
  | suspended =>
    have hcomposer : ({ s.composer with state := .suspended } : Composer) = s.composer := by rw [← h]
    simp [composerStage, h, writeFreezeContent, hcomposer]

/-! ### A fall to FROZEN -/

/-- A part that has fallen to FROZEN, before the controller takes the change (R46, R108, R117, R185). -/
def State.fallen (seen : List SeenEntry) (counters : Counters) (s : State) : State :=
  { (s.staged .frozen).relaysDropped seen counters with
    rows := s.rows.mapIdx (fun r row => { row with
      desired := if s.composer.state = .passing then row.desired else freezeContent s.cfg.n r })
    composer := if s.composer.state = .passing then s.composer else { s.composer with state := .suspended }
    ctl := { s.ctl with clearItem := some .freeze } }

theorem stageChange_frozen {s : State} {seen : List SeenEntry} {counters : Counters} (ctl : State → State) (ha : active s = true)
    (hs : s.account.stage ≠ .frozen) (hdrops : DropsRelays seen counters (s.staged .frozen)) (hcau : OnlyRelays s)
    (hagrees : receiverAgrees (s.setCau .idle) = true) : stageChange ctl .frozen s = ctl (s.fallen seen counters) := by
  rw [stageChange_active ctl _ ha]
  have hrelays : relayStage s.account.stage .frozen (windowStage .frozen (s.staged .frozen)) =
      (s.staged .frozen).relaysDropped seen counters :=
    relayStage_falls (s := s.staged .frozen) (frozen_lt hs) (by decide) hdrops hcau hagrees
  rw [hrelays, composerStage_frozen]
  rfl

/-- A stage change at a controller that is not GRANTED makes a selection (R118, R126). -/
theorem ctlStage_grants {s : State} {x : Refresh} (ha : active s = true) (hg : s.ctl.state ≠ .granted)
    (hi : s.engine.state = .idle) (hr : ∀ r, s.engine.reading = some r → r.old = true) (hx : selection s = some x) :
    ctlStage s = grant x { s with ctl := s.ctl.released } := by
  have hopened : s.ctl.released.state = .opened := by
    unfold Controller.released
    cases h : s.ctl.state <;> simp_all
  have hx' : selection { s with ctl := s.ctl.released } = some x := by
    rw [← leaveHeld_eq, selection_leaveHeld, hx]
  rw [ctlStage, leaveHeld_eq]
  exact select_grants_stale (s := { s with ctl := s.ctl.released }) ha hopened hi hr hx'

/-! ### LOW -/

section
variable {stays : Bool} {s : State}

/-- The state whose LOW has counted and whose E is clamped below T3 (R175). -/
def State.clamped (s : State) : State := State.count .lowEvents (withE s (min s.account.e (s.cfg.t3 - 1)))

theorem takeLow_running (hr : s.account.running = true) :
    takeLow ctlStage s = changeEnergy ctlStage (min s.account.e (s.cfg.t3 - 1)) (s.count .lowEvents) := if_pos hr

theorem takeLow_stopped (hr : s.account.running = false) : takeLow ctlStage s = s := if_neg (by simp [hr])

/-- LOW in FROZEN moves E alone (R175). -/
theorem takeLow_frozen (hr : s.account.running = true) (hs : s.account.stage = .frozen) (h1 : 1 ≤ s.cfg.t3)
    (ha : receiverAgrees (withE s (min s.account.e (s.cfg.t3 - 1))) = true) :
    takeLow ctlStage s = s.clamped := by
  have hholds : stageHolds s.cfg s.account.stage (min s.account.e (s.cfg.t3 - 1)) = true := by
    rw [hs]
    exact stageHolds_frozen (by omega)
  have hquiet : crossesNothing (s.count .lowEvents) (min s.account.e (s.cfg.t3 - 1)) = true :=
    Bool.and_eq_true_iff.2 ⟨hholds, ha⟩
  rw [takeLow_running hr]
  exact changeEnergy_quiet ctlStage _ _ hr hquiet

/-- LOW in another stage: the fall to FROZEN (R175, R185). -/
theorem takeLow_falls {seen : List SeenEntry} {counters : Counters} (hr : s.account.running = true) (ha : active s = true)
    (hs : s.account.stage ≠ .frozen) (h32 : s.cfg.t3 < s.cfg.t2) (h21 : s.cfg.t2 < s.cfg.t1) (h1 : 1 ≤ s.cfg.t3)
    (hdrops : DropsRelays seen counters (s.clamped.staged .frozen)) (hcau : OnlyRelays s)
    (hagrees : receiverAgrees (s.clamped.setCau .idle) = true) :
    takeLow ctlStage s = receiverUpdate (ctlStage (s.clamped.fallen seen counters)) := by
  have hband : bandOfEnergy s.cfg (min s.account.e (s.cfg.t3 - 1)) = .frozen :=
    bandOfEnergy_frozen (le_of_lt h32) (le_of_lt h21) (by omega)
  have hrules : stageRules ctlStage s.clamped = stageChange ctlStage .frozen s.clamped :=
    stageRules_falls hband (frozen_lt hs)
  rw [takeLow_running hr, changeEnergy_running (by exact hr), ← stageChange_frozen (s := s.clamped) ctlStage ha hs hdrops hcau hagrees, ← hrules]
  rfl

/-- The command on a standing LOW which leaves it deasserted is its release. -/
theorem exec_lowAssert_releases (hl : s.pins.low = true) (hs : stays = false) :
    exec (.lowAssert stays) s = .next { s with pins := { s.pins with low := stays } } := if_pos ⟨hl, hs⟩

theorem exec_lowAssert_takes (h : s.pins.low = false ∨ stays = true) :
    exec (.lowAssert stays) s = .next (takeLow ctlStage { s with pins := { s.pins with low := stays } }) :=
  if_neg (by rcases h with h | h <;> simp [h])

end

/-! ### The controller of a part that falls to FROZEN -/

theorem Controller.released_withItem (c : Controller) (item : Option ClearKind) :
    ({ c with clearItem := item } : Controller).released = { c.released with clearItem := item } := by
  unfold Controller.released
  split <;> rfl

theorem ctlStage_fallen_busy {s : State} {seen : List SeenEntry} {counters : Counters} (h : s.engine.state ≠ .idle) :
    ctlStage (s.fallen seen counters) =
      { s.fallen seen counters with ctl := { s.ctl.released with clearItem := some .freeze } } := by
  rw [← Controller.released_withItem]
  exact ctlStage_nothing (s := s.fallen seen counters) (nothingToSelect_iff.2 (.inl h))

/-- The freeze picture granted: every row in service with the freeze content as its drawing record (R121, R122). -/
theorem grant_freeze (s : State) : grant (.clear .freeze) s = { s with
    rows := s.rows.mapIdx (fun r row => { row with
      drawing := some (freezeContent s.cfg.n r), pending := false, inService := true })
    ctl := { s.ctl with state := .granted, clearItem := none, grantPointer := s.ctl.pointer }
    engine := { s.engine with state := .prepare, refresh := some (.clear .freeze), counts := some (0, 0) } } := rfl

theorem ctlStage_fallen_idle {s : State} {seen : List SeenEntry} {counters : Counters} (ha : active s = true)
    (hg : s.ctl.state ≠ .granted) (hi : s.engine.state = .idle) (hr : ∀ r, s.engine.reading = some r → r.old = true) :
    ctlStage (s.fallen seen counters) = { s.fallen seen counters with
      rows := s.rows.mapIdx (fun r row => { row with
        desired := if s.composer.state = .passing then row.desired else freezeContent s.cfg.n r
        drawing := some (freezeContent s.cfg.n r), pending := false, inService := true })
      ctl := { s.ctl.released with state := .granted, clearItem := none, grantPointer := s.ctl.pointer }
      engine := { s.engine with state := .prepare, refresh := some (.clear .freeze), counts := some (0, 0) } } := by
  have hgrants := ctlStage_grants (s := s.fallen seen counters) (x := .clear .freeze) ha hg hi hr (selection_clear rfl)
  have hctl : (s.fallen seen counters).ctl.released = { s.ctl.released with clearItem := some .freeze } :=
    Controller.released_withItem ..
  have hrows : (s.fallen seen counters).rows = s.rows.mapIdx (fun r row => { row with
      desired := if s.composer.state = .passing then row.desired else freezeContent s.cfg.n r }) := rfl
  rw [hgrants, grant_freeze, hctl]
  dsimp only
  rw [hrows, List.mapIdx_mapIdx, Controller.released_pointer]
  rfl

/-- Settles O47: the release of a standing LOW, `takeLow_frozen`, and `takeLow_falls` with what the controller makes of the fall. -/
theorem lowClampsAndFreezes : Obligations.LowClampsAndFreezes := by
  refine ⟨fun stays s => ⟨exec_lowAssert_releases, fun hr => ?stopped, fun hlow hr hs _ _ h1 ha => ?frozen⟩,
    fun stays s hlow hr ha hs h32 h21 h1 hc hcau hagrees => ?falls⟩
  case stopped =>
    by_cases h : s.pins.low = false ∨ stays = true
    · exact (exec_lowAssert_takes h).trans (congrArg _ (takeLow_stopped (s := { s with pins := { s.pins with low := stays } }) hr))
    · rw [not_or, Bool.not_eq_false, Bool.not_eq_true] at h
      exact exec_lowAssert_releases h.1 h.2
  case frozen =>
    exact (exec_lowAssert_takes hlow).trans
      (congrArg _ (takeLow_frozen (s := { s with pins := { s.pins with low := stays } }) hr hs h1 ha))
  case falls =>
    intro passing content desired released frozen
    let level : State := { s with pins := { s.pins with low := stays } }
    have hexec := (exec_lowAssert_takes hlow).trans (congrArg _ (takeLow_falls (s := level) hr ha hs h32 h21 h1
      (dropsRelays_inRange (s := level.clamped.staged .frozen) (count_counters _ level hc)) hcau hagrees))
    rw [hexec]
    refine ⟨fun hb => congrArg _ ?busy, fun hi hg hread => congrArg _ ?idle⟩
    case busy =>
      rw [ctlStage_fallen_busy (s := level.clamped) hb]
      exact receiverUpdate_agrees _ hagrees
    case idle =>
      rw [ctlStage_fallen_idle (s := level.clamped) ha hg hi hread]
      exact receiverUpdate_agrees _ hagrees

end Sys2Proof.Machine
end

section
/-! The end of a load (R203): the configuration in force, the account that starts (R190) or resumes (R184, R191), a LOW that stands
there (R175), and the receiver. -/

namespace Sys2Proof.Machine

/-! ### The parts of the end of a load -/

theorem exec_loadEnd_decides {answer : MemoryAnswer} {o : LoadOutcome} {c : Cfg} {s : State} (hl : s.startup.state = .loading)
    (hr : loadResult s.loader.phase answer = some (o, c)) :
    exec (.loadEnd answer) s = .next (endLoad o c { s with loader := s.loader.ending answer }) := by
  have hexec : execLoadEnd answer s = .next (endLoad o c { s with loader := s.loader.ending answer }) := by
    simp only [execLoadEnd, hl, hr, if_true]
  exact hexec

/-- The end of a load adds to the bus what the last attempt sent, and nothing else (R197, R198). -/
theorem Loader.ending_eq (l : Loader) (answer : MemoryAnswer) : l.ending answer = { l with bus := (l.ending answer).bus } := by
  unfold Loader.ending
  split <;> rfl

theorem lfsrSeed_eq (w : Word16) : lfsrSeed w = if w = 0xACE1 then 0xACE1 else w ^^^ 0xACE1 := by
  have hzero : w ^^^ 0xACE1 = 0 ↔ w = 0xACE1 := BitVec.xor_eq_zero_iff
  simp only [lfsrSeed, hzero]

/-- The rows before the masks of the load's end. -/
def rowsLoaded (n : Nat) (s : State) : List Row := if n = s.cfg.n then s.rows else Row.initialRows n

/-- The state at the end of a load once the rows, the controller and the account are as given (R203). -/
def State.loaded (answer : MemoryAnswer) (o : LoadOutcome) (c : Cfg) (rows : List Row) (ctl : Controller) (account : Account)
    (s : State) : State :=
  { s with
    cfg := c
    cfgInForce := true
    loader := { s.loader with phase := .ended, outcome := some o, bus := (s.loader.ending answer).bus }
    startup := { s.startup with state := .fill, fillTimer := some 960 }
    rng := if c.ownId = 0xACE1 then 0xACE1 else c.ownId ^^^ 0xACE1
    rows := rows
    ctl := ctl
    account := account }

theorem applyLoad_eq (answer : MemoryAnswer) (o : LoadOutcome) (c : Cfg) (s : State) :
    applyLoad o c { s with loader := s.loader.ending answer } =
      s.loaded answer o c ((rowsLoaded c.n s).mapIdx (fun r row => { row with mask := decide (r < c.n) && masksKept s.account }))
        (.initial c.n) s.account := by
  rw [State.loaded, ← lfsrSeed_eq, Loader.ending_eq]
  rfl

/-- The receiver once a period with its window on has begun: it listens when the gate is open (R13, R14, R16). -/
def State.windowOpened (s : State) : State :=
  { s with
    rx := { Receiver.initial with
      window := ⟨true, s.clock, s.account.stage, true⟩
      state := if gateOpen s then .listen else .off }
    quiet := if gateOpen s then .running 30 else s.quiet }

theorem receiverUpdate_beginPeriod {s : State} (ha : active s = true) (hrx : s.rx = .initial) :
    receiverUpdate (beginPeriod s) = s.windowOpened := by
  have hoff : (beginPeriod s).rx.state = .off := congrArg Receiver.state hrx
  cases hg : gateOpen s with
  | true =>
    have hw : wantedOn (beginPeriod s) = true := wantedOn_iff.2 ⟨ha, .inl rfl, hg⟩
    rw [receiverUpdate_opens hoff hw, State.listening, beginPeriod, State.windowOpened, hrx, hg]
    rfl
  | false =>
    have hw : wantedOn (beginPeriod s) = false := by
      rw [← Bool.not_eq_true, wantedOn_iff]
      exact fun h => by simp [show gateOpen s = true from h.2.2] at hg
    rw [receiverUpdate_agrees _ (receiverAgrees_iff.2 ⟨fun _ => hw, fun hl => absurd (hoff.symm.trans hl) (by decide)⟩),
      beginPeriod, State.windowOpened, hrx, hg]
    rfl

/-- With no reservation the gate is open above the banner reserve (R16, R177). -/
theorem gateOpen_iff {s : State} (hr : s.account.reservation = none) : gateOpen s = true ↔ 40 + (s.cfg.n + 1) * 210 < s.account.e := by
  simp only [gateOpen, spendable, reserved, hr, bannerReserve, Option.getD_none, decide_eq_true_eq]
  omega

/-- A part whose load has ended agrees with what is wanted of its receiver until its window opens (R13). -/
theorem receiverAgrees_stopped {s : State} (hrx : s.rx = .initial) (hcau : s.cau = .idle) : receiverAgrees s = true := by
  simp [receiverAgrees, hrx, hcau, wantedOn, carrierSense, Receiver.initial]

theorem windowOpened_eq {s : State} (hr : s.account.reservation = none) : s.windowOpened = { s with
    rx := { Receiver.initial with
      window := ⟨true, s.clock, s.account.stage, true⟩
      state := if 40 + (s.cfg.n + 1) * 210 < s.account.e then .listen else .off }
    quiet := if 40 + (s.cfg.n + 1) * 210 < s.account.e then .running 30 else s.quiet } := by
  simp only [State.windowOpened, gateOpen_iff hr]

/-! ### The rows and the masks -/

theorem mapIdx_eq_map {α β : Type} (f : α → β) (l : List α) : l.mapIdx (fun _ x => f x) = l.map f :=
  List.ext_getElem (by simp) (by simp)

theorem masked_eq (n r : Nat) (a : Account) : (decide (r < n) && masksKept a) =
    decide (r < n ∧ (a.stage = .frozen ∧ (a.freeze = .drawn ∨ a.freeze = .skipped))) := by simp [masksKept]

theorem masksKept_eq_false {a : Account} (h : a.stage ≠ .frozen ∨ a.freeze = .pending ∨ a.freeze = .none) :
    masksKept a = false := by
  rcases h with h | h | h <;> simp [masksKept, h]

/-! ### The account -/

/-- At T3 + H within C the part is in SCANT (R190). -/
theorem stageHolds_scant {c : Cfg} {e : Nat} (hlo : c.t3 ≤ e) (hhi : e < c.t2 + c.h) : stageHolds c .scant e = true := by
  have hrank : 1 ≤ stageRank (bandOfEnergy c e) := by
    unfold bandOfEnergy
    split_ifs <;> decide
  exact Bool.and_eq_true_iff.2 ⟨decide_eq_true hrank, by simp [riseOf, hhi]⟩

section
variable {s : State} (hrx : s.rx = .initial) (hcau : s.cau = .idle)
include hrx hcau

theorem crossesNothing_stopped {e : Nat} (h : stageHolds s.cfg s.account.stage e = true) : crossesNothing s e = true :=
  Bool.and_eq_true_iff.2 ⟨h, receiverAgrees_stopped (s := withE s e) hrx hcau⟩

/-- After a power-on the account runs in SCANT with T3 + H within C (R190). -/
theorem accountAfterLoad_starts (h32 : s.cfg.t3 < s.cfg.t2) (h21 : s.cfg.t2 < s.cfg.t1) (hcap : s.cfg.t1 ≤ s.cfg.capacity)
    (ha : s.account = ⟨false, 0, none, .scant, .none⟩) : accountAfterLoad s =
      standingLow { s with account := ⟨true, min s.cfg.capacity (s.cfg.t3 + s.cfg.h), none, .scant, .none⟩ } := by
  have hholds : stageHolds s.cfg .scant (min s.cfg.capacity (s.cfg.t3 + s.cfg.h)) = true :=
    stageHolds_scant (by omega) (by omega)
  have hstart : accountAfterLoad s = startAccount s := if_neg (by simp [ha])
  rw [hstart, startAccount, ha]
  exact congrArg standingLow (changeEnergy_quiet ctlStage _ { s with account := ⟨true, 0, none, .scant, .none⟩ } rfl
    (crossesNothing_stopped (s := { s with account := ⟨true, 0, none, .scant, .none⟩ }) hrx hcau hholds))

variable (hr : s.account.running = true) (hholds : stageHolds s.cfg s.account.stage (min s.cfg.capacity s.account.e) = true)
include hr hholds

theorem accountAfterLoad_resumes (hf : ¬ (s.account.stage = .frozen ∧ s.account.freeze = .pending)) :
    accountAfterLoad s = standingLow (withE s (min s.cfg.capacity s.account.e)) := by
  have hpending : freezePending s.account = false := by simpa [freezePending] using hf
  have hresume : accountAfterLoad s = resumeAccount s := if_pos hr
  rw [hresume, resumeAccount, hpending, changeEnergy_quiet ctlStage _ s hr (crossesNothing_stopped hrx hcau hholds)]
  rfl

/-- A freeze that was pending is entered again (R191). -/
theorem accountAfterLoad_freezes (hs : s.account.stage = .frozen) (hf : s.account.freeze = .pending) : accountAfterLoad s =
    select (writeFreezeContent (requestClear .freeze (standingLow (withE s (min s.cfg.capacity s.account.e))))) := by
  have hpending : freezePending s.account = true := by simp [freezePending, hs, hf]
  have hstays : freezePending (withE s (min s.cfg.capacity s.account.e)).account = true := hpending
  have hresume : accountAfterLoad s = resumeAccount s := if_pos hr
  rw [hresume, resumeAccount, changeEnergy_quiet ctlStage _ s hr (crossesNothing_stopped hrx hcau hholds)]
  exact if_pos (Bool.and_eq_true_iff.2 ⟨hpending, hstays⟩)

end

theorem standingLow_deasserted {s : State} (h : s.pins.low = false) : standingLow s = s := if_neg (by simp [h])

theorem standingLow_asserted {s : State} (h : s.pins.low = true) : standingLow s = takeLow ctlStage s := if_pos h

/-! ### The freeze picture -/

/-- The freeze picture in PREPARE, every row in service with the freeze content desired and as its drawing record (R108, R121). -/
def State.pictured (s : State) : State :=
  { s with
    rows := s.rows.mapIdx (fun r row => { row with
      desired := freezeContent s.cfg.n r
      drawing := some (freezeContent s.cfg.n r), pending := false, inService := true })
    ctl := { s.ctl with state := .granted, clearItem := none, grantPointer := s.ctl.pointer }
    engine := { s.engine with state := .prepare, refresh := some (.clear .freeze), counts := some (0, 0) } }

theorem select_pictured {s : State} (ha : active s = true) (ho : s.ctl.state = .opened) (he : s.engine = .initial) :
    select (writeFreezeContent (requestClear .freeze s)) = s.pictured := by
  have hidle : s.engine.state = .idle := by rw [he]; rfl
  have hread : s.engine.reading = none := by rw [he]; rfl
  have hgrants := select_grants (s := writeFreezeContent (requestClear .freeze s)) (x := .clear .freeze) ha ho hidle hread
    (selection_clear rfl)
  have hrows : (writeFreezeContent (requestClear .freeze s)).rows =
      s.rows.mapIdx (fun r row => { row with desired := freezeContent s.cfg.n r }) := rfl
  rw [hgrants, grant_freeze, hrows, List.mapIdx_mapIdx]
  rfl

/-- The state whose account has fallen to FROZEN with the freeze pending (R185). -/
def State.freezes (s : State) : State := { s with account := { s.account with stage := .frozen, freeze := .pending } }

theorem receiverAgrees_pictured (s : State) : receiverAgrees s.freezes.pictured = receiverAgrees s := rfl

/-- A fall to FROZEN with nothing to relay and no pass in progress, the freeze picture granted at once (R121, R185). -/
theorem ctlStage_pictured {s : State} (ha : active s = true) (hcau : s.cau = .idle) (hq : s.relayQ = [])
    (hcomp : s.composer.state = .suspended) (hctl : s.ctl.state = .opened) (he : s.engine = .initial) :
    ctlStage (s.fallen s.seen s.maint.counters) = s.freezes.pictured := by
  have hidle : s.engine.state = .idle := by rw [he]; rfl
  have hread : ∀ r, s.engine.reading = some r → r.old = true := by simp [he, Engine.initial]
  have hcomposer : ({ s.composer with state := .suspended } : Composer) = s.composer := by rw [← hcomp]
  have hpassing : s.composer.state ≠ .passing := by simp [hcomp]
  have hreleased : s.ctl.released = s.ctl := if_neg (by simp [hctl])
  have hfallen : s.fallen s.seen s.maint.counters = { s.freezes with
      rows := (s.fallen s.seen s.maint.counters).rows
      ctl := (s.fallen s.seen s.maint.counters).ctl } := by
    rw [State.fallen, if_neg hpassing, hcomposer, State.relaysDropped, ← hcau, ← hq]
    rfl
  rw [ctlStage_fallen_idle ha (ne_of_eq_of_ne hctl (by decide)) hidle hread, hfallen, hreleased]
  simp only [if_neg hpassing]
  rfl

/-- LOW at the end of a load outside FROZEN: the fall, and the freeze picture granted at once (R175, R185, R203). -/
theorem takeLow_afterLoad {s : State} (hr : s.account.running = true) (ha : active s = true) (hs : s.account.stage ≠ .frozen)
    (h32 : s.cfg.t3 < s.cfg.t2) (h21 : s.cfg.t2 < s.cfg.t1) (h1 : 1 ≤ s.cfg.t3) (hrx : s.rx = .initial) (hcau : s.cau = .idle)
    (hq : s.relayQ = []) (hcomp : s.composer.state = .suspended) (hctl : s.ctl.state = .opened) (he : s.engine = .initial) :
    takeLow ctlStage s = s.clamped.freezes.pictured := by
  have hdrops : DropsRelays s.clamped.seen s.clamped.maint.counters (s.clamped.staged .frozen) :=
    dropsRelays_none (s := s.clamped.staged .frozen) hq
  rw [takeLow_falls hr ha hs h32 h21 h1 hdrops (.inl hcau) (receiverAgrees_stopped (s := s.clamped.setCau .idle) hrx rfl),
    ctlStage_pictured (s := s.clamped) ha hcau hq hcomp hctl he, receiverUpdate_agrees]
  rw [receiverAgrees_pictured]
  exact receiverAgrees_stopped (s := s.clamped) hrx hcau

/-! ### The end of a load -/

section
variable {answer : MemoryAnswer} {o : LoadOutcome} {c : Cfg} {s : State}

/-- The state that the account starts from (R203). -/
def State.toAccount (answer : MemoryAnswer) (o : LoadOutcome) (c : Cfg) (s : State) : State :=
  s.loaded answer o c ((rowsLoaded c.n s).mapIdx (fun r row => { row with mask := decide (r < c.n) && masksKept s.account }))
    (.initial c.n) s.account

/-- The end of a load: the account's part, and then the window and the receiver. -/
theorem exec_loadEnd_account {u : State} (hl : s.startup.state = .loading)
    (hr : loadResult s.loader.phase answer = some (o, c)) (hu : accountAfterLoad (s.toAccount answer o c) = u)
    (ha : active u = true) (hrx : u.rx = .initial) (hres : u.account.reservation = none) :
    exec (.loadEnd answer) s = .next { u with
      rx := { Receiver.initial with
        window := ⟨true, u.clock, u.account.stage, true⟩
        state := if 40 + (u.cfg.n + 1) * 210 < u.account.e then .listen else .off }
      quiet := if 40 + (u.cfg.n + 1) * 210 < u.account.e then .running 30 else u.quiet } := by
  rw [exec_loadEnd_decides hl hr, endLoad, applyLoad_eq, ← State.toAccount, hu, receiverUpdate_beginPeriod ha hrx,
    windowOpened_eq hres]

/-- Where the masks do not stand, every row is unmasked (R127). -/
theorem toAccount_unmasked (h : masksKept s.account = false) : s.toAccount answer o c =
    s.loaded answer o c ((rowsLoaded c.n s).map (fun row => { row with mask := false })) (.initial c.n) s.account := by
  simp only [State.toAccount, h, Bool.and_false]
  rw [mapIdx_eq_map]

end

/-- Settles O17: the account by `accountAfterLoad_starts`, no LOW standing there. -/
theorem loadEndStartsTheAccount : Obligations.LoadEndStartsTheAccount := by
  intro answer o c s hl hr h32 h21 hcap hacc hlow hrx hcau e listens
  have hmasks : masksKept s.account = false := masksKept_eq_false (.inl (by simp [hacc]))
  have hstarts := accountAfterLoad_starts (s := s.toAccount answer o c) hrx hcau h32 h21 hcap hacc
  rw [exec_loadEnd_account hl hr (hstarts.trans (standingLow_deasserted hlow)) rfl hrx rfl, toAccount_unmasked hmasks]
  rfl

/-- The masks that the load leaves, as R127 has them. -/
theorem toAccount_masked {answer : MemoryAnswer} {o : LoadOutcome} {c : Cfg} {s : State} : s.toAccount answer o c =
    s.loaded answer o c ((rowsLoaded c.n s).mapIdx (fun r row => { row with
      mask := decide (r < c.n ∧ (s.account.stage = .frozen ∧ (s.account.freeze = .drawn ∨ s.account.freeze = .skipped))) }))
      (.initial c.n) s.account := by
  simp only [State.toAccount, masked_eq]

/-- The rows of the freeze picture over rows without masks. -/
theorem picturedRows (n : Nat) (rows : List Row) : (rows.map (fun row => { row with mask := false })).mapIdx (fun r row => { row with
      desired := freezeContent n r, drawing := some (freezeContent n r), pending := false, inService := true }) =
    rows.mapIdx (fun r row => { row with
      desired := freezeContent n r, drawing := some (freezeContent n r), pending := false, inService := true, mask := false }) := by
  rw [← mapIdx_eq_map, List.mapIdx_mapIdx]
  rfl

/-- The part at the end of a load with its account in FROZEN, the freeze pending. -/
def State.frozenAt (answer : MemoryAnswer) (o : LoadOutcome) (c : Cfg) (e : Nat) (maint : Maint) (s : State) : State :=
  { s.toAccount answer o c with account := ⟨true, e, none, .frozen, .pending⟩, maint := maint }

section
variable {answer : MemoryAnswer} {o : LoadOutcome} {c : Cfg} {s : State}

/-- The end of a load that leaves the freeze picture in PREPARE. -/
theorem exec_loadEnd_pictured {e : Nat} {maint : Maint} (hl : s.startup.state = .loading)
    (hr : loadResult s.loader.phase answer = some (o, c)) (hmasks : masksKept s.account = false) (he : s.engine = .initial)
    (hrx : s.rx = .initial) (hu : accountAfterLoad (s.toAccount answer o c) = (s.frozenAt answer o c e maint).pictured) :
    exec (.loadEnd answer) s = .next { s.loaded answer o c
        ((rowsLoaded c.n s).mapIdx (fun r row => { row with
          desired := freezeContent c.n r, drawing := some (freezeContent c.n r), pending := false, inService := true, mask := false }))
        ⟨.granted, none, c.n - 1, c.n - 1, none, none⟩ ⟨true, e, none, .frozen, .pending⟩ with
      engine := ⟨.prepare, some (.clear .freeze), none, none, none, none, none, none, some (0, 0), .stopped, .grounded⟩
      maint := maint
      rx := { Receiver.initial with
        window := ⟨true, s.clock, .frozen, true⟩
        state := if 40 + (c.n + 1) * 210 < e then .listen else .off }
      quiet := if 40 + (c.n + 1) * 210 < e then .running 30 else s.quiet } := by
  have hpictured : (s.frozenAt answer o c e maint).pictured = { s.loaded answer o c
        ((rowsLoaded c.n s).mapIdx (fun r row => { row with
          desired := freezeContent c.n r, drawing := some (freezeContent c.n r), pending := false, inService := true, mask := false }))
        ⟨.granted, none, c.n - 1, c.n - 1, none, none⟩ ⟨true, e, none, .frozen, .pending⟩ with
      engine := ⟨.prepare, some (.clear .freeze), none, none, none, none, none, none, some (0, 0), .stopped, .grounded⟩
      maint := maint } := by
    rw [State.frozenAt, toAccount_unmasked hmasks, ← picturedRows, State.pictured, State.loaded]
    simp only [he]
    rfl
  exact exec_loadEnd_account hl hr (hu.trans hpictured) rfl hrx rfl

/-- A LOW that stands where the account leaves the part outside FROZEN (R175, R203). -/
theorem standingLow_pictured {account : Account} (hlow : s.pins.low = true) (h32 : c.t3 < c.t2) (h21 : c.t2 < c.t1) (h1 : 1 ≤ c.t3)
    (he : s.engine = .initial) (hrx : s.rx = .initial) (hcau : s.cau = .idle) (hq : s.relayQ = [])
    (hcomp : s.composer.state = .suspended) (hrun : account.running = true) (hres : account.reservation = none)
    (hs : account.stage ≠ .frozen) :
    standingLow { s.toAccount answer o c with account := account } =
      (s.frozenAt answer o c (min account.e (c.t3 - 1)) (s.count .lowEvents).maint).pictured := by
  let t : State := { s.toAccount answer o c with account := account }
  have hclamped : t.clamped.freezes = s.frozenAt answer o c (min account.e (c.t3 - 1)) (s.count .lowEvents).maint := by
    rw [State.frozenAt, ← hrun, ← hres]
    rfl
  rw [← hclamped, standingLow_asserted (s := t) hlow]
  exact takeLow_afterLoad (s := t) hrun rfl hs h32 h21 h1 hrx hcau hq hcomp rfl he

end

/-- Settles O18: the account by `accountAfterLoad_resumes` or `accountAfterLoad_freezes`, a LOW that stands by `takeLow_afterLoad` or
`takeLow_frozen`. -/
theorem loadEndResumesTheAccount : Obligations.LoadEndResumesTheAccount := by
  intro answer o c s hl hr hrx hcau ended old kept freezing
  refine ⟨fun hrun hres hlow hholds hf => ?resumes, fun hlow h32 h21 hcap h1 he hq hcomp hacc => ?low,
    fun hrun hres hs hf hholds he => ?again⟩
  case resumes =>
    intro masked
    have hresumes := accountAfterLoad_resumes (s := s.toAccount answer o c) hrx hcau hrun hholds hf
    rw [exec_loadEnd_account hl hr (hresumes.trans (standingLow_deasserted hlow)) rfl hrx hres]
    simp only [toAccount_masked]
    rfl
  case low =>
    have hpictured := fun (account : Account) => standingLow_pictured (account := account) (answer := answer) (o := o) hlow h32 h21 h1
      he hrx hcau hq hcomp
    rcases hacc with hacc | ⟨hrun, hres, hs, hholds⟩
    · have hmasks : masksKept s.account = false := masksKept_eq_false (.inl (by simp [hacc]))
      have hstarts := accountAfterLoad_starts (s := s.toAccount answer o c) hrx hcau h32 h21 hcap hacc
      have hrun : s.account.running = false := by rw [hacc]
      rw [exec_loadEnd_pictured hl hr hmasks he hrx (hstarts.trans (hpictured _ rfl rfl nofun)), hrun]
      rfl
    · have hmasks : masksKept s.account = false := masksKept_eq_false (.inl hs)
      have hresumes := accountAfterLoad_resumes (s := s.toAccount answer o c) hrx hcau hrun hholds fun h => hs h.1
      rw [exec_loadEnd_pictured hl hr hmasks he hrx (hresumes.trans (hpictured _ hrun hres hs)), hrun]
      rfl
  case again =>
    have hmasks : masksKept s.account = false := masksKept_eq_false (.inr (.inl hf))
    have hfreezes := accountAfterLoad_freezes (s := s.toAccount answer o c) hrx hcau hrun (hs ▸ hholds) hs hf
    have hat : withE (s.toAccount answer o c) kept = s.frozenAt answer o c kept s.maint := by
      rw [State.frozenAt, withE, ← hrun, ← hres, ← hs, ← hf]
      rfl
    rw [show min (s.toAccount answer o c).cfg.capacity (s.toAccount answer o c).account.e = kept from rfl, hat] at hfreezes
    refine ⟨fun hlow => ?deasserted, fun hlow _ _ h1 => ?asserted⟩
    case deasserted =>
      rw [standingLow_deasserted (s := s.frozenAt answer o c kept s.maint) hlow,
        select_pictured (s := s.frozenAt answer o c kept s.maint) rfl rfl he] at hfreezes
      rw [exec_loadEnd_pictured hl hr hmasks he hrx hfreezes]
      rfl
    case asserted =>
      have hlows := takeLow_frozen (s := s.frozenAt answer o c kept s.maint) rfl rfl h1 (receiverAgrees_stopped hrx hcau)
      rw [standingLow_asserted (s := s.frozenAt answer o c kept s.maint) hlow, hlows,
        select_pictured (s := (s.frozenAt answer o c kept s.maint).clamped) rfl rfl he] at hfreezes
      rw [exec_loadEnd_pictured (maint := (s.count .lowEvents).maint) hl hr hmasks he hrx hfreezes]
      rfl

end Sys2Proof.Machine
end

section
/-! A tick event (R74, R75): the timers, the receiver's debit (R16) with the gate that it can close (R32), and the whole second
boundary (R69, R101, R172). -/

namespace Sys2Proof.Machine

/-! ### The timers -/

/-- A tick's count and timers (R74, R116, R125, R131, R166, R203). -/
def State.timed (s : State) : State :=
  { s with
    clock := s.clock + 1
    startup := { s.startup with fillTimer := s.startup.fillTimer.map (· - 1) }
    ctl := { s.ctl with retry := s.ctl.retry.map (· - 1), interval := s.ctl.interval.map (· - 1) }
    monitor := { s.monitor with lockout := s.monitor.lockout.map (· - 1) }
    engine := { s.engine with reading := s.engine.reading.map (fun r =>
      { r with old := r.old || decide (480 ≤ (s.clock + 1 - r.tick).toInt) }) } }

theorem Reading.aged_eq (now : Tick) (r : Reading) : r.aged now = { r with old := r.old || decide (480 ≤ (now - r.tick).toInt) } := by
  by_cases h : 480 ≤ tickDiff now r.tick
  · rw [Reading.aged, if_pos h, show decide (480 ≤ (now - r.tick).toInt) = true from decide_eq_true h, Bool.or_true]
  · rw [Reading.aged, if_neg h, show decide (480 ≤ (now - r.tick).toInt) = false from decide_eq_false h, Bool.or_false]

theorem tickTimers_eq (s : State) : tickTimers (advanceClock s) = s.timed := by
  have haged : Reading.aged (s.clock + 1) = fun r => { r with old := r.old || decide (480 ≤ (s.clock + 1 - r.tick).toInt) } :=
    funext (Reading.aged_eq _)
  rw [State.timed, ← haged]
  rfl

/-- Whether the tick event that comes is a whole second boundary (R75). -/
abbrev AtBoundary (s : State) : Prop := (s.clock + 1).toNat % 8 = 0

section
variable {s : State}

/-- The state as a whole second boundary finds it, a sweep due (R69). -/
def State.timedDue (s : State) : State := { s.timed with sweepWaiting := true }

theorem isBoundary_iff {t : Tick} (h : t = s.clock + 1) : isBoundary t = true ↔ AtBoundary s := by
  rw [h]
  exact decide_eq_true_iff

theorem receiverDebit_clock (s : State) : (receiverDebit s).clock = s.clock := (receiverDebit_step s).clock

theorem tickEvent_active (ha : active s = true) : tickEvent s =
    if isBoundary (receiverDebit (fallDue s.timed)).clock then boundaryWork (receiverDebit (fallDue s.timed))
    else receiverDebit (fallDue s.timed) := by
  have hactive : active (advanceClock s) = true := ha
  simp only [tickEvent, hactive, if_true, tickTimers_eq]

theorem tickEvent_between (ha : active s = true) (hb : ¬ AtBoundary s) : tickEvent s = receiverDebit s.timed := by
  have hdue : fallDue s.timed = s.timed := if_neg (mt (isBoundary_iff rfl).1 hb)
  rw [tickEvent_active ha, hdue, if_neg (mt (isBoundary_iff (receiverDebit_clock s.timed)).1 hb)]

theorem tickEvent_boundary (ha : active s = true) (hb : AtBoundary s) :
    tickEvent s = boundaryWork (receiverDebit s.timedDue) := by
  have hdue : fallDue s.timed = s.timedDue := if_pos ((isBoundary_iff rfl).2 hb)
  rw [tickEvent_active ha, hdue, if_pos ((isBoundary_iff (receiverDebit_clock s.timedDue)).2 hb)]

/-! ### Debits that cross nothing -/

/-- What the receiver is charged at a tick (R16). -/
def charge (s : State) : Nat := if s.rx.state = .listen ∨ s.rx.state = .receiving then 1 else 0

theorem receiverDebit_quiet (hr : s.account.running = true) (hc : crossesNothing s (s.account.e - charge s) = true) :
    receiverDebit s = withE s (s.account.e - charge s) := by
  by_cases hp : s.rx.state = .listen ∨ s.rx.state = .receiving
  · rw [charge, if_pos hp] at hc ⊢
    exact (if_pos (powered_iff.2 hp)).trans (debit_quiet ctlStage 1 s hr hc)
  · rw [charge, if_neg hp]
    exact if_neg (mt powered_iff.1 hp)

theorem boundaryWork_quiet (ha : active s = true) (hr : s.account.running = true)
    (hc : crossesNothing s (s.account.e - 1) = true) : boundaryWork s = noticePass (withE s (s.account.e - 1)) := by
  have hactive : active (withE s (s.account.e - 1)) = true := ha
  simp only [boundaryWork, debit_quiet ctlStage 1 s hr hc, hactive, if_true]

theorem noticePass_none (h : s.composer.state ≠ .idle ∨ s.composer.recompose = false) : noticePass s = s :=
  if_neg (by rintro ⟨hi, hr⟩; rcases h with h | h <;> simp_all)

theorem noticePass_starts (hi : s.composer.state = .idle) (hr : s.composer.recompose = true) : noticePass s = startPass s :=
  if_pos ⟨hi, hr⟩

/-! ### A charge that closes the energy gate -/

/-- A change of E at which the stage holds moves the receiver alone (R16, R174). -/
theorem changeEnergy_holds (ctl : State → State) {e : Nat} (hr : s.account.running = true)
    (h : stageHolds s.cfg s.account.stage e = true) : changeEnergy ctl e s = receiverUpdate (withE s e) := by
  rw [changeEnergy_running hr]
  exact congrArg receiverUpdate (stageRules_holds ctl (s.setEnergy e) h)

theorem wantedOn_shutGate (h : gateOpen s = false) : wantedOn s = false := by simp [wantedOn, h]

/-- The tick of a listening receiver whose charge closes the gate: the receiver enters OFF, an attempt in progress abandoned (R32). -/
theorem receiverDebit_shuts (hr : s.account.running = true) (hl : s.rx.state = .listen)
    (h : stageHolds s.cfg s.account.stage (s.account.e - 1) = true) (hg : gateOpen (withE s (s.account.e - 1)) = false) :
    receiverDebit s = abandonAttempt ((withE s (s.account.e - 1)).setRx .off) := by
  have hdebit : receiverDebit s = changeEnergy ctlStage (s.account.e - 1) s := if_pos (powered_iff.2 (.inl hl))
  rw [hdebit, changeEnergy_holds ctlStage hr h, receiverUpdate_closes (s := withE s (s.account.e - 1)) hl (wantedOn_shutGate hg)]

/-- An attempt with a candidate is abandoned with it (R32). -/
theorem abandonAttempt_candidate {c : Candidate}
    (h : (s.cau = .sensing ∧ candidate? s = some c) ∨ ∃ ms : Nat, s.cau = .contending c ms) :
    abandonAttempt s = endAttempt (s.abandon c) := by
  rcases h with ⟨hcau, hc⟩ | ⟨ms, hcau⟩
  · simp only [abandonAttempt, hcau, hc]
  · simp only [abandonAttempt, hcau]

/-- With no other candidate and the gate closed the attempt ends with it. -/
theorem abandonAttempt_last {c : Candidate} (hoff : s.rx.state = .off) (hg : gateOpen s = false)
    (h : (s.cau = .sensing ∧ candidate? s = some c) ∨ ∃ ms : Nat, s.cau = .contending c ms)
    (hnone : candidate? (s.abandon c) = none) : abandonAttempt s = (s.abandon c).setCau .idle := by
  have hkept : ∀ {u : State}, u.rx = s.rx → u.account = s.account → u.cfg = s.cfg → receiverAgrees u = true := by
    intro u hrx hacc hcfg
    have hspendable : spendable u = spendable s := by rw [spendable, spendable, reserved, reserved, hacc, hcfg]
    have hshut : gateOpen u = false := (congrArg (fun q : Int => decide (1 ≤ q)) hspendable).trans hg
    simp [receiverAgrees, hrx, hoff, wantedOn_shutGate hshut]
  rw [abandonAttempt_candidate h, endAttempt_none hnone]
  cases c <;> exact hkept rfl rfl rfl

end

/-- Settles O20: the quiet tick by its debits, the closing of the gate by `abandonAttempt_last`, and the tick of a held part. -/
theorem tickTakesItsTurns : Obligations.TickTakesItsTurns := by
  refine ⟨fun s ha hr => ?working, fun s ha hrx => ?held⟩
  case working =>
    intro boundary ticked
    refine ⟨?quiet, ?shuts⟩
    case quiet =>
      intro charged e e' hc hc'
      refine ⟨fun hb => ?between, fun hb hcomp => ?sweeps, fun hb hidle hrecompose => ?starts⟩
      case between =>
        have he : e' = e := by simp only [e', hb, Bool.false_eq_true, if_false, Nat.sub_zero]
        have hdebit := receiverDebit_quiet (s := s.timed) hr hc
        rw [he]
        exact congrArg _ ((tickEvent_between ha (of_decide_eq_false hb)).trans hdebit)
      all_goals
        have he : e' = e - 1 := by simp only [e', hb, if_true]
        rw [he] at hc'
        have hdebit := receiverDebit_quiet (s := s.timedDue) hr hc
        have hwork := boundaryWork_quiet (s := withE s.timedDue e) ha hr hc'
        have hexec : exec .tick s = .next (noticePass (withE s.timedDue (e - 1))) :=
          congrArg _ ((tickEvent_boundary ha (of_decide_eq_true hb)).trans ((congrArg boundaryWork hdebit).trans hwork))
        rw [hexec, he]
      case sweeps => exact congrArg _ (noticePass_none (s := withE s.timedDue (e - 1)) hcomp)
      case starts =>
        rw [noticePass_starts (s := withE s.timedDue (e - 1)) hidle hrecompose, startPass_eq]
        rfl
    case shuts =>
      intro e off hb hl hholds hg
      have hbetween : ¬ AtBoundary s := of_decide_eq_false hb
      have hexec : exec .tick s = .next (abandonAttempt off) :=
        congrArg _ ((tickEvent_between ha hbetween).trans (receiverDebit_shuts (s := s.timed) hr hl hholds hg))
      rw [hexec]
      refine ⟨fun hcau => congrArg _ (abandonAttempt_idle hcau), fun x hq hreplies hcau => ?relay, fun r hreplies hcau hdue => ?reply⟩
      case relay =>
        have hcandidate : (off.cau = .sensing ∧ candidate? off = some (.relay x.origin x.seq)) ∨
            ∃ ms : Nat, off.cau = .contending (.relay x.origin x.seq) ms := by
          refine hcau.imp_left fun ⟨hsensing, hdue⟩ => ⟨hsensing, candidate_relay (s := off) hreplies ?_⟩
          rw [show off.relayQ = [x] from hq]
          exact List.find?_cons_of_pos (decide_eq_true hdue)
        have hempty : s.relayQ.filter (fun y => !y.hasKey x.origin x.seq) = [] := by simp [hq, RelayEntry.hasKey]
        have hnone : candidate? (off.abandon (.relay x.origin x.seq)) = none :=
          candidate_eq_none.2 ⟨hreplies, fun y hy => by
            have hmem : y ∈ s.relayQ.filter (fun y => !y.hasKey x.origin x.seq) := hy
            simp [hempty] at hmem⟩
        rw [abandonAttempt_last (s := off) rfl hg hcandidate hnone, ← hempty]
        rfl
      case reply =>
        have hcandidate : (off.cau = .sensing ∧ candidate? off = some .reply) ∨ ∃ ms : Nat, off.cau = .contending .reply ms :=
          hcau.imp_left fun hsensing => ⟨hsensing, candidate_reply (s := off) hreplies⟩
        have hdropped : s.maint.replies.drop 1 = [] := by simp [hreplies]
        have hnone : candidate? (off.abandon .reply) = none := candidate_eq_none.2 ⟨hdropped, hdue⟩
        rw [abandonAttempt_last (s := off) rfl hg hcandidate hnone, ← hdropped]
        rfl
  case held =>
    have hunpowered : powered (advanceClock s) = false := by
      rw [← Bool.not_eq_true, powered_iff]
      rcases hrx with h | h <;> simp [advanceClock, h]
    have hactive : active (advanceClock s) = false := ha
    have htick : tickEvent s = if isBoundary (s.clock + 1) then boundaryWork (advanceClock s) else advanceClock s := by
      simp only [tickEvent, hactive, receiverDebit, hunpowered, Bool.false_eq_true, if_false]
      rfl
    have hwork : ∀ u : State, AtBoundary s → debit ctlStage 1 (advanceClock s) = u → active u = false → exec .tick s = .next u := by
      intro u hb hu hau
      rw [exec_tick, htick, if_pos ((isBoundary_iff rfl).2 hb)]
      simp only [boundaryWork, hu, hau, Bool.false_eq_true, if_false]
    refine ⟨fun hb => congrArg _ (htick.trans (if_neg ?between)),
      fun hb hr => hwork (advanceClock s) hb (changeEnergy_stopped ctlStage _ (advanceClock s) hr) ha,
      fun hb hr hc => hwork (withE (advanceClock s) (s.account.e - 1)) hb (debit_quiet ctlStage 1 (advanceClock s) hr hc) ha⟩
    exact mt (isBoundary_iff rfl).1 hb

end Sys2Proof.Machine
end

section
/-! The stage rules (R180 to R183): the stage that rises reach, and what one stage change does in a part whose engine is not IDLE,
at a HARVEST pulse and at a tick. -/

namespace Sys2Proof.Machine

/-! ### Where the rises end -/

/-- The stage that at most `k` rises reach from a stage (R182). -/
def risenFrom (c : Cfg) (e : Nat) : Nat → Stage → Stage
  | 0, st => st
  | k + 1, st =>
    match riseOf c st e with
    | some up => risenFrom c e k up
    | none => st

section
variable {c : Cfg} {e : Nat}

theorem risenFrom_full (k : Nat) : risenFrom c e k .full = .full := by cases k <;> rfl

theorem risenFrom_thrift (k : Nat) : risenFrom c e (k + 1) .thrift = if c.t1 + c.h ≤ e then .full else .thrift := by
  by_cases h : c.t1 + c.h ≤ e
  · simp [risenFrom, riseOf, h, risenFrom_full]
  · simp [risenFrom, riseOf, h]

theorem risenFrom_scant (h21 : c.t2 < c.t1) (k : Nat) : risenFrom c e (k + 2) .scant =
    if c.t1 + c.h ≤ e then .full else if c.t2 + c.h ≤ e then .thrift else .scant := by
  by_cases h : c.t2 + c.h ≤ e
  · rw [risenFrom, riseOf, if_pos h, if_pos h]
    exact risenFrom_thrift k
  · rw [risenFrom, riseOf, if_neg h, if_neg h, if_neg (by omega)]

theorem risenFrom_frozen (h32 : c.t3 < c.t2) (h21 : c.t2 < c.t1) (k : Nat) : risenFrom c e (k + 3) .frozen =
    if c.t1 + c.h ≤ e then .full else if c.t2 + c.h ≤ e then .thrift else if c.t3 + c.h ≤ e then .scant else .frozen := by
  by_cases h : c.t3 + c.h ≤ e
  · rw [risenFrom, riseOf, if_pos h, if_pos h]
    exact risenFrom_scant h21 k
  · rw [risenFrom, riseOf, if_neg h, if_neg h, if_neg (by omega), if_neg (by omega)]

theorem stageRises_stage (ctl : State → State) (k : Nat) {s : State} (h : active s = false) :
    (stageRises ctl k s).account.stage = risenFrom s.cfg s.account.e k s.account.stage := by
  induction k generalizing s with
  | zero => rfl
  | succ k ih =>
    cases hrise : riseOf s.cfg s.account.stage s.account.e with
    | none => simp only [stageRises, risenFrom, hrise]
    | some up =>
      have hheld : stageChange ctl up s = s.staged up := stageChange_held ctl up h
      simp only [stageRises, risenFrom, hrise, hheld]
      exact ih (s := s.staged up) h

/-- The stage of a held part after the rules, in the order of its thresholds. -/
theorem stageRules_stage (ctl : State → State) {s : State} (h : active s = false) (h32 : s.cfg.t3 < s.cfg.t2)
    (h21 : s.cfg.t2 < s.cfg.t1) (hb : stageRank s.account.stage ≤ stageRank (bandOfEnergy s.cfg s.account.e)) :
    (stageRules ctl s).account.stage =
      if s.account.stage = .full ∨ s.cfg.t1 + s.cfg.h ≤ s.account.e then .full
      else if s.account.stage = .thrift ∨ s.cfg.t2 + s.cfg.h ≤ s.account.e then .thrift
      else if s.account.stage = .scant ∨ s.cfg.t3 + s.cfg.h ≤ s.account.e then .scant
      else .frozen := by
  have hrises : stageRules ctl s = stageRises ctl 3 s := if_neg (Nat.not_lt.2 hb)
  rw [hrises, stageRises_stage ctl 3 h]
  cases hs : s.account.stage with
  | full => simp [risenFrom_full]
  | thrift => simp [risenFrom_thrift 2]
  | scant => simp [risenFrom_scant h21 1]
  | frozen => simp [risenFrom_frozen h32 h21 0]

end

/-! ### One stage change with a refresh in service or a lockout -/

/-- What a stage change outside FROZEN does at the composer (R102): an IDLE one starts a pass, one in a pass is due another. -/
def State.noticed (s : State) : State :=
  match s.composer.state with
  | .idle => startPass s
  | .passing => { s with composer := { s.composer with passDue := true } }
  | .suspended => s

section
variable {s : State} {new : Stage}

theorem composerStage_noticed {old : Stage} (ho : old ≠ .frozen) (hn : new ≠ .frozen) : composerStage old new s = s.noticed := by
  cases new with
  | frozen => exact absurd rfl hn
  | full | thrift | scant => cases h : s.composer.state <;> simp [composerStage, State.noticed, h, ho]

theorem freezeStage_outside {old : Stage} (ho : old ≠ .frozen) (hn : new ≠ .frozen) : freezeStage old new s = s :=
  (if_neg hn).trans (if_neg ho)

/-- The composer's part reaches the table, its lock and the sweep besides. -/
theorem noticed_only (s : State) : ∃ (table : List DepEntry) (waiting : Bool) (lock : Lock) (composer : Composer),
    s.noticed = { s with table := table, sweepWaiting := waiting, lock := lock, composer := composer } := by
  unfold State.noticed
  split
  · rw [startPass_eq]
    exact ⟨_, _, _, _, rfl⟩
  · exact ⟨_, _, _, _, rfl⟩
  · exact ⟨_, _, _, _, rfl⟩

theorem noticed_cfg (s : State) : s.noticed.cfg = s.cfg := by
  obtain ⟨_, _, _, _, h⟩ := noticed_only s
  rw [h]

theorem noticed_account (s : State) : s.noticed.account = s.account := by
  obtain ⟨_, _, _, _, h⟩ := noticed_only s
  rw [h]

theorem noticed_engine (s : State) : s.noticed.engine = s.engine := by
  obtain ⟨_, _, _, _, h⟩ := noticed_only s
  rw [h]

theorem noticed_ctl (s : State) : s.noticed.ctl = s.ctl := by
  obtain ⟨_, _, _, _, h⟩ := noticed_only s
  rw [h]

theorem ctlStage_busy (h : s.engine.state ≠ .idle) : ctlStage s = { s with ctl := s.ctl.released } :=
  ctlStage_nothing (nothingToSelect_iff.2 (.inl h))

/-- The composer's part and the controller's release do not meet. -/
theorem noticed_released (s : State) :
    ({ s with ctl := s.ctl.released } : State).noticed = { s.noticed with ctl := s.ctl.released } := by
  cases h : s.composer.state <;> simp [State.noticed, h, startPass_eq]

theorem windowStage_eq (new : Stage) (s : State) : windowStage new s = { s with rx := { s.rx with
    window := if new = .full ∧ s.rx.window.running = true then ⟨true, s.clock, .full, true⟩ else s.rx.window } } := by
  cases new with
  | full => cases h : s.rx.window.running <;> simp [windowStage, h]
  | thrift | scant | frozen => rfl

/-- A stage change between the stages outside FROZEN, once the relay queue has taken it (R102, R126). -/
theorem stageChange_outside {u : State} (ha : active s = true) (ho : s.account.stage ≠ .frozen) (hn : new ≠ .frozen)
    (hu : relayStage s.account.stage new (windowStage new (s.staged new)) = u) (hb : u.engine.state ≠ .idle) :
    stageChange ctlStage new s = ({ u with ctl := u.ctl.released } : State).noticed := by
  have hbusy : u.noticed.engine.state ≠ .idle := by
    rw [noticed_engine]
    exact hb
  rw [stageChange_active _ _ ha, hu, composerStage_noticed ho hn, freezeStage_outside ho hn, ctlStage_busy hbusy, noticed_released,
    noticed_ctl]

theorem staged_outside (ho : s.account.stage ≠ .frozen) (hn : new ≠ .frozen) :
    s.staged new = { s with account := { s.account with stage := new } } := by
  rw [State.staged, freezeAfter, if_neg hn, if_neg ho]

/-- A rise between the stages outside FROZEN (R15, R102, R126). -/
theorem stageChange_rises (ha : active s = true) (ho : s.account.stage ≠ .frozen) (hn : new ≠ .frozen)
    (hrank : stageRank s.account.stage ≤ stageRank new) (hb : s.engine.state ≠ .idle) :
    stageChange ctlStage new s = ({ s with
      rx := { s.rx with
        window := if new = .full ∧ s.rx.window.running = true then ⟨true, s.clock, .full, true⟩ else s.rx.window }
      account := { s.account with stage := new }
      ctl := s.ctl.released } : State).noticed := by
  have hbusy : (windowStage new (s.staged new)).engine.state ≠ .idle := by
    rw [windowStage_eq]
    exact hb
  rw [stageChange_outside ha ho hn (relayStage_kept (.inl hrank)) hbusy, windowStage_eq, staged_outside ho hn]

/-- A fall between the stages outside FROZEN, once the relay queue has taken it. -/
theorem stageChange_lowers {u : State} (ha : active s = true) (ho : s.account.stage ≠ .frozen) (hn : new ≠ .frozen)
    (hfull : new ≠ .full) (hu : relayStage s.account.stage new { s with account := { s.account with stage := new } } = u)
    (hb : u.engine.state ≠ .idle) : stageChange ctlStage new s = ({ u with ctl := u.ctl.released } : State).noticed := by
  refine stageChange_outside ha ho hn ?_ hb
  rw [windowStage_eq, staged_outside ho hn, if_neg (fun h => hfull h.1)]
  exact hu

/-! ### The receiver and the composer's part -/

theorem noticed_rx (s : State) : s.noticed.rx = s.rx := by
  obtain ⟨_, _, _, _, h⟩ := noticed_only s
  rw [h]

theorem wantedOn_noticed (s : State) : wantedOn s.noticed = wantedOn s := by
  obtain ⟨_, _, _, _, h⟩ := noticed_only s
  rw [h]
  rfl

theorem receiverUpdate_noticed_agrees (h : receiverAgrees s = true) : receiverUpdate s.noticed = s.noticed := by
  refine receiverUpdate_agrees _ ?_
  rwa [receiverAgrees_iff, noticed_rx, wantedOn_noticed, ← receiverAgrees_iff]

theorem receiverUpdate_noticed_opens (hoff : s.rx.state = .off) (hw : wantedOn s = true) :
    receiverUpdate s.noticed = s.listening.noticed := by
  have hoff' : s.noticed.rx.state = .off := by rw [noticed_rx, hoff]
  rw [receiverUpdate_opens hoff' ((wantedOn_noticed s).trans hw)]
  cases h : s.composer.state <;> simp [State.noticed, State.listening, h, startPass_eq]

/-- The composer's part, written out (R102, R103). -/
theorem noticed_eq (s : State) : s.noticed = match s.composer.state with
    | .idle => { s with
        table := if s.sweepWaiting then sweptTable s.clock s.table else s.table
        sweepWaiting := false
        lock := .held
        composer := ⟨.passing, false, some (s.clock + BitVec.ofNat 32 (periodTicks s.cfg s.account.stage)), false,
          some ⟨s.clock, s.account.stage, s.wall, s.composer.clearArmed⟩, false, false⟩ }
    | .passing => { s with composer := { s.composer with passDue := true } }
    | .suspended => s := by
  rw [State.noticed, startPass_eq]

end

/-! ### The leaving of FROZEN -/

theorem setMasks_false (s : State) : s.setMasks false = { s with
    rows := s.rows.mapIdx (fun r row => { row with mask := if r < s.cfg.n then false else row.mask }) } := by
  have hrow : (fun (r : Nat) (row : Row) => if r < s.cfg.n then { row with mask := false } else row) =
      fun r row => { row with mask := if r < s.cfg.n then false else row.mask } := by
    funext r row
    split <;> rfl
  rw [State.setMasks, hrow]

theorem discardFreeze_eq (s : State) : discardFreeze s =
    s.setClearItem (if s.ctl.clearItem = some .freeze then none else s.ctl.clearItem) := by
  unfold discardFreeze
  split <;> rfl

/-- The freeze ended: the masks cleared, a FREEZE request discarded and a HELD controller released (R124, R126, R188). -/
def State.thawed (s : State) : State :=
  { s with
    rows := s.rows.mapIdx (fun r row => { row with mask := if r < s.cfg.n then false else row.mask })
    ctl := { s.ctl.released with clearItem := if s.ctl.clearItem = some .freeze then none else s.ctl.clearItem } }

section
variable {s : State}

/-- The pass that the leaving of FROZEN arms (R109). -/
def State.armed (s : State) : State := { s with composer := { s.composer with clearArmed := true } }

theorem composerStage_thaws_passing (h : s.composer.state = .passing) :
    composerStage .frozen .scant s = { s.armed with composer := { s.armed.composer with passDue := true } } := by
  simp [composerStage, State.armed, h]

theorem composerStage_thaws_serving (h : s.composer.state = .suspended) (hs : s.startup.state = .service) :
    composerStage .frozen .scant s = startPass s.armed := by
  simp [composerStage, State.armed, h, filling, hs]

theorem composerStage_thaws_filling (h : s.composer.state = .suspended) (hs : s.startup.state = .fill) :
    composerStage .frozen .scant s = s.armed := by
  simp [composerStage, State.armed, h, filling, hs]

/-- The stage change out of FROZEN, once the composer has taken it. -/
theorem stageChange_thaws {u : State} (ha : active s = true) (hs : s.account.stage = .frozen)
    (hu : composerStage .frozen .scant (s.staged .scant) = u) (hb : u.engine.state ≠ .idle) :
    stageChange ctlStage .scant s = u.thawed := by
  have hrelays : relayStage .frozen .scant (windowStage .scant (s.staged .scant)) = s.staged .scant :=
    relayStage_kept (.inl (by decide))
  have hfreeze : freezeStage .frozen .scant u = discardFreeze (u.setMasks false) := rfl
  rw [stageChange_active _ _ ha, hs, hrelays, hu, hfreeze, discardFreeze_eq, setMasks_false, ctlStage_busy (by exact hb)]
  rw [State.thawed, ← Controller.released_withItem]
  rfl

end

/-! ### The fall to FROZEN, with a pass in progress and without -/

theorem fallen_passing {s : State} {seen : List SeenEntry} {counters : Counters} (h : s.composer.state = .passing) :
    s.fallen seen counters = { (s.staged .frozen).relaysDropped seen counters with
      ctl := { s.ctl with clearItem := some .freeze } } := by
  simp only [State.fallen, if_pos h, mapIdx_self]
  rfl

theorem fallen_stops {s : State} {seen : List SeenEntry} {counters : Counters} (h : s.composer.state ≠ .passing) :
    s.fallen seen counters = { (s.staged .frozen).relaysDropped seen counters with
      rows := s.rows.mapIdx (fun r row => { row with desired := freezeContent s.cfg.n r })
      composer := { s.composer with state := .suspended }
      ctl := { s.ctl with clearItem := some .freeze } } := by
  simp only [State.fallen, if_neg h]

/-! ### The two commands -/

theorem two_le_bandRank {c : Cfg} {e : Nat} (h : c.t2 ≤ e) : 2 ≤ stageRank (bandOfEnergy c e) := by
  unfold bandOfEnergy
  split_ifs <;> decide

theorem bandOfEnergy_full {c : Cfg} {e : Nat} (h : c.t1 ≤ e) : bandOfEnergy c e = .full := if_pos h

section
variable {s t : State} {new : Stage}

/-- A credit at which the stage rises by one (R171, R182). -/
theorem exec_harvestPulse_rises (hr : s.account.running = true) {e : Nat} (he : min s.cfg.capacity (s.account.e + 64) = e)
    (hband : stageRank s.account.stage ≤ stageRank (bandOfEnergy s.cfg e)) (hrise : riseOf s.cfg s.account.stage e = some new)
    (ht : stageChange ctlStage new (withE s e) = t) (hend : riseOf t.cfg t.account.stage t.account.e = none) :
    exec .harvestPulse s = .next (receiverUpdate t) := by
  have hmoves : stageHolds s.cfg s.account.stage e = false := by simp [stageHolds, hrise]
  have hcredit : credit ctlStage 64 s = receiverUpdate t := by
    rw [credit, he, changeEnergy_running hr]
    exact congrArg receiverUpdate (stageRules_rises (s := withE s e) hband hrise ht hend)
  have hharvest : harvest s = credit ctlStage 64 s := if_neg (by simp [he, hmoves])
  rw [← hcredit, ← hharvest]
  exact if_pos hr

/-- A receiver's charge at which the stage falls (R16, R181). -/
theorem exec_tick_falls (ha : active s = true) (hr : s.account.running = true) (hb : ¬ AtBoundary s) (hl : s.rx.state = .listen)
    (hband : bandOfEnergy s.cfg (s.account.e - 1) = new) (hfall : stageRank new < stageRank s.account.stage) :
    exec .tick s = .next (receiverUpdate (stageChange ctlStage new (withE s.timed (s.account.e - 1)))) := by
  have hdebit : receiverDebit s.timed = changeEnergy ctlStage (s.account.e - 1) s.timed := if_pos (powered_iff.2 (.inl hl))
  have hrules := stageRules_falls (s := withE s.timed (s.account.e - 1)) (ctl := ctlStage) hband hfall
  rw [exec_tick, tickEvent_between ha hb, hdebit, changeEnergy_running (by exact hr), ← hrules]
  rfl

/-- The state in which the stage change out of FROZEN finds the composer (R188). -/
def State.thawing (e : Nat) (s : State) : State :=
  { s with account := { s.account with e := e, stage := .scant, freeze := .none } }

/-- A credit that ends the freeze (R109, R124, R126, R188), once the composer has taken the stage change. -/
theorem exec_harvestPulse_thaws {u : State} {e : Nat} (ha : active s = true) (hr : s.account.running = true)
    (hs : s.account.stage = .frozen) (he : min s.cfg.capacity (s.account.e + 64) = e) (hlo : s.cfg.t3 + s.cfg.h ≤ e)
    (hhi : e < s.cfg.t2 + s.cfg.h) (hu : composerStage .frozen .scant (s.thawing e) = u) (hb : u.engine.state ≠ .idle)
    (hcfg : u.cfg = s.cfg) (hacc : u.account = (s.thawing e).account) (hagrees : receiverAgrees u.thawed = true) :
    exec .harvestPulse s = .next u.thawed := by
  have hstaged : (withE s e).staged .scant = s.thawing e := by
    rw [State.staged, show (withE s e).account.stage = .frozen from hs]
    rfl
  have hchange : stageChange ctlStage .scant (withE s e) = u.thawed :=
    stageChange_thaws (s := withE s e) ha hs (by rw [hstaged, hu]) hb
  have hrise : riseOf s.cfg s.account.stage e = some .scant := by
    rw [hs]
    exact if_pos hlo
  have hend : riseOf u.cfg u.account.stage u.account.e = none := by
    rw [hcfg, hacc]
    exact if_neg (Nat.not_le.2 hhi)
  have hband : stageRank s.account.stage ≤ stageRank (bandOfEnergy s.cfg e) := by
    rw [hs]
    exact Nat.zero_le _
  rw [exec_harvestPulse_rises hr he hband hrise hchange hend, receiverUpdate_agrees _ hagrees]

/-- A listening receiver whose window is on agrees while the gate stays open (R13, R16). -/
theorem receiverAgrees_gate {e : Nat} (hl : s.rx.state = .listen) (hon : s.rx.window.on = true) (hg : gateOpen (withE s e) = true)
    (ht : active t = true) (hrx : t.rx = s.rx) (he : t.account.e = e) (hres : t.account.reservation = s.account.reservation)
    (hcfg : t.cfg = s.cfg) : receiverAgrees t = true := by
  have hspendable : spendable t = spendable (withE s e) := by
    rw [spendable, spendable, reserved, reserved, he, hres, hcfg]
    rfl
  have hopen : gateOpen t = true := (congrArg (fun q : Int => decide (1 ≤ q)) hspendable).trans hg
  exact receiverAgrees_listens (by rw [hrx, hl]) (wantedOn_iff.2 ⟨ht, .inl (by rw [hrx, hon]), hopen⟩)

/-- The account after a receiver's charge at which the stage falls, before its neighbours. -/
def State.lowered (new : Stage) (e : Nat) (s : State) : State :=
  { s.timed with account := { s.account with e := e, stage := new } }

/-- A tick at which the stage falls but not to FROZEN, once the relay queue has taken it (R46, R102, R126, R181). -/
theorem exec_tick_lowers {u : State} {e : Nat} (ha : active s = true) (hr : s.account.running = true) (hb : ¬ AtBoundary s)
    (hl : s.rx.state = .listen) (hon : s.rx.window.on = true) (he : s.account.e - 1 = e) (hg : gateOpen (withE s e) = true)
    (ho : s.account.stage ≠ .frozen) (hn : new ≠ .frozen) (hband : bandOfEnergy s.cfg e = new)
    (hfall : stageRank new < stageRank s.account.stage) (hu : relayStage s.account.stage new (s.lowered new e) = u)
    (hbusy : u.engine.state ≠ .idle) (hrx : u.rx = s.rx) (hact : active u = true) (hacc : u.account = (s.lowered new e).account)
    (hcfg : u.cfg = s.cfg) : exec .tick s = .next ({ u with ctl := u.ctl.released } : State).noticed := by
  have hfull : new ≠ .full := by
    rintro rfl
    cases h : s.account.stage <;> simp [h, stageRank] at hfall
  have hres : u.account.reservation = s.account.reservation := by rw [hacc]; rfl
  have hagrees : receiverAgrees { u with ctl := u.ctl.released } = true :=
    receiverAgrees_gate hl hon hg hact hrx (congrArg Account.e hacc) hres hcfg
  rw [exec_tick_falls ha hr hb hl (by rw [he]; exact hband) hfall, he,
    stageChange_lowers (s := withE s.timed e) ha ho hn hfull hu hbusy, receiverUpdate_noticed_agrees hagrees]

/-- A tick at which the stage falls to FROZEN (R46, R108, R117, R185). -/
theorem exec_tick_freezes {e : Nat} (ha : active s = true) (hr : s.account.running = true) (hb : ¬ AtBoundary s)
    (hl : s.rx.state = .listen) (hon : s.rx.window.on = true) (he : s.account.e - 1 = e) (hg : gateOpen (withE s e) = true)
    (ho : s.account.stage ≠ .frozen) (hband : bandOfEnergy s.cfg e = .frozen) (hcau : OnlyRelays s) (hc : CountersInRange s)
    (hbusy : s.engine.state ≠ .idle) : exec .tick s = .next { (withE s.timed e).fallen (markAbandoned s.relayQ s.seen)
        (s.maint.counters.relaysDropped s.relayQ.length) with
      ctl := { s.timed.ctl.released with clearItem := some .freeze } } := by
  have hidle : receiverAgrees ((withE s.timed e).setCau .idle) = true := receiverAgrees_gate hl hon hg ha rfl rfl rfl rfl
  have hchange := stageChange_frozen ctlStage (s := withE s.timed e) ha ho
    (dropsRelays_inRange (s := (withE s.timed e).staged .frozen) hc) hcau hidle
  rw [exec_tick_falls ha hr hb hl (by rw [he]; exact hband) (frozen_lt ho), he, hchange,
    ctlStage_fallen_busy (s := withE s.timed e) hbusy]
  exact congrArg _ (receiverUpdate_agrees _ hidle)

end

/-- Settles O48: the held part by `stageRules_stage`, one rise by `stageChange_outside` and `stageChange_thaws`, one fall by
`relayStage_falls` and `stageChange_frozen`. -/
theorem stageFollowsTheEstimate : Obligations.StageFollowsTheEstimate := by
  refine ⟨fun ctl s ha h32 h21 => ?held, fun s new ha hr hb h32 h21 => ?working⟩
  case held =>
    intro e c t
    refine ⟨fun h => ?_, stageRules_stage ctl ha h32 h21⟩
    simp only [t]
    rw [stageRules_falls rfl h, stageChange_held ctl _ ha]
  case working =>
    intro started released
    refine ⟨?rises, ?falls⟩
    case rises =>
      intro e up
      refine ⟨fun h => ?between, fun hs hnew hlo hhi hagrees => ?thaws⟩
      case between =>
        intro window v after
        have hstages : s.account.stage ≠ .frozen ∧ new ≠ .frozen ∧ stageRank s.account.stage ≤ stageRank new ∧
            stageRank s.account.stage ≤ stageRank (bandOfEnergy s.cfg e) ∧ riseOf s.cfg s.account.stage e = some new ∧
            riseOf s.cfg new e = none := by
          rcases h with ⟨hs, hnew, hlo⟩ | ⟨hs, hnew, hlo, hhi⟩
          · rw [hs, hnew, bandOfEnergy_full (by omega)]
            exact ⟨by decide, by decide, by decide, by decide, if_pos hlo, rfl⟩
          · rw [hs, hnew]
            exact ⟨by decide, by decide, by decide, le_trans (by decide) (two_le_bandRank (by omega)), if_pos hlo,
              if_neg (by omega)⟩
        obtain ⟨ho, hn, hrank, hband, hrise, hend⟩ := hstages
        have hchange : stageChange ctlStage new (withE s e) = v.noticed := stageChange_rises (s := withE s e) ha ho hn hrank hb
        have hexec : exec .harvestPulse s = .next (receiverUpdate v.noticed) := by
          refine exec_harvestPulse_rises hr rfl hband hrise hchange ?_
          rw [noticed_cfg, noticed_account]
          exact hend
        rw [hexec]
        refine ⟨fun hagrees => congrArg _ ?agrees, fun hoff hw _ => congrArg _ ?opens⟩
        case agrees => exact (receiverUpdate_noticed_agrees hagrees).trans (noticed_eq v)
        case opens => exact (receiverUpdate_noticed_opens (s := v) hoff hw).trans (noticed_eq v.listening)
      case thaws =>
        subst hnew
        intro v
        refine ⟨fun hcomp hservice => ?serves, fun hcomp hfill => ?fills, fun hcomp => ?passes⟩
        case serves =>
          have hu := composerStage_thaws_serving (s := s.thawing e) hcomp hservice
          rw [startPass_eq] at hu
          exact exec_harvestPulse_thaws ha hr hs rfl hlo hhi hu hb rfl rfl hagrees
        case fills =>
          exact exec_harvestPulse_thaws ha hr hs rfl hlo hhi (composerStage_thaws_filling (s := s.thawing e) hcomp hfill) hb rfl rfl
            hagrees
        case passes =>
          exact exec_harvestPulse_thaws ha hr hs rfl hlo hhi (composerStage_thaws_passing (s := s.thawing e) hcomp) hb rfl rfl hagrees
    case falls =>
      intro hbetween hl hon e hgate hcau hcount u dropped staged after
      refine ⟨fun hs hnew hlo hhi => ?thrift, fun hs hnew hlo hhi => ?scant, fun hs hnew hhi => ?frozen⟩
      all_goals subst hnew
      case thrift =>
        have hrelays : relayStage s.account.stage .thrift (s.lowered .thrift e) = s.lowered .thrift e :=
          relayStage_kept (.inr (by decide))
        have hexec := exec_tick_lowers ha hr hbetween hl hon rfl hgate (by rw [hs]; decide) (by decide) (bandOfEnergy_thrift hlo hhi)
          (by rw [hs]; decide) hrelays hb rfl ha rfl rfl
        exact hexec.trans (congrArg _ (noticed_eq _))
      case scant =>
        have hfall : s.account.stage ≠ .frozen ∧ stageRank .scant < stageRank s.account.stage := by
          rcases hs with hs | hs <;> rw [hs] <;> decide
        have hagrees : receiverAgrees ((s.lowered .scant e).setCau .idle) = true :=
          receiverAgrees_gate hl hon hgate ha rfl rfl rfl rfl
        have hrelays := relayStage_falls hfall.2 (by decide) (dropsRelays_inRange (s := s.lowered .scant e) hcount) hcau hagrees
        have hexec := exec_tick_lowers ha hr hbetween hl hon rfl hgate hfall.1 (by decide) (bandOfEnergy_scant (le_of_lt h21) hlo hhi)
          hfall.2 hrelays hb rfl ha rfl rfl
        exact hexec.trans (congrArg _ (noticed_eq _))
      case frozen =>
        intro v content
        have hexec := exec_tick_freezes ha hr hbetween hl hon rfl hgate hs (bandOfEnergy_frozen (le_of_lt h32) (le_of_lt h21) hhi) hcau
          hcount hb
        refine ⟨fun hcomp => hexec.trans (congrArg _ ?idle), fun hcomp => hexec.trans (congrArg _ ?passing),
          fun hcomp => hexec.trans (congrArg _ ?suspended)⟩
        case idle =>
          rw [fallen_stops (s := withE s.timed e) (ne_of_eq_of_ne hcomp (by decide))]
          rfl
        case passing =>
          rw [fallen_passing (s := withE s.timed e) hcomp]
          rfl
        case suspended =>
          have hcomposer : ({ s.composer with state := .suspended } : Composer) = s.composer := by rw [← hcomp]
          rw [fallen_stops (s := withE s.timed e) (ne_of_eq_of_ne hcomp (by decide)),
            show ({ (withE s.timed e).composer with state := .suspended } : Composer) = s.composer from hcomposer]
          rfl

end Sys2Proof.Machine
end

section
/-! The composer's signal of the wall reference (R83) passes a dispatch by: neither the application of a frame nor the relay decision
nor the arbiter reads it. -/

namespace Sys2Proof.Machine

/-! ### The channel access unit -/

/-- An operation that neither reads nor moves the composer's signal. -/
def KeepsSignal (f : State → State) : Prop := ∀ (b : Bool) (s : State), f (s.withSignal b) = (f s).withSignal b

theorem KeepsSignal.comp {f g : State → State} (hg : KeepsSignal g) (hf : KeepsSignal f) : KeepsSignal fun s => g (f s) :=
  fun b s => (congrArg g (hf b s)).trans (hg b (f s))

theorem withSignal_self (s : State) : s.withSignal s.composer.wallSignal = s := rfl

theorem keepsSignal_setCau (u : CauState) : KeepsSignal (State.setCau u) := fun _ _ => rfl

theorem keepsSignal_takeBuffer (id : BufId) : KeepsSignal (State.takeBuffer id) := by
  intro b s
  rw [takeBuffer_eq, takeBuffer_eq]
  rfl

theorem keepsSignal_receiverFollow : KeepsSignal receiverFollow := by
  intro b s
  have hw : wantedOn (s.withSignal b) = wantedOn s := rfl
  have hrx : (s.withSignal b).rx.state = s.rx.state := rfl
  cases hs : s.rx.state with
  | off => cases h : wantedOn s <;> simp only [receiverFollow, hrx, hs, hw, h] <;> rfl
  | listen => cases h : wantedOn s <;> simp only [receiverFollow, hrx, hs, hw, h] <;> rfl
  | receiving | transmitting => simp only [receiverFollow, hrx, hs]

theorem keepsSignal_cutReception : KeepsSignal cutReception := by
  intro b s
  have hdiscard : ∀ target : RxTarget, (s.withSignal b).discardCut target = (s.discardCut target).withSignal b
    | .buffer .a | .buffer .b | .overrun => rfl
  have hrx : (s.withSignal b).rx.reception = s.rx.reception := rfl
  cases hr : s.rx.reception with
  | none | skip left => simp only [cutReception, hrx, hr]; rfl
  | length target | body target left => simp only [cutReception, hrx, hr, hdiscard]; rfl

section
variable (c : Candidate)

theorem keepsSignal_abandon : KeepsSignal (State.abandon c) := by cases c <;> exact fun _ _ => rfl

theorem keepsSignal_send : KeepsSignal (State.send c) := by
  intro b s
  have hcut := keepsSignal_cutReception b s
  cases c with
  | reply => exact congrArg (fun u : State => { u.setRx .transmitting with
      cau := .sending (candidateFrame s .reply) false, maint := { u.maint with replies := u.maint.replies.drop 1 } }) hcut
  | relay o q => exact congrArg (fun u : State => { (u.setRx .transmitting).removeRelay o q .relayed with
      cau := .sending (candidateFrame s (.relay o q)) true }) hcut

theorem keepsSignal_energyCheck : KeepsSignal (energyCheck c) := by
  intro b s
  by_cases h : ((candidateFrame s c).length : Int) ≤ spendable s
  · have h' : ((candidateFrame (s.withSignal b) c).length : Int) ≤ spendable (s.withSignal b) := by cases c <;> exact h
    rw [energyCheck_pays h, energyCheck_pays h']
    exact keepsSignal_send c b s
  · have h' : spendable (s.withSignal b) < ((candidateFrame (s.withSignal b) c).length : Int) := by cases c <;> exact not_le.1 h
    rw [energyCheck_refuses (not_le.1 h), energyCheck_refuses h']
    exact (keepsSignal_setCau .idle).comp (keepsSignal_abandon c) b s

theorem keepsSignal_contentionDraw : KeepsSignal (contentionDraw c) := by
  intro b s
  by_cases h : (lfsrDraw s.rng).toNat % 64 = 0
  · rw [contentionDraw_ends h, contentionDraw_ends (s := s.withSignal b) h]
    exact keepsSignal_energyCheck c b (s.contends c)
  · rw [contentionDraw_waits h, contentionDraw_waits (s := s.withSignal b) h]
    rfl

end

theorem keepsSignal_startAttempts (n : Nat) : KeepsSignal (startAttempts n) := by
  induction n with
  | zero => exact fun _ _ => rfl
  | succ n ih =>
    intro b s
    by_cases hidle : s.cau = .idle
    · cases hc : candidate? s with
      | none => rw [startAttempts_none _ hc, startAttempts_none (s := s.withSignal b) _ hc]
      | some c =>
        have hfollow := keepsSignal_receiverFollow.comp (keepsSignal_setCau .sensing) b s
        cases hg : gateOpen s with
        | false =>
          rw [startAttempts_shut n hidle hc hg, startAttempts_shut (s := s.withSignal b) n hidle hc hg]
          exact ih.comp (keepsSignal_abandon c) b s
        | true =>
          have hquiet : channelQuiet (receiverFollow ((s.withSignal b).setCau .sensing)) =
              channelQuiet (receiverFollow (s.setCau .sensing)) := (congrArg channelQuiet hfollow).trans rfl
          rw [startAttempts_opens n hidle hc hg, startAttempts_opens (s := s.withSignal b) n hidle hc hg, hquiet]
          cases channelQuiet (receiverFollow (s.setCau .sensing)) with
          | false => exact hfollow
          | true =>
            exact (ih.comp (keepsSignal_contentionDraw c)).comp
              (keepsSignal_receiverFollow.comp (keepsSignal_setCau .sensing)) b s
    · rw [startAttempts_busy _ hidle, startAttempts_busy (s := s.withSignal b) _ hidle]

theorem keepsSignal_offerCandidate : KeepsSignal offerCandidate := by
  refine keepsSignal_receiverFollow.comp fun b s => ?_
  cases hact : active s with
  | false =>
    have h : startAttempt s = s := if_neg (by simp [hact])
    have h' : startAttempt (s.withSignal b) = s.withSignal b := if_neg (by simp [show active (s.withSignal b) = active s from rfl, hact])
    rw [h, h']
  | true =>
    rw [startAttempt_active hact, startAttempt_active (s := s.withSignal b) hact]
    exact keepsSignal_startAttempts _ b s

/-! ### The dispatch of a frame -/

theorem keepsSignal_relayDecision (f : Frame) (bytes : List Byte) (t : Tick) : KeepsSignal (State.relayDecision f bytes t) := by
  intro b s
  simp only [State.relayDecision, apply_ite (State.withSignal b)]
  rfl

theorem applyReport_withSignal (f : Frame) (t : Tick) (trip : Nat) (r : Int) (c : Bool) (bay : Option Nat) (notes : Option Notes) :
    KeepsSignal (State.applyReport f t trip r c bay notes) := by
  intro b s
  have hs : (s.withSignal b).cfg = s.cfg ∧ (s.withSignal b).table = s.table := ⟨rfl, rfl⟩
  unfold State.applyReport
  dsimp only
  rw [hs.1, hs.2]
  split
  · rfl
  · split
    · rfl
    · split
      · exact insertNew_withSignal b s _
      · split <;> rfl

theorem applyAmendment_withSignal (f : Frame) (t : Tick) (trip : Nat) (r : Option Int) (bay : Option Nat) (notes : Option Notes)
    (c : Option Bool) : KeepsSignal (State.applyAmendment f t trip r bay notes c) := by
  intro b s
  have hs : (s.withSignal b).cfg = s.cfg ∧ (s.withSignal b).table = s.table := ⟨rfl, rfl⟩
  unfold State.applyAmendment
  rw [hs.1, hs.2]
  split
  · rfl
  · split
    · rfl
    · split
      · rfl
      · split
        · rfl
        · split
          · rfl
          · split <;> rfl

/-- A consistent schedule bundle younger than 2400 ticks sets the wall reference (R83). -/
abbrev SetsWall (f : Frame) : Prop := f.kind = 3 ∧ f.age < 2400 ∧ readBody 3 f.body ≠ none

theorem keepsSignal_countMany (k : Counter) (m : Nat) : KeepsSignal (State.countMany k m) := by
  intro b s
  induction m generalizing s with
  | zero => rfl
  | succ m ih => exact ih (s.count k)

theorem kind_of_bundle {k : Nat} {l : List Byte} {tod : Nat} {items : List (Nat × Int)} (h : readBody k l = some (.bundle tod items)) :
    k = 3 := by
  unfold readBody at h
  split at h
  · exact absurd (readReport_fields h) (by simp)
  · exact absurd (readAmendment_fields h) (by simp)
  · rfl
  · split at h <;> simp at h
  · split at h <;> simp at h
  · simp at h

theorem setsWall_iff {f : Frame} : SetsWall f ↔ f.age < 2400 ∧
    ∃ (tod : Nat) (items : List (Nat × Int)), readBody f.kind f.body = some (.bundle tod items) := by
  constructor
  · rintro ⟨hk, hage, hb⟩
    obtain ⟨body, hbody⟩ := Option.ne_none_iff_exists'.1 hb
    exact ⟨hage, _, _, by rw [hk, hbody]; exact congrArg some (readBundle_fields hbody)⟩
  · rintro ⟨hage, tod, items, hb⟩
    have hk := kind_of_bundle hb
    exact ⟨hk, hage, by rw [← hk, hb]; simp⟩

theorem applyBundle_withSignal (f : Frame) (t : Tick) (tod : Nat) (items : List (Nat × Int)) (b : Bool) (s : State) :
    (s.withSignal b).applyBundle f t tod items = (s.applyBundle f t tod items).withSignal (b || decide (f.age < 2400)) := by
  by_cases h : f.age < 2400
  · have hset : (s.withSignal b).applyBundle f t tod items = s.applyBundle f t tod items := by
      have hwall : (s.withSignal b).setWall tod f t = s.setWall tod f t := rfl
      simp only [State.applyBundle, if_neg (Nat.not_le.2 h), hwall]
    rw [hset, applyBundle_early h, decide_eq_true h, Bool.or_true]
    rfl
  · have hcfg : (s.withSignal b).cfg = s.cfg := rfl
    rw [decide_eq_false h, Bool.or_false]
    simp only [State.applyBundle, if_pos (Nat.not_lt.1 h), hcfg]
    split
    · exact keepsSignal_countMany _ _ b s
    · rfl

/-- The application of a frame keeps the composer's signal, or sets it (R83). -/
theorem applyFrame_withSignal (f : Frame) (t : Tick) (b : Bool) (s : State) :
    (s.withSignal b).applyFrame f t = (s.applyFrame f t).withSignal (b || decide (SetsWall f)) := by
  have hother : (∀ tod items, readBody f.kind f.body ≠ some (.bundle tod items)) → decide (SetsWall f) = false :=
    fun h => decide_eq_false fun hs => by
      obtain ⟨-, tod, items, hb⟩ := setsWall_iff.1 hs
      exact h tod items hb
  cases hb : readBody f.kind f.body with
  | none =>
    rw [hother (by simp [hb]), Bool.or_false]
    simp only [State.applyFrame, hb]
  | some body =>
    cases body with
    | bundle tod items =>
      have hsets : decide (SetsWall f) = decide (f.age < 2400) :=
        decide_eq_decide.2 (setsWall_iff.trans (and_iff_left ⟨tod, items, hb⟩))
      simp only [State.applyFrame, hb, applyBundle_withSignal, hsets]
    | report trip r c bay notes =>
      rw [hother (by simp [hb]), Bool.or_false]
      simp only [State.applyFrame, hb]
      exact applyReport_withSignal f t trip r c bay notes b s
    | amendment trip r bay notes c =>
      rw [hother (by simp [hb]), Bool.or_false]
      simp only [State.applyFrame, hb]
      exact applyAmendment_withSignal f t trip r bay notes c b s
    | request key code arg =>
      rw [hother (by simp [hb]), Bool.or_false]
      simp only [State.applyFrame, hb]
    | reply =>
      rw [hother (by simp [hb]), Bool.or_false]
      simp only [State.applyFrame, hb]

/-- The dispatch of a frame keeps the composer's signal, or sets it. -/
theorem dispatchBuffer_withSignal {s : State} {id : BufId} {x : RxBuffer} (hx : bufferOf s id = some x) (b : Bool) :
    dispatchBuffer id (s.withSignal b) = (dispatchBuffer id s).withSignal (b || decide (SetsWall (readFrame x.bytes))) := by
  have hx' : bufferOf (s.withSignal b) id = some x := hx
  have hclock : (s.withSignal b).clock = s.clock := rfl
  simp only [dispatchBuffer, hx, hx', hclock, applyFrame_withSignal]
  rw [keepsSignal_relayDecision, keepsSignal_takeBuffer, keepsSignal_offerCandidate]

end Sys2Proof.Machine
end

section
/-! The dispatches at the release of the table lock (R23, R70): the model's list of buffers, and FRAME_DISPATCH made once for each. -/

namespace Sys2Proof.Machine

/-! ### What a dispatch leaves -/

/-- What the dispatch of a frame leaves where it was; of the composer it moves the two flags alone. -/
structure DispatchStep (s t : State) : Prop where
  clock : t.clock = s.clock
  cfg : t.cfg = s.cfg
  account : t.account = s.account
  ctl : t.ctl = s.ctl
  sweepWaiting : t.sweepWaiting = s.sweepWaiting
  lock : t.lock = s.lock
  composer : ∃ recompose signal : Bool, t.composer = { s.composer with recompose := recompose, wallSignal := signal }

theorem DispatchStep.refl (s : State) : DispatchStep s s := ⟨rfl, rfl, rfl, rfl, rfl, rfl, _, _, rfl⟩

theorem DispatchStep.trans {s t u : State} (a : DispatchStep s t) (b : DispatchStep t u) : DispatchStep s u := by
  obtain ⟨r, w, hcomposer⟩ := a.composer
  obtain ⟨r', w', hcomposer'⟩ := b.composer
  exact ⟨b.clock.trans a.clock, b.cfg.trans a.cfg, b.account.trans a.account, b.ctl.trans a.ctl,
    b.sweepWaiting.trans a.sweepWaiting, b.lock.trans a.lock, r', w', by rw [hcomposer', hcomposer]⟩

theorem AppliedTo.step {s t : State} (h : AppliedTo s t) : DispatchStep s t := by
  obtain ⟨table, recompose, counters, rfl⟩ := h
  exact ⟨rfl, rfl, rfl, rfl, rfl, rfl, recompose, _, rfl⟩

section
variable {s : State} (f : Frame) (t : Tick)

theorem appliedTo_applyTo (old e : DepEntry) : AppliedTo s (s.applyTo old e) :=
  (appliedTo_setTable _ s).trans (appliedTo_count _ _)

theorem appliedTo_applyReport (trip : Nat) (r : Int) (c : Bool) (bay : Option Nat) (notes : Option Notes) :
    AppliedTo s (s.applyReport f t trip r c bay notes) := by
  unfold State.applyReport
  dsimp only
  split
  · exact .refl s
  · split
    · exact appliedTo_count _ s
    · split
      · exact appliedTo_insertNew _ s
      · split
        · exact appliedTo_applyTo _ _
        · exact appliedTo_count _ s

theorem appliedTo_applyAmendment (trip : Nat) (r : Option Int) (bay : Option Nat) (notes : Option Notes) (c : Option Bool) :
    AppliedTo s (s.applyAmendment f t trip r bay notes c) := by
  unfold State.applyAmendment
  split
  · exact .refl s
  · split
    · exact appliedTo_count _ s
    · split
      · exact appliedTo_count _ s
      · split
        · exact appliedTo_count _ s
        · split
          · exact appliedTo_count _ s
          · split
            · exact appliedTo_count _ s
            · exact appliedTo_applyTo _ _

theorem appliedTo_countMany (k : Counter) (m : Nat) (s : State) : AppliedTo s (s.countMany k m) := by
  induction m generalizing s with
  | zero => exact .refl s
  | succ m ih => exact (appliedTo_count k s).trans (ih _)

theorem applyBundle_step (tod : Nat) (items : List (Nat × Int)) : DispatchStep s (s.applyBundle f t tod items) := by
  unfold State.applyBundle
  split
  · split
    · exact (appliedTo_countMany _ _ s).step
    · exact .refl s
  · have hwall : DispatchStep s (s.setWall tod f t) := ⟨rfl, rfl, rfl, rfl, rfl, rfl, _, true, rfl⟩
    dsimp only
    split
    · exact hwall.trans (appliedTo_applyItems f t items _).step
    · exact hwall

theorem applyFrame_step : DispatchStep s (s.applyFrame f t) := by
  unfold State.applyFrame
  split
  · exact (appliedTo_applyReport f t _ _ _ _ _).step
  · exact (appliedTo_applyAmendment f t _ _ _ _ _).step
  · exact applyBundle_step f t _ _
  all_goals exact .refl s

theorem relayDecision_dispatchStep (bytes : List Byte) : DispatchStep s (s.relayDecision f bytes t) := by
  unfold State.relayDecision
  dsimp only
  split
  · split
    · exact ⟨rfl, rfl, rfl, rfl, rfl, rfl, _, _, rfl⟩
    · split <;> exact ⟨rfl, rfl, rfl, rfl, rfl, rfl, _, _, rfl⟩
  · exact ⟨rfl, rfl, rfl, rfl, rfl, rfl, _, _, rfl⟩

end

theorem dispatchBuffer_step (id : BufId) (s : State) : DispatchStep s (dispatchBuffer id s) := by
  have htake : ∀ u : State, DispatchStep u (u.takeBuffer id) := fun u => by
    rw [takeBuffer_eq]
    exact ⟨rfl, rfl, rfl, rfl, rfl, rfl, _, _, rfl⟩
  have hoffer : ∀ u : State, DispatchStep u (offerCandidate u) := fun u =>
    have h := offerCandidate_step u
    ⟨h.clock, h.cfg, h.account, h.ctl, h.sweepWaiting, h.lock, _, _, h.composer⟩
  unfold dispatchBuffer
  split
  · exact (((applyFrame_step _ _).trans (relayDecision_dispatchStep _ _ _)).trans (htake _)).trans (hoffer _)
  · exact htake s

/-- A dispatched frame leaves its buffer; the other accepted frames stay in theirs (R17, R23). -/
theorem dispatchBuffer_rx (id : BufId) {s : State} (h : RxAgrees s.rx) : RxAgrees (dispatchBuffer id s).rx ∧
    (dispatchBuffer id s).rx.accepted = s.rx.accepted.filter (· ≠ id) ∧
    ∀ i ∈ s.rx.accepted, i ≠ id → bufferOf (dispatchBuffer id s) i = bufferOf s i := by
  obtain ⟨u, hrx, htaken⟩ : ∃ u : State, u.rx = s.rx ∧
      (dispatchBuffer id s = offerCandidate (u.takeBuffer id) ∨ dispatchBuffer id s = u.takeBuffer id) := by
    unfold dispatchBuffer
    split
    · exact ⟨_, (relayDecision_effect _ _ _ _).2.1.trans (applyFrame_tableStep _ _ s).rx, .inl rfl⟩
    · exact ⟨s, rfl, .inr rfl⟩
  obtain ⟨hacc, -, hothers⟩ := takeBuffer_rx id u
  have hagrees := takeBuffer_agrees id u (hrx ▸ h)
  rw [hrx] at hacc hothers
  rcases htaken with htaken | htaken
  · have hframes := (offerCandidate_step (u.takeBuffer id)).frames.rx
    refine ⟨htaken ▸ hframes.agrees hagrees, htaken ▸ hframes.accepted.trans hacc, fun i hi hne => ?_⟩
    have hmem : i ∈ (u.takeBuffer id).rx.accepted := by
      rw [hacc]
      exact List.mem_filter.2 ⟨hi, decide_eq_true hne⟩
    rw [bufferOf_eq, bufferOf_eq, htaken, hframes.held hagrees hmem, hothers i hne]
  · exact ⟨htaken ▸ hagrees, htaken ▸ hacc, fun i _ hne => by rw [bufferOf_eq, bufferOf_eq, htaken, hothers i hne]⟩

/-! ### The waiting frames -/

/-- The accepted departure frames, which wait for their dispatch (R23). -/
def waiting (s : State) : List BufId := s.rx.accepted.filter (holdsDeparture s)

theorem find_waiting (s : State) : s.rx.accepted.find? (holdsDeparture s) = (waiting s).head? := List.head?_filter.symm

theorem waiting_dispatched {s : State} {id : BufId} {rest : List BufId} (h : RxAgrees s.rx) (hw : waiting s = id :: rest) :
    waiting (dispatchBuffer id s) = rest := by
  obtain ⟨-, hacc, hbuf⟩ := dispatchBuffer_rx id h
  have hsame : waiting (dispatchBuffer id s) = (waiting s).filter (· ≠ id) := by
    rw [waiting, hacc, waiting, List.filter_filter, List.filter_filter]
    refine List.filter_congr fun i hi => ?_
    by_cases hne : i = id
    · simp [hne]
    · simp [hne, holdsDeparture, hbuf i hi hne]
  have hnot : id ∉ rest := (List.nodup_cons.1 (hw ▸ h.once.filter _ : (id :: rest).Nodup)).1
  have hself : rest.filter (· ≠ id) = rest :=
    List.filter_eq_self.2 fun i hi => decide_eq_true fun he : i = id => hnot (he ▸ hi)
  rw [hsame, hw, List.filter_cons_of_neg (by simp), hself]

theorem waiting_length {s : State} (h : RxAgrees s.rx) : (waiting s).length ≤ 2 := by
  have hbound : s.rx.accepted.length ≤ 2 :=
    (List.subperm_of_subset h.once (l₂ := [.a, .b]) (fun id _ => by cases id <;> simp)).length_le
  exact (List.length_filter_le ..).trans hbound

/-! ### FRAME_DISPATCH within a pass -/

section
variable {s : State}

/-- A composer in a pass takes the signal and starts none (R102). -/
theorem takeWallSignal_passing (h : s.composer.state = .passing) : takeWallSignal s = s.withSignal false := by
  cases hs : s.composer.wallSignal with
  | true => exact takeWallSignal_busy hs (ne_of_eq_of_ne h (by decide))
  | false => rw [takeWallSignal_none hs, ← hs, withSignal_self]

theorem dispatchFirst_none (h : waiting s = []) : dispatchFirst s = s := by
  have hfind : s.rx.accepted.find? (holdsDeparture s) = none := by rw [find_waiting, h]; rfl
  simp only [dispatchFirst, hfind, ite_self]

theorem dispatchFirst_waiting {id : BufId} {rest : List BufId} (hl : s.lock = .free) (hp : s.composer.state = .passing)
    (hw : waiting s = id :: rest) : dispatchFirst s = (dispatchBuffer id s).withSignal false := by
  have hfind : s.rx.accepted.find? (holdsDeparture s) = some id := by rw [find_waiting, hw]; rfl
  have hpassing : (dispatchBuffer id s).composer.state = .passing := by
    obtain ⟨r, w, hcomposer⟩ := (dispatchBuffer_step id s).composer
    rw [hcomposer, hp]
  simp only [dispatchFirst, hl, hfind, if_true, takeWallSignal_passing hpassing]

/-- FRAME_DISPATCH once for each waiting frame makes the dispatches of the release, but for the composer's signal. -/
theorem dispatchFirst_twice (hl : s.lock = .free) (hp : s.composer.state = .passing) (h : RxAgrees s.rx) :
    (dispatchFirst (dispatchFirst s)).withSignal false = (dispatchBuffers (waiting s) s).withSignal false := by
  match hw : waiting s with
  | [] => rw [dispatchFirst_none hw, dispatchFirst_none hw]; rfl
  | [id] =>
    have hnone : waiting ((dispatchBuffer id s).withSignal false) = [] := waiting_dispatched h hw
    rw [dispatchFirst_waiting hl hp hw, dispatchFirst_none hnone]
    rfl
  | [id, next] =>
    have hstep := dispatchBuffer_step id s
    have hnext : waiting ((dispatchBuffer id s).withSignal false) = [next] := waiting_dispatched h hw
    have hpassing : ((dispatchBuffer id s).withSignal false).composer.state = .passing := by
      obtain ⟨r, w, hcomposer⟩ := hstep.composer
      exact (congrArg Composer.state hcomposer).trans hp
    have hstands : bufferOf (dispatchBuffer id s) next ≠ none := by
      have hmem : next ∈ waiting (dispatchBuffer id s) := by
        rw [waiting_dispatched h hw]
        exact List.mem_singleton_self next
      rw [bufferOf_eq]
      exact (dispatchBuffer_rx id h).1.stands next (List.mem_filter.1 hmem).1
    obtain ⟨x, hx⟩ := Option.ne_none_iff_exists'.1 hstands
    rw [dispatchFirst_waiting hl hp hw,
      dispatchFirst_waiting (s := (dispatchBuffer id s).withSignal false) (hstep.lock.trans hl) hpassing hnext,
      dispatchBuffer_withSignal hx]
    rfl
  | id :: next :: third :: rest => exact absurd (hw ▸ waiting_length h) (by simp)

end

/-! ### The signal after the dispatches -/

/-- An accepted frame whose dispatch sets the wall reference (R83). -/
def setsWallIn (s : State) (id : BufId) : Bool := (bufferOf s id).any (fun x => SetsWall (readFrame x.bytes))

theorem dispatchBuffer_signal (s : State) (id : BufId) :
    (dispatchBuffer id s).composer.wallSignal = (s.composer.wallSignal || setsWallIn s id) := by
  cases hx : bufferOf s id with
  | none =>
    have htake : dispatchBuffer id s = s.takeBuffer id := by simp only [dispatchBuffer, hx]
    rw [htake, takeBuffer_eq, setsWallIn, hx, Option.any_none, Bool.or_false]
  | some x =>
    have hsignal := congrArg (fun u : State => u.composer.wallSignal) (dispatchBuffer_withSignal hx s.composer.wallSignal)
    rw [setsWallIn, hx, Option.any_some]
    exact hsignal

theorem dispatchBuffers_signal (l : List BufId) {s : State} (h : RxAgrees s.rx) (hw : waiting s = l) :
    (dispatchBuffers l s).composer.wallSignal = (s.composer.wallSignal || l.any (setsWallIn s)) := by
  induction l generalizing s with
  | nil => exact (Bool.or_false _).symm
  | cons id rest ih =>
    obtain ⟨hagrees, -, hbuf⟩ := dispatchBuffer_rx id h
    have hothers : rest.any (setsWallIn (dispatchBuffer id s)) = rest.any (setsWallIn s) := by
      have hnot : id ∉ rest := (List.nodup_cons.1 (hw ▸ h.once.filter _ : (id :: rest).Nodup)).1
      have hsame : ∀ i ∈ rest, setsWallIn (dispatchBuffer id s) i = setsWallIn s i := fun i hi => by
        have haccepted : i ∈ s.rx.accepted := (List.mem_filter.1 (hw ▸ List.mem_cons_of_mem id hi : i ∈ waiting s)).1
        rw [setsWallIn, setsWallIn, hbuf i haccepted fun he => hnot (he ▸ hi)]
      rw [Bool.eq_iff_iff, List.any_eq_true, List.any_eq_true]
      exact exists_congr fun i => and_congr_right fun hi => by rw [hsame i hi]
    rw [dispatchBuffers, ih hagrees (waiting_dispatched h hw), dispatchBuffer_signal, hothers, List.any_cons, Bool.or_assoc]

theorem dispatchBuffers_step (l : List BufId) (s : State) : DispatchStep s (dispatchBuffers l s) := by
  induction l generalizing s with
  | nil => exact .refl s
  | cons id rest ih => exact (dispatchBuffer_step id s).trans (ih _)

/-- Whether the release of the lock finds or makes the signal set (R83). -/
theorem waiting_signal_iff {s : State} : (waiting s).any (setsWallIn s) = true ↔
    ∃ id ∈ s.rx.accepted, ∃ x, bufferOf s id = some x ∧ SetsWall (readFrame x.bytes) := by
  have hdeparture : ∀ id, setsWallIn s id = true → holdsDeparture s id = true := by
    intro id h
    obtain ⟨x, hx, hsets⟩ := (Option.any_eq_true _ _).1 h
    have hkind := (of_decide_eq_true hsets).1
    exact (Option.any_eq_true _ _).2 ⟨x, hx, by rw [Frame.isDeparture, hkind]; rfl⟩
  simp only [List.any_eq_true, waiting, List.mem_filter]
  constructor
  · rintro ⟨id, ⟨hid, -⟩, h⟩
    obtain ⟨x, hx, hsets⟩ := (Option.any_eq_true _ _).1 h
    exact ⟨id, hid, x, hx, of_decide_eq_true hsets⟩
  · rintro ⟨id, hid, x, hx, hsets⟩
    have h : setsWallIn s id = true := (Option.any_eq_true _ _).2 ⟨x, hx, decide_eq_true hsets⟩
    exact ⟨id, ⟨hid, hdeparture id h⟩, h⟩

end Sys2Proof.Machine
end

section
/-! The completion of a pass (R103 to R108): what it writes, the release of the lock, and how the composer settles. -/

namespace Sys2Proof.Machine

/-! ### What a completed pass writes -/

/-- The desired record that a pass writes to a row (R95, R96, R105). -/
def passDesired (p : Pass) (s : State) (r : Nat) (row : Row) : RowRecord :=
  if r < s.cfg.n then desiredOf s.cfg p.stage (candidateContent s p r) row.shown else .banner (bannerOf s)

/-- The state at the release of the lock: desired records, requests and shown-row fields written (R105 to R107, R115). -/
def State.passWritten (p : Pass) (s : State) : State :=
  { s with
    rows := s.rows.mapIdx (fun r row => { row with
      desired := passDesired p s r row, pending := row.pending || decide (row.shown ≠ some (passDesired p s r row)) })
    table := s.table.map (fun e => { e with shownRow := shownRowOf s.cfg.n s.rows e.key })
    ctl := { s.ctl with
      clearItem := if p.clear = true ∧ s.account.stage ≠ .frozen then some (s.ctl.clearItem.getD .ordinary) else s.ctl.clearItem }
    lock := .free }

theorem handClear_eq (p : Pass) (s : State) : handClear p s = s.setClearItem
    (if p.clear = true ∧ s.account.stage ≠ .frozen then some (s.ctl.clearItem.getD .ordinary) else s.ctl.clearItem) := by
  cases hc : p.clear with
  | false => simp [handClear, hc, State.setClearItem]
  | true =>
    by_cases hs : s.account.stage = .frozen
    · simp [handClear, hc, hs, requestClear_ordinary_frozen, State.setClearItem]
    · simp [handClear, hc, hs, requestClear_ordinary_recorded]

theorem passWritten_eq (p : Pass) (s : State) :
    { updateShownRows (handClear p (raiseDiffering (writeDesired p s))) with lock := .free } = s.passWritten p := by
  have hrows : (raiseDiffering (writeDesired p s)).rows = (s.passWritten p).rows := by
    have hmap : (raiseDiffering (writeDesired p s)).rows =
        (writeDesired p s).rows.map (fun row => { row with pending := row.pending || row.differs }) := rfl
    rw [hmap, ← mapIdx_eq_map]
    exact List.mapIdx_mapIdx
  have hshown : (s.passWritten p).rows.map (·.shown) = s.rows.map (·.shown) := by
    refine List.ext_getElem (by simp [State.passWritten]) fun i hi hi' => ?_
    simp [State.passWritten]
  have htable : s.table.map (fun e => { e with shownRow := shownRowOf s.cfg.n (s.passWritten p).rows e.key }) =
      (s.passWritten p).table := shownOn_congr hshown s.cfg.n s.table
  rw [handClear_eq]
  have hunfold : { updateShownRows ((raiseDiffering (writeDesired p s)).setClearItem
      (if p.clear = true ∧ s.account.stage ≠ .frozen then some (s.ctl.clearItem.getD .ordinary) else s.ctl.clearItem)) with
        lock := .free } = { s.passWritten p with
      rows := (raiseDiffering (writeDesired p s)).rows
      table := s.table.map (fun e => { e with
        shownRow := shownRowOf s.cfg.n (raiseDiffering (writeDesired p s)).rows e.key }) } := rfl
  rw [hrows, htable] at hunfold
  exact hunfold

/-! ### The release of the lock -/

/-- The release of the lock: the waiting dispatches and then the waiting sweep (R69, R70). -/
def State.unlockedWork (s : State) : State := (dispatchBuffers (waiting s) s).sweepDue

theorem completePass_eq (p : Pass) (s : State) :
    completePass p s = select (settleComposer (debit ctlStage 2 (s.passWritten p).unlockedWork)) := by
  rw [← passWritten_eq]
  rfl

theorem keepsSignal_sweepDue : KeepsSignal State.sweepDue := by
  intro b s
  simp only [State.sweepDue, apply_ite (State.withSignal b)]
  rfl

section
variable {s : State}

theorem sweepDue_eq (s : State) : s.sweepDue = { s with
    table := s.sweepDue.table
    sweepWaiting := false
    composer := { s.composer with recompose := s.sweepDue.composer.recompose } } := by
  cases h : s.sweepWaiting with
  | true => simp only [State.sweepDue, h, if_true]; rfl
  | false => simp only [State.sweepDue, h, Bool.false_eq_true, if_false]; rw [← h]

theorem sweepDue_cases {now : Tick} {n : Nat} {waits : Bool} (hc : s.clock = now) (hn : s.cfg.n = n) (hw : s.sweepWaiting = waits) :
    s.sweepDue = if waits = false then s else { s with
      table := sweptTable now s.table
      sweepWaiting := false
      composer := { s.composer with
        recompose := s.composer.recompose || decide (noticeView n (sweptTable now s.table) ≠ noticeView n s.table) } } := by
  subst hc hn hw
  cases h : s.sweepWaiting with
  | true => simp only [State.sweepDue, h, if_true]; rfl
  | false => simp only [State.sweepDue, h, Bool.false_eq_true, if_false, if_true]

/-- What the release of the lock leaves; the composer's signal is that of a reference set before or by a waiting bundle (R83). -/
theorem unlockedWork_composer (h : RxAgrees s.rx) : ∃ r : Bool, s.unlockedWork.composer = { s.composer with
    recompose := r, wallSignal := s.composer.wallSignal || (waiting s).any (setsWallIn s) } := by
  obtain ⟨r, w, hcomposer⟩ := (dispatchBuffers_step (waiting s) s).composer
  have hsignal := dispatchBuffers_signal (waiting s) h rfl
  rw [hcomposer] at hsignal
  rw [State.unlockedWork, sweepDue_eq, hcomposer, ← hsignal]
  exact ⟨_, rfl⟩

theorem unlockedWork_clock (s : State) : s.unlockedWork.clock = s.clock := by
  rw [State.unlockedWork, sweepDue_eq]
  exact (dispatchBuffers_step (waiting s) s).clock

theorem unlockedWork_cfg (s : State) : s.unlockedWork.cfg = s.cfg := by
  rw [State.unlockedWork, sweepDue_eq]
  exact (dispatchBuffers_step (waiting s) s).cfg

theorem unlockedWork_account (s : State) : s.unlockedWork.account = s.account := by
  rw [State.unlockedWork, sweepDue_eq]
  exact (dispatchBuffers_step (waiting s) s).account

theorem unlockedWork_ctl (s : State) : s.unlockedWork.ctl = s.ctl := by
  rw [State.unlockedWork, sweepDue_eq]
  exact (dispatchBuffers_step (waiting s) s).ctl

theorem unlockedWork_sweepWaiting (s : State) : s.unlockedWork.sweepWaiting = false := by
  rw [State.unlockedWork, sweepDue_eq]

/-- FRAME_DISPATCH twice and the sweep that is due make the release, but for the composer's signal. -/
theorem unlockedWork_twice (hl : s.lock = .free) (hp : s.composer.state = .passing) (h : RxAgrees s.rx) :
    (dispatchFirst (dispatchFirst s)).sweepDue.withSignal false = s.unlockedWork.withSignal false := by
  rw [← keepsSignal_sweepDue, dispatchFirst_twice hl hp h, keepsSignal_sweepDue]
  rfl

end

/-! ### How the composer settles -/

section
variable {s : State}

theorem settleComposer_frozen {cfg : Cfg} (hcfg : s.cfg = cfg) (h : s.account.stage = .frozen) : settleComposer s = { s with
    rows := s.rows.mapIdx (fun r row => { row with desired := freezeContent cfg.n r })
    composer := { s.composer with state := .suspended, pass := none, wallSignal := false } } := by
  subst hcfg
  exact if_pos h

theorem settleComposer_called {tick : BitVec 32} {cfg : Cfg} {stage : Stage} {clear : Bool} (htick : s.clock = tick)
    (hcfg : s.cfg = cfg) (hstage : s.account.stage = stage) (hclear : s.composer.clearArmed = clear) (h : stage ≠ .frozen)
    (hc : s.composer.passDue = true ∨ s.composer.wallSignal = true) (hs : s.sweepWaiting = false) :
    settleComposer s = { s with
      lock := .held
      composer := ⟨.passing, false, some (tick + BitVec.ofNat 32 (periodTicks cfg stage)), false,
        some ⟨tick, stage, s.wall, clear⟩, false, false⟩ } := by
  subst htick hcfg hstage hclear
  have hcalled : (s.composer.passDue || s.composer.wallSignal) = true := Bool.or_eq_true_iff.2 hc
  have hswept : s.sweepDue = s := if_neg (by simp [hs])
  rw [settleComposer, if_neg h, if_pos hcalled, startPass, hswept]
  rfl

theorem settleComposer_idle (h : s.account.stage ≠ .frozen) (hd : s.composer.passDue = false) (hw : s.composer.wallSignal = false) :
    settleComposer s = { s with composer := { s.composer with state := .idle, pass := none } } := by
  rw [settleComposer, if_neg h, hd, hw]
  rfl

end

theorem exec_passCompletion {s : State} {p : Pass} (ha : active s = true) (hs : s.composer.state = .passing)
    (hp : s.composer.pass = some p) : exec .passCompletion s = .next (completePass p s) := by
  have hexec : execPassCompletion s = .next (completePass p s) := by simp only [execPassCompletion, ha, hs, hp, and_self, if_true]
  exact hexec

/-- Settles O51: the writes by `passWritten_eq`, the release by `unlockedWork_twice`, and the composer's end by the stage and what
calls for a pass. -/
theorem passCompletionWritesRecordsAndFreesTheLock : Obligations.PassCompletionWritesRecordsAndFreesTheLock := by
  intro s p ha hpassing hp hbuf hr stage desired freed dispatched u swept w e settled timed called hcross
  have hrx : RxAgrees freed.rx := (buffersInRange_iff s).1 hbuf
  have hfreed : s.passWritten p = freed := rfl
  have hstep := dispatchBuffers_step (waiting freed) freed
  have htwice : u.withSignal false = (dispatchBuffers (waiting freed) freed).withSignal false := dispatchFirst_twice rfl hpassing hrx
  have hclock : u.clock = s.clock := (congrArg State.clock htwice).trans hstep.clock
  have hcfg : u.cfg = s.cfg := (congrArg State.cfg htwice).trans hstep.cfg
  have hwaits : u.sweepWaiting = s.sweepWaiting := (congrArg State.sweepWaiting htwice).trans hstep.sweepWaiting
  have hsweep : w = u.sweepDue := (sweepDue_cases hclock (congrArg Cfg.n hcfg) hwaits).symm
  have hw : w.withSignal false = freed.unlockedWork.withSignal false := by
    rw [hsweep]
    exact unlockedWork_twice rfl hpassing hrx
  let x : State := withE freed.unlockedWork e
  have hx : x.withSignal false = (withE w e).withSignal false := congrArg (fun v => withE v e) hw.symm
  have hacc : freed.unlockedWork.account = s.account := unlockedWork_account freed
  have hdebit : debit ctlStage 2 freed.unlockedWork = x := by
    have hquiet : crossesNothing freed.unlockedWork e = true := (congrArg (fun v => crossesNothing v e) hw).symm.trans hcross
    have he : freed.unlockedWork.account.e - 2 = e := by rw [hacc]
    rw [debit_quiet ctlStage 2 freed.unlockedWork (by rw [hacc]; exact hr) (by rw [he]; exact hquiet), he]
  have hexec : ∀ v : State, settleComposer x = v → v.ctl = x.ctl → exec .passCompletion s = .next (settled v) := by
    intro v hv hctl
    have hsame : v.ctl.state = s.ctl.state := (congrArg Controller.state (hctl.trans (unlockedWork_ctl freed)) :)
    have hselect : select v = settled v := by
      by_cases ho : s.ctl.state = .opened
      · exact (if_pos ho).symm
      · exact (select_notOpen v (by rw [hsame]; exact ho)).trans (if_neg ho).symm
    rw [exec_passCompletion ha hpassing hp, completePass_eq, hfreed, ← hselect, ← hv, ← hdebit]
  have hstage : x.account.stage = s.account.stage := (congrArg Account.stage hacc :)
  have hswept : x.sweepWaiting = false := unlockedWork_sweepWaiting freed
  obtain ⟨r, hcomposer⟩ := unlockedWork_composer hrx
  have hsignal : x.composer.wallSignal = true ↔ s.composer.wallSignal = true ∨ ∃ id ∈ s.rx.accepted, timed id := by
    have hbool : x.composer.wallSignal = (freed.composer.wallSignal || (waiting freed).any (setsWallIn freed)) :=
      congrArg Composer.wallSignal hcomposer
    rw [hbool, Bool.or_eq_true, waiting_signal_iff]
    rfl
  have hdue : x.composer.passDue = s.composer.passDue := (congrArg Composer.passDue hcomposer :)
  have hclear : x.composer.clearArmed = s.composer.clearArmed := (congrArg Composer.clearArmed hcomposer :)
  have hclockx : x.clock = s.clock := unlockedWork_clock freed
  have hcfgx : x.cfg = s.cfg := unlockedWork_cfg freed
  have hctl : (withE w e).ctl = x.ctl := (congrArg State.ctl hx.symm :)
  refine ⟨fun hnone => ?none, fun hs hc => hexec _ ?idle hctl, fun hs hc => hexec _ ?called hctl, fun hs => hexec _ ?frozen hctl⟩
  case none =>
    have hempty : waiting freed = [] := by rw [waiting, show freed.rx.accepted = [] from hnone]; rfl
    exact (congrArg dispatchFirst (dispatchFirst_none hempty)).trans (dispatchFirst_none hempty)
  case idle =>
    have hquiet : x.composer.passDue = false ∧ x.composer.wallSignal = false :=
      ⟨hdue.trans (Bool.eq_false_iff.2 fun h => hc (.inl h)), Bool.eq_false_iff.2 fun h => hc (.inr (hsignal.1 h))⟩
    have hx' : x = (withE w e).withSignal false := by rw [← hx, ← hquiet.2, withSignal_self]
    rw [settleComposer_idle (by rw [hstage]; exact hs) hquiet.1 hquiet.2]
    exact congrArg (fun y : State => { y with composer := { y.composer with state := .idle, pass := none } }) hx'
  case called =>
    have hcall : x.composer.passDue = true ∨ x.composer.wallSignal = true := by
      rw [hdue, hsignal]
      exact hc
    exact (settleComposer_called hclockx hcfgx hstage hclear hs hcall hswept).trans <| congrArg (fun y : State => { y with
      lock := .held
      composer := ⟨.passing, false, some (s.clock + BitVec.ofNat 32 (periodTicks s.cfg stage)), false,
        some ⟨s.clock, stage, y.wall, s.composer.clearArmed⟩, false, false⟩ }) hx
  case frozen =>
    exact (settleComposer_frozen hcfgx (hstage.trans hs)).trans <| congrArg (fun y : State => { y with
      rows := y.rows.mapIdx (fun r (row : Row) => { row with desired := freezeContent s.cfg.n r })
      composer := { y.composer with state := .suspended, pass := none, wallSignal := false } }) hx

end Sys2Proof.Machine
end
